-- ==== Sys2Proof/Word.lean ====
section
/-! DEFINITION. The word types of the JRX block (spec/00_scope.md section 5: `u8`, `u16`, `u32`; spec/30_encoding.md
R98: the `u64` time of an event record). -/

namespace Sys2Proof

/-- `u8`: one byte of a frame, a packet or a UID. -/
abbrev Byte := BitVec 8

/-- `u16`: tokens, break and mark times, receiver counters, checksums. -/
abbrev U16 := BitVec 16

/-- `u32`: coarse ticks and the four parameter registers counted in TU. -/
abbrev U32 := BitVec 32

/-- `u64`: the time carried by an event record (R98). -/
abbrev U64 := BitVec 64

end Sys2Proof
end

