-- ==== Sys2Proof/Config.lean ====
section
/-! DEFINITION. What an implementation fixes: the timing constants of spec/00_scope.md R2, the parameters of R3, the
numeric values of the published RDM standard that the spec lists (R85), and the free values of R257 and R296.
An OPEN parameter of R3 is an opaque constant with the constraint R3 gives; the RESET_* parameters, which are
reset values of registers, stand in `Machine/State.lean`. -/

namespace Sys2Proof.Config

/-! ### Time unit (R4) -/

/-- R4: `us(n) = 10·n`, microseconds to TU (0.1 µs). -/
def us (n : Nat) : Nat := 10 * n

/-- R4: `ms(x) = 10 000·x`, milliseconds to TU. -/
def ms (x : Nat) : Nat := 10000 * x

/-! ### Timing constants, in TU (R2) -/

/-- MIN_TX_BREAK, 44 µs (R2). -/
def minTxBreak : Nat := 440
/-- MAX_TX_BREAK, 800 µs (R2). -/
def maxTxBreak : Nat := 8000
/-- MIN_TX_MARK, 4 µs (R2). -/
def minTxMark : Nat := 40
/-- MAX_TX_MARK, 800 µs (R2). -/
def maxTxMark : Nat := 8000
/-- CTRL_RX_BREAK_MIN, 88.0 µs (R2). -/
def ctrlRxBreakMin : Nat := 880
/-- CTRL_RX_BREAK_MAX, 352.0 µs (R2). -/
def ctrlRxBreakMax : Nat := 3520
/-- CTRL_RX_MARK_MAX, 88.0 µs (R2). -/
def ctrlRxMarkMax : Nat := 880
/-- CTRL_BREAK_TO_BREAK_MIN, 1.3 ms (R2). -/
def ctrlBreakToBreakMin : Nat := 13000
/-- CTRL_DUB_BACKOFF, 5.8 ms (R2). -/
def ctrlDubBackoff : Nat := 58000
/-- CTRL_BROADCAST_BACKOFF, 0.2 ms (R2). -/
def ctrlBroadcastBackoff : Nat := 2000
/-- CTRL_MISSING_RESPONSE_BACKOFF, 3.0 ms (R2). -/
def ctrlMissingResponseBackoff : Nat := 30000
/-- CTRL_NON_RDM_BACKOFF, 0.2 ms (R2). -/
def ctrlNonRdmBackoff : Nat := 2000
/-- RESP_RX_BREAK_MIN, 88.0 µs (R2). -/
def respRxBreakMin : Nat := 880
/-- RESP_RX_BREAK_MAX, 1000 ms (R2). -/
def respRxBreakMax : Nat := 10000000
/-- RESP_DELAY_MIN, 176.0 µs (R2; spec/90_conflicts.md C1). -/
def respDelayMin : Nat := 1760
/-- RESP_DELAY_MAX, 2.0 ms (R2). -/
def respDelayMax : Nat := 20000
/-- RESP_RDM_INTERSLOT_TIMEOUT, 2.1 ms (R2). -/
def respRdmInterslotTimeout : Nat := 21000
/-- RESP_DMX_INTERSLOT_TIMEOUT, 1.0 s (R2). -/
def respDmxInterslotTimeout : Nat := 10000000

/-! ### Parameters fixed by a decision of the spec (R3) -/

/-- SLOT_TIME, 11 bits at 250 kbit/s (R3, D37). -/
def slotTime : Nat := 440
/-- COARSE_TICK, the period of the coarse tick in TU (R3, R120, D47). -/
def coarseTick : Nat := 100000

/-- The coarse ticks that cover `n` TU (R262). -/
def ticksFor (n : Nat) : Nat := (n + coarseTick - 1) / coarseTick
/-- FRAME_BUF_SIZE (R3, D7; spec/90_conflicts.md C7). -/
def frameBufSize : Nat := 513
/-- TX_SLOTS_MAX, the largest `len` of an enqueue (R3, D8). -/
def txSlotsMax : Nat := 512
/-- CTRL_INTERSLOT_TIMEOUT (R3, D17). -/
def ctrlInterslotTimeout : Nat := 21000
/-- DUB_RESPONSE_LENGTH (R3, R86). -/
def dubResponseLength : Nat := 24
/-- RDM_HEADER_SIZE (R3, R82). -/
def rdmHeaderSize : Nat := 24
/-- The length of the shortest valid RDM frame: header and two checksum bytes (R134 corner case (b)). -/
def minRdmFrame : Nat := 26
/-- The largest parameter data length of an RDM frame (R83: `24 + PDL ≤ 255`). -/
def maxPdl : Nat := 231

/-! ### OPEN parameters (R3): opaque constants, nothing in Lean can evaluate one -/

/-- How many entries the TX queue holds beyond the one R3 requires (OPEN, R3, D8). -/
opaque txQueueSlack : Nat

/-- TX_QUEUE_DEPTH, at least 1 (R3, D8). -/
def txQueueDepth : Nat := txQueueSlack + 1

/-- How much deeper than `TX_QUEUE_DEPTH + 2` the completion queue is; `none` is the unbounded queue R3 admits
(OPEN, R3, D31). -/
opaque completionSlack : Option Nat

/-- COMPLETION_DEPTH: `none` unbounded, else at least `TX_QUEUE_DEPTH + 2` (R3, D31). -/
def completionDepth : Option Nat := completionSlack.map (fun k => k + txQueueDepth + 2)

/-- Whether `n` undelivered completion events are within COMPLETION_DEPTH (R29, R380). -/
def completionsFit (n : Nat) : Bool :=
  match completionDepth with
  | none => true
  | some d => decide (n ≤ d)

/-- How many bytes the UART transmit FIFO holds beyond the one R3 requires (OPEN, R3, D37). -/
opaque uartTxFifoSlack : Nat

/-- UART_TX_FIFO_DEPTH, at least 1 (R3, D37). -/
def uartTxFifoDepth : Nat := uartTxFifoSlack + 1

/-- RESP_GUARDBAND, TU (OPEN, R3, D28). -/
opaque respGuardband : Nat

/-- RESET_RDM_RESPONSE_TIMEOUT, TU (OPEN, R3). DESIGN CHOICE (log entry 3): the value the spec suggests. -/
def resetRdmResponseTimeout : Nat := 28000

/-- RESET_DUB_RESPONSE_LIMIT, TU (OPEN, R3). DESIGN CHOICE (log entry 3): the value the spec suggests. -/
def resetDubResponseLimit : Nat := 29000

/-- The least OP_DEADLINE_TICKS that R3 admits under timeouts of `n` TU together (R262): 4 ticks and the timeouts, in whole
ticks. -/
def deadlineFloor (n : Nat) : Nat := 4 + ticksFor n

/-- R3 "large enough for the longest operation", R262: the floor under the power-on timeouts, those of the two windows of a
DUB operation (R250, R251), whose response timeout is also that of a request (log entry 5). It is 5. -/
def opDeadlineMin : Nat := deadlineFloor (resetRdmResponseTimeout + resetDubResponseLimit)

/-- Where the deadline of a controller operation lies (OPEN, R3, D34). -/
opaque opDeadlineSeed : Nat

/-- OP_DEADLINE_TICKS (OPEN, R3, D34): a duration in coarse ticks, compared by `has_elapsed` (R262): any u32 from the floor
up. At 0xFFFFFFFF no deadline ever passes (R124). -/
def opDeadlineTicks : U32 := BitVec.ofNat 32 (opDeadlineMin + opDeadlineSeed % (2 ^ 32 - opDeadlineMin))

/-! ### Free values: one fresh value per draw, numbered by the draws counter of State -/

/-- SELF_TEST_RESULT of the n-th draw (R183, R257, U9): true is OK, false is SELF_TEST_FAILED. -/
opaque selfTestPasses : Nat → Bool

/-- The value behind the n-th jitter draw (R296, U10), brought into `0 .. responder_jitter` by `jitterOf`. -/
opaque jitterDraw : Nat → Nat

/-- R296: the value drawn from `{0 .. jitter}` (inclusive) for a reply. -/
def jitterOf (draw jitter : Nat) : Nat := jitterDraw draw % (jitter + 1)

/-! ### Numeric values of the wire formats -/

/-- Start code of a DMX frame (R81, R89). -/
def scDmx : Byte := 0x00#8
/-- Start code of an RDM frame (R82, R89). -/
def scRdm : Byte := 0xCC#8
/-- Sub-start code of an RDM frame (R82). -/
def ssc : Byte := 0x01#8
/-- DISCOVERY_COMMAND; the one class value the source shows (R85). -/
def ccDisc : Byte := 0x10#8
/-- DISCOVERY_COMMAND_RESPONSE. PRESUMED: the spec marks the number as general knowledge (R85, G3). -/
def ccDiscResponse : Byte := 0x11#8
/-- GET_COMMAND. PRESUMED, as above (R85, G3). -/
def ccGet : Byte := 0x20#8
/-- GET_COMMAND_RESPONSE. PRESUMED, as above (R85, G3). -/
def ccGetResponse : Byte := 0x21#8
/-- SET_COMMAND. PRESUMED, as above (R85, G3). -/
def ccSet : Byte := 0x30#8
/-- SET_COMMAND_RESPONSE. PRESUMED, as above (R85, G3). -/
def ccSetResponse : Byte := 0x31#8
/-- Response type ACK. PRESUMED, as above (R85, G3). -/
def rtAck : Byte := 0x00#8
/-- Response type ACK_TIMER. PRESUMED, as above (R85, G3). -/
def rtAckTimer : Byte := 0x01#8
/-- Response type NACK_REASON. PRESUMED, as above (R85, G3). -/
def rtNackReason : Byte := 0x02#8
/-- Response type ACK_OVERFLOW. PRESUMED, as above (R85, G3). -/
def rtAckOverflow : Byte := 0x03#8
/-- Preamble byte of a DUB response (R86). -/
def dubPreamble : Byte := 0xFE#8
/-- Delimiter of a DUB response (R86). -/
def dubDelimiter : Byte := 0xAA#8

end Sys2Proof.Config
end

