-- ==== Sys2Proof/Syntax.lean ====
section
/-! DEFINITION. The operations and events of the JRX block: one constructor of `Instr` per row of
spec/opcode_table.json (spec/30_encoding.md R96), with the operands of R95, R97 and R98. -/

namespace Sys2Proof

/-- R21: the operating mode, codes 0 and 1. -/
inductive Mode where
  | controller
  | responder
deriving DecidableEq, Repr

/-- R98, R211: the kind byte of an `Err` event, codes 0 to 2. -/
inductive UartErr where
  | framing
  | parity
  | overrun
deriving DecidableEq, Repr

/-- R88: a UID, six bytes, the manufacturer id (two bytes) first, then the device id. -/
structure Uid where
  b0 : Byte
  b1 : Byte
  b2 : Byte
  b3 : Byte
  b4 : Byte
  b5 : Byte
deriving DecidableEq, Repr

/-- The bytes of a UID in the order they stand on the wire (R50, R88). -/
def Uid.bytes (u : Uid) : List Byte := [u.b0, u.b1, u.b2, u.b3, u.b4, u.b5]

/-- R96: one constructor per row of the opcode map. A `bytes, len` operand is the list of its bytes. -/
inductive Instr where
  /-- 0x01 (R161) -/
  | setMode (mode : Mode) (hasToken : Bool) (token : U16)
  /-- 0x02 (R176) -/
  | reset
  /-- 0x03 (R179) -/
  | queueDmx (token : U16) (bytes : List Byte)
  /-- 0x04 (R180) -/
  | queueAsc (token : U16) (startCode : Byte) (bytes : List Byte)
  /-- 0x05 (R181) -/
  | queueRdmDub (token : U16) (bytes : List Byte)
  /-- 0x06 (R182) -/
  | queueRdmRequest (token : U16) (isBroadcast : Bool) (bytes : List Byte)
  /-- 0x07 (R183) -/
  | queueSelfTest (token : U16)
  /-- 0x10 (R163) -/
  | setBreakTime (t : U16)
  /-- 0x11 (R164) -/
  | getBreakTime
  /-- 0x12 (R165) -/
  | setMarkTime (t : U16)
  /-- 0x13 (R166) -/
  | getMarkTime
  /-- 0x14 (R167) -/
  | setRdmResponseTimeout (t : U32)
  /-- 0x15 (R168) -/
  | getRdmResponseTimeout
  /-- 0x16 (R169) -/
  | setResponderDelay (d : U32)
  /-- 0x17 (R170) -/
  | getResponderDelay
  /-- 0x18 (R171) -/
  | setResponderJitter (j : U32)
  /-- 0x19 (R172) -/
  | getResponderJitter
  /-- 0x1A (R173) -/
  | setDubResponseLimit (l : U32)
  /-- 0x1B (R174) -/
  | getDubResponseLimit
  /-- 0x20 (R121) -/
  | now
  /-- 0x21 (R122) -/
  | elapsed (start : U32)
  /-- 0x22 (R123) -/
  | delta (start stop : U32)
  /-- 0x23 (R124) -/
  | hasElapsed (start duration : U32)
  /-- 0x24 (R125) -/
  | setCounter (n : U32)
  /-- 0x28 (R363) -/
  | readCounter (index : Byte)
  /-- 0x29 (R362) -/
  | resetCommsStatus
  /-- 0x2A (R360), internal -/
  | incrementCounter (index : Byte)
  /-- 0x40 (R131) -/
  | pushU16 (off v : U16)
  /-- 0x41 (R132) -/
  | pushU32 (off : U16) (v : U32)
  /-- 0x42 (R130) -/
  | checksum16 (off n : U16)
  /-- 0x43 (R133) -/
  | appendChecksum
  /-- 0x44 (R134) -/
  | validate (len : U16)
  /-- 0x45 (R136) -/
  | buildReplyHeader (ownUid : Uid) (rtype msgCount pdl : Byte)
  /-- 0x46 (R138) -/
  | dubEncode (uid : Uid)
  /-- 0x47 (R139) -/
  | dubRespond (ownUid : Uid) (isMuted : Bool)
  /-- 0x48 (R140) -/
  | uidCompare (a b : Uid)
  /-- 0x50 (R293), `n` two's complement -/
  | handlerReturn (n : U16)
  /-- 0x80 (R384) -/
  | tasks
  /-- 0x81 (R120) -/
  | coarseTick
  /-- 0x82 (R214) -/
  | timerMatch
  /-- 0x83 (R211) -/
  | fall (t : U64)
  /-- 0x84 (R211) -/
  | rise (t : U64)
  /-- 0x85 (R211) -/
  | byte (t : U64) (b : Byte)
  /-- 0x86 (R211) -/
  | err (t : U64) (kind : UartErr)
  /-- 0x87 (R209) -/
  | txFifoSpace
  /-- 0x88 (R208) -/
  | txShiftEmpty
deriving DecidableEq, Repr

end Sys2Proof
end

