-- ==== Sys2Proof/WellFormed.lean ====
section
/-! DEFINITION. The legal sets of the operands (spec/30_encoding.md R100). A mode, a bool and an error kind outside
its set has no term of `Instr`; the checks here are those a term can fail. -/

namespace Sys2Proof

/-- Why a term is ill formed: the operand of R100 that lies outside its legal set. -/
inductive Ill where
  /-- `len > 512` (R100, R178). -/
  | lenTooLong
  /-- a counter `index > 7` (R100, R363). -/
  | counterIndex
  /-- `rtype` not one of the four response types of R85 (R136; log entry 21). -/
  | replyType
  /-- `pdl > 231` (R136, spec/93_implementation_defined.md U5). -/
  | pdlTooLong
deriving DecidableEq, Repr

/-- A byte string operand has at most 512 bytes (R100). -/
def checkLen (bytes : List Byte) : Option Ill :=
  if bytes.length ≤ Config.txSlotsMax then none else some .lenTooLong

/-- A counter index is 0 to 7 (R100). -/
def checkIndex (index : Byte) : Option Ill :=
  if index.toNat ≤ 7 then none else some .counterIndex

/-- The operands of `build_reply_header` (R136). -/
def checkReplyHeader (rtype pdl : Byte) : Option Ill :=
  if rtype.toNat ≤ 3 then (if pdl.toNat ≤ Config.maxPdl then none else some .pdlTooLong) else some .replyType

/-- The first operand of `i` outside its legal set, if there is one (R100). -/
def Instr.ill : Instr → Option Ill
  | .setMode _ _ _ => none
  | .reset => none
  | .queueDmx _ bytes => checkLen bytes
  | .queueAsc _ _ bytes => checkLen bytes
  | .queueRdmDub _ bytes => checkLen bytes
  | .queueRdmRequest _ _ bytes => checkLen bytes
  | .queueSelfTest _ => none
  | .setBreakTime _ => none
  | .getBreakTime => none
  | .setMarkTime _ => none
  | .getMarkTime => none
  | .setRdmResponseTimeout _ => none
  | .getRdmResponseTimeout => none
  | .setResponderDelay _ => none
  | .getResponderDelay => none
  | .setResponderJitter _ => none
  | .getResponderJitter => none
  | .setDubResponseLimit _ => none
  | .getDubResponseLimit => none
  | .now => none
  | .elapsed _ => none
  | .delta _ _ => none
  | .hasElapsed _ _ => none
  | .setCounter _ => none
  | .readCounter index => checkIndex index
  | .resetCommsStatus => none
  | .incrementCounter index => checkIndex index
  | .pushU16 _ _ => none
  | .pushU32 _ _ => none
  | .checksum16 _ _ => none
  | .appendChecksum => none
  | .validate _ => none
  | .buildReplyHeader _ rtype _ pdl => checkReplyHeader rtype pdl
  | .dubEncode _ => none
  | .dubRespond _ _ => none
  | .uidCompare _ _ => none
  | .handlerReturn _ => none
  | .tasks => none
  | .coarseTick => none
  | .timerMatch => none
  | .fall _ => none
  | .rise _ => none
  | .byte _ _ => none
  | .err _ _ => none
  | .txFifoSpace => none
  | .txShiftEmpty => none

/-- `i` is well formed: every operand lies in its legal set (R100). -/
abbrev Instr.WellFormed (i : Instr) : Prop := i.ill = none

end Sys2Proof
end

