-- ==== Sys2Proof/Decode.lean ====
section
/-! DEFINITION. Formats H, C and E (spec/30_encoding.md R95 to R98): the decoder, total on any bytes and rejecting by
name (R100), and after it the encoder, written from the same rules. A packet is a list of bytes, byte 0 first. -/

namespace Sys2Proof

/-- Why a packet is discarded (R100). -/
inductive DecodeError where
  /-- The packet has no opcode byte. -/
  | emptyPacket
  /-- The opcode is not in the table of R96. -/
  | unknownOpcode (op : Byte)
  /-- The packet ends before its last operand. -/
  | truncated
  /-- Bytes follow the last operand: a packet is consumed whole (R95). -/
  | trailingBytes
  /-- A mode byte other than 0 and 1 (R100). -/
  | badMode
  /-- A bool byte other than 0 and 1 (R95, R100). -/
  | badBool
  /-- An error kind other than 0, 1 and 2 (R98). -/
  | badErrKind
  /-- An operand outside its legal set (R100). -/
  | illFormed (why : Ill)
deriving DecidableEq, Repr

/-! ### Byte order (R50, R52, R90): the most significant byte first -/

/-- The u16 of two bytes (R90). -/
def u16Of (hi lo : Byte) : U16 := hi ++ lo
/-- The u32 of four bytes (R90). -/
def u32Of (b3 b2 b1 b0 : Byte) : U32 := b3 ++ b2 ++ (b1 ++ b0)
/-- The u64 of eight bytes (R98). -/
def u64Of (hi lo : U32) : U64 := hi ++ lo

/-- The big-endian bytes of a u16 (R50). -/
def u16Bytes (v : U16) : List Byte := [v.extractLsb' 8 8, v.extractLsb' 0 8]
/-- The big-endian bytes of a u32 (R50). -/
def u32Bytes (v : U32) : List Byte :=
  [v.extractLsb' 24 8, v.extractLsb' 16 8, v.extractLsb' 8 8, v.extractLsb' 0 8]
/-- The big-endian bytes of a u64 (R98). -/
def u64Bytes (v : U64) : List Byte := u32Bytes (v.extractLsb' 32 32) ++ u32Bytes (v.extractLsb' 0 32)

/-! ### Operand readers: each takes its bytes from the front and hands on the rest -/

/-- A reader of one operand. -/
abbrev Reader (α : Type) := List Byte → Except DecodeError (α × List Byte)

/-- `u8`: one byte (R95). -/
def readU8 : Reader Byte
  | b :: rest => .ok (b, rest)
  | _ => .error .truncated

/-- `u16`: two bytes, big-endian (R95). -/
def readU16 : Reader U16
  | b1 :: b0 :: rest => .ok (u16Of b1 b0, rest)
  | _ => .error .truncated

/-- `u32`: four bytes, big-endian (R95). -/
def readU32 : Reader U32
  | b3 :: b2 :: b1 :: b0 :: rest => .ok (u32Of b3 b2 b1 b0, rest)
  | _ => .error .truncated

/-- `u64`: eight bytes, big-endian (R98). -/
def readU64 : Reader U64
  | b7 :: b6 :: b5 :: b4 :: b3 :: b2 :: b1 :: b0 :: rest =>
    .ok (u64Of (u32Of b7 b6 b5 b4) (u32Of b3 b2 b1 b0), rest)
  | _ => .error .truncated

/-- `bool`: one byte, 0 or 1, other values rejected (R95). -/
def readBool : Reader Bool
  | b :: rest => if b = 0x00#8 then .ok (false, rest) else if b = 0x01#8 then .ok (true, rest) else .error .badBool
  | _ => .error .truncated

/-- `mode`: one byte, 0 Controller or 1 Responder, other values rejected (R100). -/
def readMode : Reader Mode
  | b :: rest =>
    if b = 0x00#8 then .ok (.controller, rest) else if b = 0x01#8 then .ok (.responder, rest) else .error .badMode
  | _ => .error .truncated

/-- The kind byte of an `Err` record: 0 framing, 1 parity, 2 overrun (R98). -/
def readErrKind : Reader UartErr
  | b :: rest =>
    if b = 0x00#8 then .ok (.framing, rest)
    else if b = 0x01#8 then .ok (.parity, rest)
    else if b = 0x02#8 then .ok (.overrun, rest)
    else .error .badErrKind
  | _ => .error .truncated

/-- A UID: six bytes (R88, R96). -/
def readUid : Reader Uid
  | a :: b :: c :: d :: e :: f :: rest => .ok (⟨a, b, c, d, e, f⟩, rest)
  | _ => .error .truncated

/-- Exactly `n` bytes. -/
def readExact : Nat → Reader (List Byte)
  | 0, rest => .ok ([], rest)
  | _ + 1, [] => .error .truncated
  | n + 1, b :: rest =>
    match readExact n rest with
    | .error e => .error e
    | .ok (bs, after) => .ok (b :: bs, after)

/-- A byte string: a u16 length and that many bytes (R95). -/
def readBytes : Reader (List Byte) := fun input =>
  match readU16 input with
  | .error e => .error e
  | .ok (n, rest) => readExact n.toNat rest

/-- Reads one operand and builds the instruction from it. -/
def with1 {α : Type} (r : Reader α) (build : α → Instr) : Reader Instr := fun input =>
  match r input with
  | .error e => .error e
  | .ok (a, rest) => .ok (build a, rest)

/-- Reads two operands in signature order. -/
def with2 {α β : Type} (r : Reader α) (q : Reader β) (build : α → β → Instr) : Reader Instr := fun input =>
  match r input with
  | .error e => .error e
  | .ok (a, rest) => with1 q (build a) rest

/-- Reads three operands in signature order. -/
def with3 {α β γ : Type} (r : Reader α) (q : Reader β) (p : Reader γ) (build : α → β → γ → Instr) :
    Reader Instr := fun input =>
  match r input with
  | .error e => .error e
  | .ok (a, rest) => with2 q p (build a) rest

/-- Reads four operands in signature order. -/
def with4 {α β γ δ : Type} (r : Reader α) (q : Reader β) (p : Reader γ) (o : Reader δ)
    (build : α → β → γ → δ → Instr) : Reader Instr := fun input =>
  match r input with
  | .error e => .error e
  | .ok (a, rest) => with3 q p o (build a) rest

/-! ### The opcode map (R96) -/

/-- The operands of the operation with opcode `op`, and the bytes after them. -/
def decodeOperands (op : Byte) (rest : List Byte) : Except DecodeError (Instr × List Byte) :=
  match op with
  | 0x01#8 => with3 readMode readBool readU16 .setMode rest
  | 0x02#8 => .ok (.reset, rest)
  | 0x03#8 => with2 readU16 readBytes .queueDmx rest
  | 0x04#8 => with3 readU16 readU8 readBytes .queueAsc rest
  | 0x05#8 => with2 readU16 readBytes .queueRdmDub rest
  | 0x06#8 => with3 readU16 readBool readBytes .queueRdmRequest rest
  | 0x07#8 => with1 readU16 .queueSelfTest rest
  | 0x10#8 => with1 readU16 .setBreakTime rest
  | 0x11#8 => .ok (.getBreakTime, rest)
  | 0x12#8 => with1 readU16 .setMarkTime rest
  | 0x13#8 => .ok (.getMarkTime, rest)
  | 0x14#8 => with1 readU32 .setRdmResponseTimeout rest
  | 0x15#8 => .ok (.getRdmResponseTimeout, rest)
  | 0x16#8 => with1 readU32 .setResponderDelay rest
  | 0x17#8 => .ok (.getResponderDelay, rest)
  | 0x18#8 => with1 readU32 .setResponderJitter rest
  | 0x19#8 => .ok (.getResponderJitter, rest)
  | 0x1A#8 => with1 readU32 .setDubResponseLimit rest
  | 0x1B#8 => .ok (.getDubResponseLimit, rest)
  | 0x20#8 => .ok (.now, rest)
  | 0x21#8 => with1 readU32 .elapsed rest
  | 0x22#8 => with2 readU32 readU32 .delta rest
  | 0x23#8 => with2 readU32 readU32 .hasElapsed rest
  | 0x24#8 => with1 readU32 .setCounter rest
  | 0x28#8 => with1 readU8 .readCounter rest
  | 0x29#8 => .ok (.resetCommsStatus, rest)
  | 0x2A#8 => with1 readU8 .incrementCounter rest
  | 0x40#8 => with2 readU16 readU16 .pushU16 rest
  | 0x41#8 => with2 readU16 readU32 .pushU32 rest
  | 0x42#8 => with2 readU16 readU16 .checksum16 rest
  | 0x43#8 => .ok (.appendChecksum, rest)
  | 0x44#8 => with1 readU16 .validate rest
  | 0x45#8 => with4 readUid readU8 readU8 readU8 .buildReplyHeader rest
  | 0x46#8 => with1 readUid .dubEncode rest
  | 0x47#8 => with2 readUid readBool .dubRespond rest
  | 0x48#8 => with2 readUid readUid .uidCompare rest
  | 0x50#8 => with1 readU16 .handlerReturn rest
  | 0x80#8 => .ok (.tasks, rest)
  | 0x81#8 => .ok (.coarseTick, rest)
  | 0x82#8 => .ok (.timerMatch, rest)
  | 0x83#8 => with1 readU64 .fall rest
  | 0x84#8 => with1 readU64 .rise rest
  | 0x85#8 => with2 readU64 readU8 .byte rest
  | 0x86#8 => with2 readU64 readErrKind .err rest
  | 0x87#8 => .ok (.txFifoSpace, rest)
  | 0x88#8 => .ok (.txShiftEmpty, rest)
  | _ => .error (.unknownOpcode op)

/-- The instruction at the front of `input` and the bytes after it. An operand outside its legal set is refused
(R100). -/
def decodeFront (input : List Byte) : Except DecodeError (Instr × List Byte) :=
  match input with
  | [] => .error .emptyPacket
  | op :: rest =>
    match decodeOperands op rest with
    | .error e => .error e
    | .ok (i, after) =>
      match i.ill with
      | none => .ok (i, after)
      | some why => .error (.illFormed why)

/-- The instruction a packet stands for. The packet is consumed whole (R95). -/
def decode (packet : List Byte) : Except DecodeError Instr :=
  match decodeFront packet with
  | .error e => .error e
  | .ok (i, []) => .ok i
  | .ok (_, _ :: _) => .error .trailingBytes

/-! ### The encoder (R95 to R98) -/

/-- The opcode byte of R96. -/
def Instr.opcode : Instr → Byte
  | .setMode _ _ _ => 0x01#8
  | .reset => 0x02#8
  | .queueDmx _ _ => 0x03#8
  | .queueAsc _ _ _ => 0x04#8
  | .queueRdmDub _ _ => 0x05#8
  | .queueRdmRequest _ _ _ => 0x06#8
  | .queueSelfTest _ => 0x07#8
  | .setBreakTime _ => 0x10#8
  | .getBreakTime => 0x11#8
  | .setMarkTime _ => 0x12#8
  | .getMarkTime => 0x13#8
  | .setRdmResponseTimeout _ => 0x14#8
  | .getRdmResponseTimeout => 0x15#8
  | .setResponderDelay _ => 0x16#8
  | .getResponderDelay => 0x17#8
  | .setResponderJitter _ => 0x18#8
  | .getResponderJitter => 0x19#8
  | .setDubResponseLimit _ => 0x1A#8
  | .getDubResponseLimit => 0x1B#8
  | .now => 0x20#8
  | .elapsed _ => 0x21#8
  | .delta _ _ => 0x22#8
  | .hasElapsed _ _ => 0x23#8
  | .setCounter _ => 0x24#8
  | .readCounter _ => 0x28#8
  | .resetCommsStatus => 0x29#8
  | .incrementCounter _ => 0x2A#8
  | .pushU16 _ _ => 0x40#8
  | .pushU32 _ _ => 0x41#8
  | .checksum16 _ _ => 0x42#8
  | .appendChecksum => 0x43#8
  | .validate _ => 0x44#8
  | .buildReplyHeader _ _ _ _ => 0x45#8
  | .dubEncode _ => 0x46#8
  | .dubRespond _ _ => 0x47#8
  | .uidCompare _ _ => 0x48#8
  | .handlerReturn _ => 0x50#8
  | .tasks => 0x80#8
  | .coarseTick => 0x81#8
  | .timerMatch => 0x82#8
  | .fall _ => 0x83#8
  | .rise _ => 0x84#8
  | .byte _ _ => 0x85#8
  | .err _ _ => 0x86#8
  | .txFifoSpace => 0x87#8
  | .txShiftEmpty => 0x88#8

/-- The byte of a bool (R95). -/
def boolByte (b : Bool) : Byte := if b then 0x01#8 else 0x00#8

/-- The byte of a mode (R21). -/
def Mode.code : Mode → Byte
  | .controller => 0x00#8
  | .responder => 0x01#8

/-- The kind byte of an error (R98). -/
def UartErr.code : UartErr → Byte
  | .framing => 0x00#8
  | .parity => 0x01#8
  | .overrun => 0x02#8

/-- A byte string: its u16 length, then its bytes (R95). -/
def stringBytes (bytes : List Byte) : List Byte := u16Bytes (BitVec.ofNat 16 bytes.length) ++ bytes

/-- The operand bytes, in signature order (R95, R97; the time of an event record comes first, R98). -/
def Instr.operandBytes : Instr → List Byte
  | .setMode mode hasToken token => mode.code :: boolByte hasToken :: u16Bytes token
  | .reset => []
  | .queueDmx token bytes => u16Bytes token ++ stringBytes bytes
  | .queueAsc token startCode bytes => u16Bytes token ++ (startCode :: stringBytes bytes)
  | .queueRdmDub token bytes => u16Bytes token ++ stringBytes bytes
  | .queueRdmRequest token isBroadcast bytes => u16Bytes token ++ (boolByte isBroadcast :: stringBytes bytes)
  | .queueSelfTest token => u16Bytes token
  | .setBreakTime t => u16Bytes t
  | .getBreakTime => []
  | .setMarkTime t => u16Bytes t
  | .getMarkTime => []
  | .setRdmResponseTimeout t => u32Bytes t
  | .getRdmResponseTimeout => []
  | .setResponderDelay d => u32Bytes d
  | .getResponderDelay => []
  | .setResponderJitter j => u32Bytes j
  | .getResponderJitter => []
  | .setDubResponseLimit l => u32Bytes l
  | .getDubResponseLimit => []
  | .now => []
  | .elapsed start => u32Bytes start
  | .delta start stop => u32Bytes start ++ u32Bytes stop
  | .hasElapsed start duration => u32Bytes start ++ u32Bytes duration
  | .setCounter n => u32Bytes n
  | .readCounter index => [index]
  | .resetCommsStatus => []
  | .incrementCounter index => [index]
  | .pushU16 off v => u16Bytes off ++ u16Bytes v
  | .pushU32 off v => u16Bytes off ++ u32Bytes v
  | .checksum16 off n => u16Bytes off ++ u16Bytes n
  | .appendChecksum => []
  | .validate len => u16Bytes len
  | .buildReplyHeader ownUid rtype msgCount pdl => ownUid.bytes ++ [rtype, msgCount, pdl]
  | .dubEncode uid => uid.bytes
  | .dubRespond ownUid isMuted => ownUid.bytes ++ [boolByte isMuted]
  | .uidCompare a b => a.bytes ++ b.bytes
  | .handlerReturn n => u16Bytes n
  | .tasks => []
  | .coarseTick => []
  | .timerMatch => []
  | .fall t => u64Bytes t
  | .rise t => u64Bytes t
  | .byte t b => u64Bytes t ++ [b]
  | .err t kind => u64Bytes t ++ [kind.code]
  | .txFifoSpace => []
  | .txShiftEmpty => []

/-- The packet or record of a well-formed instruction (R95, R97, R98). -/
def encode (i : Instr) : List Byte := i.opcode :: i.operandBytes

/-! ### An instruction given as one number, as spec/opcode_table.json numbers its bits -/

/-- The low `n` bytes of `w`, byte 0 (bits 7..0) first. -/
def tableBytes : Nat → Nat → List Byte
  | 0, _ => []
  | n + 1, w => BitVec.ofNat 8 w :: tableBytes n (w / 256)

/-- The bytes of an instruction given as the number `w` of `nbits` bits, with zero bytes above them for as long as the
longest packet (queue_asc with 512 bytes: 518 bytes). -/
def tableInput (nbits w : Nat) : List Byte := tableBytes ((nbits + 7) / 8) w ++ List.replicate 518 0x00#8

/-- The instruction the decoder reads from an instruction whose bits are `w`. -/
def decodeTableWord (nbits w : Nat) : Option Instr :=
  match decodeFront (tableInput nbits w) with
  | .ok (i, _) => some i
  | .error _ => none

/-- The packet of that instruction, or all of its bytes where the decoder refuses. -/
def tablePacket (nbits w : Nat) : List Byte :=
  match decodeTableWord nbits w with
  | some i => encode i
  | none => tableInput nbits w

end Sys2Proof
end

