-- ==== Sys2Proof/Machine/State.lean ====
section
/-! DEFINITION. The state of the JRX block as plain data (spec/10_state.md R10 to R34), the reasons a step can stop, and
the power-on state (R34, R410). Registers the spec names one by one are grouped by the unit that holds them. -/

namespace Sys2Proof.Machine

/-- R6: the agents; each step of the machine is one step of exactly one of them. -/
inductive Agent where
  /-- the host: one host operation (R95) -/
  | host
  /-- the foreground `tasks()`: one `Tasks` step -/
  | foreground
  /-- the fine timer: `TimerMatch` -/
  | fineTimer
  /-- the coarse tick: `CoarseTick` -/
  | coarseTick
  /-- the line: `Fall`, `Rise`, `Byte`, `Err` -/
  | line
  /-- the UART transmitter: `TxFifoSpace`, `TxShiftEmpty`, the emission of slots -/
  | uart
  /-- the responder collaborator C4: codec operations, `handler_return`, and the counter operations of COMMS_STATUS (R337,
  R362) -/
  | collaborator
  /-- time: advances `T` -/
  | time
deriving DecidableEq, Repr

/-- One step of one agent, still to be taken (log entry 1). -/
inductive Stimulus where
  /-- An agent's packet or event record (formats H, C, E: R95, R97, R98). -/
  | packet (agent : Agent) (bytes : List Byte)
  /-- The internal operation `increment_counter` (R100, R360), called by a rule within a step of an agent. It is no step of
  R6's agents, whose own steps make these calls themselves; it stands alone here only to be run by itself (log entry 8). -/
  | inner (agent : Agent) (bytes : List Byte)
  /-- The UART transmitter's own step on the shift register (R207). -/
  | uartShift
  /-- Time passes: `T` grows by `d` TU (R4). -/
  | elapse (d : Nat)
deriving DecidableEq, Repr

/-- R10: the six parameter registers P0 to P5. -/
structure Params where
  /-- P0, µs (R11) -/
  breakTime : U16
  /-- P1, µs (R12) -/
  markTime : U16
  /-- P2, TU (R13) -/
  rdmResponseTimeout : U32
  /-- P3, TU (R14) -/
  responderDelay : U32
  /-- P4, TU (R15) -/
  responderJitter : U32
  /-- P5, TU (R16) -/
  dubResponseLimit : U32
deriving DecidableEq, Repr

/-- R23, R24: the eight saturating counters, indices 0 to 7 in this order. -/
structure Counters where
  dmxFrames : U16
  rdmFrames : U16
  rdmShortFrame : U16
  rdmLengthMismatch : U16
  rdmChecksumInvalid : U16
  uartFramingErrors : U16
  uartParityErrors : U16
  uartOverrunErrors : U16
deriving DecidableEq, Repr

/-- The names of the counters (R23, R24). -/
inductive CounterId where
  | dmxFrames
  | rdmFrames
  | rdmShortFrame
  | rdmLengthMismatch
  | rdmChecksumInvalid
  | uartFramingErrors
  | uartParityErrors
  | uartOverrunErrors
deriving DecidableEq, Repr

/-- R17: the controller sequencer, codes 0 to 8 in this order. -/
inductive CtrlState where
  | idle
  | driveBreakLow
  | driveMarkHigh
  | writeSlots
  | waitTxDone
  | awaitResponse
  | awaitDub
  | rxSlots
  | frameToHost
deriving DecidableEq, Repr

/-- R18: the responder sequencer, codes 0 to 11 in this order. -/
inductive RespState where
  | idle
  | measureBreak
  | measureMab
  | collectSlots
  | complete
  | dispatch
  | waitDelay
  | driveBreak
  | driveMark
  | writeSlots
  | waitTxDone
  | guard
deriving DecidableEq, Repr

/-- R20: the refinement of the controller's receive states, codes 0 to 3. -/
inductive RxPhase where
  | waitBreak
  | inBreak
  | inMark
  | data
deriving DecidableEq, Repr

/-- R25, R55: who owns the frame buffer. -/
inductive FbOwner where
  | transceiver
  | responder
deriving DecidableEq, Repr

/-- R31: the direction line. -/
inductive Dir where
  | rx
  | tx
deriving DecidableEq, Repr

/-- R31: what drives the transmit data pin. -/
inductive TxLine where
  | mark
  | brk
  | uart
deriving DecidableEq, Repr

/-- R381: the frame classes, codes 0 to 6 in this order. -/
inductive FrameClass where
  | dmx
  | asc
  | rdmDub
  | rdmBroadcast
  | rdmRequest
  | selfTest
  | modeChange
deriving DecidableEq, Repr

/-- R382: the result codes of a completion event, 0 to 7 in this order. -/
inductive ResultCode where
  | ok
  | timeout
  | aborted
  | shortFrame
  | lengthMismatch
  | checksumInvalid
  | notRdm
  | selfTestFailed
deriving DecidableEq, Repr

/-- R28: one entry of the TX queue. Its `len` is the length of its data, start code first. -/
structure Entry where
  token : U16
  cls : FrameClass
  data : List Byte
deriving DecidableEq, Repr

/-- R26: the operation in flight. Its `len` is the length of its data, start code first. -/
structure CurOp where
  valid : Bool
  token : U16
  cls : FrameClass
  data : List Byte
deriving DecidableEq, Repr

/-- R29, R380: a completion event. Its `len` is the length of its bytes. -/
structure Completion where
  token : U16
  cls : FrameClass
  result : ResultCode
  bytes : List Byte
deriving DecidableEq, Repr

/-- R19: the slot indices of the transmission. -/
structure TxSlots where
  /-- `tx_index` -/
  index : Nat
  /-- `tx_len` -/
  len : Nat
deriving DecidableEq, Repr

/-- R19, R20: the reception. -/
structure Rx where
  /-- `rx_count` -/
  count : Nat
  /-- `rx_phase` -/
  phase : RxPhase
  /-- `dub_active` -/
  dubActive : Bool
deriving DecidableEq, Repr

/-- R25, R27: the responder's scheduled reply. -/
structure ReplyPlan where
  /-- `reply_len` -/
  len : Nat
  /-- `reply_raw` -/
  raw : Bool
deriving DecidableEq, Repr

/-- R27: the timing registers, in TU except `opStartTick`; `lastBreakValid` is the flag of R25 that guards
`lastBreakStart`. -/
structure Timing where
  lastBreakStart : Nat
  lastBreakValid : Bool
  txEndTime : Nat
  backoffUntil : Nat
  opStartTick : U32
  tFall : Nat
  tRise : Nat
  lastFall : Nat
  tLastByte : Nat
  rxBreakDur : Nat
  rxMarkDur : Nat
deriving DecidableEq, Repr

/-- R25, R27, R214: the fine timer's one compare. -/
structure FineTimer where
  /-- `timer_armed` -/
  armed : Bool
  /-- `timer_at` -/
  compareAt : Nat
deriving DecidableEq, Repr

/-- R32, R207: the UART transmitter. -/
structure UartTx where
  /-- `tx_fifo`, next byte first -/
  fifo : List Byte
  /-- `tx_shift_busy` -/
  busy : Bool
  /-- the byte of the character on the wire (implied by R207; log entry 11) -/
  shiftByte : Byte
  /-- the time that character ends (R207: it takes SLOT_TIME; log entry 11) -/
  shiftEnd : Nat
deriving DecidableEq, Repr

/-- R120, R127: where the coarse tick stands on the fine time base. The model's own record (log entry 15). -/
structure TickPhase where
  /-- the phase is settled: a first tick has occurred -/
  settled : Bool
  /-- the latest instant of the next tick; its very instant once the phase is settled -/
  due : Nat
deriving DecidableEq, Repr

/-- R31: the output pins. -/
structure Pins where
  dir : Dir
  line : TxLine
deriving DecidableEq, Repr

/-- R53, R66: what stands on the wire in the transmit direction. -/
inductive WireItem where
  /-- the direction line changed -/
  | dir (d : Dir)
  /-- the transmit pin's driver changed: held high, held low, or the UART -/
  | line (l : TxLine)
  /-- a character began (R207) -/
  | slot (b : Byte)
  /-- a character was cut (R210; spec/93_implementation_defined.md U6) -/
  | cut
deriving DecidableEq, Repr

/-- One entry of the wire's sequence and the fine time it stands at. -/
structure WireEvent where
  time : Nat
  item : WireItem
deriving DecidableEq, Repr

/-- R135: the parsed header of an RDM frame. -/
structure Header where
  ml : Byte
  destUid : Uid
  srcUid : Uid
  tn : Byte
  portId : Byte
  msgCount : Byte
  subDevice : U16
  cc : Byte
  pid : U16
  pdl : Byte
deriving DecidableEq, Repr

/-- R134: the outcomes of `validate`. -/
inductive ValidateResult where
  | ok
  | shortFrame
  | lengthMismatch
  | checksumInvalid
  | notRdm
deriving DecidableEq, Repr

/-- R95: the reply of a host or codec operation. -/
inductive Reply where
  /-- the operation returns nothing -/
  | nothing
  | bool (b : Bool)
  | u16 (v : U16)
  | u32 (v : U32)
  /-- the signed results of R139 and R140 -/
  | int (n : Int)
  /-- the result of `validate`, with the header where it is Ok (R134) -/
  | validation (r : ValidateResult) (header : Option Header)
deriving DecidableEq, Repr

/-- R290, R320: what the collaborator is presented with. -/
structure Dispatch where
  len : Nat
  header : Header
deriving DecidableEq, Repr

/-- R30: the frame buffer, as the list of its written bytes: addresses strictly rising, nothing listed for a byte that
nothing has written. -/
abbrev Memory := List Host.Cell

/-- The state of the block. -/
structure State where
  /-- `T`, the fine time base (R4) -/
  time : Nat
  /-- the model's own: the agent of the present step (R6; log entry 8) -/
  agent : Agent
  /-- the model's own: the agents' steps still to be taken (log entry 1) -/
  inbox : List Stimulus
  /-- P0 to P5 (R10) -/
  params : Params
  /-- R21 -/
  mode : Mode
  /-- R22 -/
  coarseTicks : U32
  /-- the model's own: the phase of the coarse tick (R120; log entry 15) -/
  tick : TickPhase
  /-- R23, R24 -/
  counters : Counters
  /-- R17 -/
  ctrlState : CtrlState
  /-- R18 -/
  respState : RespState
  /-- R19 -/
  tx : TxSlots
  /-- R19, R20 -/
  rx : Rx
  /-- `frame_ready` (R25) -/
  frameReady : Bool
  /-- `fb_owner` (R25) -/
  fbOwner : FbOwner
  /-- R25, R27 -/
  reply : ReplyPlan
  /-- R26 -/
  curOp : CurOp
  /-- R27 -/
  timing : Timing
  /-- R214 -/
  timer : FineTimer
  /-- R28, head first -/
  txQueue : List Entry
  /-- R29, head first -/
  completions : List Completion
  /-- R30 -/
  fb : Memory
  /-- R31 -/
  pins : Pins
  /-- R32 -/
  uart : UartTx
  /-- the wire, transmit direction, oldest first (R53, R66; log entry 12) -/
  wire : List WireEvent
  /-- the reply of the last operation (R95; log entry 9) -/
  hostReply : Reply
  /-- the completion events handed to the host, oldest first (R383; log entry 12) -/
  delivered : List Completion
  /-- the dispatch in the collaborator's hands (R290, R320; log entry 12) -/
  dispatch : Option Dispatch
  /-- the model's own: how many free values have been drawn (R257, R296; log entry 6) -/
  draws : Nat
deriving DecidableEq, Repr

/-- Why a step has no successor. Every case is a contract violation of spec/93_implementation_defined.md. -/
inductive Fault where
  /-- A byte of `fb` that nothing has written is read (U1). Raised by the codec operations, and by the slot serializer
  for a reply longer than what was written. Safe: the model stops where the hardware goes on with some byte. -/
  | unwrittenByte (addr : Nat)
  /-- A codec operation by an agent that does not own `fb` (U2). Raised by the codec operations. Safe: the block has no
  interlock (R420), so the hardware goes on. -/
  | fbNotOwned
  /-- A range that passes the end of its space (U3, R57). Raised by the codec operations. Safe: the spec gives no
  effect. -/
  | outOfBounds (addr : Nat)
  /-- `handler_return(n)` with `n` above FRAME_BUF_SIZE (U3, R293). Raised by `handler_return`. Safe, as above. -/
  | replyTooLong (n : Int)
  /-- `response_class` of a class that is not DISC, GET or SET (U4, R137). Raised by `build_reply_header`. Safe, as
  above. -/
  | unmappedCommandClass (cc : Byte)
  /-- A post beyond COMPLETION_DEPTH (U7, R380). Raised by every step that posts. Safe, as above; it cannot arise where
  the queue is unbounded. -/
  | completionsFull
deriving DecidableEq, Repr

/-- Why an instruction has no meaning. -/
inductive Refusal where
  /-- The instruction has no meaning yet. Raised by an arm of `exec`. Safe: the machine stops. -/
  | notModelled (mnemonic : String)
deriving DecidableEq, Repr

/-! ### Power-on reset (R34, R410) -/

/-- RESET_* of R3, each OPEN there. DESIGN CHOICE (log entry 3): the values the spec suggests. -/
def Params.reset : Params :=
  { breakTime := 176#16, markTime := 12#16
    rdmResponseTimeout := BitVec.ofNat 32 Config.resetRdmResponseTimeout, responderDelay := 1760#32
    responderJitter := 0#32, dubResponseLimit := BitVec.ofNat 32 Config.resetDubResponseLimit }

/-- All eight counters 0 (R34). -/
def Counters.reset : Counters :=
  { dmxFrames := 0#16, rdmFrames := 0#16, rdmShortFrame := 0#16, rdmLengthMismatch := 0#16,
    rdmChecksumInvalid := 0#16, uartFramingErrors := 0#16, uartParityErrors := 0#16, uartOverrunErrors := 0#16 }

/-- All timing registers 0, `last_break_valid` false (R27, R34). -/
def Timing.reset : Timing :=
  { lastBreakStart := 0, lastBreakValid := false, txEndTime := 0, backoffUntil := 0, opStartTick := 0#32, tFall := 0,
    tRise := 0, lastFall := 0, tLastByte := 0, rxBreakDur := 0, rxMarkDur := 0 }

/-- The machine right after power-on (R34). `mode` is RESET_MODE, OPEN in R3: DESIGN CHOICE Controller (log
entry 4). `agent` is the model's own field: DESIGN CHOICE Host (log entry 8). `tick`, the model's own too, leaves the phase
of the coarse tick open: the first tick comes within one period (R120; log entry 15). -/
def State.reset : State :=
  { time := 0
    agent := .host
    inbox := []
    params := Params.reset
    mode := .controller
    coarseTicks := 0#32
    tick := { settled := false, due := Config.coarseTick }
    counters := Counters.reset
    ctrlState := .idle
    respState := .idle
    tx := { index := 0, len := 0 }
    rx := { count := 0, phase := .waitBreak, dubActive := false }
    frameReady := false
    fbOwner := .transceiver
    reply := { len := 0, raw := false }
    curOp := { valid := false, token := 0#16, cls := .dmx, data := [] }
    timing := Timing.reset
    timer := { armed := false, compareAt := 0 }
    txQueue := []
    completions := []
    fb := []
    pins := { dir := .rx, line := .mark }
    uart := { fifo := [], busy := false, shiftByte := 0x00#8, shiftEnd := 0 }
    wire := []
    hostReply := .nothing
    delivered := []
    dispatch := none
    draws := 0 }

end Sys2Proof.Machine
end

