-- ==== Sys2Proof/Machine/Operands.lean ====
section
/-! DEFINITION. Operand assembly (spec/30_encoding.md R90), UIDs (R88, spec/41_codec.md R140), the DUB expansion (R86),
the response classes (R137), counter names (spec/10_state.md R23, R24), the numeric codes of states, classes and results
(R17, R18, R20, R381, R382), and the format X record (R99). -/

namespace Sys2Proof.Machine

/-! ### Bytes and sums -/

/-- R130: the 16-bit additive sum of bytes, modulo 2^16. -/
def sum16 (bytes : List Byte) : U16 := bytes.foldl (fun acc b => acc + b.setWidth 16) 0#16

/-- R84: the high byte of a u16, first in the buffer. -/
def hiByte (v : U16) : Byte := v.extractLsb' 8 8
/-- R84: the low byte of a u16. -/
def loByte (v : U16) : Byte := v.extractLsb' 0 8

/-! ### UIDs (R88, R140) -/

/-- R140: lexicographic comparison of byte strings, byte 0 first, bytes as unsigned numbers. -/
def compareBytes : List Byte → List Byte → Int
  | a :: as, b :: bs => if a.toNat < b.toNat then -1 else if b.toNat < a.toNat then 1 else compareBytes as bs
  | _, _ => 0

/-- R140: `uid_compare(a, b)`, -1, 0 or 1. -/
def compareUid (a b : Uid) : Int := compareBytes a.bytes b.bytes

/-- R90: a UID as a 48-bit big-endian unsigned number. -/
def uidValue (u : Uid) : Nat := u.bytes.foldl (fun acc b => acc * 256 + b.toNat) 0

/-- R90: the UID of six bytes of a buffer; any other list is no UID. -/
def uidOfBytes : List Byte → Option Uid
  | [a, b, c, d, e, f] => some ⟨a, b, c, d, e, f⟩
  | _ => none

/-- R321: broadcast UIDs have device id 0xFFFFFFFF. -/
def uidIsBroadcast (u : Uid) : Bool := u.b2 = 0xFF#8 ∧ u.b3 = 0xFF#8 ∧ u.b4 = 0xFF#8 ∧ u.b5 = 0xFF#8

/-- R321: a UID is unicast when neither its manufacturer nor its device part is all ones. -/
def uidIsUnicast (u : Uid) : Bool := !(uidIsBroadcast u) && !(decide (u.b0 = 0xFF#8 ∧ u.b1 = 0xFF#8))

/-! ### DUB expansion (R86, R90) -/

/-- R90: the expansion of a byte: `b | 0xAA`, then `b | 0x55`. -/
def dubExpand (b : Byte) : List Byte := [b ||| 0xAA#8, b ||| 0x55#8]

/-- R90, R142: the contraction of a pair. -/
def dubContract (x y : Byte) : Byte := x &&& y

/-- R138: the preamble and the delimiter, then the twelve expanded UID bytes. -/
def dubHead (uid : Uid) : List Byte :=
  List.replicate 7 Config.dubPreamble ++ [Config.dubDelimiter] ++ uid.bytes.flatMap dubExpand

/-- R138: the four bytes of the expanded checksum, high pair first. -/
def dubTail (c : U16) : List Byte := dubExpand (hiByte c) ++ dubExpand (loByte c)

/-! ### Response classes (R137) -/

/-- R137: DISC, GET and SET map to their response classes; no other class has a mapping
(spec/93_implementation_defined.md U4). -/
def responseClass (cc : Byte) : Option Byte :=
  if cc = Config.ccDisc then some Config.ccDiscResponse
  else if cc = Config.ccGet then some Config.ccGetResponse
  else if cc = Config.ccSet then some Config.ccSetResponse
  else none

/-! ### Counters (R23, R24) -/

/-- The counter of an index, 0 to 7 (R23, R24). -/
def counterOfIndex (index : Byte) : Option CounterId :=
  match index with
  | 0x00#8 => some .dmxFrames
  | 0x01#8 => some .rdmFrames
  | 0x02#8 => some .rdmShortFrame
  | 0x03#8 => some .rdmLengthMismatch
  | 0x04#8 => some .rdmChecksumInvalid
  | 0x05#8 => some .uartFramingErrors
  | 0x06#8 => some .uartParityErrors
  | 0x07#8 => some .uartOverrunErrors
  | _ => none

/-- The value of a counter. -/
def getCounter (c : CounterId) (k : Counters) : U16 :=
  match c with
  | .dmxFrames => k.dmxFrames
  | .rdmFrames => k.rdmFrames
  | .rdmShortFrame => k.rdmShortFrame
  | .rdmLengthMismatch => k.rdmLengthMismatch
  | .rdmChecksumInvalid => k.rdmChecksumInvalid
  | .uartFramingErrors => k.uartFramingErrors
  | .uartParityErrors => k.uartParityErrors
  | .uartOverrunErrors => k.uartOverrunErrors

/-- The counters with `c` holding `v`. -/
def putCounter (c : CounterId) (v : U16) (k : Counters) : Counters :=
  match c with
  | .dmxFrames => { k with dmxFrames := v }
  | .rdmFrames => { k with rdmFrames := v }
  | .rdmShortFrame => { k with rdmShortFrame := v }
  | .rdmLengthMismatch => { k with rdmLengthMismatch := v }
  | .rdmChecksumInvalid => { k with rdmChecksumInvalid := v }
  | .uartFramingErrors => { k with uartFramingErrors := v }
  | .uartParityErrors => { k with uartParityErrors := v }
  | .uartOverrunErrors => { k with uartOverrunErrors := v }

/-- R360: `sat16(x + 1)`: a counter at 0xFFFF stays there. -/
def satSucc (v : U16) : U16 := if v = 0xFFFF#16 then v else v + 1#16

/-- The UART error counter of a kind (R24). -/
def uartCounter : UartErr → CounterId
  | .framing => .uartFramingErrors
  | .parity => .uartParityErrors
  | .overrun => .uartOverrunErrors

/-- Whether `c` is one of the three UART error counters, which only the front end increments (R100). -/
def isUartCounter : CounterId → Bool
  | .uartFramingErrors => true
  | .uartParityErrors => true
  | .uartOverrunErrors => true
  | .dmxFrames => false
  | .rdmFrames => false
  | .rdmShortFrame => false
  | .rdmLengthMismatch => false
  | .rdmChecksumInvalid => false

/-! ### Codes -/

/-- R17: the numeric code of a controller state. -/
def ctrlCode : CtrlState → Nat
  | .idle => 0
  | .driveBreakLow => 1
  | .driveMarkHigh => 2
  | .writeSlots => 3
  | .waitTxDone => 4
  | .awaitResponse => 5
  | .awaitDub => 6
  | .rxSlots => 7
  | .frameToHost => 8

/-- R18: the numeric code of a responder state. -/
def respCode : RespState → Nat
  | .idle => 0
  | .measureBreak => 1
  | .measureMab => 2
  | .collectSlots => 3
  | .complete => 4
  | .dispatch => 5
  | .waitDelay => 6
  | .driveBreak => 7
  | .driveMark => 8
  | .writeSlots => 9
  | .waitTxDone => 10
  | .guard => 11

/-- R20: the numeric code of a receive phase. -/
def phaseCode : RxPhase → Nat
  | .waitBreak => 0
  | .inBreak => 1
  | .inMark => 2
  | .data => 3

/-- R381: the code of a frame class. -/
def classCode : FrameClass → Byte
  | .dmx => 0x00#8
  | .asc => 0x01#8
  | .rdmDub => 0x02#8
  | .rdmBroadcast => 0x03#8
  | .rdmRequest => 0x04#8
  | .selfTest => 0x05#8
  | .modeChange => 0x06#8

/-- R382: the code of a result. -/
def resultCode : ResultCode → Byte
  | .ok => 0x00#8
  | .timeout => 0x01#8
  | .aborted => 0x02#8
  | .shortFrame => 0x03#8
  | .lengthMismatch => 0x04#8
  | .checksumInvalid => 0x05#8
  | .notRdm => 0x06#8
  | .selfTestFailed => 0x07#8

/-- R248: `code(r)`, the result code of a `validate` outcome. -/
def codeOf : ValidateResult → ResultCode
  | .ok => .ok
  | .shortFrame => .shortFrame
  | .lengthMismatch => .lengthMismatch
  | .checksumInvalid => .checksumInvalid
  | .notRdm => .notRdm

/-- R99: the format X record of a completion event: token, class, result, len, bytes. -/
def completionRecord (ev : Completion) : List Byte :=
  u16Bytes ev.token ++ [classCode ev.cls, resultCode ev.result] ++ stringBytes ev.bytes

/-- R95 to R97: the bytes of a reply: a bool is one byte, a value has its stated width, the signed result of `dub_respond` is
two's-complement 16-bit, and `validate` replies with its result code. The result of `uid_compare`, whose width no rule
gives, is encoded like `dub_respond`'s (DESIGN CHOICE, log entry 9). -/
def replyBytes : Reply → List Byte
  | .nothing => []
  | .bool b => [if b then 0x01#8 else 0x00#8]
  | .u16 v => u16Bytes v
  | .u32 v => u32Bytes v
  | .int n => u16Bytes (BitVec.ofInt 16 n)
  | .validation r _ => [resultCode (codeOf r)]

/-- R82, R135: the 24 header bytes of a header, in the order of R82's table. -/
def headerBytes (h : Header) : List Byte :=
  [Config.scRdm, Config.ssc, h.ml] ++ h.destUid.bytes ++ h.srcUid.bytes ++ [h.tn, h.portId, h.msgCount]
    ++ u16Bytes h.subDevice ++ [h.cc] ++ u16Bytes h.pid ++ [h.pdl]

/-- R135: the header of the first 24 bytes of a frame; the start codes are not part of it. -/
def headerOf : List Byte → Option Header
  | [_, _, ml, d0, d1, d2, d3, d4, d5, s0, s1, s2, s3, s4, s5, tn, port, mc, sd1, sd0, cc, p1, p0, pdl] =>
    some { ml := ml, destUid := ⟨d0, d1, d2, d3, d4, d5⟩, srcUid := ⟨s0, s1, s2, s3, s4, s5⟩, tn := tn,
           portId := port, msgCount := mc, subDevice := u16Of sd1 sd0, cc := cc, pid := u16Of p1 p0, pdl := pdl }
  | _ => none

/-! ### Tick arithmetic (R122 to R124, R126) -/

/-- R122, R123: unsigned difference modulo 2^32. -/
def tickDelta (start stop : U32) : U32 := stop - start

/-- R124: strictly more than `duration` ticks since `start`. -/
def tickHasElapsed (ticks start duration : U32) : Bool := decide (duration.toNat < (tickDelta start ticks).toNat)

end Sys2Proof.Machine
end

