-- ==== Sys2Proof/Machine/Flags.lean ====
section
/-! DEFINITION. The hand-off flags (spec/10_state.md R25), the fine timer (spec/43_line_interface.md R214), the output
pins with the wire they drive (R31, R66), and the guards over them. -/

namespace Sys2Proof.Machine

/-! ### Fine timer (R214) -/

/-- R214: `arm(t)`; re-arming replaces the previous compare. -/
def arm (t : Nat) (s : State) : State := { s with timer := { armed := true, compareAt := t } }

/-- R214: `disarm()`. -/
def disarm (s : State) : State := { s with timer.armed := false }

/-- R214: `TimerMatch` is enabled iff the timer is armed and `T ≥ timer_at`. -/
def timerDue (s : State) : Bool := s.timer.armed && decide (s.timer.compareAt ≤ s.time)

/-! ### The coarse tick (R120, R127, R374) -/

/-- R120: whether the coarse tick may occur now: at any instant while its phase is open, later at its own instants only. -/
def tickDue (s : State) : Bool := !s.tick.settled || decide (s.tick.due ≤ s.time)

/-- R120: the instant of the tick after this one, COARSE_TICK later. -/
def nextTick (s : State) : TickPhase :=
  { settled := true, due := (if s.tick.settled then s.tick.due else s.time) + Config.coarseTick }

/-! ### Line events (R211) -/

/-- R211: a line event is delivered at the fine time `t = T`; a record of another time is no event now (log entry 2). -/
def atTime (t : U64) (s : State) : Bool := decide (t.toNat = s.time)

/-! ### Pins and the wire (R31, R53, R201) -/

/-- What a change of the direction line adds to the wire. -/
def dirWire (d : Dir) (s : State) : List WireEvent := if s.pins.dir = d then [] else [⟨s.time, .dir d⟩]

/-- What a change of the transmit pin's driver adds to the wire. -/
def lineWire (l : TxLine) (s : State) : List WireEvent := if s.pins.line = l then [] else [⟨s.time, .line l⟩]

/-- R201: `dir <- d`. -/
def setDir (d : Dir) (s : State) : State := { s with pins.dir := d, wire := s.wire ++ dirWire d s }

/-- R31: `tx_line <- l`. -/
def setLine (l : TxLine) (s : State) : State := { s with pins.line := l, wire := s.wire ++ lineWire l s }

/-! ### Hand-off flags (R25, R61) -/

/-- R25: the interrupt context hands a frame to the foreground. -/
def raiseFrameReady (s : State) : State := { s with frameReady := true }

/-- R25: the frame is consumed. -/
def clearFrameReady (s : State) : State := { s with frameReady := false }

/-! ### Guards of the sequencers -/

/-- R209: the write states. -/
def inWriteState (s : State) : Bool :=
  match s.mode with
  | .controller => decide (s.ctrlState = .writeSlots)
  | .responder => decide (s.respState = .writeSlots)

/-- R208: the wait states. -/
def inWaitState (s : State) : Bool :=
  match s.mode with
  | .controller => decide (s.ctrlState = .waitTxDone)
  | .responder => decide (s.respState = .waitTxDone)

/-- R209: `TxFifoSpace` is enabled. -/
def fifoSpaceDue (s : State) : Bool := inWriteState s && decide (s.uart.fifo.length < Config.uartTxFifoDepth)

/-- R208: `TxShiftEmpty` is enabled. -/
def shiftEmptyDue (s : State) : Bool := inWaitState s && s.uart.fifo.isEmpty && !s.uart.busy

/-- R232: the break-to-break guard. -/
def breakToBreakOk (s : State) : Bool :=
  !s.timing.lastBreakValid || decide (s.timing.lastBreakStart + Config.ctrlBreakToBreakMin ≤ s.time)

/-- R262: the deadline of the operation in flight has passed, for a value of OP_DEADLINE_TICKS. -/
def deadlineDue (deadline : U32) (s : State) : Bool :=
  decide (s.mode = .controller) && s.curOp.valid
    && tickHasElapsed s.coarseTicks s.timing.opStartTick deadline

/-- R35 (c): the controller states that drive the bus. -/
def ctrlDrives : CtrlState → Bool
  | .driveBreakLow => true
  | .driveMarkHigh => true
  | .writeSlots => true
  | .waitTxDone => true
  | .idle => false
  | .awaitResponse => false
  | .awaitDub => false
  | .rxSlots => false
  | .frameToHost => false

/-- R35 (c), R301: the responder states that drive the bus. -/
def respDrives : RespState → Bool
  | .driveBreak => true
  | .driveMark => true
  | .writeSlots => true
  | .waitTxDone => true
  | .guard => true
  | .idle => false
  | .measureBreak => false
  | .measureMab => false
  | .collectSlots => false
  | .complete => false
  | .dispatch => false
  | .waitDelay => false

end Sys2Proof.Machine
end

