-- ==== Sys2Proof/Machine/Ops.lean ====
section
/-! DEFINITION. The named operations the meanings share: replies and rejections (spec/60_exceptions.md R371), `post`
(R380, what stands here in the place of taking an exception, R385), counters (spec/47_receiver_counters.md R360), the
frame buffer (spec/20_memory.md R50 to R59), the line primitives (spec/43_line_interface.md R202 to R223), `validate`
(spec/41_codec.md R134) and `abort_all` (spec/42_transceiver_ops.md R177). -/

namespace Sys2Proof.Machine

/-- The outcome of a step of this machine. -/
abbrev Outcome := Host.Outcome State Fault Refusal

/-- A computation that may fault, as an outcome. -/
def toOutcome (r : Except Fault State) : Outcome :=
  match r with
  | .ok s => .next s
  | .error f => .fault f

/-! ### Replies and rejections -/

/-- R95: the operation's reply. -/
def answer (r : Reply) (s : State) : State := { s with hostReply := r }

/-- R100, R160, R371: a rejection is the reply `false` and nothing else. -/
def rejectOp (s : State) : Outcome := .next (answer (.bool false) s)

/-- R100: an opcode the host port does not accept is rejected; from any other agent it takes its effect. -/
def internalOnly (s : State) (effect : Outcome) : Outcome := if s.agent = .host then rejectOp s else effect

/-! ### Completion events (R380) -/

/-- R380: `post(ev)`. -/
def post (ev : Completion) (s : State) : State := { s with completions := s.completions ++ [ev] }

/-- R380, U7: a step from `before` that has posted is a fault where the events are now more than COMPLETION_DEPTH. -/
def settle (before after : State) : Outcome :=
  if after.completions.length ≤ before.completions.length then .next after
  else if Config.completionsFit after.completions.length then .next after
  else .fault .completionsFull

/-- R265 (c): the event that ends the operation in flight is posted; `cur_op.valid <- false`; the controller is IDLE. -/
def endOp (cls : FrameClass) (r : ResultCode) (bytes : List Byte) (s : State) : State :=
  { post { token := s.curOp.token, cls := cls, result := r, bytes := bytes } s with
    curOp.valid := false, ctrlState := .idle }

/-- `backoff_until <- t`. -/
def backoff (t : Nat) (s : State) : State := { s with timing.backoffUntil := t }

/-! ### Counters (R360) -/

/-- R360: `inc(c)`. -/
def inc (c : CounterId) (s : State) : State :=
  { s with counters := putCounter c (satSucc (getCounter c s.counters)) s.counters }

/-! ### Memory: the one canonical form -/

/-- The byte at an address, or none where nothing has written it (R30, U1). -/
def memRead : Memory → Nat → Option Byte
  | [], _ => none
  | (k, b) :: rest, a => if a = k then some b else memRead rest a

/-- A byte is written; the list stays strictly rising. -/
def memWrite : Memory → Nat → Byte → Memory
  | [], a, v => [(a, v)]
  | (k, b) :: rest, a, v =>
    if a < k then (a, v) :: (k, b) :: rest
    else if a = k then (a, v) :: rest
    else (k, b) :: memWrite rest a v

/-- Bytes are written from an address up. -/
def memWriteAll : Memory → Nat → List Byte → Memory
  | m, _, [] => m
  | m, a, v :: vs => memWriteAll (memWrite m a v) (a + 1) vs

/-- Addresses are strictly rising from at least `lo`, and each is below FRAME_BUF_SIZE. -/
def memWfFrom : Nat → Memory → Bool
  | _, [] => true
  | lo, (k, _) :: rest => decide (lo ≤ k) && decide (k < Config.frameBufSize) && memWfFrom (k + 1) rest

/-- The canonical form: addresses strictly rising and inside `fb`. An unlisted address has no value, so no entry can equal
what it reads as. -/
def Memory.wf (m : Memory) : Bool := memWfFrom 0 m

/-! ### The frame buffer (R30, R55 to R58) -/

/-- R57, U1: one byte of `fb`. -/
def fbRead (s : State) (a : Nat) : Except Fault Byte :=
  if a < Config.frameBufSize then
    match memRead s.fb a with
    | some b => .ok b
    | none => .error (.unwrittenByte a)
  else .error (.outOfBounds a)

/-- `fb[off .. off+n-1]`. -/
def fbBytes (s : State) (off : Nat) : Nat → Except Fault (List Byte)
  | 0 => .ok []
  | n + 1 =>
    match fbRead s off with
    | .error f => .error f
    | .ok b =>
      match fbBytes s (off + 1) n with
      | .error f => .error f
      | .ok bs => .ok (b :: bs)

/-- R57, U3: bytes written into `fb` from `off` up; a range that passes its end is a fault. -/
def fbWrite (off : Nat) (bytes : List Byte) (s : State) : Except Fault State :=
  if off + bytes.length ≤ Config.frameBufSize then .ok { s with fb := memWriteAll s.fb off bytes }
  else .error (.outOfBounds (off + bytes.length))

/-- R130: `checksum16(off, n)`. -/
def fbChecksum (s : State) (off n : Nat) : Except Fault U16 :=
  if off + n ≤ Config.frameBufSize then (fbBytes s off n).map sum16 else .error (.outOfBounds (off + n))

/-- R135: the parsed header. -/
def fbHeader (s : State) : Except Fault Header :=
  match fbBytes s 0 Config.rdmHeaderSize with
  | .error f => .error f
  | .ok bs =>
    match headerOf bs with
    | some h => .ok h
    | none => .error (.outOfBounds Config.rdmHeaderSize)

/-! ### validate (R134) -/

/-- R134, the tests after the length: the checksum of the declared message length `ml`. -/
def validateChecksum (ml : Nat) (s : State) : Except Fault (ValidateResult × State) := do
  let c ← fbChecksum s 0 ml
  let hi ← fbRead s ml
  let lo ← fbRead s (ml + 1)
  if u16Of hi lo = c then return (.ok, s) else return (.checksumInvalid, inc .rdmChecksumInvalid s)

/-- R134, the tests after the start codes: the declared message length. -/
def validateLength (len : Nat) (s : State) : Except Fault (ValidateResult × State) := do
  let ml ← fbRead s 2
  if ml.toNat < Config.rdmHeaderSize ∨ len - 2 < ml.toNat then
    return (.lengthMismatch, inc .rdmLengthMismatch s)
  else validateChecksum ml.toNat s

/-- R134: `validate(len)`: the first test that fails gives the outcome and at most one counter moves (R376). -/
def validateFrame (len : Nat) (s : State) : Except Fault (ValidateResult × State) :=
  if len < Config.minRdmFrame then .ok (.shortFrame, inc .rdmShortFrame s)
  else do
    let sc ← fbRead s 0
    if sc = Config.scRdm then
      let sub ← fbRead s 1
      if sub = Config.ssc then validateLength len s else return (.notRdm, s)
    else return (.notRdm, s)

/-! ### Codec ownership (R55, R97, U2) -/

/-- Who may issue a codec operation. -/
inductive CodecAccess where
  /-- the collaborator, as the owner of `fb` -/
  | legal
  /-- the host port, which never owns `fb` (log entry 8) -/
  | rejected
  /-- an agent that does not own `fb` (U2) -/
  | violation
deriving DecidableEq, Repr

/-- R55, R97, R391: the collaborator, while `fb_owner = Responder`. The transceiver's own rules (R248, R289, R290) call the
codec's procedures within their steps and issue no operation. -/
def codecAccess (s : State) : CodecAccess :=
  match s.agent with
  | .host => .rejected
  | .collaborator => if s.fbOwner = .responder then .legal else .violation
  | .foreground => .violation
  | .line => .violation
  | .fineTimer => .violation
  | .coarseTick => .violation
  | .uart => .violation
  | .time => .violation

/-- R97, U2: a codec operation takes its effect for the owner of `fb` only. -/
def codecOp (s : State) (effect : Except Fault State) : Outcome :=
  match codecAccess s with
  | .legal => toOutcome effect
  | .rejected => rejectOp s
  | .violation => .fault .fbNotOwned

/-! ### Break generator and slot serializer (R202 to R210) -/

/-- R202: `start_break()`. -/
def startBreak (s : State) : State := arm (s.time + Config.us s.params.breakTime.toNat) (setLine .brk s)

/-- R203: the break ends and the mark begins. -/
def endBreak (s : State) : State := arm (s.time + Config.us s.params.markTime.toNat) (setLine .mark s)

/-- R205: the slot source, `cur_op.data` in controller mode and `fb` in responder mode. -/
def slotSource (s : State) (k : Nat) : Except Fault Byte :=
  match s.mode with
  | .controller =>
    match s.curOp.data[k]? with
    | some b => .ok b
    | none => .error (.outOfBounds k)
  | .responder => fbRead s k

/-- R206: the loop of `feed()`, with at most `fuel` turns. -/
def feedLoop (src : Nat → Except Fault Byte) (depth len : Nat) :
    Nat → List Byte → Nat → Except Fault (List Byte × Nat)
  | 0, fifo, index => .ok (fifo, index)
  | fuel + 1, fifo, index =>
    if fifo.length < depth ∧ index < len then
      match src index with
      | .error f => .error f
      | .ok b => feedLoop src depth len fuel (fifo ++ [b]) (index + 1)
    else .ok (fifo, index)

/-- R206: `feed()`. Each turn moves `tx_index` towards `tx_len`, so `tx_len - tx_index` turns are enough. -/
def feed (s : State) : Except Fault State :=
  match feedLoop (slotSource s) Config.uartTxFifoDepth s.tx.len (s.tx.len - s.tx.index) s.uart.fifo s.tx.index with
  | .error f => .error f
  | .ok (fifo, index) => .ok { s with uart.fifo := fifo, tx.index := index }

/-- R205: `start_slots()`, without the choice of the next state. -/
def startSlots (s : State) : Except Fault State := feed { setLine .uart s with tx.index := 0 }

/-- R210: the character on the wire, if there is one, is cut. -/
def cutWire (s : State) : List WireEvent := if s.uart.busy then [⟨s.time, .cut⟩] else []

/-- R210: flush. -/
def flush (s : State) : State :=
  setLine .mark { s with uart.fifo := [], uart.busy := false, wire := s.wire ++ cutWire s }

/-- R207: one step of the UART transmitter: a character whose SLOT_TIME is over ends; an idle shift register takes the
head of the FIFO. -/
def uartShift (s : State) : State :=
  if s.uart.busy then
    if s.uart.shiftEnd ≤ s.time then { s with uart.busy := false } else s
  else
    match s.uart.fifo with
    | [] => s
    | b :: rest =>
      { s with
        uart := { fifo := rest, busy := true, shiftByte := b, shiftEnd := s.time + Config.slotTime }
        wire := s.wire ++ [⟨s.time, .slot b⟩] }

/-! ### Receive helpers (R220 to R223) -/

/-- R220: `rx_begin()`. -/
def rxBegin (s : State) : State := { s with rx.count := 0 }

/-- R221: `store_byte(b, t)`. While the responder owns `fb` the front end stores no byte (R55). -/
def storeByte (b : Byte) (t : Nat) (s : State) : State :=
  if s.fbOwner = .transceiver ∧ s.rx.count < Config.frameBufSize then
    { s with fb := memWrite s.fb s.rx.count b, rx.count := s.rx.count + 1, timing.tLastByte := t }
  else { s with timing.tLastByte := t }

/-- R222: `length_reached()`. -/
def lengthReached (s : State) : Except Fault Bool :=
  if s.rx.count = Config.frameBufSize then .ok true
  else do
    let sc ← fbRead s 0
    if sc = Config.scRdm ∧ 3 ≤ s.rx.count then
      let ml ← fbRead s 2
      return decide (ml.toNat + 2 ≤ s.rx.count)
    else return false

/-- R223: `interslot_timeout()`. -/
def interslotTimeout (s : State) : Except Fault Nat :=
  match s.mode with
  | .controller => .ok Config.ctrlInterslotTimeout
  | .responder => do
    let sc ← fbRead s 0
    return if sc = Config.scRdm then Config.respRdmInterslotTimeout else Config.respDmxInterslotTimeout

/-! ### Free values -/

/-- The next free value is another one. -/
def drawNext (s : State) : State := { s with draws := s.draws + 1 }

/-- R257: the drawn result of a self-test. -/
def drawnSelfTest (s : State) : ResultCode := if Config.selfTestPasses s.draws then .ok else .selfTestFailed

/-- R296: the drawn jitter of a reply, in `0 .. responder_jitter`. -/
def drawnJitter (s : State) : Nat := Config.jitterOf s.draws s.params.responderJitter.toNat

/-! ### abort_all (R177) -/

/-- R177 (a), (b): the events of the operation in flight and of every queued entry, head first. -/
def abortedEvents (s : State) : List Completion :=
  (if s.curOp.valid then [{ token := s.curOp.token, cls := s.curOp.cls, result := .aborted, bytes := [] }] else [])
    ++ s.txQueue.map (fun e => { token := e.token, cls := e.cls, result := .aborted, bytes := [] })

/-- R177: `abort_all()`. `fb` is not cleared. -/
def abortAll (s : State) : State :=
  { setDir .rx (flush s) with
    completions := s.completions ++ abortedEvents s
    curOp.valid := false
    txQueue := []
    timer.armed := false
    frameReady := false
    ctrlState := .idle
    respState := .idle
    rx := { count := 0, phase := .waitBreak, dubActive := false }
    tx := { index := 0, len := 0 }
    reply := { len := 0, raw := false }
    fbOwner := .transceiver
    timing.lastBreakValid := false
    timing.backoffUntil := 0
    dispatch := none }

end Sys2Proof.Machine
end

