-- ==== Sys2Proof/Machine/CoarseTimer.lean ====
section
/-! DEFINITION. The coarse timer, component C1 (spec/40_coarse_timer.md R120 to R127). -/

namespace Sys2Proof.Machine

/-- R120: `coarse_ticks <- (coarse_ticks + 1) mod 2^32`, once every COARSE_TICK; a tick that is not due does nothing. -/
def execCoarseTick (s : State) : Outcome :=
  internalOnly s
    (.next (if tickDue s then { s with coarseTicks := s.coarseTicks + 1#32, tick := nextTick s } else s))

/-- R121: `now()`. -/
def execNow (s : State) : Outcome := .next (answer (.u32 s.coarseTicks) s)

/-- R122: `elapsed(start)`. -/
def execElapsed (start : U32) (s : State) : Outcome := .next (answer (.u32 (tickDelta start s.coarseTicks)) s)

/-- R123: `delta(start, end)`. -/
def execDelta (start stop : U32) (s : State) : Outcome := .next (answer (.u32 (tickDelta start stop)) s)

/-- R124: `has_elapsed(start, duration)`, strictly greater. -/
def execHasElapsed (start duration : U32) (s : State) : Outcome :=
  .next (answer (.bool (tickHasElapsed s.coarseTicks start duration)) s)

/-- R125: `set_counter(n)`. -/
def execSetCounter (n : U32) (s : State) : Outcome := .next (answer .nothing { s with coarseTicks := n })

end Sys2Proof.Machine
end

