-- ==== Sys2Proof/Machine/Codec.lean ====
section
/-! DEFINITION. The RDM frame codec, component C2 (spec/41_codec.md R130 to R142). Each operation is legal only for the
owner of `fb` (spec/20_memory.md R55). -/

namespace Sys2Proof.Machine

/-- R131: `push_u16(off, v)`. -/
def execPushU16 (off v : U16) (s : State) : Outcome :=
  codecOp s ((fbWrite off.toNat (u16Bytes v) s).map (answer (.u16 (off + 2#16))))

/-- R132: `push_u32(off, v)`. -/
def execPushU32 (off : U16) (v : U32) (s : State) : Outcome :=
  codecOp s ((fbWrite off.toNat (u32Bytes v) s).map (answer (.u16 (off + 4#16))))

/-- R130: `checksum16(off, n)`. -/
def execChecksum16 (off n : U16) (s : State) : Outcome :=
  codecOp s ((fbChecksum s off.toNat n.toNat).map (fun c => answer (.u16 c) s))

/-- R133: the checksum over the declared message length `fb[2]`, written after it. -/
def appendChecksum (s : State) : Except Fault State := do
  let ml ← fbRead s 2
  let c ← fbChecksum s 0 ml.toNat
  fbWrite ml.toNat (u16Bytes c) s

/-- R133: `append_checksum()`. -/
def execAppendChecksum (s : State) : Outcome := codecOp s ((appendChecksum s).map (answer .nothing))

/-- R134: the outcome of `validate`, with the header where it is Ok. -/
def validateReply (len : Nat) (s : State) : Except Fault State := do
  let (r, after) ← validateFrame len s
  if r = .ok then
    let h ← fbHeader after
    return answer (.validation .ok (some h)) after
  else return answer (.validation r none) after

/-- R134: `validate(len)`. -/
def execValidate (len : U16) (s : State) : Outcome := codecOp s (validateReply len.toNat s)

/-- R136: the reply header, in place over the request's. Transaction number, sub-device and parameter id are echoed:
offsets 15, 18, 19, 21 and 22 are not written. -/
def buildReplyHeader (ownUid : Uid) (rtype msgCount pdl : Byte) (s : State) : Except Fault State := do
  let reqSrc ← fbBytes s 9 6
  let cc ← fbRead s 20
  match responseClass cc with
  | none => .error (.unmappedCommandClass cc)
  | some rcc => do
    let s ← fbWrite 0 [Config.scRdm, Config.ssc, 24#8 + pdl] s
    let s ← fbWrite 3 reqSrc s
    let s ← fbWrite 9 ownUid.bytes s
    let s ← fbWrite 16 [rtype, msgCount] s
    let s ← fbWrite 20 [rcc] s
    fbWrite 23 [pdl] s

/-- R136: `build_reply_header(own_uid, rtype, msg_count, pdl)`. A response type outside R136's set and `pdl > 231` are
rejected with `fb` unchanged (spec/93_implementation_defined.md U5; log entry 21). -/
def execBuildReplyHeader (ownUid : Uid) (rtype msgCount pdl : Byte) (s : State) : Outcome :=
  codecOp s
    (if checkReplyHeader rtype pdl = none then
      (buildReplyHeader ownUid rtype msgCount pdl s).map (answer (.u16 24#16))
     else .ok (answer (.bool false) s))

/-- R138: the DUB response of `uid` in `fb[0..23]`. -/
def dubEncode (uid : Uid) (s : State) : Except Fault State := do
  let s ← fbWrite 0 (dubHead uid) s
  let c ← fbChecksum s 8 12
  fbWrite 20 (dubTail c) s

/-- R138: `dub_encode(uid)`. -/
def execDubEncode (uid : Uid) (s : State) : Outcome := codecOp s ((dubEncode uid s).map (answer (.u16 24#16)))

/-- R139: whether the request in `fb` asks for `ownUid`: its bounds are at offsets 24 and 30, both inclusive. -/
def dubInRange (ownUid : Uid) (s : State) : Except Fault Bool := do
  let lower ← fbBytes s 24 6
  let upper ← fbBytes s 30 6
  return decide (compareBytes lower ownUid.bytes ≤ 0 ∧ compareBytes ownUid.bytes upper ≤ 0)

/-- R139: `dub_respond(own_uid, is_muted)`: the signed result, and `fb` after it. -/
def dubRespond (ownUid : Uid) (isMuted : Bool) (s : State) : Except Fault (Int × State) :=
  if isMuted then .ok (0, s)
  else do
    let pdl ← fbRead s 23
    if pdl = 12#8 then
      let hit ← dubInRange ownUid s
      if hit then (dubEncode ownUid s).map (fun t => (-24, t)) else return (0, s)
    else return (0, s)

/-- R139: `dub_respond(own_uid, is_muted)`. -/
def execDubRespond (ownUid : Uid) (isMuted : Bool) (s : State) : Outcome :=
  codecOp s ((dubRespond ownUid isMuted s).map (fun (n, t) => answer (.int n) t))

/-- R140: `uid_compare(a, b)`. -/
def execUidCompare (a b : Uid) (s : State) : Outcome := codecOp s (.ok (answer (.int (compareUid a b)) s))

end Sys2Proof.Machine
end

