-- ==== Sys2Proof/Machine/Controller.lean ====
section
/-! DEFINITION. The controller sequencer, component C3 part 3 (spec/44_controller.md R230 to R263): one definition per
transition, and one per event that says which transition each state takes. All of it has the guard `mode = Controller`. -/

namespace Sys2Proof.Machine

/-- `ctrl_state <- c`. -/
def ctrlGoto (c : CtrlState) (s : State) : State := { s with ctrlState := c }

/-- `rx_phase <- p`. -/
def setPhase (p : RxPhase) (s : State) : State := { s with rx.phase := p }

/-- `t_fall <- t`. -/
def setTFall (t : Nat) (s : State) : State := { s with timing.tFall := t }

/-- A frame is handed to the foreground: `frame_ready <- true`, FRAME_TO_HOST. -/
def frameToHost (s : State) : State := ctrlGoto .frameToHost (raiseFrameReady s)

/-! ### Transmission -/

/-- R234, R235: the state after a feed, WRITE_SLOTS while slots remain. -/
def ctrlAfterFeed (s : State) : State := ctrlGoto (if s.tx.index < s.tx.len then .writeSlots else .waitTxDone) s

/-- R231: start of the operation `e`, whose entry has left the queue. No slot of it has been fed (R19; log entry 14). -/
def startOperation (e : Entry) (rest : List Entry) (s : State) : State :=
  let loaded : State :=
    { s with
      curOp := { valid := true, token := e.token, cls := e.cls, data := e.data }
      txQueue := rest
      timing.opStartTick := s.coarseTicks
      tx := { index := 0, len := e.data.length } }
  let driven := setDir .tx loaded
  ctrlGoto .driveBreakLow
    (startBreak { driven with timing.lastBreakStart := s.time, timing.lastBreakValid := true })

/-- R233, R234, R243, R246, R253: `TimerMatch`; the timer is already disarmed (R214). -/
def ctrlTimerMatch (s : State) : Except Fault State :=
  match s.ctrlState with
  | .driveBreakLow => .ok (ctrlGoto .driveMarkHigh (endBreak s))
  | .driveMarkHigh => (startSlots s).map ctrlAfterFeed
  | .awaitResponse =>
    .ok (endOp .rdmRequest .timeout [] (backoff (s.timing.txEndTime + Config.ctrlMissingResponseBackoff) s))
  | .rxSlots => .ok (frameToHost s)
  | .awaitDub => .ok (frameToHost s)
  | .idle => .ok s
  | .writeSlots => .ok s
  | .waitTxDone => .ok s
  | .frameToHost => .ok s

/-- R235: `TxFifoSpace` in WRITE_SLOTS, when it is enabled (R209). -/
def ctrlFifoSpace (s : State) : Except Fault State :=
  (feed s).map (fun s' => if s'.tx.index = s'.tx.len then ctrlGoto .waitTxDone s' else s')

/-- R236: the common action at the end of a transmission. -/
def endTransmission (s : State) : State :=
  let released := setDir .rx (setLine .mark s)
  { released with timing.txEndTime := s.time }

/-- R236 to R239, R250: `TxShiftEmpty` in WAIT_TX_DONE, when it is enabled (R208). No operation of class SELF_TEST or
MODE_CHANGE is ever transmitted (R257, R381), and no rule gives one a continuation: the common action is all of it (log
entry 13). -/
def ctrlShiftEmpty (s : State) : State :=
  match s.curOp.cls with
  | .dmx => endOp .dmx .ok [] (backoff (s.time + Config.ctrlNonRdmBackoff) (endTransmission s))
  | .asc => endOp .asc .ok [] (backoff (s.time + Config.ctrlNonRdmBackoff) (endTransmission s))
  | .rdmBroadcast => endOp .rdmBroadcast .ok [] (backoff (s.time + Config.ctrlBroadcastBackoff) (endTransmission s))
  | .rdmRequest =>
    ctrlGoto .awaitResponse
      (arm (s.time + s.params.rdmResponseTimeout.toNat) (setPhase .waitBreak (rxBegin (endTransmission s))))
  | .rdmDub =>
    let opened := rxBegin (endTransmission s)
    ctrlGoto .awaitDub (arm (s.time + s.params.rdmResponseTimeout.toNat) { opened with rx.dubActive := false })
  | .selfTest => endTransmission s
  | .modeChange => endTransmission s

/-! ### Awaiting a response (R240 to R246) -/

/-- R252: the first activity of a DUB window. -/
def dubActivate (t : Nat) (s : State) : State :=
  if s.rx.dubActive then s
  else arm (t + s.params.dubResponseLimit.toNat) { s with rx.dubActive := true }

/-- R240, R244, R252, R255: `Fall(t)`. -/
def ctrlFall (t : Nat) (s : State) : State :=
  match s.ctrlState with
  | .awaitResponse =>
    match s.rx.phase with
    | .waitBreak => setPhase .inBreak (setTFall t s)
    | .inBreak => setTFall t s
    | .inMark => s
    | .data => s
  | .rxSlots =>
    match s.rx.phase with
    | .inMark =>
      if t - s.timing.tRise ≤ Config.ctrlRxMarkMax then
        setPhase .data { s with timing.rxMarkDur := t - s.timing.tRise }
      else
        arm (max s.time (s.timing.txEndTime + s.params.rdmResponseTimeout.toNat))
          (setTFall t (setPhase .inBreak (ctrlGoto .awaitResponse (inc .rdmLengthMismatch s))))
    | .waitBreak => s
    | .inBreak => s
    | .data => s
  | .awaitDub => dubActivate t s
  | .idle => s
  | .driveBreakLow => s
  | .driveMarkHigh => s
  | .writeSlots => s
  | .waitTxDone => s
  | .frameToHost => s

/-- R241: the end of a break of duration `d` in AWAIT_RESPONSE. -/
def ctrlBreakEnd (t d : Nat) (s : State) : State :=
  if Config.ctrlRxBreakMin ≤ d ∧ d ≤ Config.ctrlRxBreakMax then
    arm (t + Config.ctrlInterslotTimeout)
      (ctrlGoto .rxSlots
        (setPhase .inMark { s with timing.rxBreakDur := d, timing.tRise := t }))
  else setPhase .waitBreak (inc (if d < Config.ctrlRxBreakMin then .rdmShortFrame else .rdmLengthMismatch) s)

/-- R241, R246, R251, R255: `Rise(t)`. -/
def ctrlRise (t : Nat) (s : State) : State :=
  match s.ctrlState with
  | .awaitResponse => if s.rx.phase = .inBreak then ctrlBreakEnd t (t - s.timing.tFall) s else s
  | .idle => s
  | .driveBreakLow => s
  | .driveMarkHigh => s
  | .writeSlots => s
  | .waitTxDone => s
  | .awaitDub => s
  | .rxSlots => s
  | .frameToHost => s

/-- R245: a byte of a response. -/
def ctrlSlot (b : Byte) (t : Nat) (s : State) : Except Fault State := do
  let stored := storeByte b t (setPhase (if s.rx.phase = .inMark then .data else s.rx.phase) s)
  let done ← lengthReached stored
  if done then return frameToHost (disarm stored) else return arm (t + Config.ctrlInterslotTimeout) stored

/-- R252: a byte of a DUB window. -/
def ctrlDubByte (b : Byte) (t : Nat) (s : State) : State :=
  let stored := storeByte b t (dubActivate t s)
  if stored.rx.count = Config.frameBufSize then frameToHost (disarm stored) else stored

/-- R242, R245, R252, R255: `Byte(b, t)`. -/
def ctrlByte (b : Byte) (t : Nat) (s : State) : Except Fault State :=
  match s.ctrlState with
  | .rxSlots => ctrlSlot b t s
  | .awaitDub => .ok (ctrlDubByte b t s)
  | .idle => .ok s
  | .driveBreakLow => .ok s
  | .driveMarkHigh => .ok s
  | .writeSlots => .ok s
  | .waitTxDone => .ok s
  | .awaitResponse => .ok s
  | .frameToHost => .ok s

/-- R260: the states in which a UART error ends the operation. -/
def ctrlReceives (c : CtrlState) : Bool :=
  match c with
  | .awaitResponse => true
  | .rxSlots => true
  | .awaitDub => true
  | .idle => false
  | .driveBreakLow => false
  | .driveMarkHigh => false
  | .writeSlots => false
  | .waitTxDone => false
  | .frameToHost => false

/-- R260: a UART receive error during an operation. -/
def ctrlErrAbort (kind : UartErr) (s : State) : State :=
  let counted := disarm (inc (uartCounter kind) s)
  endOp s.curOp.cls .aborted []
    (backoff (s.timing.txEndTime
        + (if s.curOp.cls = .rdmDub then Config.ctrlDubBackoff else Config.ctrlMissingResponseBackoff))
      { counted with rx.count := 0 })

/-- R255, R260: `Err(kind, t)`. -/
def ctrlErr (kind : UartErr) (s : State) : State := if ctrlReceives s.ctrlState then ctrlErrAbort kind s else s

/-! ### Foreground transitions (R248, R254, R257, R262) -/

/-- R248, R254: a received frame waits to be handed up. -/
def ctrlFrameWaiting (s : State) : Bool :=
  decide (s.ctrlState = .frameToHost) && (decide (s.curOp.cls = .rdmRequest) || decide (s.curOp.cls = .rdmDub))

/-- R248: hand-up of an RDM response. -/
def handUpResponse (s : State) : Except Fault State := do
  let (r, checked) ← validateFrame s.rx.count s
  let bytes ← fbBytes s 0 s.rx.count
  return endOp .rdmRequest (codeOf r) bytes (clearFrameReady (if r = .ok then inc .rdmFrames checked else checked))

/-- R254: hand-up of a DUB window. -/
def handUpDub (s : State) : Except Fault State := do
  let bytes ← fbBytes s 0 s.rx.count
  return endOp .rdmDub (if s.rx.dubActive then .ok else .timeout) bytes
    (backoff (s.timing.txEndTime + Config.ctrlDubBackoff) (clearFrameReady s))

/-- R248, R254: by the class of the operation. -/
def handUp (s : State) : Except Fault State := if s.curOp.cls = .rdmDub then handUpDub s else handUpResponse s

/-- R262: the operation's deadline. -/
def deadlineAbort (s : State) : State :=
  endOp s.curOp.cls .aborted [] (backoff s.time (rxBegin (clearFrameReady (disarm (setDir .rx (flush s))))))

/-- R257: the self-test at the head of the queue, whose entry is `e`. -/
def runSelfTest (e : Entry) (rest : List Entry) (s : State) : State :=
  post { token := e.token, cls := .selfTest, result := drawnSelfTest s, bytes := [] }
    (drawNext { s with txQueue := rest })

end Sys2Proof.Machine
end

