-- ==== Sys2Proof/Machine/Responder.lean ====
section
/-! DEFINITION. The responder sequencer, component C3 part 4 (spec/45_responder_engine.md R280 to R303): one definition
per transition, and one per event that says which transition each state takes. All of it has the guard
`mode = Responder`. -/

namespace Sys2Proof.Machine

/-- `resp_state <- r`. -/
def respGoto (r : RespState) (s : State) : State := { s with respState := r }

/-- A frame is handed to the foreground: `frame_ready <- true`, COMPLETE. -/
def respComplete (s : State) : State := respGoto .complete (raiseFrameReady s)

/-! ### Reception (R281 to R291) -/

/-- R282, R289: an accepted break of duration `d` that ended at `t`. -/
def respBreakOk (t d : Nat) (s : State) : State :=
  respGoto .measureMab
    (rxBegin { s with timing.rxBreakDur := d, timing.tRise := t, timing.rxMarkDur := 0 })

/-- R282: the end of a break of duration `d`. -/
def respBreakEnd (t d : Nat) (s : State) : State :=
  if Config.respRxBreakMin ≤ d ∧ d ≤ Config.respRxBreakMax then respBreakOk t d s
  else respGoto .idle (inc (if d < Config.respRxBreakMin then .rdmShortFrame else .rdmLengthMismatch) s)

/-- R289: what was received of a frame cut short by a break is counted. -/
def finalizeCut (s : State) : Except Fault State :=
  if s.rx.count = 0 then .ok s
  else do
    let sc ← fbRead s 0
    if sc = Config.scDmx then return inc .dmxFrames s
    else if sc = Config.scRdm then
      let (_, checked) ← validateFrame s.rx.count s
      return checked
    else return s

/-- R289: a break of duration `d` inside a frame. -/
def respBreakInside (t d : Nat) (s : State) : Except Fault State := do
  let counted ← finalizeCut (disarm s)
  if d ≤ Config.respRxBreakMax then
    return respBreakOk t d { counted with timing.tFall := counted.timing.lastFall }
  else
    let dropped := inc .rdmLengthMismatch counted
    return respGoto .idle { dropped with rx.count := 0 }

/-- R301: a break edge during a reply: the rest of the reply is discarded. -/
def respDiscardReply (s : State) : State :=
  let quiet := setDir .rx (disarm (flush s))
  { quiet with reply.len := 0, rx.count := 0 }

/-- R281, R282, R283, R286, R292, R301: `Fall(t)`. -/
def respFall (t : Nat) (s : State) : State :=
  if respDrives s.respState then
    let restarted := respDiscardReply s
    respGoto .measureBreak { restarted with timing.tFall := t }
  else
    match s.respState with
    | .idle => respGoto .measureBreak { s with timing.tFall := t }
    | .measureBreak => { s with timing.tFall := t }
    | .measureMab =>
      { s with
        timing.lastFall := t
        timing.rxMarkDur := if s.timing.rxMarkDur = 0 then t - s.timing.tRise else s.timing.rxMarkDur }
    | .collectSlots => { s with timing.lastFall := t }
    | .complete => s
    | .dispatch => s
    | .waitDelay => s
    | .driveBreak => s
    | .driveMark => s
    | .writeSlots => s
    | .waitTxDone => s
    | .guard => s

/-- R283, R286, R289: a rising edge in MEASURE_MAB or COLLECT_SLOTS: the low period just ended was a break, or the edge of
a character. -/
def respRiseInside (t : Nat) (s : State) : Except Fault State :=
  if Config.respRxBreakMin ≤ t - s.timing.lastFall then respBreakInside t (t - s.timing.lastFall) s else .ok s

/-- R282, R283, R286, R289, R292, R301: `Rise(t)`. -/
def respRise (t : Nat) (s : State) : Except Fault State :=
  if respDrives s.respState then .ok (respGoto .idle (respDiscardReply s))
  else
    match s.respState with
    | .measureBreak => .ok (respBreakEnd t (t - s.timing.tFall) s)
    | .measureMab => respRiseInside t s
    | .collectSlots => respRiseInside t s
    | .idle => .ok s
    | .complete => .ok s
    | .dispatch => .ok s
    | .waitDelay => .ok s
    | .driveBreak => .ok s
    | .driveMark => .ok s
    | .writeSlots => .ok s
    | .waitTxDone => .ok s
    | .guard => .ok s

/-- R283: the first byte, the start code. -/
def respStartCode (b : Byte) (t : Nat) (s : State) : Except Fault State := do
  let stored := storeByte b t s
  let wait ← interslotTimeout stored
  return respGoto .collectSlots (arm (t + wait) stored)

/-- R284: a byte after the first. -/
def respSlot (b : Byte) (t : Nat) (s : State) : Except Fault State := do
  let stored := storeByte b t s
  let done ← lengthReached stored
  if done then return respComplete (disarm stored)
  else
    let wait ← interslotTimeout stored
    return arm (t + wait) stored

/-- R283, R284, R292, R301: `Byte(b, t)`. -/
def respByte (b : Byte) (t : Nat) (s : State) : Except Fault State :=
  match s.respState with
  | .measureMab => respStartCode b t s
  | .collectSlots => respSlot b t s
  | .idle => .ok s
  | .measureBreak => .ok s
  | .complete => .ok s
  | .dispatch => .ok s
  | .waitDelay => .ok s
  | .driveBreak => .ok s
  | .driveMark => .ok s
  | .writeSlots => .ok s
  | .waitTxDone => .ok s
  | .guard => .ok s

/-- R291: a UART error inside a frame aborts it. -/
def respErrAbort (kind : UartErr) (s : State) : State :=
  let counted := disarm (inc (uartCounter kind) s)
  respGoto .idle { counted with rx.count := 0 }

/-- R291, R292, R301: `Err(kind, t)`. -/
def respErr (kind : UartErr) (s : State) : State :=
  match s.respState with
  | .idle => inc (uartCounter kind) s
  | .measureBreak => inc (uartCounter kind) s
  | .measureMab => respErrAbort kind s
  | .collectSlots => respErrAbort kind s
  | .complete => s
  | .dispatch => s
  | .waitDelay => s
  | .driveBreak => s
  | .driveMark => s
  | .writeSlots => s
  | .waitTxDone => s
  | .guard => s

/-! ### Validation, dispatch and the handler's answer (R290, R293) -/

/-- R290: an RDM frame is validated, and dispatched where it is Ok. -/
def respConsumeRdm (s : State) : Except Fault State := do
  let (r, checked) ← validateFrame s.rx.count s
  if r = .ok then
    let h ← fbHeader s
    let owned := inc .rdmFrames checked
    return respGoto .dispatch
      { owned with fbOwner := .responder, dispatch := some { len := s.rx.count, header := h } }
  else return respGoto .idle checked

/-- R290: consuming a completed frame. -/
def respConsume (s : State) : Except Fault State := do
  let sc ← fbRead s 0
  if sc = Config.scDmx then return respGoto .idle (inc .dmxFrames (clearFrameReady s))
  else if sc = Config.scRdm then respConsumeRdm (clearFrameReady s)
  else return respGoto .idle (clearFrameReady s)

/-- R293: `fb` goes back to the transceiver. -/
def reclaimFb (s : State) : State := { s with fbOwner := .transceiver, dispatch := none }

/-- R293: `schedule_reply()`, with the drawn jitter of R296. -/
def scheduleReply (len : Nat) (raw : Bool) (s : State) : State :=
  respGoto .waitDelay
    (drawNext
      (arm (max s.time (s.timing.tLastByte + s.params.responderDelay.toNat + drawnJitter s))
        { s with reply := { len := len, raw := raw } }))

/-- R293: `HandlerReturn(n)` in DISPATCH. -/
def respHandlerReturn (n : Int) (s : State) : Except Fault State :=
  if (Config.frameBufSize : Int) < n then .error (.replyTooLong n)
  else if 0 < n then .ok (scheduleReply n.toNat false (reclaimFb s))
  else if n = -24 then .ok (scheduleReply Config.dubResponseLength true (reclaimFb s))
  else .ok (respGoto .idle (reclaimFb s))

/-- R293: `handler_return(n)`; ignored outside DISPATCH, and not accepted from the host port (R100). -/
def execHandlerReturn (n : U16) (s : State) : Outcome :=
  internalOnly s
    (if s.mode = .responder ∧ s.respState = .dispatch ∧ s.fbOwner = .responder then
      toOutcome (respHandlerReturn n.toInt s)
     else .next s)

/-! ### Reply transmission (R297 to R300) -/

/-- R297, R298: the state after a feed, RESP_WRITE_SLOTS while slots remain. -/
def respAfterFeed (s : State) : State := respGoto (if s.tx.index < s.tx.len then .writeSlots else .waitTxDone) s

/-- R297: start of the reply. No slot of it has been fed (R19; log entry 14). -/
def startReply (s : State) : Except Fault State :=
  let driven := setDir .tx s
  let loaded : State := { driven with tx := { index := 0, len := s.reply.len } }
  if s.reply.raw then (startSlots loaded).map respAfterFeed else .ok (respGoto .driveBreak (startBreak loaded))

/-- R285, R297, R298, R300: `TimerMatch`; the timer is already disarmed (R214). -/
def respTimerMatch (s : State) : Except Fault State :=
  match s.respState with
  | .collectSlots => .ok (respComplete s)
  | .waitDelay => startReply s
  | .driveBreak => .ok (respGoto .driveMark (endBreak s))
  | .driveMark => (startSlots s).map respAfterFeed
  | .guard => .ok (respGoto .idle (setDir .rx s))
  | .idle => .ok s
  | .measureBreak => .ok s
  | .measureMab => .ok s
  | .complete => .ok s
  | .dispatch => .ok s
  | .writeSlots => .ok s
  | .waitTxDone => .ok s

/-- R298: `TxFifoSpace` in RESP_WRITE_SLOTS, when it is enabled (R209). -/
def respFifoSpace (s : State) : Except Fault State :=
  (feed s).map (fun s' => if s'.tx.index = s'.tx.len then respGoto .waitTxDone s' else s')

/-- R299: `TxShiftEmpty` in RESP_WAIT_TX_DONE, when it is enabled (R208): the direction line stays at TX. -/
def respShiftEmpty (s : State) : State := respGoto .guard (arm (s.time + Config.respGuardband) (setLine .mark s))

end Sys2Proof.Machine
end

