-- ==== Sys2Proof/Machine/Events.lean ====
section
/-! DEFINITION. The events of the fine timer, the line and the UART transmitter (spec/43_line_interface.md R208, R209,
R211, R214), each taken by the sequencer that `mode` makes live (spec/44_controller.md R263, spec/45_responder_engine.md
R303), and the `Tasks` step (spec/60_exceptions.md R384). None is accepted from the host port (R100). -/

namespace Sys2Proof.Machine

/-- A sequencer's transition: it may fault, and it may have posted (R380). -/
def settleResult (before : State) (r : Except Fault State) : Outcome :=
  match r with
  | .ok after => settle before after
  | .error f => .fault f

/-- The sequencer that `mode` makes live takes the event. -/
def byMode (s : State) (ctrl resp : Except Fault State) : Outcome :=
  settleResult s
    (match s.mode with
     | .controller => ctrl
     | .responder => resp)

/-- R211, R100: an event of the front end, not accepted from the host port, and taken at its own instant only. -/
def lineEvent (t : U64) (s : State) (effect : Outcome) : Outcome :=
  internalOnly s (if atTime t s then effect else .next s)

/-- R214: `TimerMatch`; where it is not enabled it does nothing. Its step first disarms the timer. -/
def execTimerMatch (s : State) : Outcome :=
  internalOnly s
    (if timerDue s then byMode s (ctrlTimerMatch (disarm s)) (respTimerMatch (disarm s)) else .next s)

/-- R211: `Fall(t)`. -/
def execFall (t : U64) (s : State) : Outcome :=
  lineEvent t s (byMode s (.ok (ctrlFall t.toNat s)) (.ok (respFall t.toNat s)))

/-- R211: `Rise(t)`. -/
def execRise (t : U64) (s : State) : Outcome :=
  lineEvent t s (byMode s (.ok (ctrlRise t.toNat s)) (respRise t.toNat s))

/-- R211: `Byte(b, t)`. -/
def execByte (t : U64) (b : Byte) (s : State) : Outcome :=
  lineEvent t s (byMode s (ctrlByte b t.toNat s) (respByte b t.toNat s))

/-- R211: `Err(kind, t)`. -/
def execErr (t : U64) (kind : UartErr) (s : State) : Outcome :=
  lineEvent t s (byMode s (.ok (ctrlErr kind s)) (.ok (respErr kind s)))

/-- R209: `TxFifoSpace`; where it is not enabled it does nothing. -/
def execTxFifoSpace (s : State) : Outcome :=
  internalOnly s (if fifoSpaceDue s then byMode s (ctrlFifoSpace s) (respFifoSpace s) else .next s)

/-- R208: `TxShiftEmpty`; where it is not enabled it does nothing. -/
def execTxShiftEmpty (s : State) : Outcome :=
  internalOnly s
    (if shiftEmptyDue s then byMode s (.ok (ctrlShiftEmpty s)) (.ok (respShiftEmpty s)) else .next s)

/-! ### The Tasks step (R384) -/

/-- R384, priority 2: a frame waits for the foreground. -/
def frameWaiting (s : State) : Bool :=
  s.frameReady &&
    (match s.mode with
     | .controller => ctrlFrameWaiting s
     | .responder => decide (s.respState = .complete))

/-- R383: one completion event is delivered. -/
def deliver (s : State) : State :=
  match s.completions with
  | [] => s
  | ev :: rest => { s with completions := rest, delivered := s.delivered ++ [ev] }

/-- R384, priorities 3 to 5: the head of the queue in IDLE, else a delivery. -/
def tasksQueue (s : State) : State :=
  match s.txQueue with
  | [] => deliver s
  | e :: rest =>
    if s.mode = .controller ∧ s.ctrlState = .idle then
      if e.cls = .selfTest then runSelfTest e rest s
      else if s.timing.backoffUntil ≤ s.time ∧ breakToBreakOk s = true then startOperation e rest s
      else deliver s
    else deliver s

/-- R384: one `Tasks` step performs the first action whose guard holds, for a value of OP_DEADLINE_TICKS (R3). -/
def tasksUnder (deadline : U32) (s : State) : Outcome :=
  internalOnly s
    (if deadlineDue deadline s then settle s (deadlineAbort s)
     else if frameWaiting s then byMode s (handUp s) (respConsume s)
     else settle s (tasksQueue s))

/-- R384: `Tasks`. -/
def execTasks (s : State) : Outcome := tasksUnder Config.opDeadlineTicks s

end Sys2Proof.Machine
end

