-- ==== Sys2Proof/Machine/HostOps.lean ====
section
/-! DEFINITION. The transceiver host operations, component C3 part 1 (spec/42_transceiver_ops.md R160 to R183). -/

namespace Sys2Proof.Machine

/-! ### Mode and reset -/

/-- R161: a real change of mode aborts everything first. -/
def changeMode (mode : Mode) (s : State) : State := if mode = s.mode then s else { abortAll s with mode := mode }

/-- R161: the completion event of a tokened mode change. -/
def modeEvent (token : U16) : Completion := { token := token, cls := .modeChange, result := .ok, bytes := [] }

/-- R161: `set_mode(mode, has_token, token)`. -/
def execSetMode (mode : Mode) (hasToken : Bool) (token : U16) (s : State) : Outcome :=
  settle s
    (answer .nothing (if hasToken then post (modeEvent token) (changeMode mode s) else changeMode mode s))

/-- R176: `reset()`. -/
def execReset (s : State) : Outcome := settle s (answer .nothing (abortAll s))

/-! ### Timing parameters (R163 to R175) -/

/-- R11, R163: the legal break times, µs. -/
def breakTimeLegal (t : U16) : Bool := decide (44 ≤ t.toNat ∧ t.toNat ≤ 800)
/-- R12, R165: the legal mark times, µs. -/
def markTimeLegal (t : U16) : Bool := decide (4 ≤ t.toNat ∧ t.toNat ≤ 800)
/-- R14, R169: the legal responder delays, TU. -/
def responderDelayLegal (d : U32) : Bool :=
  decide (Config.respDelayMin ≤ d.toNat ∧ d.toNat ≤ Config.respDelayMax)

/-- A parameter write that is accepted (R175). -/
def acceptParams (p : Params) (s : State) : Outcome := .next (answer (.bool true) { s with params := p })

/-- R163: `set_break_time(t)`. -/
def execSetBreakTime (t : U16) (s : State) : Outcome :=
  if breakTimeLegal t then acceptParams { s.params with breakTime := t } s else rejectOp s

/-- R164: `get_break_time()`. -/
def execGetBreakTime (s : State) : Outcome := .next (answer (.u16 s.params.breakTime) s)

/-- R165: `set_mark_time(t)`. -/
def execSetMarkTime (t : U16) (s : State) : Outcome :=
  if markTimeLegal t then acceptParams { s.params with markTime := t } s else rejectOp s

/-- R166: `get_mark_time()`. -/
def execGetMarkTime (s : State) : Outcome := .next (answer (.u16 s.params.markTime) s)

/-- R167: `set_rdm_response_timeout(t)`; every value is accepted (R13). -/
def execSetRdmResponseTimeout (t : U32) (s : State) : Outcome :=
  acceptParams { s.params with rdmResponseTimeout := t } s

/-- R168: `get_rdm_response_timeout()`. -/
def execGetRdmResponseTimeout (s : State) : Outcome := .next (answer (.u32 s.params.rdmResponseTimeout) s)

/-- R169: `set_responder_delay(d)`. -/
def execSetResponderDelay (d : U32) (s : State) : Outcome :=
  if responderDelayLegal d then acceptParams { s.params with responderDelay := d } s else rejectOp s

/-- R170: `get_responder_delay()`. -/
def execGetResponderDelay (s : State) : Outcome := .next (answer (.u32 s.params.responderDelay) s)

/-- R171: `set_responder_jitter(j)`; every value is accepted (R15). -/
def execSetResponderJitter (j : U32) (s : State) : Outcome := acceptParams { s.params with responderJitter := j } s

/-- R172: `get_responder_jitter()`. -/
def execGetResponderJitter (s : State) : Outcome := .next (answer (.u32 s.params.responderJitter) s)

/-- R173: `set_dub_response_limit(l)`; every value is accepted (R16). -/
def execSetDubResponseLimit (l : U32) (s : State) : Outcome := acceptParams { s.params with dubResponseLimit := l } s

/-- R174: `get_dub_response_limit()`. -/
def execGetDubResponseLimit (s : State) : Outcome := .next (answer (.u32 s.params.dubResponseLimit) s)

/-! ### Enqueue operations (R178 to R183) -/

/-- R178: the mode and the room an enqueue needs. -/
def queueHasRoom (s : State) : Bool :=
  decide (s.mode = .controller) && decide (s.txQueue.length < Config.txQueueDepth)

/-- R178: an admitted entry goes to the tail. -/
def enqueue (e : Entry) (s : State) : Outcome := .next (answer (.bool true) { s with txQueue := s.txQueue ++ [e] })

/-- R178: the common admission rule; the engine puts the start code before the host's bytes. -/
def enqueueFrame (token : U16) (cls : FrameClass) (startCode : Byte) (bytes : List Byte) (s : State) : Outcome :=
  if queueHasRoom s = true ∧ bytes.length ≤ Config.txSlotsMax then
    enqueue { token := token, cls := cls, data := startCode :: bytes } s
  else rejectOp s

/-- R179: `queue_dmx(token, bytes, len)`. -/
def execQueueDmx (token : U16) (bytes : List Byte) (s : State) : Outcome :=
  enqueueFrame token .dmx Config.scDmx bytes s

/-- R180: `queue_asc(token, start_code, bytes, len)`; every start code is accepted. -/
def execQueueAsc (token : U16) (startCode : Byte) (bytes : List Byte) (s : State) : Outcome :=
  enqueueFrame token .asc startCode bytes s

/-- R181: `queue_rdm_dub(token, bytes, len)`. -/
def execQueueRdmDub (token : U16) (bytes : List Byte) (s : State) : Outcome :=
  enqueueFrame token .rdmDub Config.scRdm bytes s

/-- R182: `queue_rdm_request(token, bytes, len, is_broadcast)`; `is_broadcast` is trusted. -/
def execQueueRdmRequest (token : U16) (isBroadcast : Bool) (bytes : List Byte) (s : State) : Outcome :=
  enqueueFrame token (if isBroadcast then .rdmBroadcast else .rdmRequest) Config.scRdm bytes s

/-- R183: `queue_self_test(token)`: an entry without data. -/
def execQueueSelfTest (token : U16) (s : State) : Outcome :=
  if queueHasRoom s then enqueue { token := token, cls := .selfTest, data := [] } s else rejectOp s

end Sys2Proof.Machine
end

