-- ==== Sys2Proof/Machine/ReceiverCounters.lean ====
section
/-! DEFINITION. The receiver counters, component C5 (spec/47_receiver_counters.md R360 to R363). -/

namespace Sys2Proof.Machine

/-- R363: `read_counter(index)`; an index above 7 is rejected (R100). -/
def execReadCounter (index : Byte) (s : State) : Outcome :=
  match counterOfIndex index with
  | some c => .next (answer (.u16 (getCounter c s.counters)) s)
  | none => rejectOp s

/-- R362: the last three of the five counters JR lists are cleared, the others kept. -/
def clearCommsStatus (k : Counters) : Counters :=
  { k with rdmShortFrame := 0#16, rdmLengthMismatch := 0#16, rdmChecksumInvalid := 0#16 }

/-- R362: `reset_comms_status()`. -/
def execResetCommsStatus (s : State) : Outcome :=
  .next (answer .nothing { s with counters := clearCommsStatus s.counters })

/-- R360: `increment_counter(index)`, internal: not accepted from the host port, and the UART error counters only from
the front end (R100). -/
def execIncrementCounter (index : Byte) (s : State) : Outcome :=
  internalOnly s
    (match counterOfIndex index with
     | some c => if isUartCounter c = true ∧ s.agent ≠ .line then rejectOp s else .next (inc c s)
     | none => rejectOp s)

end Sys2Proof.Machine
end

