-- ==== Sys2Proof/Machine/Dispatch.lean ====
section
/-! DEFINITION. The effect of every instruction: one arm per row of spec/opcode_table.json, in the table's order. -/

namespace Sys2Proof.Machine

def exec (i : Instr) (s : State) : Host.Outcome State Fault Refusal :=
  match i with
  | .setMode mode hasToken token => Sys2Proof.Machine.execSetMode mode hasToken token s
  | .reset => Sys2Proof.Machine.execReset s
  | .queueDmx token bytes => Sys2Proof.Machine.execQueueDmx token bytes s
  | .queueAsc token startCode bytes => Sys2Proof.Machine.execQueueAsc token startCode bytes s
  | .queueRdmDub token bytes => Sys2Proof.Machine.execQueueRdmDub token bytes s
  | .queueRdmRequest token isBroadcast bytes => Sys2Proof.Machine.execQueueRdmRequest token isBroadcast bytes s
  | .queueSelfTest token => Sys2Proof.Machine.execQueueSelfTest token s
  | .setBreakTime t => Sys2Proof.Machine.execSetBreakTime t s
  | .getBreakTime => Sys2Proof.Machine.execGetBreakTime s
  | .setMarkTime t => Sys2Proof.Machine.execSetMarkTime t s
  | .getMarkTime => Sys2Proof.Machine.execGetMarkTime s
  | .setRdmResponseTimeout t => Sys2Proof.Machine.execSetRdmResponseTimeout t s
  | .getRdmResponseTimeout => Sys2Proof.Machine.execGetRdmResponseTimeout s
  | .setResponderDelay d => Sys2Proof.Machine.execSetResponderDelay d s
  | .getResponderDelay => Sys2Proof.Machine.execGetResponderDelay s
  | .setResponderJitter j => Sys2Proof.Machine.execSetResponderJitter j s
  | .getResponderJitter => Sys2Proof.Machine.execGetResponderJitter s
  | .setDubResponseLimit l => Sys2Proof.Machine.execSetDubResponseLimit l s
  | .getDubResponseLimit => Sys2Proof.Machine.execGetDubResponseLimit s
  | .now => Sys2Proof.Machine.execNow s
  | .elapsed start => Sys2Proof.Machine.execElapsed start s
  | .delta start stop => Sys2Proof.Machine.execDelta start stop s
  | .hasElapsed start duration => Sys2Proof.Machine.execHasElapsed start duration s
  | .setCounter n => Sys2Proof.Machine.execSetCounter n s
  | .readCounter index => Sys2Proof.Machine.execReadCounter index s
  | .resetCommsStatus => Sys2Proof.Machine.execResetCommsStatus s
  | .incrementCounter index => Sys2Proof.Machine.execIncrementCounter index s
  | .pushU16 off v => Sys2Proof.Machine.execPushU16 off v s
  | .pushU32 off v => Sys2Proof.Machine.execPushU32 off v s
  | .checksum16 off n => Sys2Proof.Machine.execChecksum16 off n s
  | .appendChecksum => Sys2Proof.Machine.execAppendChecksum s
  | .validate len => Sys2Proof.Machine.execValidate len s
  | .buildReplyHeader ownUid rtype msgCount pdl => Sys2Proof.Machine.execBuildReplyHeader ownUid rtype msgCount pdl s
  | .dubEncode uid => Sys2Proof.Machine.execDubEncode uid s
  | .dubRespond ownUid isMuted => Sys2Proof.Machine.execDubRespond ownUid isMuted s
  | .uidCompare a b => Sys2Proof.Machine.execUidCompare a b s
  | .handlerReturn n => Sys2Proof.Machine.execHandlerReturn n s
  | .tasks => Sys2Proof.Machine.execTasks s
  | .coarseTick => Sys2Proof.Machine.execCoarseTick s
  | .timerMatch => Sys2Proof.Machine.execTimerMatch s
  | .fall t => Sys2Proof.Machine.execFall t s
  | .rise t => Sys2Proof.Machine.execRise t s
  | .byte t b => Sys2Proof.Machine.execByte t b s
  | .err t kind => Sys2Proof.Machine.execErr t kind s
  | .txFifoSpace => Sys2Proof.Machine.execTxFifoSpace s
  | .txShiftEmpty => Sys2Proof.Machine.execTxShiftEmpty s

end Sys2Proof.Machine
end

