-- ==== Sys2Proof/Machine/Fetch.lean ====
section
/-! DEFINITION. How the next step is found: the head of the inbox (log entry 1), a packet of an agent, a step of the UART
transmitter (spec/43_line_interface.md R207) or the passing of time (spec/00_scope.md R4); whose step each instruction is
(R6); and how one instruction given as a number is placed there. -/

namespace Sys2Proof.Machine

/-- What the head of the inbox asks for. -/
inductive Fetched where
  /-- an instruction, to be run on this state -/
  | run (i : Instr) (s : State)
  /-- a step that is no instruction and leads to this state -/
  | done (s : State)
deriving DecidableEq, Repr

/-! ### Whose step an instruction is (R6, R391) -/

/-- The kinds of step of R6's table. -/
inductive StepKind where
  /-- one host operation (R95) -/
  | hostOp
  /-- a host operation that the responder's COMMS_STATUS uses too: `reset_comms_status` and `read_counter` (R337, R362,
  R363) -/
  | commsStatus
  /-- the internal `increment_counter` (R100, R360) -/
  | increment
  /-- a codec operation (R97) -/
  | codec
  /-- the collaborator's answer (R293) -/
  | handlerReturn
  | tasks
  | coarseTick
  | timerMatch
  /-- `Fall`, `Rise`, `Byte`, `Err` (R211) -/
  | lineEvent
  /-- `TxFifoSpace`, `TxShiftEmpty` (R208, R209) -/
  | uartEvent
deriving DecidableEq, Repr

/-- R6, R95 to R98: the kind of step an instruction is. -/
def stepKind (i : Instr) : StepKind :=
  match i with
  | .setMode _ _ _ => .hostOp
  | .reset => .hostOp
  | .queueDmx _ _ => .hostOp
  | .queueAsc _ _ _ => .hostOp
  | .queueRdmDub _ _ => .hostOp
  | .queueRdmRequest _ _ _ => .hostOp
  | .queueSelfTest _ => .hostOp
  | .setBreakTime _ => .hostOp
  | .getBreakTime => .hostOp
  | .setMarkTime _ => .hostOp
  | .getMarkTime => .hostOp
  | .setRdmResponseTimeout _ => .hostOp
  | .getRdmResponseTimeout => .hostOp
  | .setResponderDelay _ => .hostOp
  | .getResponderDelay => .hostOp
  | .setResponderJitter _ => .hostOp
  | .getResponderJitter => .hostOp
  | .setDubResponseLimit _ => .hostOp
  | .getDubResponseLimit => .hostOp
  | .now => .hostOp
  | .elapsed _ => .hostOp
  | .delta _ _ => .hostOp
  | .hasElapsed _ _ => .hostOp
  | .setCounter _ => .hostOp
  | .readCounter _ => .commsStatus
  | .resetCommsStatus => .commsStatus
  | .incrementCounter _ => .increment
  | .pushU16 _ _ => .codec
  | .pushU32 _ _ => .codec
  | .checksum16 _ _ => .codec
  | .appendChecksum => .codec
  | .validate _ => .codec
  | .buildReplyHeader _ _ _ _ => .codec
  | .dubEncode _ => .codec
  | .dubRespond _ _ => .codec
  | .uidCompare _ _ => .codec
  | .handlerReturn _ => .handlerReturn
  | .tasks => .tasks
  | .coarseTick => .coarseTick
  | .timerMatch => .timerMatch
  | .fall _ => .lineEvent
  | .rise _ => .lineEvent
  | .byte _ _ => .lineEvent
  | .err _ _ => .lineEvent
  | .txFifoSpace => .uartEvent
  | .txShiftEmpty => .uartEvent

/-- R6, R391: the agents whose step a kind is. The collaborator's are its codec operations, its answer (R320), and the
counter operations of COMMS_STATUS (R337; log entry 8). `increment_counter` is no step of any agent. -/
def mayIssue (agent : Agent) (kind : StepKind) : Bool :=
  match kind with
  | .hostOp => decide (agent = .host)
  | .commsStatus => decide (agent = .host ∨ agent = .collaborator)
  | .increment => false
  | .codec => decide (agent = .collaborator)
  | .handlerReturn => decide (agent = .collaborator)
  | .tasks => decide (agent = .foreground)
  | .coarseTick => decide (agent = .coarseTick)
  | .timerMatch => decide (agent = .fineTimer)
  | .lineEvent => decide (agent = .line)
  | .uartEvent => decide (agent = .uart)

/-- R100, R360, R361: the agents within whose steps the internal `increment_counter` is called: the codec in the
collaborator's, the frame-consuming rules in the foreground's, the front end in the line's. -/
def mayCall (agent : Agent) (kind : StepKind) : Bool :=
  match kind with
  | .increment => decide (agent = .collaborator ∨ agent = .foreground ∨ agent = .line)
  | .hostOp => false
  | .commsStatus => false
  | .codec => false
  | .handlerReturn => false
  | .tasks => false
  | .coarseTick => false
  | .timerMatch => false
  | .lineEvent => false
  | .uartEvent => false

/-! ### The next step -/

/-- A packet under an agent, of the kinds `legal` accepts. One that does not decode (R100), and one of another kind (R6; log
entry 8), is discarded with reply `false` and no other change. -/
def fetchPacket (legal : Agent → StepKind → Bool) (agent : Agent) (bytes : List Byte) (s : State) : Fetched :=
  match decode bytes with
  | .ok i =>
    if legal agent (stepKind i) then .run i { s with agent := agent }
    else .done (answer (.bool false) { s with agent := agent })
  | .error _ => .done (answer (.bool false) { s with agent := agent })

/-- R4, R120: time passes by `d` TU. It does not pass the instant of a coarse tick: there it stops, and the tick occurs
before the rest of `d` passes (log entry 15). -/
def fetchElapse (d : Nat) (rest : List Stimulus) (s : State) : Fetched :=
  if s.time + d ≤ s.tick.due then .done { s with inbox := rest, agent := .time, time := s.time + d }
  else if s.time < s.tick.due then
    .done { s with inbox := .elapse (s.time + d - s.tick.due) :: rest, agent := .time, time := s.tick.due }
  else .run .coarseTick { s with agent := .coarseTick }

/-- The next step of the machine. With nothing in the inbox no agent moves. -/
def fetch (s : State) : Fetched :=
  match s.inbox with
  | [] => .done s
  | .packet agent bytes :: rest => fetchPacket mayIssue agent bytes { s with inbox := rest }
  | .inner agent bytes :: rest => fetchPacket mayCall agent bytes { s with inbox := rest }
  | .uartShift :: rest => .done (uartShift { s with inbox := rest, agent := .uart })
  | .elapse d :: rest => fetchElapse d rest s

/-! ### Placing an instruction -/

/-- R6: an agent whose step a kind is; for `increment_counter`, the front end, within whose steps every index is called. -/
def issuer : StepKind → Agent
  | .hostOp => .host
  | .commsStatus => .host
  | .increment => .line
  | .codec => .collaborator
  | .handlerReturn => .collaborator
  | .tasks => .foreground
  | .coarseTick => .coarseTick
  | .timerMatch => .fineTimer
  | .lineEvent => .line
  | .uartEvent => .uart

/-- R290, R320: the dispatch hand-off: the collaborator issues codec operations only while it holds `fb`. -/
def handOff (s : State) : State := { s with mode := .responder, respState := .dispatch, fbOwner := .responder }

/-- An instruction of a kind, placed at the head of the inbox under its agent. -/
def placeKind (kind : StepKind) (bytes : List Byte) (s : State) : State :=
  if kind = .increment then { s with inbox := .inner (issuer kind) bytes :: s.inbox }
  else if kind = .codec then { handOff s with inbox := .packet (issuer kind) bytes :: s.inbox }
  else { s with inbox := .packet (issuer kind) bytes :: s.inbox }

/-- An instruction given as a number, placed at the head of the inbox; one the decoder refuses comes from the host port (log
entry 1). -/
def placeWord (nbits w : Nat) (s : State) : State :=
  match decodeTableWord nbits w with
  | some i => placeKind (stepKind i) (tablePacket nbits w) s
  | none => placeKind .hostOp (tablePacket nbits w) s

end Sys2Proof.Machine
end

