-- ==== Sys2Proof/Machine/Step.lean ====
section
/-! DEFINITION. One step of the machine: one step of exactly one agent (spec/00_scope.md R6). -/

namespace Sys2Proof.Machine

/-- R6: the agent at the head of the inbox takes its step. -/
def step (s : State) : Host.Outcome State Fault Refusal :=
  match fetch s with
  | .run i s' => exec i s'
  | .done s' => .next s'

/-- `s` with the instruction of `nbits` bits `w` placed where `step` takes its next one (log entry 1). -/
def State.withFetchWord (s : State) (nbits w : Nat) : State := placeWord nbits w s

end Sys2Proof.Machine
end

