-- ==== Sys2Proof/Safety.lean ====
section
/-! DEFINITION. What a safe run is, in the terms the statements use: the invariants of the block (spec/10_state.md R19,
R35 and the bounds of its registers), the states a run can reach, and the line of operation tokens (spec/44_controller.md
R265). -/

namespace Sys2Proof.Safety

open Sys2Proof.Machine

/-- R35: the invariants a model may rely on, (a) to (f). -/
structure SequencerInv (s : State) : Prop where
  /-- (a), first half -/
  respIdle : s.mode = .controller → s.respState = .idle
  /-- (a), second half -/
  ctrlIdle : s.mode = .responder → s.ctrlState = .idle ∧ s.txQueue = [] ∧ s.curOp.valid = false
  /-- (b) -/
  inFlight : s.curOp.valid = true ↔ s.ctrlState ≠ .idle
  /-- (c) -/
  dirTx : s.pins.dir = .tx ↔ ctrlDrives s.ctrlState = true ∨ respDrives s.respState = true
  /-- (d) -/
  owner : s.fbOwner = .responder ↔ s.respState = .dispatch
  /-- (e) -/
  lineBreak : s.pins.line = .brk ↔ s.ctrlState = .driveBreakLow ∨ s.respState = .driveBreak
  /-- (f) -/
  uartQuiet : s.uart.fifo ≠ [] ∨ s.uart.busy = true → s.pins.dir = .tx

/-- The parameter registers hold legal values (R11, R12, R14). -/
structure ParamsLegal (p : Params) : Prop where
  breakTime : 44 ≤ p.breakTime.toNat ∧ p.breakTime.toNat ≤ 800
  markTime : 4 ≤ p.markTime.toNat ∧ p.markTime.toNat ≤ 800
  responderDelay : 1760 ≤ p.responderDelay.toNat ∧ p.responderDelay.toNat ≤ 20000

/-- The controller states in which slots of `cur_op` are still to be fed or have been fed. -/
def ctrlHoldsSlots : CtrlState → Bool
  | .driveBreakLow => true
  | .driveMarkHigh => true
  | .writeSlots => true
  | .waitTxDone => true
  | .idle => false
  | .awaitResponse => false
  | .awaitDub => false
  | .rxSlots => false
  | .frameToHost => false

/-- The responder states in which the slots of the reply are still to be fed or have been fed. -/
def respHoldsSlots : RespState → Bool
  | .driveBreak => true
  | .driveMark => true
  | .writeSlots => true
  | .waitTxDone => true
  | .idle => false
  | .measureBreak => false
  | .measureMab => false
  | .collectSlots => false
  | .complete => false
  | .dispatch => false
  | .waitDelay => false
  | .guard => false

/-- The bounds and contents of queues, buffers and indices. -/
structure BufferInv (s : State) : Prop where
  /-- `fb` keeps its canonical form, inside FRAME_BUF_SIZE (R30, R53) -/
  fbWf : s.fb.wf = true
  /-- R19 -/
  rxBound : s.rx.count ≤ Config.frameBufSize
  /-- every byte of the reception has been written (R221) -/
  rxWritten : ∀ k, k < s.rx.count → (memRead s.fb k).isSome = true
  /-- a frame in COLLECT_SLOTS or COMPLETE has its start code -/
  rxStarted : s.respState = .collectSlots ∨ s.respState = .complete → 0 < s.rx.count
  /-- R28 -/
  queueBound : s.txQueue.length ≤ Config.txQueueDepth
  /-- R28 -/
  entryBound : ∀ e ∈ s.txQueue, e.data.length ≤ Config.frameBufSize
  /-- R26 -/
  opBound : s.curOp.data.length ≤ Config.frameBufSize
  /-- R29 -/
  eventsFit : Config.completionsFit s.completions.length = true
  /-- R32 -/
  fifoBound : s.uart.fifo.length ≤ Config.uartTxFifoDepth
  /-- R19 -/
  txLenBound : s.tx.len ≤ Config.frameBufSize
  /-- the reply fits `fb` (R293) -/
  replyBound : s.reply.len ≤ Config.frameBufSize
  /-- R205: `tx_len` is the length of the operation in the states that feed it -/
  ctrlTxLen : ctrlHoldsSlots s.ctrlState = true → s.tx.len = s.curOp.data.length
  /-- R205: `tx_len` is the length of the reply in the states that feed it -/
  respTxLen : respHoldsSlots s.respState = true → s.tx.len = s.reply.len
  /-- R19 -/
  txIndex : s.tx.index ≤ s.tx.len
  /-- R299: the last character of a reply has left the UART before RESP_GUARD -/
  guardQuiet : s.respState = .guard → s.uart.fifo = [] ∧ s.uart.busy = false
  /-- R25: `frame_ready` is set exactly while a frame waits for the foreground -/
  ready : s.frameReady = true ↔ s.ctrlState = .frameToHost ∨ s.respState = .complete
  /-- R10 -/
  paramsLegal : ParamsLegal s.params

/-- Which classes stand where (R231, R236, R381). -/
structure ClassInv (s : State) : Prop where
  queueClass : ∀ e ∈ s.txQueue, e.cls ≠ .modeChange
  opClass : s.curOp.valid = true → s.curOp.cls ≠ .selfTest ∧ s.curOp.cls ≠ .modeChange
  responseClass : s.ctrlState = .awaitResponse ∨ s.ctrlState = .rxSlots → s.curOp.cls = .rdmRequest
  dubClass : s.ctrlState = .awaitDub → s.curOp.cls = .rdmDub
  frameClass : s.ctrlState = .frameToHost → s.curOp.cls = .rdmRequest ∨ s.curOp.cls = .rdmDub

/-- R120: the next coarse tick lies ahead, by at most one period. -/
structure TickInv (s : State) : Prop where
  ahead : s.time ≤ s.tick.due
  near : s.tick.due ≤ s.time + 100000

/-- R27, R211: no captured instant lies in the future. -/
structure CapturedInv (s : State) : Prop where
  lastBreakStart : s.timing.lastBreakStart ≤ s.time
  txEndTime : s.timing.txEndTime ≤ s.time
  tFall : s.timing.tFall ≤ s.time
  tRise : s.timing.tRise ≤ s.time
  lastFall : s.timing.lastFall ≤ s.time
  tLastByte : s.timing.tLastByte ≤ s.time

/-- The invariant of the block. -/
structure BlockInv (s : State) : Prop where
  seq : SequencerInv s
  buf : BufferInv s
  cls : ClassInv s
  tick : TickInv s
  captured : CapturedInv s

/-- R6: a stimulus is a step of one of the agents; an internal operation that stands alone is not. -/
def isAgentStep : Stimulus → Bool
  | .packet _ _ => true
  | .inner _ _ => false
  | .uartShift => true
  | .elapse _ => true

/-- The states of the runs of the machine: from power-on, with any agents' steps placed in the inbox at any time. -/
inductive Reachable : State → Prop where
  | reset : Reachable State.reset
  | place (s : State) (stimuli : List Stimulus) :
    stimuli.all isAgentStep = true → Reachable s → Reachable { s with inbox := s.inbox ++ stimuli }
  | step (s t : State) : Reachable s → step s = .next t → Reachable t

/-- R125: the next step of `s` is the test injection `set_counter`. -/
def InjectsCounter (s : State) : Prop :=
  ∃ bytes rest n, s.inbox = .packet .host bytes :: rest ∧ decode bytes = .ok (.setCounter n)

/-- R126: the runs from `s` without a `set_counter`, with the number of coarse ticks that occurred in them: a step is a tick
where the instant of the next tick has moved (R120). -/
inductive TickRun (s : State) : Nat → State → Prop where
  | start : TickRun s 0 s
  | place (k : Nat) (t : State) (stimuli : List Stimulus) :
    TickRun s k t → TickRun s k { t with inbox := t.inbox ++ stimuli }
  | tick (k : Nat) (t u : State) : TickRun s k t → step t = .next u → u.tick ≠ t.tick → TickRun s (k + 1) u
  | other (k : Nat) (t u : State) :
    TickRun s k t → step t = .next u → u.tick = t.tick → ¬ InjectsCounter t → TickRun s k u

/-- R262: OP_DEADLINE_TICKS covers the longest operation under the configured timeouts. Where it does not, healthy
operations are aborted. -/
def DeadlineCovers (p : Params) : Prop :=
  Config.deadlineFloor (p.rdmResponseTimeout.toNat + p.dubResponseLimit.toNat) ≤ Config.opDeadlineTicks.toNat

/-- Instructions run one after the other on a state, each by `exec`. -/
def execAll : List Instr → State → Outcome
  | [], s => .next s
  | i :: rest, s =>
    match exec i s with
    | .next t => execAll rest t
    | .fault f => .fault f
    | .refused r => .refused r

/-- The codec operations of format C, opcodes 0x40 to 0x48 (R96). -/
def isCodecOp (i : Instr) : Bool := decide (0x40 ≤ i.opcode.toNat ∧ i.opcode.toNat ≤ 0x48)

/-- R265: the tokens of the operations in the order the host
sees them end: delivered, posted, in flight, queued. Mode changes are no operations. -/
def opLine (s : State) : List U16 :=
  ((s.delivered ++ s.completions).filter (fun ev => decide (ev.cls ≠ .modeChange))).map Completion.token
    ++ (if s.curOp.valid then [s.curOp.token] else []) ++ s.txQueue.map Entry.token

/-- R178: the token an enqueue operation adds when it is admitted. -/
def admittedFrame (token : U16) (bytes : List Byte) (s : State) : List U16 :=
  if queueHasRoom s = true ∧ bytes.length ≤ Config.txSlotsMax then [token] else []

/-- R178, R183: the tokens an instruction admits. -/
def admitted (i : Instr) (s : State) : List U16 :=
  match i with
  | .queueDmx token bytes => admittedFrame token bytes s
  | .queueAsc token _ bytes => admittedFrame token bytes s
  | .queueRdmDub token bytes => admittedFrame token bytes s
  | .queueRdmRequest token _ bytes => admittedFrame token bytes s
  | .queueSelfTest token => if queueHasRoom s then [token] else []
  | .setMode _ _ _ => []
  | .reset => []
  | .setBreakTime _ => []
  | .getBreakTime => []
  | .setMarkTime _ => []
  | .getMarkTime => []
  | .setRdmResponseTimeout _ => []
  | .getRdmResponseTimeout => []
  | .setResponderDelay _ => []
  | .getResponderDelay => []
  | .setResponderJitter _ => []
  | .getResponderJitter => []
  | .setDubResponseLimit _ => []
  | .getDubResponseLimit => []
  | .now => []
  | .elapsed _ => []
  | .delta _ _ => []
  | .hasElapsed _ _ => []
  | .setCounter _ => []
  | .readCounter _ => []
  | .resetCommsStatus => []
  | .incrementCounter _ => []
  | .pushU16 _ _ => []
  | .pushU32 _ _ => []
  | .checksum16 _ _ => []
  | .appendChecksum => []
  | .validate _ => []
  | .buildReplyHeader _ _ _ _ => []
  | .dubEncode _ => []
  | .dubRespond _ _ => []
  | .uidCompare _ _ => []
  | .handlerReturn _ => []
  | .tasks => []
  | .coarseTick => []
  | .timerMatch => []
  | .fall _ => []
  | .rise _ => []
  | .byte _ _ => []
  | .err _ _ => []
  | .txFifoSpace => []
  | .txShiftEmpty => []

/-- Every byte of the scheduled reply has been written (spec/93_implementation_defined.md U1). -/
def ReplyWritten (s : State) : Prop := ∀ k, k < s.reply.len → (memRead s.fb k).isSome = true

/-- R55, R97: the present step is the collaborator's, and it owns `fb`. -/
def OwnsFb (s : State) : Prop := s.agent = .collaborator ∧ s.fbOwner = .responder

/-- The sum of bytes as a natural number (R84, R130). -/
def byteSum (f : List Byte) : Nat := (f.map BitVec.toNat).sum

/-- R23, R24: the eight counters in the order of their indices. -/
def counterList (k : Counters) : List U16 :=
  [k.dmxFrames, k.rdmFrames, k.rdmShortFrame, k.rdmLengthMismatch, k.rdmChecksumInvalid, k.uartFramingErrors,
    k.uartParityErrors, k.uartOverrunErrors]

/-- R360: a counter after one increment, `min(c + 1, 0xFFFF)`. -/
def upOne (v : U16) : U16 := BitVec.ofNat 16 (min (v.toNat + 1) 0xFFFF)

/-- R23, R24, R360: the counters after one increment of the counter of an index. -/
def countUp (index : Nat) (k : Counters) : Counters :=
  match index with
  | 0 => { k with dmxFrames := upOne k.dmxFrames }
  | 1 => { k with rdmFrames := upOne k.rdmFrames }
  | 2 => { k with rdmShortFrame := upOne k.rdmShortFrame }
  | 3 => { k with rdmLengthMismatch := upOne k.rdmLengthMismatch }
  | 4 => { k with rdmChecksumInvalid := upOne k.rdmChecksumInvalid }
  | 5 => { k with uartFramingErrors := upOne k.uartFramingErrors }
  | 6 => { k with uartParityErrors := upOne k.uartParityErrors }
  | 7 => { k with uartOverrunErrors := upOne k.uartOverrunErrors }
  | _ => k

/-- The bytes `f` stand in `fb` from offset `off`. -/
def FbHolds (s : State) (off : Nat) (f : List Byte) : Prop :=
  ∀ k b, f[k]? = some b → memRead s.fb (off + k) = some b

end Sys2Proof.Safety
end

