-- ==== Sys2Proof/Certificates/Slice0/Obligations.lean ====
section
/-! DEFINITION. The statements about the JRX block, for the provers: from single instructions to the invariant every step
keeps. An equation `exec i s = .next { s with … }` is also the instruction's frame: what the update does not name is
unchanged. `s.agent` is the agent of the present step (log entry 8). -/

open Sys2Proof Sys2Proof.Machine Sys2Proof.Safety

/-! ### The step and the encoding -/

/-- R6, R95: the packet at the head of the inbox (log entry 1) is decoded and its instruction run, where it is a step of the
packet's agent; the head leaves the inbox and the agent of the step is the packet's. A packet of another agent's step is
discarded with the reply `false` (the model's choice, log entry 8). The internal `increment_counter` is no agent's step, and
stands alone only as a call within one (R100, R360; log entry 8). -/
def Obligations.StepRunsDecodedInstruction : Prop :=
  ∀ (s : State) (agent : Agent) (bytes : List Byte) (rest : List Stimulus) (i : Instr), decode bytes = .ok i →
    (s.inbox = .packet agent bytes :: rest →
      (mayIssue agent (stepKind i) = true → step s = exec i { s with inbox := rest, agent := agent }) ∧
      (mayIssue agent (stepKind i) = false →
        step s = .next { s with inbox := rest, agent := agent, hostReply := .bool false })) ∧
    (s.inbox = .inner agent bytes :: rest →
      (mayCall agent (stepKind i) = true → step s = exec i { s with inbox := rest, agent := agent }) ∧
      (mayCall agent (stepKind i) = false →
        step s = .next { s with inbox := rest, agent := agent, hostReply := .bool false }))

/-- R100: a packet that does not decode is discarded with the reply `false`, and an opcode byte outside the table of R96 never
decodes. That the packet leaves the inbox is the model's (log entries 1 and 10). -/
def Obligations.UndecodablePacketsAreDiscarded : Prop :=
  (∀ (s : State) (agent : Agent) (bytes : List Byte) (rest : List Stimulus) (e : DecodeError),
    s.inbox = .packet agent bytes :: rest ∨ s.inbox = .inner agent bytes :: rest → decode bytes = .error e →
      step s = .next { s with inbox := rest, agent := agent, hostReply := .bool false }) ∧
  ∀ (op : Byte) (rest : List Byte),
    op.toNat ∉ [0x01, 0x02, 0x03, 0x04, 0x05, 0x06, 0x07, 0x10, 0x11, 0x12, 0x13, 0x14, 0x15, 0x16, 0x17, 0x18, 0x19,
      0x1A, 0x1B, 0x20, 0x21, 0x22, 0x23, 0x24, 0x28, 0x29, 0x2A, 0x40, 0x41, 0x42, 0x43, 0x44, 0x45, 0x46, 0x47, 0x48,
      0x50, 0x80, 0x81, 0x82, 0x83, 0x84, 0x85, 0x86, 0x87, 0x88] →
    decode (op :: rest) = .error (.unknownOpcode op)

/-- R4, R120, R207: the steps that come of no packet. Time grows by what the schedule says and does not pass the instant of a
coarse tick: there it stops, and the tick occurs (log entry 15); the UART transmitter ends a character whose 440 TU are
over, or takes the next byte of the FIFO; with an empty inbox nothing moves (log entries 1, 2, 11). -/
def Obligations.TimeAndTransmitterSteps : Prop :=
  ∀ (s : State) (rest : List Stimulus),
    (s.inbox = [] → step s = .next s) ∧
    (∀ d, s.inbox = .elapse d :: rest →
      (s.time + d ≤ s.tick.due → step s = .next { s with inbox := rest, agent := .time, time := s.time + d }) ∧
      (s.tick.due < s.time + d → s.time < s.tick.due →
        step s = .next { s with
          inbox := .elapse (s.time + d - s.tick.due) :: rest, agent := .time, time := s.tick.due }) ∧
      (s.tick.due < s.time + d → s.tick.due ≤ s.time →
        step s = .next { s with
          agent := .coarseTick
          coarseTicks := s.coarseTicks + 1#32
          tick := { settled := true, due := (if s.tick.settled then s.tick.due else s.time) + 100000 } })) ∧
    (s.inbox = .uartShift :: rest → s.uart.busy = true → s.uart.shiftEnd ≤ s.time →
      step s = .next { s with inbox := rest, agent := .uart, uart.busy := false }) ∧
    (s.inbox = .uartShift :: rest → s.uart.busy = true → s.time < s.uart.shiftEnd →
      step s = .next { s with inbox := rest, agent := .uart }) ∧
    (s.inbox = .uartShift :: rest → s.uart.busy = false → s.uart.fifo = [] →
      step s = .next { s with inbox := rest, agent := .uart }) ∧
    (∀ b tail, s.inbox = .uartShift :: rest → s.uart.busy = false → s.uart.fifo = b :: tail →
      step s = .next { s with
        inbox := rest, agent := .uart
        uart := { fifo := tail, busy := true, shiftByte := b, shiftEnd := s.time + 440 }
        wire := s.wire ++ [⟨s.time, .slot b⟩] })

/-- R95, R97, R98: decoding the packet of a well-formed instruction gives the instruction back, with every operand at every
value its encoding admits. -/
def Obligations.DecodeOfEncode : Prop := ∀ i : Instr, i.WellFormed → decode (encode i) = .ok i

/-- R95, R100: a packet that decodes stands for a well-formed instruction and is exactly that instruction's packet, so
every packet has one meaning. That none is accepted with a byte missing or left over is the model's choice, on which the
spec is silent (DESIGN CHOICE, log entry 10). -/
def Obligations.EncodeOfDecode : Prop :=
  ∀ (bytes : List Byte) (i : Instr), decode bytes = .ok i → i.WellFormed ∧ encode i = bytes

/-- R96, R97: words written out from the opcode map and the operand rules decode to their instructions, and the two results
of `dub_respond` are two's-complement 16-bit in the packet. -/
def Obligations.WrittenOutWordsDecode : Prop :=
  decode [0x01#8, 0x01#8, 0x01#8, 0x00#8, 0x09#8] = .ok (.setMode .responder true 9#16) ∧
  decode [0x03#8, 0x00#8, 0x01#8, 0x00#8, 0x02#8, 0xFF#8, 0x80#8] = .ok (.queueDmx 1#16 [0xFF#8, 0x80#8]) ∧
  decode [0x23#8, 0x00#8, 0x00#8, 0x00#8, 0x64#8, 0x00#8, 0x00#8, 0x00#8, 0x05#8]
    = .ok (.hasElapsed 100#32 5#32) ∧
  decode [0x28#8, 0x07#8] = .ok (.readCounter 7#8) ∧
  decode [0x45#8, 0x7A#8, 0x70#8, 0x00#8, 0x00#8, 0x00#8, 0x01#8, 0x00#8, 0x00#8, 0x02#8]
    = .ok (.buildReplyHeader ⟨0x7A#8, 0x70#8, 0x00#8, 0x00#8, 0x00#8, 0x01#8⟩ 0#8 0#8 2#8) ∧
  decode [0x50#8, 0xFF#8, 0xE8#8] = .ok (.handlerReturn (BitVec.ofInt 16 (-24))) ∧
  decode [0x85#8, 0x00#8, 0x00#8, 0x00#8, 0x00#8, 0x00#8, 0x00#8, 0x03#8, 0xE8#8, 0xCC#8]
    = .ok (.byte 1000#64 0xCC#8) ∧
  replyBytes (.int (-24)) = [0xFF#8, 0xE8#8] ∧ replyBytes (.int 0) = [0x00#8, 0x00#8]

/-- R100: the internal operations, handler returns and events are not accepted from the host port. -/
def Obligations.HostCannotForgeInternalSteps : Prop :=
  ∀ (i : Instr) (s : State), s.agent = .host →
    (i.opcode = 0x2A#8 ∨ i.opcode = 0x50#8 ∨ (0x80 ≤ i.opcode.toNat ∧ i.opcode.toNat ≤ 0x88)) →
    exec i s = .next { s with hostReply := .bool false }

/-! ### Coarse timer -/

/-- R120 to R125: the tick and the coarse timer's operations, as arithmetic on natural numbers modulo 2^32. A tick occurs at
any instant while its phase is open, then once every 100 000 TU, and does nothing at another instant (log entry 15). -/
def Obligations.CoarseTimerOperations : Prop :=
  ∀ (s : State) (a b : U32),
    (s.agent ≠ .host → s.tick.settled = false →
      exec .coarseTick s = .next { s with
        coarseTicks := BitVec.ofNat 32 ((s.coarseTicks.toNat + 1) % 2 ^ 32)
        tick := { settled := true, due := s.time + 100000 } }) ∧
    (s.agent ≠ .host → s.tick.settled = true → s.tick.due ≤ s.time →
      exec .coarseTick s = .next { s with
        coarseTicks := BitVec.ofNat 32 ((s.coarseTicks.toNat + 1) % 2 ^ 32)
        tick := { settled := true, due := s.tick.due + 100000 } }) ∧
    (s.agent ≠ .host → s.tick.settled = true → s.time < s.tick.due → exec .coarseTick s = .next s) ∧
    exec .now s = .next { s with hostReply := .u32 s.coarseTicks } ∧
    exec (.elapsed a) s =
      .next { s with hostReply := .u32 (BitVec.ofNat 32 ((s.coarseTicks.toNat + 2 ^ 32 - a.toNat) % 2 ^ 32)) } ∧
    exec (.delta a b) s = .next { s with hostReply := .u32 (BitVec.ofNat 32 ((b.toNat + 2 ^ 32 - a.toNat) % 2 ^ 32)) } ∧
    exec (.hasElapsed a b) s =
      .next { s with
        hostReply := .bool (decide (b.toNat < (s.coarseTicks.toNat + 2 ^ 32 - a.toNat) % 2 ^ 32)) } ∧
    exec (.setCounter a) s = .next { s with coarseTicks := a, hostReply := .nothing }

/-- R126: in every run without a `set_counter`, `k` ticks after a `now()` that returned `s.coarseTicks`, `elapsed` of it is
`k` and `has_elapsed` of it is `k > d`. R127: where the next tick lies at most one period ahead, as in every reachable state,
`k` ticks mean that between `k - 1` and `k + 1` tick periods of 100 000 TU passed, and a `has_elapsed` that answers true means
that at least `d` whole periods passed. That half leans on the exact period and the field `tick` of log entry 15
(DEDUCED). -/
def Obligations.TickArithmeticLaw : Prop :=
  ∀ (s t : State) (k : Nat), TickRun s k t →
    (k < 2 ^ 32 →
      exec (.elapsed s.coarseTicks) t = .next { t with hostReply := .u32 (BitVec.ofNat 32 k) } ∧
      ∀ d : U32, exec (.hasElapsed s.coarseTicks d) t = .next { t with hostReply := .bool (decide (d.toNat < k)) }) ∧
    (TickInv s →
      s.time + (k - 1) * 100000 ≤ t.time ∧ t.time ≤ s.time + (k + 1) * 100000 ∧
      ∀ d : U32, exec (.hasElapsed s.coarseTicks d) t = .next { t with hostReply := .bool true } →
        s.time + d.toNat * 100000 ≤ t.time)

/-! ### Receiver counters -/

/-- R362, R363: a counter is read by its index and an index above 7 is rejected; `reset_comms_status()` clears three counters
and keeps the other five. -/
def Obligations.CountersAreReadAndCleared : Prop :=
  ∀ (s : State) (index : Byte),
    (∀ v, (counterList s.counters)[index.toNat]? = some v →
      exec (.readCounter index) s = .next { s with hostReply := .u16 v }) ∧
    (7 < index.toNat → exec (.readCounter index) s = .next { s with hostReply := .bool false }) ∧
    ∃ k, exec .resetCommsStatus s = .next { s with counters := k, hostReply := .nothing } ∧
      counterList k = [s.counters.dmxFrames, s.counters.rdmFrames, 0#16, 0#16, 0#16, s.counters.uartFramingErrors,
        s.counters.uartParityErrors, s.counters.uartOverrunErrors]

/-- R360, R100: one counter moves, to `min(c + 1, 0xFFFF)`; the UART error counters only by the front end (log entry 19);
elsewhere a rejection. -/
def Obligations.IncrementSaturates : Prop :=
  ∀ (s : State) (index : Byte), s.agent ≠ .host →
    (index.toNat ≤ 4 ∨ (index.toNat ≤ 7 ∧ s.agent = .line) →
      ∃ k, exec (.incrementCounter index) s = .next { s with counters := k } ∧
        counterList k = (counterList s.counters).modify index.toNat
          (fun v => BitVec.ofNat 16 (min (v.toNat + 1) 0xFFFF))) ∧
    (7 < index.toNat ∨ (4 < index.toNat ∧ s.agent ≠ .line) →
      exec (.incrementCounter index) s = .next { s with hostReply := .bool false })

/-- R364 (a): no instruction makes one of the five total and error counters smaller, and only `reset_comms_status()`
makes any counter smaller. -/
def Obligations.CountersNeverFall : Prop :=
  ∀ (i : Instr) (s t : State) (n : Nat) (a b : U16), exec i s = .next t →
    (counterList s.counters)[n]? = some a → (counterList t.counters)[n]? = some b →
    (i ≠ .resetCommsStatus ∨ n = 0 ∨ n = 1 ∨ 5 ≤ n) → a.toNat ≤ b.toNat

/-! ### Parameters -/

/-- R164, R166 to R168, R170 to R174: each getter returns its register, and the setters of the response timeout, the jitter
and the DUB limit accept every value. -/
def Obligations.GettersAndUnboundedSetters : Prop :=
  ∀ (s : State) (v : U32),
    exec .getBreakTime s = .next { s with hostReply := .u16 s.params.breakTime } ∧
    exec .getMarkTime s = .next { s with hostReply := .u16 s.params.markTime } ∧
    exec .getRdmResponseTimeout s = .next { s with hostReply := .u32 s.params.rdmResponseTimeout } ∧
    exec .getResponderDelay s = .next { s with hostReply := .u32 s.params.responderDelay } ∧
    exec .getResponderJitter s = .next { s with hostReply := .u32 s.params.responderJitter } ∧
    exec .getDubResponseLimit s = .next { s with hostReply := .u32 s.params.dubResponseLimit } ∧
    exec (.setRdmResponseTimeout v) s = .next { s with params.rdmResponseTimeout := v, hostReply := .bool true } ∧
    exec (.setResponderJitter v) s = .next { s with params.responderJitter := v, hostReply := .bool true } ∧
    exec (.setDubResponseLimit v) s = .next { s with params.dubResponseLimit := v, hostReply := .bool true }

/-- R163, R165, R169: the bounded setters, both bounds accepted. -/
def Obligations.BoundedSetters : Prop :=
  ∀ (s : State) (t : U16) (d : U32),
    exec (.setBreakTime t) s =
      (if 44 ≤ t.toNat ∧ t.toNat ≤ 800 then .next { s with params.breakTime := t, hostReply := .bool true }
       else .next { s with hostReply := .bool false }) ∧
    exec (.setMarkTime t) s =
      (if 4 ≤ t.toNat ∧ t.toNat ≤ 800 then .next { s with params.markTime := t, hostReply := .bool true }
       else .next { s with hostReply := .bool false }) ∧
    exec (.setResponderDelay d) s =
      (if 1760 ≤ d.toNat ∧ d.toNat ≤ 20000 then .next { s with params.responderDelay := d, hostReply := .bool true }
       else .next { s with hostReply := .bool false })

/-! ### Queue, mode, reset -/

/-- R178 to R183: an admitted frame goes to the tail with its class and its start code before the host's bytes, a self-test
without data; otherwise the reply is `false` and nothing else changes. -/
def Obligations.EnqueueAdmitsOrRejects : Prop :=
  ∀ (s : State) (token : U16) (sc : Byte) (bytes : List Byte),
    exec (.queueSelfTest token) s =
      (if s.mode = .controller ∧ s.txQueue.length < Config.txQueueDepth then
        .next { s with txQueue := s.txQueue ++ [⟨token, .selfTest, []⟩], hostReply := .bool true }
       else .next { s with hostReply := .bool false }) ∧
    ((s.mode = .controller ∧ s.txQueue.length < Config.txQueueDepth ∧ bytes.length ≤ 512) →
      exec (.queueDmx token bytes) s =
        .next { s with txQueue := s.txQueue ++ [⟨token, .dmx, 0x00#8 :: bytes⟩], hostReply := .bool true } ∧
      exec (.queueAsc token sc bytes) s =
        .next { s with txQueue := s.txQueue ++ [⟨token, .asc, sc :: bytes⟩], hostReply := .bool true } ∧
      exec (.queueRdmDub token bytes) s =
        .next { s with txQueue := s.txQueue ++ [⟨token, .rdmDub, 0xCC#8 :: bytes⟩], hostReply := .bool true } ∧
      exec (.queueRdmRequest token true bytes) s =
        .next { s with txQueue := s.txQueue ++ [⟨token, .rdmBroadcast, 0xCC#8 :: bytes⟩], hostReply := .bool true } ∧
      exec (.queueRdmRequest token false bytes) s =
        .next { s with txQueue := s.txQueue ++ [⟨token, .rdmRequest, 0xCC#8 :: bytes⟩], hostReply := .bool true }) ∧
    (¬ (s.mode = .controller ∧ s.txQueue.length < Config.txQueueDepth ∧ bytes.length ≤ 512) →
      exec (.queueDmx token bytes) s = .next { s with hostReply := .bool false } ∧
      exec (.queueAsc token sc bytes) s = .next { s with hostReply := .bool false } ∧
      exec (.queueRdmDub token bytes) s = .next { s with hostReply := .bool false } ∧
      ∀ isBroadcast, exec (.queueRdmRequest token isBroadcast bytes) s = .next { s with hostReply := .bool false })

/-- R176, R177: what `reset()` leaves: the operation in flight and the queue come back as aborted, in that order; both
sequencers are IDLE; the line is released; mode, parameters, counters, coarse ticks and `fb` stay. -/
def Obligations.ResetAbortsEverything : Prop :=
  ∀ (s : State) (aborted : List Completion),
    aborted = (if s.curOp.valid = true then [⟨s.curOp.token, s.curOp.cls, .aborted, []⟩] else [])
      ++ s.txQueue.map (fun e => ⟨e.token, e.cls, .aborted, []⟩) →
    (aborted = [] ∨ Config.completionsFit (s.completions ++ aborted).length = true) →
    ∃ wire, exec .reset s = .next { s with
      completions := s.completions ++ aborted
      curOp.valid := false
      txQueue := []
      uart := { s.uart with fifo := [], busy := false }
      pins := { dir := .rx, line := .mark }
      wire := s.wire ++ wire
      timer.armed := false
      frameReady := false
      ctrlState := .idle
      respState := .idle
      rx := { count := 0, phase := .waitBreak, dubActive := false }
      tx := { index := 0, len := 0 }
      reply := { len := 0, raw := false }
      fbOwner := .transceiver
      timing := { s.timing with lastBreakValid := false, backoffUntil := 0 }
      dispatch := none
      hostReply := .nothing }

/-- R161: a request for the mode in force only posts its token; a real change does what `reset()` does, then changes the
mode, then posts its token. -/
def Obligations.SetModeAbortsOnARealChange : Prop :=
  ∀ (s : State) (mode : Mode) (token : U16),
    (mode = s.mode →
      exec (.setMode mode false token) s = .next { s with hostReply := .nothing } ∧
      (Config.completionsFit (s.completions.length + 1) = true →
        exec (.setMode mode true token) s = .next { s with
          completions := s.completions ++ [⟨token, .modeChange, .ok, []⟩], hostReply := .nothing })) ∧
    (mode ≠ s.mode → ∀ r, exec .reset s = .next r →
      exec (.setMode mode false token) s = .next { r with mode := mode } ∧
      (Config.completionsFit (r.completions.length + 1) = true →
        exec (.setMode mode true token) s = .next { r with
          mode := mode, completions := r.completions ++ [⟨token, .modeChange, .ok, []⟩] }))

/-! ### Codec -/

/-- R131, R132, R57: the push helpers write big-endian bytes at any offset, return the next offset and leave every other byte
of `fb`; past the end of `fb` they fault. -/
def Obligations.PushHelpersWriteBigEndian : Prop :=
  ∀ (s : State) (off v : U16) (w : U32), OwnsFb s →
    (off.toNat + 2 ≤ 513 → ∃ fb, exec (.pushU16 off v) s = .next { s with fb := fb, hostReply := .u16 (off + 2#16) } ∧
      memRead fb off.toNat = some (BitVec.ofNat 8 (v.toNat / 256)) ∧
      memRead fb (off.toNat + 1) = some (BitVec.ofNat 8 v.toNat) ∧
      ∀ a, a < off.toNat ∨ off.toNat + 2 ≤ a → memRead fb a = memRead s.fb a) ∧
    (off.toNat + 4 ≤ 513 → ∃ fb, exec (.pushU32 off w) s = .next { s with fb := fb, hostReply := .u16 (off + 4#16) } ∧
      memRead fb off.toNat = some (BitVec.ofNat 8 (w.toNat / 16777216)) ∧
      memRead fb (off.toNat + 1) = some (BitVec.ofNat 8 (w.toNat / 65536)) ∧
      memRead fb (off.toNat + 2) = some (BitVec.ofNat 8 (w.toNat / 256)) ∧
      memRead fb (off.toNat + 3) = some (BitVec.ofNat 8 w.toNat) ∧
      ∀ a, a < off.toNat ∨ off.toNat + 4 ≤ a → memRead fb a = memRead s.fb a) ∧
    (513 < off.toNat + 2 → ∃ a, exec (.pushU16 off v) s = .fault (.outOfBounds a)) ∧
    (513 < off.toNat + 4 → ∃ a, exec (.pushU32 off w) s = .fault (.outOfBounds a))

/-- R130, R57: the checksum of a written range is the sum of its bytes modulo 2^16, and nothing but the reply changes; a
range past the end of `fb` is a fault. -/
def Obligations.ChecksumIsTheByteSum : Prop :=
  ∀ (s : State) (off n : U16), OwnsFb s →
    (∀ f : List Byte, FbHolds s off.toNat f → f.length = n.toNat → off.toNat + n.toNat ≤ 513 →
      exec (.checksum16 off n) s = .next { s with hostReply := .u16 (BitVec.ofNat 16 (byteSum f % 65536)) }) ∧
    (513 < off.toNat + n.toNat → ∃ a, exec (.checksum16 off n) s = .fault (.outOfBounds a))

/-- R133: `append_checksum()` over the declared length, for every value of `fb[2]` whose bytes have been written. -/
def Obligations.AppendChecksumWritesTheSum : Prop :=
  ∀ (s : State) (f : List Byte) (ml : Byte), OwnsFb s → memRead s.fb 2 = some ml → FbHolds s 0 f →
    f.length = ml.toNat →
    ∃ fb, exec .appendChecksum s = .next { s with fb := fb, hostReply := .nothing } ∧
      memRead fb ml.toNat = some (BitVec.ofNat 8 (byteSum f / 256)) ∧
      memRead fb (ml.toNat + 1) = some (BitVec.ofNat 8 (byteSum f)) ∧
      ∀ a, a < ml.toNat ∨ ml.toNat + 2 ≤ a → memRead fb a = memRead s.fb a

/-- R134, R135: the five outcomes of `validate`, tested in the order of the rule, over the received bytes `f`; at most one
counter moves. -/
def Obligations.ValidateOutcomes : Prop :=
  ∀ (s : State) (len : U16) (f : List Byte) (ml : Nat), OwnsFb s → FbHolds s 0 f → f.length = len.toNat →
    ml = (f.getD 2 0#8).toNat →
    (len.toNat < 26 →
      exec (.validate len) s =
        .next { s with counters := countUp 2 s.counters, hostReply := .validation .shortFrame none }) ∧
    (26 ≤ len.toNat → f.getD 0 0#8 ≠ 0xCC#8 ∨ f.getD 1 0#8 ≠ 0x01#8 →
      exec (.validate len) s = .next { s with hostReply := .validation .notRdm none }) ∧
    (26 ≤ len.toNat → f.getD 0 0#8 = 0xCC#8 → f.getD 1 0#8 = 0x01#8 → ml < 24 ∨ len.toNat - 2 < ml →
      exec (.validate len) s =
        .next { s with counters := countUp 3 s.counters, hostReply := .validation .lengthMismatch none }) ∧
    (26 ≤ len.toNat → f.getD 0 0#8 = 0xCC#8 → f.getD 1 0#8 = 0x01#8 → 24 ≤ ml → ml ≤ len.toNat - 2 →
      (f.getD ml 0#8).toNat * 256 + (f.getD (ml + 1) 0#8).toNat ≠ byteSum (f.take ml) % 65536 →
      exec (.validate len) s =
        .next { s with counters := countUp 4 s.counters, hostReply := .validation .checksumInvalid none }) ∧
    (26 ≤ len.toNat → f.getD 0 0#8 = 0xCC#8 → f.getD 1 0#8 = 0x01#8 → 24 ≤ ml → ml ≤ len.toNat - 2 →
      (f.getD ml 0#8).toNat * 256 + (f.getD (ml + 1) 0#8).toNat = byteSum (f.take ml) % 65536 →
      ∃ h, headerBytes h = f.take 24 ∧
        exec (.validate len) s = .next { s with hostReply := .validation .ok (some h) })

/-- R135 (P1): a header and parameter data written into `fb`, completed by `append_checksum()`, validate to that header. -/
def Obligations.SerializedFrameValidates : Prop :=
  ∀ (s : State) (h : Header) (pd : List Byte) (len : U16), OwnsFb s → h.ml.toNat = 24 + pd.length →
    len.toNat = 26 + pd.length → FbHolds s 0 (headerBytes h ++ pd) →
    ∃ fb, execAll [.appendChecksum, .validate len] s =
        .next { s with fb := fb, hostReply := .validation .ok (some h) } ∧
      ∀ a, a < 24 + pd.length ∨ 26 + pd.length ≤ a → memRead fb a = memRead s.fb a

/-- R136, R137 (P2): the reply header over the request header, in place: destination, source, transaction number,
sub-device, parameter id, class and length as the rule says, every byte from offset 24 on unchanged. The class numbers other
than 0x10 are PRESUMED (log entry 18). -/
def Obligations.ReplyHeaderAnswersTheRequest : Prop :=
  ∀ (s : State) (own : Uid) (rtype msgCount pdl b0 b1 rcc : Byte) (req : Header), OwnsFb s →
    rtype.toNat ≤ 3 → pdl.toNat ≤ 231 → FbHolds s 0 (b0 :: b1 :: (headerBytes req).drop 2) →
    (req.cc, rcc) ∈ [(0x10#8, 0x11#8), (0x20#8, 0x21#8), (0x30#8, 0x31#8)] →
    ∃ fb, exec (.buildReplyHeader own rtype msgCount pdl) s = .next { s with fb := fb, hostReply := .u16 24#16 } ∧
      FbHolds { s with fb := fb } 0
        (headerBytes { ml := 24#8 + pdl, destUid := req.srcUid, srcUid := own, tn := req.tn, portId := rtype,
                       msgCount := msgCount, subDevice := req.subDevice, cc := rcc, pid := req.pid, pdl := pdl }) ∧
      ∀ a, 24 ≤ a → memRead fb a = memRead s.fb a

/-- R138, R86: the 24 bytes of a DUB response; the checksum of the expanded UID bytes is `0x05FA` plus the sum of the UID's
bytes. -/
def Obligations.DubEncodeWritesTheResponse : Prop :=
  ∀ (s : State) (uid : Uid) (c : Nat), OwnsFb s → c = 0x05FA + byteSum uid.bytes →
    ∃ fb, exec (.dubEncode uid) s = .next { s with fb := fb, hostReply := .u16 24#16 } ∧
      FbHolds { s with fb := fb } 0
        (List.replicate 7 0xFE#8 ++ [0xAA#8] ++ uid.bytes.flatMap (fun b => [b ||| 0xAA#8, b ||| 0x55#8]) ++
          [BitVec.ofNat 8 (c / 256) ||| 0xAA#8, BitVec.ofNat 8 (c / 256) ||| 0x55#8, BitVec.ofNat 8 c ||| 0xAA#8,
            BitVec.ofNat 8 c ||| 0x55#8]) ∧
      ∀ a, 24 ≤ a → memRead fb a = memRead s.fb a

/-- R142 (P4): masking the pairs of an encoded DUB response recovers the UID, and the masked checksum is the sum of the
twelve expanded bytes. -/
def Obligations.DubDecodingLaw : Prop :=
  ∀ (s t : State) (uid : Uid) (d : List Byte), OwnsFb s → exec (.dubEncode uid) s = .next t → d.length = 24 →
    FbHolds t 0 d →
    (∀ i, i < 6 → uid.bytes[i]? = some (d.getD (8 + 2 * i) 0#8 &&& d.getD (9 + 2 * i) 0#8)) ∧
    (d.getD 20 0#8 &&& d.getD 21 0#8).toNat * 256 + (d.getD 22 0#8 &&& d.getD 23 0#8).toNat
      = byteSum ((d.drop 8).take 12) % 65536

/-- R139 (P3): an unmuted responder answers a request of 12 parameter bytes exactly where its UID lies between the bounds,
as 48-bit numbers, both included; the answer is `dub_encode` and -24, otherwise 0 with `fb` unchanged. -/
def Obligations.DubRespondAnswersInRange : Prop :=
  ∀ (s : State) (own : Uid), OwnsFb s →
    exec (.dubRespond own true) s = .next { s with hostReply := .int 0 } ∧
    (∀ pdl, memRead s.fb 23 = some pdl → pdl ≠ 12#8 →
      exec (.dubRespond own false) s = .next { s with hostReply := .int 0 }) ∧
    (∀ lower upper : Uid, memRead s.fb 23 = some 12#8 → FbHolds s 24 (lower.bytes ++ upper.bytes) →
      (¬ (uidValue lower ≤ uidValue own ∧ uidValue own ≤ uidValue upper) →
        exec (.dubRespond own false) s = .next { s with hostReply := .int 0 }) ∧
      (uidValue lower ≤ uidValue own → uidValue own ≤ uidValue upper →
        ∃ t, exec (.dubEncode own) s = .next t ∧
          exec (.dubRespond own false) s = .next { t with hostReply := .int (-24) }))

/-- R140: lexicographic comparison of two UIDs is comparison of their 48-bit big-endian numbers. -/
def Obligations.UidCompareIsNumeric : Prop :=
  ∀ (s : State) (a b : Uid), OwnsFb s →
    exec (.uidCompare a b) s = .next { s with
      hostReply := .int (if uidValue a < uidValue b then -1 else if uidValue b < uidValue a then 1 else 0) }

/-- R55, R97, R136 with spec/93_implementation_defined.md U2, U4, U5: where codec operations stop or are turned away. Any
step but the collaborator's with `fb` in its hands faults; the host port never owns it and is rejected (log entry 8); a
response type or length outside the operand's set is rejected with `fb` unchanged (the response type: the model's choice,
log entry 21); a class without a response class is a fault. -/
def Obligations.CodecContract : Prop :=
  (∀ (i : Instr) (s : State), isCodecOp i = true →
    (s.agent = .host → exec i s = .next { s with hostReply := .bool false }) ∧
    (s.agent ≠ .host → ¬ OwnsFb s → exec i s = .fault .fbNotOwned)) ∧
  ∀ (s : State) (own : Uid) (rtype msgCount pdl : Byte), OwnsFb s →
    (3 < rtype.toNat ∨ 231 < pdl.toNat →
      exec (.buildReplyHeader own rtype msgCount pdl) s = .next { s with hostReply := .bool false }) ∧
    (rtype.toNat ≤ 3 → pdl.toNat ≤ 231 → ∀ (b0 b1 : Byte) (req : Header),
      FbHolds s 0 (b0 :: b1 :: (headerBytes req).drop 2) → req.cc ∉ [0x10#8, 0x20#8, 0x30#8] →
      exec (.buildReplyHeader own rtype msgCount pdl) s = .fault (.unmappedCommandClass req.cc))

/-! ### Fine timer, break, mark, slots -/

/-- R208, R209, R211, R214: a `TimerMatch`, `TxFifoSpace` or `TxShiftEmpty` that is not enabled does nothing, nor does a line
event of another instant than `T` (log entry 2); an enabled `TimerMatch` in a state with no rule for it only disarms the
timer. -/
def Obligations.EventsNotEnabledDoNothing : Prop :=
  ∀ s : State, s.agent ≠ .host →
    (s.timer.armed = false ∨ s.time < s.timer.compareAt → exec .timerMatch s = .next s) ∧
    (s.timer.armed = true → s.timer.compareAt ≤ s.time →
      (s.mode = .controller ∧ s.ctrlState ∈ [.idle, .writeSlots, .waitTxDone, .frameToHost]) ∨
        (s.mode = .responder ∧
          s.respState ∈ [.idle, .measureBreak, .measureMab, .complete, .dispatch, .writeSlots, .waitTxDone]) →
      exec .timerMatch s = .next { s with timer.armed := false }) ∧
    ((s.mode = .controller ∧ s.ctrlState ≠ .writeSlots) ∨ (s.mode = .responder ∧ s.respState ≠ .writeSlots) ∨
        Config.uartTxFifoDepth ≤ s.uart.fifo.length →
      exec .txFifoSpace s = .next s) ∧
    ((s.mode = .controller ∧ s.ctrlState ≠ .waitTxDone) ∨ (s.mode = .responder ∧ s.respState ≠ .waitTxDone) ∨
        s.uart.fifo ≠ [] ∨ s.uart.busy = true →
      exec .txShiftEmpty s = .next s) ∧
    (∀ (t : U64) (b : Byte) (kind : UartErr), t.toNat ≠ s.time →
      exec (.fall t) s = .next s ∧ exec (.rise t) s = .next s ∧ exec (.byte t b) s = .next s ∧
        exec (.err t kind) s = .next s)

/-- R203, R233, R298: the break ends, the line goes high and the mark's time is armed, in both modes. -/
def Obligations.BreakEndStartsTheMark : Prop :=
  ∀ s : State, s.agent ≠ .host → s.timer.armed = true → s.timer.compareAt ≤ s.time →
    (s.mode = .controller → s.ctrlState = .driveBreakLow →
      exec .timerMatch s = .next { s with
        timer := { armed := true, compareAt := s.time + 10 * s.params.markTime.toNat }
        pins.line := .mark, wire := s.wire ++ lineWire .mark s, ctrlState := .driveMarkHigh }) ∧
    (s.mode = .responder → s.respState = .driveBreak →
      exec .timerMatch s = .next { s with
        timer := { armed := true, compareAt := s.time + 10 * s.params.markTime.toNat }
        pins.line := .mark, wire := s.wire ++ lineWire .mark s, respState := .driveMark })

/-- R204, R205, R206, R234, R298: at the mark's end the UART takes the line and the FIFO takes as many slots as it has room
for, from slot 0 in index order, out of `cur_op.data` or `fb`. -/
def Obligations.MarkEndFeedsFromSlotZero : Prop :=
  ∀ (s : State) (d : List Byte) (n : Nat), s.agent ≠ .host → s.timer.armed = true → s.timer.compareAt ≤ s.time →
    s.tx.len = d.length → n = min (Config.uartTxFifoDepth - s.uart.fifo.length) d.length →
    (s.mode = .controller → s.ctrlState = .driveMarkHigh → s.curOp.data = d →
      exec .timerMatch s = .next { s with
        timer.armed := false, pins.line := .uart, wire := s.wire ++ lineWire .uart s
        uart.fifo := s.uart.fifo ++ d.take n, tx.index := n
        ctrlState := if n < d.length then .writeSlots else .waitTxDone }) ∧
    (s.mode = .responder → s.respState = .driveMark → FbHolds s 0 d → d.length ≤ 513 →
      exec .timerMatch s = .next { s with
        timer.armed := false, pins.line := .uart, wire := s.wire ++ lineWire .uart s
        uart.fifo := s.uart.fifo ++ d.take n, tx.index := n
        respState := if n < d.length then .writeSlots else .waitTxDone })

/-- R206, R209, R235, R298: `TxFifoSpace` feeds the next slots in index order, each once; the last one ends the write
state. -/
def Obligations.FifoSpaceFeedsTheNextSlots : Prop :=
  ∀ (s : State) (d : List Byte) (n : Nat), s.agent ≠ .host →
    n = min (Config.uartTxFifoDepth - s.uart.fifo.length) (d.length - s.tx.index) →
    (s.mode = .controller → s.ctrlState = .writeSlots → s.uart.fifo.length < Config.uartTxFifoDepth →
      s.tx.len = d.length → s.curOp.data = d →
      exec .txFifoSpace s = .next { s with
        uart.fifo := s.uart.fifo ++ (d.drop s.tx.index).take n, tx.index := s.tx.index + n
        ctrlState := if s.tx.index + n = d.length then .waitTxDone else .writeSlots }) ∧
    (s.mode = .responder → s.respState = .writeSlots → s.uart.fifo.length < Config.uartTxFifoDepth →
      s.tx.len = d.length → FbHolds s 0 d → d.length ≤ 513 →
      exec .txFifoSpace s = .next { s with
        uart.fifo := s.uart.fifo ++ (d.drop s.tx.index).take n, tx.index := s.tx.index + n
        respState := if s.tx.index + n = d.length then .waitTxDone else .writeSlots })

/-! ### Controller -/

/-- R231, R232: the start of an operation by `Tasks`. That `tx_index` is 0 from here on follows R19 (log entry 14). -/
def Obligations.OperationStart : Prop :=
  ∀ (s : State) (e : Entry) (rest : List Entry), s.agent ≠ .host → s.mode = .controller → s.ctrlState = .idle →
    s.curOp.valid = false → s.txQueue = e :: rest → e.cls ≠ .selfTest → s.timing.backoffUntil ≤ s.time →
    (s.timing.lastBreakValid = false ∨ s.timing.lastBreakStart + 13000 ≤ s.time) →
    exec .tasks s = .next { s with
      curOp := { valid := true, token := e.token, cls := e.cls, data := e.data }
      txQueue := rest
      tx := { index := 0, len := e.data.length }
      pins := { dir := .tx, line := .brk }
      wire := s.wire ++ dirWire .tx s ++ lineWire .brk s
      timing := { s.timing with opStartTick := s.coarseTicks, lastBreakStart := s.time, lastBreakValid := true }
      timer := { armed := true, compareAt := s.time + 10 * s.params.breakTime.toNat }
      ctrlState := .driveBreakLow }

/-- R236 to R239, R250: the end of a transmission. The bus is released after every class; DMX, ASC and broadcast end the
operation with OK and their backoff, a unicast request awaits a response, a DUB opens its window. -/
def Obligations.EndOfTransmissionByClass : Prop :=
  ∀ s : State, s.agent ≠ .host → s.mode = .controller → s.ctrlState = .waitTxDone → s.uart.fifo = [] →
    s.uart.busy = false →
    (s.curOp.cls ∈ [.dmx, .asc, .rdmBroadcast] → Config.completionsFit (s.completions.length + 1) = true →
      exec .txShiftEmpty s = .next { s with
        pins := { dir := .rx, line := .mark }, wire := s.wire ++ lineWire .mark s ++ dirWire .rx s
        timing := { s.timing with txEndTime := s.time, backoffUntil := s.time + 2000 }
        completions := s.completions ++ [⟨s.curOp.token, s.curOp.cls, .ok, []⟩]
        curOp.valid := false, ctrlState := .idle }) ∧
    (s.curOp.cls = .rdmRequest →
      exec .txShiftEmpty s = .next { s with
        pins := { dir := .rx, line := .mark }, wire := s.wire ++ lineWire .mark s ++ dirWire .rx s
        timing := { s.timing with txEndTime := s.time }
        rx := { s.rx with count := 0, phase := .waitBreak }
        timer := { armed := true, compareAt := s.time + s.params.rdmResponseTimeout.toNat }
        ctrlState := .awaitResponse }) ∧
    (s.curOp.cls = .rdmDub →
      exec .txShiftEmpty s = .next { s with
        pins := { dir := .rx, line := .mark }, wire := s.wire ++ lineWire .mark s ++ dirWire .rx s
        timing := { s.timing with txEndTime := s.time }
        rx := { s.rx with count := 0, dubActive := false }
        timer := { armed := true, compareAt := s.time + s.params.rdmResponseTimeout.toNat }
        ctrlState := .awaitDub })

/-- R243, R246, R253, R285: the timer of a reception. In AWAIT_RESPONSE, in either phase, it ends the operation with TIMEOUT
and the missing-response backoff; in RX_SLOTS, AWAIT_DUB and COLLECT_SLOTS it hands what was received to the foreground. -/
def Obligations.ReceptionTimeouts : Prop :=
  ∀ s : State, s.agent ≠ .host → s.timer.armed = true → s.timer.compareAt ≤ s.time →
    (s.mode = .controller → s.ctrlState = .awaitResponse →
      Config.completionsFit (s.completions.length + 1) = true →
      exec .timerMatch s = .next { s with
        timer.armed := false
        timing.backoffUntil := s.timing.txEndTime + 30000
        completions := s.completions ++ [⟨s.curOp.token, .rdmRequest, .timeout, []⟩]
        curOp.valid := false, ctrlState := .idle }) ∧
    (s.mode = .controller → s.ctrlState = .rxSlots ∨ s.ctrlState = .awaitDub →
      exec .timerMatch s = .next { s with timer.armed := false, frameReady := true, ctrlState := .frameToHost }) ∧
    (s.mode = .responder → s.respState = .collectSlots →
      exec .timerMatch s = .next { s with timer.armed := false, frameReady := true, respState := .complete })

/-- R240, R241, R242, R244: edges and bytes in AWAIT_RESPONSE, and the first edge in RX_SLOTS. A break of 880 to 3520 TU
opens the reception, both ends accepted; a shorter or longer one is counted and the wait goes on. A mark of up to 880 TU is
kept; after a longer one, which is counted, this edge may begin another break while the response timer runs on. -/
def Obligations.ControllerMeasuresBreakAndMark : Prop :=
  ∀ (s : State) (t : U64) (b : Byte) (d : Nat), s.agent ≠ .host → s.mode = .controller → t.toNat = s.time →
    (s.ctrlState = .awaitResponse → s.rx.phase = .waitBreak →
      exec (.fall t) s = .next { s with timing.tFall := t.toNat, rx.phase := .inBreak } ∧
      exec (.rise t) s = .next s) ∧
    (s.ctrlState = .awaitResponse → s.rx.phase = .inBreak →
      exec (.fall t) s = .next { s with timing.tFall := t.toNat }) ∧
    (s.ctrlState = .awaitResponse → s.rx.phase = .inBreak → t.toNat = s.timing.tFall + d → 880 ≤ d → d ≤ 3520 →
      exec (.rise t) s = .next { s with
        timing := { s.timing with rxBreakDur := d, tRise := t.toNat }
        rx.phase := .inMark, ctrlState := .rxSlots
        timer := { armed := true, compareAt := t.toNat + 21000 } }) ∧
    (s.ctrlState = .awaitResponse → s.rx.phase = .inBreak → t.toNat = s.timing.tFall + d → d < 880 →
      exec (.rise t) s = .next { s with counters := countUp 2 s.counters, rx.phase := .waitBreak }) ∧
    (s.ctrlState = .awaitResponse → s.rx.phase = .inBreak → t.toNat = s.timing.tFall + d → 3520 < d →
      exec (.rise t) s = .next { s with counters := countUp 3 s.counters, rx.phase := .waitBreak }) ∧
    (s.ctrlState = .awaitResponse → exec (.byte t b) s = .next s) ∧
    (s.ctrlState = .rxSlots → s.rx.phase = .inMark → t.toNat = s.timing.tRise + d → d ≤ 880 →
      exec (.fall t) s = .next { s with timing.rxMarkDur := d, rx.phase := .data }) ∧
    (s.ctrlState = .rxSlots → s.rx.phase = .inMark → t.toNat = s.timing.tRise + d → 880 < d →
      exec (.fall t) s = .next { s with
        counters := countUp 3 s.counters
        ctrlState := .awaitResponse, rx.phase := .inBreak, timing.tFall := t.toNat
        timer := { armed := true
                   compareAt := max s.time (s.timing.txEndTime + s.params.rdmResponseTimeout.toNat) } })

/-- R221, R222, R245, R246: a byte of a response is stored after the bytes `f` already stored; the frame is complete at its
declared length or at 513 bytes, otherwise the inter-slot timer restarts; edges inside characters are ignored. -/
def Obligations.ControllerCollectsTheResponse : Prop :=
  ∀ (s : State) (t : U64) (b : Byte) (f g : List Byte) (done : Bool), s.agent ≠ .host → s.mode = .controller →
    t.toNat = s.time →
    s.ctrlState = .rxSlots → s.fbOwner = .transceiver → FbHolds s 0 f → f.length = s.rx.count → s.rx.count < 513 →
    g = f ++ [b] →
    done = decide (g.length = 513 ∨ (g.getD 0 0#8 = 0xCC#8 ∧ 3 ≤ g.length ∧ (g.getD 2 0#8).toNat + 2 ≤ g.length)) →
    (∃ fb, FbHolds { s with fb := fb } 0 g ∧ (∀ a, a ≠ s.rx.count → memRead fb a = memRead s.fb a) ∧
      exec (.byte t b) s = .next { s with
        fb := fb
        rx := { s.rx with count := s.rx.count + 1
                          phase := if s.rx.phase = .inMark then .data else s.rx.phase }
        timing.tLastByte := t.toNat
        timer := if done then { s.timer with armed := false }
                 else { armed := true, compareAt := t.toNat + 21000 }
        frameReady := done || s.frameReady
        ctrlState := if done then .frameToHost else .rxSlots }) ∧
    exec (.rise t) s = .next s ∧
    (s.rx.phase = .data → exec (.fall t) s = .next s)

/-- R251, R252: the first activity of a DUB window arms its limit, later edges do nothing; bytes are stored in order and the
513th closes the window. -/
def Obligations.DubWindowCaptures : Prop :=
  ∀ (s : State) (t : U64) (b : Byte) (timer : FineTimer), s.agent ≠ .host → s.mode = .controller → t.toNat = s.time →
    s.ctrlState = .awaitDub → s.fbOwner = .transceiver → s.rx.count < 513 →
    timer = (if s.rx.dubActive then s.timer
      else { armed := true, compareAt := t.toNat + s.params.dubResponseLimit.toNat }) →
    exec (.fall t) s = .next { s with rx.dubActive := true, timer := timer } ∧
    exec (.rise t) s = .next s ∧
    ∃ fb, memRead fb s.rx.count = some b ∧ (∀ a, a ≠ s.rx.count → memRead fb a = memRead s.fb a) ∧
      exec (.byte t b) s = .next { s with
        fb := fb
        rx := { s.rx with count := s.rx.count + 1, dubActive := true }
        timing.tLastByte := t.toNat
        timer := if s.rx.count + 1 = 513 then { timer with armed := false } else timer
        frameReady := if s.rx.count + 1 = 513 then true else s.frameReady
        ctrlState := if s.rx.count + 1 = 513 then .frameToHost else .awaitDub }

/-- R248, R254: a received frame `f` goes up with the operation's token. An RDM response goes up whatever `validate` finds,
under the result code of that name, and is counted where it is Ok; a DUB window goes up unparsed, OK where anything was
seen and TIMEOUT otherwise, with the DUB backoff. Exactly OP_DEADLINE_TICKS elapsed ticks do not abort (R262, R124). -/
def Obligations.ReceivedFramesAreHandedUp : Prop :=
  ∀ (s : State) (f : List Byte), s.agent ≠ .host → s.mode = .controller → s.ctrlState = .frameToHost →
    s.frameReady = true →
    s.curOp.valid = false ∨
      (s.coarseTicks.toNat + 2 ^ 32 - s.timing.opStartTick.toNat) % 2 ^ 32 ≤ Config.opDeadlineTicks.toNat →
    f.length = s.rx.count → s.rx.count ≤ 513 → FbHolds s 0 f →
    Config.completionsFit (s.completions.length + 1) = true →
    (s.curOp.cls = .rdmRequest → ∃ r c code, validateFrame s.rx.count s = .ok (r, c) ∧
      (r, code) ∈ [(ValidateResult.ok, ResultCode.ok), (.shortFrame, .shortFrame), (.lengthMismatch, .lengthMismatch),
        (.checksumInvalid, .checksumInvalid), (.notRdm, .notRdm)] ∧
      exec .tasks s = .next { s with
        counters := if r = .ok then countUp 1 s.counters else c.counters
        completions := s.completions ++ [⟨s.curOp.token, .rdmRequest, code, f⟩]
        frameReady := false, curOp.valid := false, ctrlState := .idle }) ∧
    (s.curOp.cls = .rdmDub →
      exec .tasks s = .next { s with
        completions := s.completions ++
          [⟨s.curOp.token, .rdmDub, if s.rx.dubActive then .ok else .timeout, f⟩]
        timing.backoffUntil := s.timing.txEndTime + 58000
        frameReady := false, curOp.valid := false, ctrlState := .idle })

/-- R255, R292: a controller that awaits nothing does not listen, and while a responder's frame waits, is dispatched or its
reply waits, the line is ignored. -/
def Obligations.WhereTheLineIsIgnored : Prop :=
  ∀ (s : State) (t : U64) (b : Byte) (kind : UartErr), s.agent ≠ .host →
    (s.mode = .controller ∧
        s.ctrlState ∈ [.driveBreakLow, .driveMarkHigh, .writeSlots, .waitTxDone, .idle, .frameToHost]) ∨
      (s.mode = .responder ∧ s.respState ∈ [.complete, .dispatch, .waitDelay]) →
    exec (.fall t) s = .next s ∧ exec (.rise t) s = .next s ∧ exec (.byte t b) s = .next s ∧
      exec (.err t kind) s = .next s

/-- R257: a self-test at the head of the queue of an idle controller posts one of two results, whichever is drawn; it waits
for no backoff and drives nothing. -/
def Obligations.SelfTestPostsADrawnResult : Prop :=
  ∀ (s : State) (e : Entry) (rest : List Entry), s.agent ≠ .host → s.mode = .controller → s.ctrlState = .idle →
    s.curOp.valid = false → s.txQueue = e :: rest → e.cls = .selfTest →
    Config.completionsFit (s.completions.length + 1) = true →
    ∃ r, (r = .ok ∨ r = .selfTestFailed) ∧
      exec .tasks s = .next { s with
        txQueue := rest, draws := s.draws + 1
        completions := s.completions ++ [⟨e.token, .selfTest, r, []⟩] }

/-- R24, R260, R291: a UART error while a controller awaits or receives ends its operation as aborted; inside a frame a
responder drops the frame and counts only the error. Framing errors are counter 5, parity errors 6, overruns 7. -/
def Obligations.UartErrorsEndTheReception : Prop :=
  ∀ (s : State) (t : U64) (kind : UartErr) (n : Nat), s.agent ≠ .host → t.toNat = s.time →
    (kind, n) ∈ [(UartErr.framing, 5), (.parity, 6), (.overrun, 7)] →
    (s.mode = .controller → s.ctrlState ∈ [.awaitResponse, .rxSlots, .awaitDub] →
      Config.completionsFit (s.completions.length + 1) = true →
      exec (.err t kind) s = .next { s with
        counters := countUp n s.counters
        timer.armed := false
        rx.count := 0
        timing.backoffUntil := s.timing.txEndTime + (if s.curOp.cls = .rdmDub then 58000 else 30000)
        completions := s.completions ++ [⟨s.curOp.token, s.curOp.cls, .aborted, []⟩]
        curOp.valid := false, ctrlState := .idle }) ∧
    (s.mode = .responder → s.respState = .measureMab ∨ s.respState = .collectSlots →
      exec (.err t kind) s = .next { s with
        counters := countUp n s.counters, timer.armed := false, rx.count := 0, respState := .idle })

/-- R262, R384: the deadline of the operation in flight comes before every other action of `Tasks`, whatever value
OP_DEADLINE_TICKS has (R3: an argument of the model; `exec` takes it from Config). -/
def Obligations.DeadlineAbortsTheOperation : Prop :=
  (∀ s : State, exec .tasks s = tasksUnder Config.opDeadlineTicks s) ∧
  ∀ (deadline : U32) (s : State), s.agent ≠ .host → s.mode = .controller → s.curOp.valid = true →
    deadline.toNat < (s.coarseTicks.toNat + 2 ^ 32 - s.timing.opStartTick.toNat) % 2 ^ 32 →
    Config.completionsFit (s.completions.length + 1) = true →
    tasksUnder deadline s = .next { s with
      uart := { s.uart with fifo := [], busy := false }
      pins := { dir := .rx, line := .mark }
      wire := s.wire ++ cutWire s ++ lineWire .mark s ++ dirWire .rx s
      timer.armed := false
      frameReady := false
      rx.count := 0
      timing.backoffUntil := s.time
      completions := s.completions ++ [⟨s.curOp.token, s.curOp.cls, .aborted, []⟩]
      curOp.valid := false, ctrlState := .idle }

/-- R383, R384: where no other action of `Tasks` is enabled it delivers the oldest completion event, and with none it does
nothing. Exactly OP_DEADLINE_TICKS elapsed ticks do not enable the deadline abort (R262, R124). -/
def Obligations.TasksDeliversLast : Prop :=
  ∀ s : State, s.agent ≠ .host →
    s.mode = .responder ∨ s.curOp.valid = false ∨
      (s.coarseTicks.toNat + 2 ^ 32 - s.timing.opStartTick.toNat) % 2 ^ 32 ≤ Config.opDeadlineTicks.toNat →
    s.frameReady = false →
    (s.mode = .responder ∨ s.ctrlState ≠ .idle ∨ s.txQueue = [] ∨
      ∃ e rest, s.txQueue = e :: rest ∧ e.cls ≠ .selfTest ∧ (s.time < s.timing.backoffUntil ∨
        (s.timing.lastBreakValid = true ∧ s.time < s.timing.lastBreakStart + 13000))) →
    (s.completions = [] → exec .tasks s = .next s) ∧
    (∀ ev rest, s.completions = ev :: rest →
      exec .tasks s = .next { s with completions := rest, delivered := s.delivered ++ [ev] })

/-! ### Responder -/

/-- R281, R282, R291: IDLE and MEASURE_BREAK: a break of 880 to 10 000 000 TU opens a reception, both ends accepted; a
shorter or longer one is counted; an error only counts, framing errors in counter 5, parity errors in 6, overruns in 7. -/
def Obligations.ResponderMeasuresTheBreak : Prop :=
  ∀ (s : State) (t : U64) (b : Byte) (kind : UartErr) (d n : Nat), s.agent ≠ .host → s.mode = .responder →
    t.toNat = s.time → (kind, n) ∈ [(UartErr.framing, 5), (.parity, 6), (.overrun, 7)] →
    (s.respState = .idle →
      exec (.fall t) s = .next { s with timing.tFall := t.toNat, respState := .measureBreak } ∧
      exec (.rise t) s = .next s) ∧
    (s.respState = .measureBreak → exec (.fall t) s = .next { s with timing.tFall := t.toNat }) ∧
    (s.respState = .measureBreak → t.toNat = s.timing.tFall + d → 880 ≤ d → d ≤ 10000000 →
      exec (.rise t) s = .next { s with
        timing := { s.timing with rxBreakDur := d, tRise := t.toNat, rxMarkDur := 0 }
        rx.count := 0, respState := .measureMab }) ∧
    (s.respState = .measureBreak → t.toNat = s.timing.tFall + d → d < 880 →
      exec (.rise t) s = .next { s with counters := countUp 2 s.counters, respState := .idle }) ∧
    (s.respState = .measureBreak → t.toNat = s.timing.tFall + d → 10000000 < d →
      exec (.rise t) s = .next { s with counters := countUp 3 s.counters, respState := .idle }) ∧
    (s.respState = .idle ∨ s.respState = .measureBreak →
      exec (.byte t b) s = .next s ∧ exec (.err t kind) s = .next { s with counters := countUp n s.counters })

/-- R283, R223: MEASURE_MAB: the first falling edge measures the mark, `d` TU after the break's end; the first byte is the
start code, which chooses the inter-slot timeout. -/
def Obligations.ResponderTakesTheStartCode : Prop :=
  ∀ (s : State) (t : U64) (b : Byte), s.agent ≠ .host → s.mode = .responder → s.respState = .measureMab →
    s.fbOwner = .transceiver → s.rx.count = 0 → t.toNat = s.time →
    (∀ d, t.toNat = s.timing.tRise + d →
      exec (.fall t) s = .next { s with
        timing := { s.timing with
          lastFall := t.toNat
          rxMarkDur := if s.timing.rxMarkDur = 0 then d else s.timing.rxMarkDur } }) ∧
    (∀ d, t.toNat = s.timing.lastFall + d → d < 880 → exec (.rise t) s = .next s) ∧
    ∃ fb, memRead fb 0 = some b ∧ (∀ a, a ≠ 0 → memRead fb a = memRead s.fb a) ∧
      exec (.byte t b) s = .next { s with
        fb := fb, rx.count := 1, timing.tLastByte := t.toNat
        timer := { armed := true, compareAt := t.toNat + (if b = 0xCC#8 then 21000 else 10000000) }
        respState := .collectSlots }

/-- R221 to R223, R284, R286: COLLECT_SLOTS: a byte is stored after the bytes `f` already stored; the frame is complete at
its declared length or at 513 bytes, otherwise the inter-slot timer of its start code restarts. -/
def Obligations.ResponderCollectsTheFrame : Prop :=
  ∀ (s : State) (t : U64) (b : Byte) (f g : List Byte) (done : Bool), s.agent ≠ .host → s.mode = .responder →
    s.respState = .collectSlots → s.fbOwner = .transceiver → FbHolds s 0 f → f.length = s.rx.count →
    0 < s.rx.count → s.rx.count < 513 → t.toNat = s.time → g = f ++ [b] →
    done = decide (g.length = 513 ∨ (g.getD 0 0#8 = 0xCC#8 ∧ 3 ≤ g.length ∧ (g.getD 2 0#8).toNat + 2 ≤ g.length)) →
    (∃ fb, FbHolds { s with fb := fb } 0 g ∧ (∀ a, a ≠ s.rx.count → memRead fb a = memRead s.fb a) ∧
      exec (.byte t b) s = .next { s with
        fb := fb
        rx.count := s.rx.count + 1
        timing.tLastByte := t.toNat
        timer := if done then { s.timer with armed := false }
                 else { armed := true
                        compareAt := t.toNat + (if g.getD 0 0#8 = 0xCC#8 then 21000 else 10000000) }
        frameReady := done || s.frameReady
        respState := if done then .complete else .collectSlots }) ∧
    exec (.fall t) s = .next { s with timing.lastFall := t.toNat } ∧
    (∀ d, t.toNat = s.timing.lastFall + d → d < 880 → exec (.rise t) s = .next s)

/-- R283, R286, R289: a break of `d` TU inside a frame whose received bytes are `f`: what was received is counted by its
start code, and a new frame begins, or the sequencer goes to IDLE where the break is too long. -/
def Obligations.BreakInsideAFrame : Prop :=
  ∀ (s c : State) (t : U64) (d : Nat) (f : List Byte) (k : Counters), s.agent ≠ .host → s.mode = .responder →
    s.respState = .measureMab ∨ s.respState = .collectSlots → t.toNat = s.timing.lastFall + d → 880 ≤ d →
    t.toNat = s.time → FbHolds s 0 f → f.length = s.rx.count →
    (k = s.counters ∧ (f = [] ∨ (f.getD 0 0#8 ≠ 0x00#8 ∧ f.getD 0 0#8 ≠ 0xCC#8)) ∨
      k = countUp 0 s.counters ∧ f ≠ [] ∧ f.getD 0 0#8 = 0x00#8 ∨
      k = c.counters ∧ f ≠ [] ∧ f.getD 0 0#8 = 0xCC#8 ∧ ∃ r, validateFrame s.rx.count s = .ok (r, c)) →
    (d ≤ 10000000 → exec (.rise t) s = .next { s with
      counters := k
      timer.armed := false
      timing := { s.timing with tFall := s.timing.lastFall, tRise := t.toNat, rxBreakDur := d, rxMarkDur := 0 }
      rx.count := 0, respState := .measureMab }) ∧
    (10000000 < d → exec (.rise t) s = .next { s with
      counters := countUp 3 k
      timer.armed := false
      rx.count := 0, respState := .idle })

/-- R290: consuming a completed frame by its start code: DMX is counted, RDM is validated and dispatched where it is Ok,
anything else is dropped. -/
def Obligations.CompletedFrameIsConsumed : Prop :=
  ∀ (s : State) (f : List Byte), s.agent ≠ .host → s.mode = .responder → s.respState = .complete →
    s.frameReady = true → FbHolds s 0 f → f.length = s.rx.count → 0 < s.rx.count →
    (f.getD 0 0#8 = 0x00#8 →
      exec .tasks s = .next { s with counters := countUp 0 s.counters, frameReady := false, respState := .idle }) ∧
    (f.getD 0 0#8 ≠ 0x00#8 → f.getD 0 0#8 ≠ 0xCC#8 →
      exec .tasks s = .next { s with frameReady := false, respState := .idle }) ∧
    (f.getD 0 0#8 = 0xCC#8 → ∀ r c, validateFrame s.rx.count s = .ok (r, c) → r ≠ .ok →
      exec .tasks s = .next { c with frameReady := false, respState := .idle }) ∧
    (f.getD 0 0#8 = 0xCC#8 → ∀ c, validateFrame s.rx.count s = .ok (.ok, c) →
      ∃ h, headerBytes h = f.take 24 ∧
        exec .tasks s = .next { s with
          counters := countUp 1 s.counters
          frameReady := false, fbOwner := .responder, respState := .dispatch
          dispatch := some { len := s.rx.count, header := h } })

/-- R293, R294, R296: the handler's answer: a length or -24 schedules a reply after the responder delay and some jitter of
`0 .. responder_jitter`, whichever is drawn; 0 and every other negative value send nothing; a length above 513 is a
fault; outside DISPATCH the answer is ignored. -/
def Obligations.HandlerReturnSchedulesTheReply : Prop :=
  ∀ (s : State) (n : U16), s.agent ≠ .host →
    (s.mode = .responder → s.respState = .dispatch → s.fbOwner = .responder →
      ((0 < n.toInt ∧ n.toInt ≤ 513) ∨ n.toInt = -24 →
        ∃ j, j ≤ s.params.responderJitter.toNat ∧
          exec (.handlerReturn n) s = .next { s with
            fbOwner := .transceiver, dispatch := none
            reply := { len := if n.toInt = -24 then 24 else n.toNat, raw := decide (n.toInt = -24) }
            timer := { armed := true
                       compareAt := max s.time (s.timing.tLastByte + s.params.responderDelay.toNat + j) }
            draws := s.draws + 1, respState := .waitDelay }) ∧
      (n.toInt ≤ 0 → n.toInt ≠ -24 →
        exec (.handlerReturn n) s = .next { s with
          fbOwner := .transceiver, dispatch := none, respState := .idle }) ∧
      (513 < n.toInt → exec (.handlerReturn n) s = .fault (.replyTooLong n.toInt))) ∧
    (s.mode = .controller ∨ s.respState ≠ .dispatch ∨ s.fbOwner = .transceiver →
      exec (.handlerReturn n) s = .next s)

/-- R297, R299, R300: the reply's delay ends: a framed reply starts its break, a raw DUB reply `d` its first slots; after the
last slot the direction is held for the guardband, then released. That `tx_index` is 0 from the break on follows R19 (log
entry 14). -/
def Obligations.ReplyStartAndEnd : Prop :=
  ∀ (s : State) (d : List Byte) (n : Nat), s.agent ≠ .host → s.mode = .responder →
    (s.respState = .waitDelay → s.timer.armed = true → s.timer.compareAt ≤ s.time → s.reply.raw = false →
      exec .timerMatch s = .next { s with
        timer := { armed := true, compareAt := s.time + 10 * s.params.breakTime.toNat }
        tx := { index := 0, len := s.reply.len }
        pins := { dir := .tx, line := .brk }, wire := s.wire ++ dirWire .tx s ++ lineWire .brk s
        respState := .driveBreak }) ∧
    (s.respState = .waitDelay → s.timer.armed = true → s.timer.compareAt ≤ s.time → s.reply.raw = true →
      FbHolds s 0 d → d.length = s.reply.len → d.length ≤ 513 →
      n = min (Config.uartTxFifoDepth - s.uart.fifo.length) d.length →
      exec .timerMatch s = .next { s with
        timer.armed := false
        tx := { index := n, len := s.reply.len }
        pins := { dir := .tx, line := .uart }, wire := s.wire ++ dirWire .tx s ++ lineWire .uart s
        uart.fifo := s.uart.fifo ++ d.take n
        respState := if n < d.length then .writeSlots else .waitTxDone }) ∧
    (s.respState = .waitTxDone → s.uart.fifo = [] → s.uart.busy = false →
      exec .txShiftEmpty s = .next { s with
        pins.line := .mark, wire := s.wire ++ lineWire .mark s
        timer := { armed := true, compareAt := s.time + Config.respGuardband }
        respState := .guard }) ∧
    (s.respState = .guard → s.timer.armed = true → s.timer.compareAt ≤ s.time →
      exec .timerMatch s = .next { s with
        timer.armed := false, pins.dir := .rx, wire := s.wire ++ dirWire .rx s, respState := .idle })

/-- R301: a break edge during a reply discards the rest of it; bytes and errors are ignored. -/
def Obligations.EdgeDuringAReplyDiscardsIt : Prop :=
  ∀ (s : State) (t : U64) (b : Byte) (kind : UartErr), s.agent ≠ .host → s.mode = .responder →
    s.respState ∈ [.driveBreak, .driveMark, .writeSlots, .waitTxDone, .guard] → t.toNat = s.time →
    exec (.fall t) s = .next { s with
      uart := { s.uart with fifo := [], busy := false }
      pins := { dir := .rx, line := .mark }
      wire := s.wire ++ cutWire s ++ lineWire .mark s ++ dirWire .rx s
      timer.armed := false, reply.len := 0, rx.count := 0
      timing.tFall := t.toNat, respState := .measureBreak } ∧
    exec (.rise t) s = .next { s with
      uart := { s.uart with fifo := [], busy := false }
      pins := { dir := .rx, line := .mark }
      wire := s.wire ++ cutWire s ++ lineWire .mark s ++ dirWire .rx s
      timer.armed := false, reply.len := 0, rx.count := 0, respState := .idle } ∧
    exec (.byte t b) s = .next s ∧ exec (.err t kind) s = .next s

/-! ### The whole machine -/

/-- R34: what power-on leaves, for every element the spec gives a value. -/
def Obligations.PowerOnState : Prop :=
  ∃ s : State, Sys2Proof.core.reset = s ∧ s.ctrlState = .idle ∧ s.respState = .idle ∧
    s.rx = { count := 0, phase := .waitBreak, dubActive := false } ∧ s.tx = { index := 0, len := 0 } ∧
    s.reply = { len := 0, raw := false } ∧ s.coarseTicks = 0#32 ∧ counterList s.counters = List.replicate 8 0#16 ∧
    s.frameReady = false ∧ s.timing.lastBreakValid = false ∧ s.timer = { armed := false, compareAt := 0 } ∧
    s.uart.busy = false ∧ s.uart.fifo = [] ∧ s.fbOwner = .transceiver ∧ s.curOp.valid = false ∧
    s.timing = { lastBreakStart := 0, lastBreakValid := false, txEndTime := 0, backoffUntil := 0, opStartTick := 0#32,
                 tFall := 0, tRise := 0, lastFall := 0, tLastByte := 0, rxBreakDur := 0, rxMarkDur := 0 } ∧
    s.txQueue = [] ∧ s.completions = [] ∧ (∀ a, memRead s.fb a = none) ∧ s.pins = { dir := .rx, line := .mark }

/-- The invariant of the block (R35 and the bounds of the queues, buffers and classes) holds at power-on. -/
def Obligations.ResetMeetsTheInvariant : Prop := BlockInv State.reset

/-- Every step keeps the invariant of the block: R35 (a) to (f), the bounds of R19 and R28 to R30, the legal parameter
values, the instant of the next coarse tick (R120; log entry 15), captured instants that lie in the past (R27, R211), the
canonical form of `fb`, and which classes stand where. -/
def Obligations.EveryStepKeepsTheInvariant : Prop :=
  ∀ s t : State, BlockInv s → step s = .next t → BlockInv t

/-- R35 in every reachable state, whatever the agents do and in whatever order. The runs start from the model's
`State.reset`: its empty inbox, its mode and its parameter values are the model's choice (log entries 1, 3, 4). -/
def Obligations.ReachableStatesMeetR35 : Prop := ∀ s : State, Reachable s → SequencerInv s

/-- R160, R370: nothing is fatal. From every state of the invariant every instruction answers a next state, or stops on a
completion queue over its depth (spec/93_implementation_defined.md U7); codec operations, a handler's length above 513
(U3) and a reply with unwritten bytes (U1) are the contract's other exceptions. -/
def Obligations.NothingIsFatal : Prop :=
  ∀ (i : Instr) (s : State), BlockInv s → isCodecOp i = false →
    (∀ n, i = .handlerReturn n → n.toInt ≤ 513) → (s.mode = .responder → ReplyWritten s) →
    (∃ t, exec i s = .next t) ∨ exec i s = .fault .completionsFull

/-- R265 (a), (c): every instruction keeps the line of operation tokens as the host sees them end (delivered, posted, in
flight, queued), and an admitted enqueue adds its token at the end: operations are answered in admission order, each exactly
once. -/
def Obligations.OperationsAreAnsweredOnceInOrder : Prop :=
  ∀ (i : Instr) (s t : State), BlockInv s → exec i s = .next t → opLine t = opLine s ++ admitted i s

/-- R21, R10, R125, R55, R302: `mode` is written by `set_mode` only, the parameter registers by the six setters only,
`coarse_ticks` by the tick and `set_counter` only, and `fb` by the collaborator's codec operations while it owns it and by
received bytes otherwise: a responder's reply is read only from RESP_WAIT_DELAY to RESP_GUARD. -/
def Obligations.OnlyTheirWritersWriteRegisters : Prop :=
  ∀ (i : Instr) (s t : State), exec i s = .next t →
    (t.mode ≠ s.mode → ∃ m h k, i = .setMode m h k) ∧
    (t.params ≠ s.params → (∃ v, i = .setBreakTime v) ∨ (∃ v, i = .setMarkTime v) ∨
      (∃ v, i = .setRdmResponseTimeout v) ∨ (∃ v, i = .setResponderDelay v) ∨ (∃ v, i = .setResponderJitter v) ∨
      ∃ v, i = .setDubResponseLimit v) ∧
    (t.coarseTicks ≠ s.coarseTicks → i = .coarseTick ∨ ∃ n, i = .setCounter n) ∧
    (t.fb ≠ s.fb →
      (isCodecOp i = true ∧ s.agent = .collaborator ∧ s.fbOwner = .responder) ∨
        ((∃ u b, i = .byte u b) ∧ s.fbOwner = .transceiver ∧
          (s.mode = .controller → s.ctrlState = .rxSlots ∨ s.ctrlState = .awaitDub) ∧
          (s.mode = .responder → s.respState = .measureMab ∨ s.respState = .collectSlots)))

/-- R304, R201: a responder drives the bus only after a reply was scheduled: no instruction takes a responder that does not
drive it into a driving state but a `TimerMatch` in RESP_WAIT_DELAY, which only `handler_return` with a length or -24
enters. -/
def Obligations.RepliesNeedAHandlerReturn : Prop :=
  ∀ (i : Instr) (s t : State), exec i s = .next t →
    (respDrives s.respState = false → respDrives t.respState = true →
      i = .timerMatch ∧ s.mode = .responder ∧ s.respState = .waitDelay) ∧
    (s.respState ≠ .waitDelay → t.respState = .waitDelay →
      ∃ n, i = .handlerReturn n ∧ (0 < n.toInt ∨ n.toInt = -24) ∧ s.respState = .dispatch)
end

