-- ==== Sys2Proof/Laws/Decode.lean ====
section
/-! SUPPORT. Each operand reader against the bytes the encoder writes: a reader takes back the operand and hands on the rest
(`read…_bytes`), and what it took is the operand's bytes (`read…_ok`). -/

namespace Sys2Proof

/-! ### Bytes of a number -/

theorem u16Of_bytes (v : U16) : u16Of (v.extractLsb' 8 8) (v.extractLsb' 0 8) = v := by
  unfold u16Of; ext i hi
  simp only [BitVec.getElem_append, BitVec.getElem_extractLsb']
  split
  · simp [BitVec.getLsbD_eq_getElem, hi]
  · rw [show 8 + (i - 8) = i by omega]; simp [BitVec.getLsbD_eq_getElem, hi]

theorem u32Of_bytes (v : U32) :
    u32Of (v.extractLsb' 24 8) (v.extractLsb' 16 8) (v.extractLsb' 8 8) (v.extractLsb' 0 8) = v := by
  unfold u32Of; ext i hi
  simp only [BitVec.getElem_append, BitVec.getElem_extractLsb']
  split
  · split
    · simp [BitVec.getLsbD_eq_getElem, hi]
    · rw [show 8 + (i - 8) = i by omega]; simp [BitVec.getLsbD_eq_getElem, hi]
  · split
    · rw [show 16 + (i - 16) = i by omega]; simp [BitVec.getLsbD_eq_getElem, hi]
    · rw [show 24 + (i - (8 + 8) - 8) = i by omega]; simp [BitVec.getLsbD_eq_getElem, hi]

theorem u64Of_halves (v : U64) : u64Of (v.extractLsb' 32 32) (v.extractLsb' 0 32) = v := by
  unfold u64Of; ext i hi
  simp only [BitVec.getElem_append, BitVec.getElem_extractLsb']
  split
  · simp [BitVec.getLsbD_eq_getElem, hi]
  · rw [show 32 + (i - 32) = i by omega]; simp [BitVec.getLsbD_eq_getElem, hi]

/-- The bit of an appended pair. -/
theorem getLsbD_pair {n m : Nat} (x : BitVec n) (y : BitVec m) (i : Nat) :
    (x ++ y).getLsbD i = if i < m then y.getLsbD i else x.getLsbD (i - m) := BitVec.getLsbD_append

theorem extract_hi {n m : Nat} (x : BitVec n) (y : BitVec m) (k w : Nat) :
    (x ++ y).extractLsb' (m + k) w = x.extractLsb' k w := by
  ext i h
  rw [BitVec.getElem_extractLsb', BitVec.getElem_extractLsb', getLsbD_pair, if_neg (by omega)]
  congr 1; omega

theorem extract_lo {n m : Nat} (x : BitVec n) (y : BitVec m) (k w : Nat) (hk : k + w ≤ m) :
    (x ++ y).extractLsb' k w = y.extractLsb' k w := by
  ext i h
  rw [BitVec.getElem_extractLsb', BitVec.getElem_extractLsb', getLsbD_pair, if_pos (by omega)]

theorem extract_all {n : Nat} (x : BitVec n) : x.extractLsb' 0 n = x := by
  ext i h; simp

theorem u16Bytes_of (hi lo : Byte) : u16Bytes (u16Of hi lo) = [hi, lo] := by
  have h1 : (u16Of hi lo).extractLsb' 8 8 = hi := (extract_hi hi lo 0 8).trans (extract_all hi)
  have h2 : (u16Of hi lo).extractLsb' 0 8 = lo := (extract_lo hi lo 0 8 (by decide)).trans (extract_all lo)
  rw [u16Bytes, h1, h2]

theorem u32Bytes_of (b3 b2 b1 b0 : Byte) : u32Bytes (u32Of b3 b2 b1 b0) = [b3, b2, b1, b0] := by
  have h3 : (u32Of b3 b2 b1 b0).extractLsb' 24 8 = b3 :=
    (extract_hi (b3 ++ b2) (b1 ++ b0) 8 8).trans ((extract_hi b3 b2 0 8).trans (extract_all b3))
  have h2 : (u32Of b3 b2 b1 b0).extractLsb' 16 8 = b2 :=
    (extract_hi (b3 ++ b2) (b1 ++ b0) 0 8).trans ((extract_lo b3 b2 0 8 (by decide)).trans (extract_all b2))
  have h1 : (u32Of b3 b2 b1 b0).extractLsb' 8 8 = b1 :=
    (extract_lo (b3 ++ b2) (b1 ++ b0) 8 8 (by decide)).trans ((extract_hi b1 b0 0 8).trans (extract_all b1))
  have h0 : (u32Of b3 b2 b1 b0).extractLsb' 0 8 = b0 :=
    (extract_lo (b3 ++ b2) (b1 ++ b0) 0 8 (by decide)).trans
      ((extract_lo b1 b0 0 8 (by decide)).trans (extract_all b0))
  rw [u32Bytes, h3, h2, h1, h0]

theorem u64Bytes_of (hi lo : U32) : u64Bytes (u64Of hi lo) = u32Bytes hi ++ u32Bytes lo := by
  have h1 : (u64Of hi lo).extractLsb' 32 32 = hi := (extract_hi hi lo 0 32).trans (extract_all hi)
  have h2 : (u64Of hi lo).extractLsb' 0 32 = lo := (extract_lo hi lo 0 32 (by decide)).trans (extract_all lo)
  rw [u64Bytes, h1, h2]

/-! ### A reader takes back what the encoder wrote -/

@[simp] theorem readU8_bytes (b : Byte) (rest : List Byte) : readU8 (b :: rest) = .ok (b, rest) := rfl

@[simp] theorem readU16_bytes (v : U16) (rest : List Byte) : readU16 (u16Bytes v ++ rest) = .ok (v, rest) := by
  simp [readU16, u16Bytes, u16Of_bytes]

@[simp] theorem readU32_bytes (v : U32) (rest : List Byte) : readU32 (u32Bytes v ++ rest) = .ok (v, rest) := by
  simp [readU32, u32Bytes, u32Of_bytes]

@[simp] theorem readU64_bytes (v : U64) (rest : List Byte) : readU64 (u64Bytes v ++ rest) = .ok (v, rest) := by
  simp only [readU64, u64Bytes, u32Bytes, List.cons_append, List.nil_append, u32Of_bytes, u64Of_halves]

@[simp] theorem readBool_bytes (b : Bool) (rest : List Byte) : readBool (boolByte b :: rest) = .ok (b, rest) := by
  cases b <;> simp [readBool, boolByte]

@[simp] theorem readMode_bytes (m : Mode) (rest : List Byte) : readMode (m.code :: rest) = .ok (m, rest) := by
  cases m <;> simp [readMode, Mode.code]

@[simp] theorem readErrKind_bytes (k : UartErr) (rest : List Byte) :
    readErrKind (k.code :: rest) = .ok (k, rest) := by
  cases k <;> simp [readErrKind, UartErr.code]

@[simp] theorem readUid_bytes (u : Uid) (rest : List Byte) : readUid (u.bytes ++ rest) = .ok (u, rest) := rfl

@[simp] theorem readExact_bytes (bs rest : List Byte) : readExact bs.length (bs ++ rest) = .ok (bs, rest) := by
  induction bs with
  | nil => rfl
  | cons b bs ih => simp [readExact, ih]

/-- A byte string shorter than 2^16 bytes is read back. -/
theorem readBytes_bytes (bs rest : List Byte) (h : bs.length < 65536) :
    readBytes (stringBytes bs ++ rest) = .ok (bs, rest) := by
  unfold readBytes stringBytes
  rw [List.append_assoc, readU16_bytes]
  simp only [BitVec.toNat_ofNat, Nat.mod_eq_of_lt h]
  exact readExact_bytes bs rest

/-! ### What a reader took is the operand's bytes -/

theorem readU8_ok {input rest : List Byte} {b : Byte} (h : readU8 input = .ok (b, rest)) : input = b :: rest := by
  cases input <;> simp_all [readU8]

theorem readU16_ok {input rest : List Byte} {v : U16} (h : readU16 input = .ok (v, rest)) :
    input = u16Bytes v ++ rest := by
  unfold readU16 at h; split at h
  · cases h; simp [u16Bytes_of]
  · cases h

theorem readU32_ok {input rest : List Byte} {v : U32} (h : readU32 input = .ok (v, rest)) :
    input = u32Bytes v ++ rest := by
  unfold readU32 at h; split at h
  · cases h; simp [u32Bytes_of]
  · cases h

theorem readU64_ok {input rest : List Byte} {v : U64} (h : readU64 input = .ok (v, rest)) :
    input = u64Bytes v ++ rest := by
  unfold readU64 at h; split at h
  · cases h; simp [u64Bytes_of, u32Bytes_of]
  · cases h

theorem readBool_ok {input rest : List Byte} {b : Bool} (h : readBool input = .ok (b, rest)) :
    input = boolByte b :: rest := by
  unfold readBool at h; split at h
  · split at h
    · cases h; simp_all [boolByte]
    · split at h
      · cases h; simp_all [boolByte]
      · cases h
  · cases h

theorem readMode_ok {input rest : List Byte} {m : Mode} (h : readMode input = .ok (m, rest)) :
    input = m.code :: rest := by
  unfold readMode at h; split at h
  · split at h
    · cases h; simp_all [Mode.code]
    · split at h
      · cases h; simp_all [Mode.code]
      · cases h
  · cases h

theorem readErrKind_ok {input rest : List Byte} {k : UartErr} (h : readErrKind input = .ok (k, rest)) :
    input = k.code :: rest := by
  unfold readErrKind at h; split at h
  · split at h
    · cases h; simp_all [UartErr.code]
    · split at h
      · cases h; simp_all [UartErr.code]
      · split at h
        · cases h; simp_all [UartErr.code]
        · cases h
  · cases h

theorem readUid_ok {input rest : List Byte} {u : Uid} (h : readUid input = .ok (u, rest)) :
    input = u.bytes ++ rest := by
  unfold readUid at h; split at h
  · cases h; rfl
  · cases h

theorem readExact_ok {n : Nat} {input rest bs : List Byte} (h : readExact n input = .ok (bs, rest)) :
    input = bs ++ rest ∧ bs.length = n := by
  induction n generalizing input bs with
  | zero => cases h; simp
  | succ n ih =>
    cases input with
    | nil => cases h
    | cons b tail =>
      unfold readExact at h; split at h
      · cases h
      · rename_i bs' after hr
        cases h
        obtain ⟨h1, h2⟩ := ih hr
        simp [h1, h2]

theorem readBytes_ok {input rest bs : List Byte} (h : readBytes input = .ok (bs, rest)) :
    input = stringBytes bs ++ rest ∧ bs.length < 65536 := by
  unfold readBytes at h; split at h
  · cases h
  · rename_i n after hn
    obtain ⟨h1, h2⟩ := readExact_ok h
    have h3 := readU16_ok hn
    refine ⟨?_, by omega⟩
    rw [h3, h1, stringBytes, h2, BitVec.ofNat_toNat, BitVec.setWidth_eq, List.append_assoc]

/-! ### Builders: what an instruction was built from -/

theorem with1_ok {α : Type} {r : Reader α} {build : α → Instr} {input rest : List Byte} {i : Instr}
    (h : with1 r build input = .ok (i, rest)) : ∃ a, r input = .ok (a, rest) ∧ i = build a := by
  unfold with1 at h; split at h
  · cases h
  · rename_i a after hr; cases h; exact ⟨a, hr, rfl⟩

theorem with2_ok {α β : Type} {r : Reader α} {q : Reader β} {build : α → β → Instr} {input rest : List Byte} {i : Instr}
    (h : with2 r q build input = .ok (i, rest)) :
    ∃ a mid b, r input = .ok (a, mid) ∧ q mid = .ok (b, rest) ∧ i = build a b := by
  unfold with2 at h; split at h
  · cases h
  · rename_i a after hr
    obtain ⟨b, h1, h2⟩ := with1_ok h
    exact ⟨a, after, b, hr, h1, h2⟩

theorem with3_ok {α β γ : Type} {r : Reader α} {q : Reader β} {p : Reader γ} {build : α → β → γ → Instr}
    {input rest : List Byte} {i : Instr} (h : with3 r q p build input = .ok (i, rest)) :
    ∃ a m1 b m2 c, r input = .ok (a, m1) ∧ q m1 = .ok (b, m2) ∧ p m2 = .ok (c, rest) ∧ i = build a b c := by
  unfold with3 at h; split at h
  · cases h
  · rename_i a after hr
    obtain ⟨b, m2, c, h1, h2, h3⟩ := with2_ok h
    exact ⟨a, after, b, m2, c, hr, h1, h2, h3⟩

theorem with4_ok {α β γ δ : Type} {r : Reader α} {q : Reader β} {p : Reader γ} {o : Reader δ}
    {build : α → β → γ → δ → Instr} {input rest : List Byte} {i : Instr}
    (h : with4 r q p o build input = .ok (i, rest)) :
    ∃ a m1 b m2 c m3 d, r input = .ok (a, m1) ∧ q m1 = .ok (b, m2) ∧ p m2 = .ok (c, m3) ∧ o m3 = .ok (d, rest) ∧
      i = build a b c d := by
  unfold with4 at h; split at h
  · cases h
  · rename_i a after hr
    obtain ⟨b, m2, c, m3, d, h1, h2, h3, h4⟩ := with3_ok h
    exact ⟨a, after, b, m2, c, m3, d, hr, h1, h2, h3, h4⟩

end Sys2Proof
end

