-- ==== Sys2Proof/Laws/State.lean ====
section
/-! SUPPORT. What each named update leaves in each field of State: one lemma per field per update, true by `rfl` or,
where an update is made of named ones, by their lemmas. -/

namespace Sys2Proof.Machine

/-! ### `answer` -/

@[simp] theorem answer_time (r : Reply) (s : State) : (answer r s).time = s.time := rfl
@[simp] theorem answer_agent (r : Reply) (s : State) : (answer r s).agent = s.agent := rfl
@[simp] theorem answer_inbox (r : Reply) (s : State) : (answer r s).inbox = s.inbox := rfl
@[simp] theorem answer_params (r : Reply) (s : State) : (answer r s).params = s.params := rfl
@[simp] theorem answer_mode (r : Reply) (s : State) : (answer r s).mode = s.mode := rfl
@[simp] theorem answer_coarseTicks (r : Reply) (s : State) : (answer r s).coarseTicks = s.coarseTicks := rfl
@[simp] theorem answer_tick (r : Reply) (s : State) : (answer r s).tick = s.tick := rfl
@[simp] theorem answer_counters (r : Reply) (s : State) : (answer r s).counters = s.counters := rfl
@[simp] theorem answer_ctrlState (r : Reply) (s : State) : (answer r s).ctrlState = s.ctrlState := rfl
@[simp] theorem answer_respState (r : Reply) (s : State) : (answer r s).respState = s.respState := rfl
@[simp] theorem answer_tx (r : Reply) (s : State) : (answer r s).tx = s.tx := rfl
@[simp] theorem answer_rx (r : Reply) (s : State) : (answer r s).rx = s.rx := rfl
@[simp] theorem answer_frameReady (r : Reply) (s : State) : (answer r s).frameReady = s.frameReady := rfl
@[simp] theorem answer_fbOwner (r : Reply) (s : State) : (answer r s).fbOwner = s.fbOwner := rfl
@[simp] theorem answer_reply (r : Reply) (s : State) : (answer r s).reply = s.reply := rfl
@[simp] theorem answer_curOp (r : Reply) (s : State) : (answer r s).curOp = s.curOp := rfl
@[simp] theorem answer_timing (r : Reply) (s : State) : (answer r s).timing = s.timing := rfl
@[simp] theorem answer_timer (r : Reply) (s : State) : (answer r s).timer = s.timer := rfl
@[simp] theorem answer_txQueue (r : Reply) (s : State) : (answer r s).txQueue = s.txQueue := rfl
@[simp] theorem answer_completions (r : Reply) (s : State) : (answer r s).completions = s.completions := rfl
@[simp] theorem answer_fb (r : Reply) (s : State) : (answer r s).fb = s.fb := rfl
@[simp] theorem answer_pins (r : Reply) (s : State) : (answer r s).pins = s.pins := rfl
@[simp] theorem answer_uart (r : Reply) (s : State) : (answer r s).uart = s.uart := rfl
@[simp] theorem answer_wire (r : Reply) (s : State) : (answer r s).wire = s.wire := rfl
@[simp] theorem answer_hostReply (r : Reply) (s : State) : (answer r s).hostReply = r := rfl
@[simp] theorem answer_delivered (r : Reply) (s : State) : (answer r s).delivered = s.delivered := rfl
@[simp] theorem answer_dispatch (r : Reply) (s : State) : (answer r s).dispatch = s.dispatch := rfl
@[simp] theorem answer_draws (r : Reply) (s : State) : (answer r s).draws = s.draws := rfl

/-! ### `post` -/

@[simp] theorem post_time (ev : Completion) (s : State) : (post ev s).time = s.time := rfl
@[simp] theorem post_agent (ev : Completion) (s : State) : (post ev s).agent = s.agent := rfl
@[simp] theorem post_inbox (ev : Completion) (s : State) : (post ev s).inbox = s.inbox := rfl
@[simp] theorem post_params (ev : Completion) (s : State) : (post ev s).params = s.params := rfl
@[simp] theorem post_mode (ev : Completion) (s : State) : (post ev s).mode = s.mode := rfl
@[simp] theorem post_coarseTicks (ev : Completion) (s : State) : (post ev s).coarseTicks = s.coarseTicks := rfl
@[simp] theorem post_tick (ev : Completion) (s : State) : (post ev s).tick = s.tick := rfl
@[simp] theorem post_counters (ev : Completion) (s : State) : (post ev s).counters = s.counters := rfl
@[simp] theorem post_ctrlState (ev : Completion) (s : State) : (post ev s).ctrlState = s.ctrlState := rfl
@[simp] theorem post_respState (ev : Completion) (s : State) : (post ev s).respState = s.respState := rfl
@[simp] theorem post_tx (ev : Completion) (s : State) : (post ev s).tx = s.tx := rfl
@[simp] theorem post_rx (ev : Completion) (s : State) : (post ev s).rx = s.rx := rfl
@[simp] theorem post_frameReady (ev : Completion) (s : State) : (post ev s).frameReady = s.frameReady := rfl
@[simp] theorem post_fbOwner (ev : Completion) (s : State) : (post ev s).fbOwner = s.fbOwner := rfl
@[simp] theorem post_reply (ev : Completion) (s : State) : (post ev s).reply = s.reply := rfl
@[simp] theorem post_curOp (ev : Completion) (s : State) : (post ev s).curOp = s.curOp := rfl
@[simp] theorem post_timing (ev : Completion) (s : State) : (post ev s).timing = s.timing := rfl
@[simp] theorem post_timer (ev : Completion) (s : State) : (post ev s).timer = s.timer := rfl
@[simp] theorem post_txQueue (ev : Completion) (s : State) : (post ev s).txQueue = s.txQueue := rfl
@[simp] theorem post_completions (ev : Completion) (s : State) :
    (post ev s).completions = s.completions ++ [ev] := rfl
@[simp] theorem post_fb (ev : Completion) (s : State) : (post ev s).fb = s.fb := rfl
@[simp] theorem post_pins (ev : Completion) (s : State) : (post ev s).pins = s.pins := rfl
@[simp] theorem post_uart (ev : Completion) (s : State) : (post ev s).uart = s.uart := rfl
@[simp] theorem post_wire (ev : Completion) (s : State) : (post ev s).wire = s.wire := rfl
@[simp] theorem post_hostReply (ev : Completion) (s : State) : (post ev s).hostReply = s.hostReply := rfl
@[simp] theorem post_delivered (ev : Completion) (s : State) : (post ev s).delivered = s.delivered := rfl
@[simp] theorem post_dispatch (ev : Completion) (s : State) : (post ev s).dispatch = s.dispatch := rfl
@[simp] theorem post_draws (ev : Completion) (s : State) : (post ev s).draws = s.draws := rfl

/-! ### `endOp` -/

@[simp] theorem endOp_time (c : FrameClass) (r : ResultCode) (bs : List Byte) (s : State) :
    (endOp c r bs s).time = s.time := rfl
@[simp] theorem endOp_agent (c : FrameClass) (r : ResultCode) (bs : List Byte) (s : State) :
    (endOp c r bs s).agent = s.agent := rfl
@[simp] theorem endOp_inbox (c : FrameClass) (r : ResultCode) (bs : List Byte) (s : State) :
    (endOp c r bs s).inbox = s.inbox := rfl
@[simp] theorem endOp_params (c : FrameClass) (r : ResultCode) (bs : List Byte) (s : State) :
    (endOp c r bs s).params = s.params := rfl
@[simp] theorem endOp_mode (c : FrameClass) (r : ResultCode) (bs : List Byte) (s : State) :
    (endOp c r bs s).mode = s.mode := rfl
@[simp] theorem endOp_coarseTicks (c : FrameClass) (r : ResultCode) (bs : List Byte) (s : State) :
    (endOp c r bs s).coarseTicks = s.coarseTicks := rfl
@[simp] theorem endOp_tick (c : FrameClass) (r : ResultCode) (bs : List Byte) (s : State) :
    (endOp c r bs s).tick = s.tick := rfl
@[simp] theorem endOp_counters (c : FrameClass) (r : ResultCode) (bs : List Byte) (s : State) :
    (endOp c r bs s).counters = s.counters := rfl
@[simp] theorem endOp_ctrlState (c : FrameClass) (r : ResultCode) (bs : List Byte) (s : State) :
    (endOp c r bs s).ctrlState = .idle := rfl
@[simp] theorem endOp_respState (c : FrameClass) (r : ResultCode) (bs : List Byte) (s : State) :
    (endOp c r bs s).respState = s.respState := rfl
@[simp] theorem endOp_tx (c : FrameClass) (r : ResultCode) (bs : List Byte) (s : State) :
    (endOp c r bs s).tx = s.tx := rfl
@[simp] theorem endOp_rx (c : FrameClass) (r : ResultCode) (bs : List Byte) (s : State) :
    (endOp c r bs s).rx = s.rx := rfl
@[simp] theorem endOp_frameReady (c : FrameClass) (r : ResultCode) (bs : List Byte) (s : State) :
    (endOp c r bs s).frameReady = s.frameReady := rfl
@[simp] theorem endOp_fbOwner (c : FrameClass) (r : ResultCode) (bs : List Byte) (s : State) :
    (endOp c r bs s).fbOwner = s.fbOwner := rfl
@[simp] theorem endOp_reply (c : FrameClass) (r : ResultCode) (bs : List Byte) (s : State) :
    (endOp c r bs s).reply = s.reply := rfl
@[simp] theorem endOp_curOp (c : FrameClass) (r : ResultCode) (bs : List Byte) (s : State) :
    (endOp c r bs s).curOp = { s.curOp with valid := false } := rfl
@[simp] theorem endOp_timing (c : FrameClass) (r : ResultCode) (bs : List Byte) (s : State) :
    (endOp c r bs s).timing = s.timing := rfl
@[simp] theorem endOp_timer (c : FrameClass) (r : ResultCode) (bs : List Byte) (s : State) :
    (endOp c r bs s).timer = s.timer := rfl
@[simp] theorem endOp_txQueue (c : FrameClass) (r : ResultCode) (bs : List Byte) (s : State) :
    (endOp c r bs s).txQueue = s.txQueue := rfl
@[simp] theorem endOp_completions (c : FrameClass) (r : ResultCode) (bs : List Byte) (s : State) :
    (endOp c r bs s).completions = s.completions ++ [{ token := s.curOp.token, cls := c, result := r, bytes := bs }] := rfl
@[simp] theorem endOp_fb (c : FrameClass) (r : ResultCode) (bs : List Byte) (s : State) :
    (endOp c r bs s).fb = s.fb := rfl
@[simp] theorem endOp_pins (c : FrameClass) (r : ResultCode) (bs : List Byte) (s : State) :
    (endOp c r bs s).pins = s.pins := rfl
@[simp] theorem endOp_uart (c : FrameClass) (r : ResultCode) (bs : List Byte) (s : State) :
    (endOp c r bs s).uart = s.uart := rfl
@[simp] theorem endOp_wire (c : FrameClass) (r : ResultCode) (bs : List Byte) (s : State) :
    (endOp c r bs s).wire = s.wire := rfl
@[simp] theorem endOp_hostReply (c : FrameClass) (r : ResultCode) (bs : List Byte) (s : State) :
    (endOp c r bs s).hostReply = s.hostReply := rfl
@[simp] theorem endOp_delivered (c : FrameClass) (r : ResultCode) (bs : List Byte) (s : State) :
    (endOp c r bs s).delivered = s.delivered := rfl
@[simp] theorem endOp_dispatch (c : FrameClass) (r : ResultCode) (bs : List Byte) (s : State) :
    (endOp c r bs s).dispatch = s.dispatch := rfl
@[simp] theorem endOp_draws (c : FrameClass) (r : ResultCode) (bs : List Byte) (s : State) :
    (endOp c r bs s).draws = s.draws := rfl

/-! ### `backoff` -/

@[simp] theorem backoff_time (t : Nat) (s : State) : (backoff t s).time = s.time := rfl
@[simp] theorem backoff_agent (t : Nat) (s : State) : (backoff t s).agent = s.agent := rfl
@[simp] theorem backoff_inbox (t : Nat) (s : State) : (backoff t s).inbox = s.inbox := rfl
@[simp] theorem backoff_params (t : Nat) (s : State) : (backoff t s).params = s.params := rfl
@[simp] theorem backoff_mode (t : Nat) (s : State) : (backoff t s).mode = s.mode := rfl
@[simp] theorem backoff_coarseTicks (t : Nat) (s : State) : (backoff t s).coarseTicks = s.coarseTicks := rfl
@[simp] theorem backoff_tick (t : Nat) (s : State) : (backoff t s).tick = s.tick := rfl
@[simp] theorem backoff_counters (t : Nat) (s : State) : (backoff t s).counters = s.counters := rfl
@[simp] theorem backoff_ctrlState (t : Nat) (s : State) : (backoff t s).ctrlState = s.ctrlState := rfl
@[simp] theorem backoff_respState (t : Nat) (s : State) : (backoff t s).respState = s.respState := rfl
@[simp] theorem backoff_tx (t : Nat) (s : State) : (backoff t s).tx = s.tx := rfl
@[simp] theorem backoff_rx (t : Nat) (s : State) : (backoff t s).rx = s.rx := rfl
@[simp] theorem backoff_frameReady (t : Nat) (s : State) : (backoff t s).frameReady = s.frameReady := rfl
@[simp] theorem backoff_fbOwner (t : Nat) (s : State) : (backoff t s).fbOwner = s.fbOwner := rfl
@[simp] theorem backoff_reply (t : Nat) (s : State) : (backoff t s).reply = s.reply := rfl
@[simp] theorem backoff_curOp (t : Nat) (s : State) : (backoff t s).curOp = s.curOp := rfl
@[simp] theorem backoff_timing (t : Nat) (s : State) :
    (backoff t s).timing = { s.timing with backoffUntil := t } := rfl
@[simp] theorem backoff_timer (t : Nat) (s : State) : (backoff t s).timer = s.timer := rfl
@[simp] theorem backoff_txQueue (t : Nat) (s : State) : (backoff t s).txQueue = s.txQueue := rfl
@[simp] theorem backoff_completions (t : Nat) (s : State) : (backoff t s).completions = s.completions := rfl
@[simp] theorem backoff_fb (t : Nat) (s : State) : (backoff t s).fb = s.fb := rfl
@[simp] theorem backoff_pins (t : Nat) (s : State) : (backoff t s).pins = s.pins := rfl
@[simp] theorem backoff_uart (t : Nat) (s : State) : (backoff t s).uart = s.uart := rfl
@[simp] theorem backoff_wire (t : Nat) (s : State) : (backoff t s).wire = s.wire := rfl
@[simp] theorem backoff_hostReply (t : Nat) (s : State) : (backoff t s).hostReply = s.hostReply := rfl
@[simp] theorem backoff_delivered (t : Nat) (s : State) : (backoff t s).delivered = s.delivered := rfl
@[simp] theorem backoff_dispatch (t : Nat) (s : State) : (backoff t s).dispatch = s.dispatch := rfl
@[simp] theorem backoff_draws (t : Nat) (s : State) : (backoff t s).draws = s.draws := rfl

/-! ### `inc` -/

@[simp] theorem inc_time (c : CounterId) (s : State) : (inc c s).time = s.time := rfl
@[simp] theorem inc_agent (c : CounterId) (s : State) : (inc c s).agent = s.agent := rfl
@[simp] theorem inc_inbox (c : CounterId) (s : State) : (inc c s).inbox = s.inbox := rfl
@[simp] theorem inc_params (c : CounterId) (s : State) : (inc c s).params = s.params := rfl
@[simp] theorem inc_mode (c : CounterId) (s : State) : (inc c s).mode = s.mode := rfl
@[simp] theorem inc_coarseTicks (c : CounterId) (s : State) : (inc c s).coarseTicks = s.coarseTicks := rfl
@[simp] theorem inc_tick (c : CounterId) (s : State) : (inc c s).tick = s.tick := rfl
@[simp] theorem inc_counters (c : CounterId) (s : State) :
    (inc c s).counters = putCounter c (satSucc (getCounter c s.counters)) s.counters := rfl
@[simp] theorem inc_ctrlState (c : CounterId) (s : State) : (inc c s).ctrlState = s.ctrlState := rfl
@[simp] theorem inc_respState (c : CounterId) (s : State) : (inc c s).respState = s.respState := rfl
@[simp] theorem inc_tx (c : CounterId) (s : State) : (inc c s).tx = s.tx := rfl
@[simp] theorem inc_rx (c : CounterId) (s : State) : (inc c s).rx = s.rx := rfl
@[simp] theorem inc_frameReady (c : CounterId) (s : State) : (inc c s).frameReady = s.frameReady := rfl
@[simp] theorem inc_fbOwner (c : CounterId) (s : State) : (inc c s).fbOwner = s.fbOwner := rfl
@[simp] theorem inc_reply (c : CounterId) (s : State) : (inc c s).reply = s.reply := rfl
@[simp] theorem inc_curOp (c : CounterId) (s : State) : (inc c s).curOp = s.curOp := rfl
@[simp] theorem inc_timing (c : CounterId) (s : State) : (inc c s).timing = s.timing := rfl
@[simp] theorem inc_timer (c : CounterId) (s : State) : (inc c s).timer = s.timer := rfl
@[simp] theorem inc_txQueue (c : CounterId) (s : State) : (inc c s).txQueue = s.txQueue := rfl
@[simp] theorem inc_completions (c : CounterId) (s : State) : (inc c s).completions = s.completions := rfl
@[simp] theorem inc_fb (c : CounterId) (s : State) : (inc c s).fb = s.fb := rfl
@[simp] theorem inc_pins (c : CounterId) (s : State) : (inc c s).pins = s.pins := rfl
@[simp] theorem inc_uart (c : CounterId) (s : State) : (inc c s).uart = s.uart := rfl
@[simp] theorem inc_wire (c : CounterId) (s : State) : (inc c s).wire = s.wire := rfl
@[simp] theorem inc_hostReply (c : CounterId) (s : State) : (inc c s).hostReply = s.hostReply := rfl
@[simp] theorem inc_delivered (c : CounterId) (s : State) : (inc c s).delivered = s.delivered := rfl
@[simp] theorem inc_dispatch (c : CounterId) (s : State) : (inc c s).dispatch = s.dispatch := rfl
@[simp] theorem inc_draws (c : CounterId) (s : State) : (inc c s).draws = s.draws := rfl

/-! ### `arm` -/

@[simp] theorem arm_time (t : Nat) (s : State) : (arm t s).time = s.time := rfl
@[simp] theorem arm_agent (t : Nat) (s : State) : (arm t s).agent = s.agent := rfl
@[simp] theorem arm_inbox (t : Nat) (s : State) : (arm t s).inbox = s.inbox := rfl
@[simp] theorem arm_params (t : Nat) (s : State) : (arm t s).params = s.params := rfl
@[simp] theorem arm_mode (t : Nat) (s : State) : (arm t s).mode = s.mode := rfl
@[simp] theorem arm_coarseTicks (t : Nat) (s : State) : (arm t s).coarseTicks = s.coarseTicks := rfl
@[simp] theorem arm_tick (t : Nat) (s : State) : (arm t s).tick = s.tick := rfl
@[simp] theorem arm_counters (t : Nat) (s : State) : (arm t s).counters = s.counters := rfl
@[simp] theorem arm_ctrlState (t : Nat) (s : State) : (arm t s).ctrlState = s.ctrlState := rfl
@[simp] theorem arm_respState (t : Nat) (s : State) : (arm t s).respState = s.respState := rfl
@[simp] theorem arm_tx (t : Nat) (s : State) : (arm t s).tx = s.tx := rfl
@[simp] theorem arm_rx (t : Nat) (s : State) : (arm t s).rx = s.rx := rfl
@[simp] theorem arm_frameReady (t : Nat) (s : State) : (arm t s).frameReady = s.frameReady := rfl
@[simp] theorem arm_fbOwner (t : Nat) (s : State) : (arm t s).fbOwner = s.fbOwner := rfl
@[simp] theorem arm_reply (t : Nat) (s : State) : (arm t s).reply = s.reply := rfl
@[simp] theorem arm_curOp (t : Nat) (s : State) : (arm t s).curOp = s.curOp := rfl
@[simp] theorem arm_timing (t : Nat) (s : State) : (arm t s).timing = s.timing := rfl
@[simp] theorem arm_timer (t : Nat) (s : State) : (arm t s).timer = { armed := true, compareAt := t } := rfl
@[simp] theorem arm_txQueue (t : Nat) (s : State) : (arm t s).txQueue = s.txQueue := rfl
@[simp] theorem arm_completions (t : Nat) (s : State) : (arm t s).completions = s.completions := rfl
@[simp] theorem arm_fb (t : Nat) (s : State) : (arm t s).fb = s.fb := rfl
@[simp] theorem arm_pins (t : Nat) (s : State) : (arm t s).pins = s.pins := rfl
@[simp] theorem arm_uart (t : Nat) (s : State) : (arm t s).uart = s.uart := rfl
@[simp] theorem arm_wire (t : Nat) (s : State) : (arm t s).wire = s.wire := rfl
@[simp] theorem arm_hostReply (t : Nat) (s : State) : (arm t s).hostReply = s.hostReply := rfl
@[simp] theorem arm_delivered (t : Nat) (s : State) : (arm t s).delivered = s.delivered := rfl
@[simp] theorem arm_dispatch (t : Nat) (s : State) : (arm t s).dispatch = s.dispatch := rfl
@[simp] theorem arm_draws (t : Nat) (s : State) : (arm t s).draws = s.draws := rfl

/-! ### `disarm` -/

@[simp] theorem disarm_time (s : State) : (disarm s).time = s.time := rfl
@[simp] theorem disarm_agent (s : State) : (disarm s).agent = s.agent := rfl
@[simp] theorem disarm_inbox (s : State) : (disarm s).inbox = s.inbox := rfl
@[simp] theorem disarm_params (s : State) : (disarm s).params = s.params := rfl
@[simp] theorem disarm_mode (s : State) : (disarm s).mode = s.mode := rfl
@[simp] theorem disarm_coarseTicks (s : State) : (disarm s).coarseTicks = s.coarseTicks := rfl
@[simp] theorem disarm_tick (s : State) : (disarm s).tick = s.tick := rfl
@[simp] theorem disarm_counters (s : State) : (disarm s).counters = s.counters := rfl
@[simp] theorem disarm_ctrlState (s : State) : (disarm s).ctrlState = s.ctrlState := rfl
@[simp] theorem disarm_respState (s : State) : (disarm s).respState = s.respState := rfl
@[simp] theorem disarm_tx (s : State) : (disarm s).tx = s.tx := rfl
@[simp] theorem disarm_rx (s : State) : (disarm s).rx = s.rx := rfl
@[simp] theorem disarm_frameReady (s : State) : (disarm s).frameReady = s.frameReady := rfl
@[simp] theorem disarm_fbOwner (s : State) : (disarm s).fbOwner = s.fbOwner := rfl
@[simp] theorem disarm_reply (s : State) : (disarm s).reply = s.reply := rfl
@[simp] theorem disarm_curOp (s : State) : (disarm s).curOp = s.curOp := rfl
@[simp] theorem disarm_timing (s : State) : (disarm s).timing = s.timing := rfl
@[simp] theorem disarm_timer (s : State) : (disarm s).timer = { s.timer with armed := false } := rfl
@[simp] theorem disarm_txQueue (s : State) : (disarm s).txQueue = s.txQueue := rfl
@[simp] theorem disarm_completions (s : State) : (disarm s).completions = s.completions := rfl
@[simp] theorem disarm_fb (s : State) : (disarm s).fb = s.fb := rfl
@[simp] theorem disarm_pins (s : State) : (disarm s).pins = s.pins := rfl
@[simp] theorem disarm_uart (s : State) : (disarm s).uart = s.uart := rfl
@[simp] theorem disarm_wire (s : State) : (disarm s).wire = s.wire := rfl
@[simp] theorem disarm_hostReply (s : State) : (disarm s).hostReply = s.hostReply := rfl
@[simp] theorem disarm_delivered (s : State) : (disarm s).delivered = s.delivered := rfl
@[simp] theorem disarm_dispatch (s : State) : (disarm s).dispatch = s.dispatch := rfl
@[simp] theorem disarm_draws (s : State) : (disarm s).draws = s.draws := rfl

/-! ### `setDir` -/

@[simp] theorem setDir_time (d : Dir) (s : State) : (setDir d s).time = s.time := rfl
@[simp] theorem setDir_agent (d : Dir) (s : State) : (setDir d s).agent = s.agent := rfl
@[simp] theorem setDir_inbox (d : Dir) (s : State) : (setDir d s).inbox = s.inbox := rfl
@[simp] theorem setDir_params (d : Dir) (s : State) : (setDir d s).params = s.params := rfl
@[simp] theorem setDir_mode (d : Dir) (s : State) : (setDir d s).mode = s.mode := rfl
@[simp] theorem setDir_coarseTicks (d : Dir) (s : State) : (setDir d s).coarseTicks = s.coarseTicks := rfl
@[simp] theorem setDir_tick (d : Dir) (s : State) : (setDir d s).tick = s.tick := rfl
@[simp] theorem setDir_counters (d : Dir) (s : State) : (setDir d s).counters = s.counters := rfl
@[simp] theorem setDir_ctrlState (d : Dir) (s : State) : (setDir d s).ctrlState = s.ctrlState := rfl
@[simp] theorem setDir_respState (d : Dir) (s : State) : (setDir d s).respState = s.respState := rfl
@[simp] theorem setDir_tx (d : Dir) (s : State) : (setDir d s).tx = s.tx := rfl
@[simp] theorem setDir_rx (d : Dir) (s : State) : (setDir d s).rx = s.rx := rfl
@[simp] theorem setDir_frameReady (d : Dir) (s : State) : (setDir d s).frameReady = s.frameReady := rfl
@[simp] theorem setDir_fbOwner (d : Dir) (s : State) : (setDir d s).fbOwner = s.fbOwner := rfl
@[simp] theorem setDir_reply (d : Dir) (s : State) : (setDir d s).reply = s.reply := rfl
@[simp] theorem setDir_curOp (d : Dir) (s : State) : (setDir d s).curOp = s.curOp := rfl
@[simp] theorem setDir_timing (d : Dir) (s : State) : (setDir d s).timing = s.timing := rfl
@[simp] theorem setDir_timer (d : Dir) (s : State) : (setDir d s).timer = s.timer := rfl
@[simp] theorem setDir_txQueue (d : Dir) (s : State) : (setDir d s).txQueue = s.txQueue := rfl
@[simp] theorem setDir_completions (d : Dir) (s : State) : (setDir d s).completions = s.completions := rfl
@[simp] theorem setDir_fb (d : Dir) (s : State) : (setDir d s).fb = s.fb := rfl
@[simp] theorem setDir_pins (d : Dir) (s : State) : (setDir d s).pins = { s.pins with dir := d } := rfl
@[simp] theorem setDir_uart (d : Dir) (s : State) : (setDir d s).uart = s.uart := rfl
@[simp] theorem setDir_wire (d : Dir) (s : State) : (setDir d s).wire = s.wire ++ dirWire d s := rfl
@[simp] theorem setDir_hostReply (d : Dir) (s : State) : (setDir d s).hostReply = s.hostReply := rfl
@[simp] theorem setDir_delivered (d : Dir) (s : State) : (setDir d s).delivered = s.delivered := rfl
@[simp] theorem setDir_dispatch (d : Dir) (s : State) : (setDir d s).dispatch = s.dispatch := rfl
@[simp] theorem setDir_draws (d : Dir) (s : State) : (setDir d s).draws = s.draws := rfl

/-! ### `setLine` -/

@[simp] theorem setLine_time (l : TxLine) (s : State) : (setLine l s).time = s.time := rfl
@[simp] theorem setLine_agent (l : TxLine) (s : State) : (setLine l s).agent = s.agent := rfl
@[simp] theorem setLine_inbox (l : TxLine) (s : State) : (setLine l s).inbox = s.inbox := rfl
@[simp] theorem setLine_params (l : TxLine) (s : State) : (setLine l s).params = s.params := rfl
@[simp] theorem setLine_mode (l : TxLine) (s : State) : (setLine l s).mode = s.mode := rfl
@[simp] theorem setLine_coarseTicks (l : TxLine) (s : State) : (setLine l s).coarseTicks = s.coarseTicks := rfl
@[simp] theorem setLine_tick (l : TxLine) (s : State) : (setLine l s).tick = s.tick := rfl
@[simp] theorem setLine_counters (l : TxLine) (s : State) : (setLine l s).counters = s.counters := rfl
@[simp] theorem setLine_ctrlState (l : TxLine) (s : State) : (setLine l s).ctrlState = s.ctrlState := rfl
@[simp] theorem setLine_respState (l : TxLine) (s : State) : (setLine l s).respState = s.respState := rfl
@[simp] theorem setLine_tx (l : TxLine) (s : State) : (setLine l s).tx = s.tx := rfl
@[simp] theorem setLine_rx (l : TxLine) (s : State) : (setLine l s).rx = s.rx := rfl
@[simp] theorem setLine_frameReady (l : TxLine) (s : State) : (setLine l s).frameReady = s.frameReady := rfl
@[simp] theorem setLine_fbOwner (l : TxLine) (s : State) : (setLine l s).fbOwner = s.fbOwner := rfl
@[simp] theorem setLine_reply (l : TxLine) (s : State) : (setLine l s).reply = s.reply := rfl
@[simp] theorem setLine_curOp (l : TxLine) (s : State) : (setLine l s).curOp = s.curOp := rfl
@[simp] theorem setLine_timing (l : TxLine) (s : State) : (setLine l s).timing = s.timing := rfl
@[simp] theorem setLine_timer (l : TxLine) (s : State) : (setLine l s).timer = s.timer := rfl
@[simp] theorem setLine_txQueue (l : TxLine) (s : State) : (setLine l s).txQueue = s.txQueue := rfl
@[simp] theorem setLine_completions (l : TxLine) (s : State) : (setLine l s).completions = s.completions := rfl
@[simp] theorem setLine_fb (l : TxLine) (s : State) : (setLine l s).fb = s.fb := rfl
@[simp] theorem setLine_pins (l : TxLine) (s : State) : (setLine l s).pins = { s.pins with line := l } := rfl
@[simp] theorem setLine_uart (l : TxLine) (s : State) : (setLine l s).uart = s.uart := rfl
@[simp] theorem setLine_wire (l : TxLine) (s : State) : (setLine l s).wire = s.wire ++ lineWire l s := rfl
@[simp] theorem setLine_hostReply (l : TxLine) (s : State) : (setLine l s).hostReply = s.hostReply := rfl
@[simp] theorem setLine_delivered (l : TxLine) (s : State) : (setLine l s).delivered = s.delivered := rfl
@[simp] theorem setLine_dispatch (l : TxLine) (s : State) : (setLine l s).dispatch = s.dispatch := rfl
@[simp] theorem setLine_draws (l : TxLine) (s : State) : (setLine l s).draws = s.draws := rfl

/-! ### `raiseFrameReady` -/

@[simp] theorem raiseFrameReady_time (s : State) : (raiseFrameReady s).time = s.time := rfl
@[simp] theorem raiseFrameReady_agent (s : State) : (raiseFrameReady s).agent = s.agent := rfl
@[simp] theorem raiseFrameReady_inbox (s : State) : (raiseFrameReady s).inbox = s.inbox := rfl
@[simp] theorem raiseFrameReady_params (s : State) : (raiseFrameReady s).params = s.params := rfl
@[simp] theorem raiseFrameReady_mode (s : State) : (raiseFrameReady s).mode = s.mode := rfl
@[simp] theorem raiseFrameReady_coarseTicks (s : State) : (raiseFrameReady s).coarseTicks = s.coarseTicks := rfl
@[simp] theorem raiseFrameReady_tick (s : State) : (raiseFrameReady s).tick = s.tick := rfl
@[simp] theorem raiseFrameReady_counters (s : State) : (raiseFrameReady s).counters = s.counters := rfl
@[simp] theorem raiseFrameReady_ctrlState (s : State) : (raiseFrameReady s).ctrlState = s.ctrlState := rfl
@[simp] theorem raiseFrameReady_respState (s : State) : (raiseFrameReady s).respState = s.respState := rfl
@[simp] theorem raiseFrameReady_tx (s : State) : (raiseFrameReady s).tx = s.tx := rfl
@[simp] theorem raiseFrameReady_rx (s : State) : (raiseFrameReady s).rx = s.rx := rfl
@[simp] theorem raiseFrameReady_frameReady (s : State) : (raiseFrameReady s).frameReady = true := rfl
@[simp] theorem raiseFrameReady_fbOwner (s : State) : (raiseFrameReady s).fbOwner = s.fbOwner := rfl
@[simp] theorem raiseFrameReady_reply (s : State) : (raiseFrameReady s).reply = s.reply := rfl
@[simp] theorem raiseFrameReady_curOp (s : State) : (raiseFrameReady s).curOp = s.curOp := rfl
@[simp] theorem raiseFrameReady_timing (s : State) : (raiseFrameReady s).timing = s.timing := rfl
@[simp] theorem raiseFrameReady_timer (s : State) : (raiseFrameReady s).timer = s.timer := rfl
@[simp] theorem raiseFrameReady_txQueue (s : State) : (raiseFrameReady s).txQueue = s.txQueue := rfl
@[simp] theorem raiseFrameReady_completions (s : State) : (raiseFrameReady s).completions = s.completions := rfl
@[simp] theorem raiseFrameReady_fb (s : State) : (raiseFrameReady s).fb = s.fb := rfl
@[simp] theorem raiseFrameReady_pins (s : State) : (raiseFrameReady s).pins = s.pins := rfl
@[simp] theorem raiseFrameReady_uart (s : State) : (raiseFrameReady s).uart = s.uart := rfl
@[simp] theorem raiseFrameReady_wire (s : State) : (raiseFrameReady s).wire = s.wire := rfl
@[simp] theorem raiseFrameReady_hostReply (s : State) : (raiseFrameReady s).hostReply = s.hostReply := rfl
@[simp] theorem raiseFrameReady_delivered (s : State) : (raiseFrameReady s).delivered = s.delivered := rfl
@[simp] theorem raiseFrameReady_dispatch (s : State) : (raiseFrameReady s).dispatch = s.dispatch := rfl
@[simp] theorem raiseFrameReady_draws (s : State) : (raiseFrameReady s).draws = s.draws := rfl

/-! ### `clearFrameReady` -/

@[simp] theorem clearFrameReady_time (s : State) : (clearFrameReady s).time = s.time := rfl
@[simp] theorem clearFrameReady_agent (s : State) : (clearFrameReady s).agent = s.agent := rfl
@[simp] theorem clearFrameReady_inbox (s : State) : (clearFrameReady s).inbox = s.inbox := rfl
@[simp] theorem clearFrameReady_params (s : State) : (clearFrameReady s).params = s.params := rfl
@[simp] theorem clearFrameReady_mode (s : State) : (clearFrameReady s).mode = s.mode := rfl
@[simp] theorem clearFrameReady_coarseTicks (s : State) : (clearFrameReady s).coarseTicks = s.coarseTicks := rfl
@[simp] theorem clearFrameReady_tick (s : State) : (clearFrameReady s).tick = s.tick := rfl
@[simp] theorem clearFrameReady_counters (s : State) : (clearFrameReady s).counters = s.counters := rfl
@[simp] theorem clearFrameReady_ctrlState (s : State) : (clearFrameReady s).ctrlState = s.ctrlState := rfl
@[simp] theorem clearFrameReady_respState (s : State) : (clearFrameReady s).respState = s.respState := rfl
@[simp] theorem clearFrameReady_tx (s : State) : (clearFrameReady s).tx = s.tx := rfl
@[simp] theorem clearFrameReady_rx (s : State) : (clearFrameReady s).rx = s.rx := rfl
@[simp] theorem clearFrameReady_frameReady (s : State) : (clearFrameReady s).frameReady = false := rfl
@[simp] theorem clearFrameReady_fbOwner (s : State) : (clearFrameReady s).fbOwner = s.fbOwner := rfl
@[simp] theorem clearFrameReady_reply (s : State) : (clearFrameReady s).reply = s.reply := rfl
@[simp] theorem clearFrameReady_curOp (s : State) : (clearFrameReady s).curOp = s.curOp := rfl
@[simp] theorem clearFrameReady_timing (s : State) : (clearFrameReady s).timing = s.timing := rfl
@[simp] theorem clearFrameReady_timer (s : State) : (clearFrameReady s).timer = s.timer := rfl
@[simp] theorem clearFrameReady_txQueue (s : State) : (clearFrameReady s).txQueue = s.txQueue := rfl
@[simp] theorem clearFrameReady_completions (s : State) : (clearFrameReady s).completions = s.completions := rfl
@[simp] theorem clearFrameReady_fb (s : State) : (clearFrameReady s).fb = s.fb := rfl
@[simp] theorem clearFrameReady_pins (s : State) : (clearFrameReady s).pins = s.pins := rfl
@[simp] theorem clearFrameReady_uart (s : State) : (clearFrameReady s).uart = s.uart := rfl
@[simp] theorem clearFrameReady_wire (s : State) : (clearFrameReady s).wire = s.wire := rfl
@[simp] theorem clearFrameReady_hostReply (s : State) : (clearFrameReady s).hostReply = s.hostReply := rfl
@[simp] theorem clearFrameReady_delivered (s : State) : (clearFrameReady s).delivered = s.delivered := rfl
@[simp] theorem clearFrameReady_dispatch (s : State) : (clearFrameReady s).dispatch = s.dispatch := rfl
@[simp] theorem clearFrameReady_draws (s : State) : (clearFrameReady s).draws = s.draws := rfl

/-! ### `startBreak` -/

@[simp] theorem startBreak_time (s : State) : (startBreak s).time = s.time := rfl
@[simp] theorem startBreak_agent (s : State) : (startBreak s).agent = s.agent := rfl
@[simp] theorem startBreak_inbox (s : State) : (startBreak s).inbox = s.inbox := rfl
@[simp] theorem startBreak_params (s : State) : (startBreak s).params = s.params := rfl
@[simp] theorem startBreak_mode (s : State) : (startBreak s).mode = s.mode := rfl
@[simp] theorem startBreak_coarseTicks (s : State) : (startBreak s).coarseTicks = s.coarseTicks := rfl
@[simp] theorem startBreak_tick (s : State) : (startBreak s).tick = s.tick := rfl
@[simp] theorem startBreak_counters (s : State) : (startBreak s).counters = s.counters := rfl
@[simp] theorem startBreak_ctrlState (s : State) : (startBreak s).ctrlState = s.ctrlState := rfl
@[simp] theorem startBreak_respState (s : State) : (startBreak s).respState = s.respState := rfl
@[simp] theorem startBreak_tx (s : State) : (startBreak s).tx = s.tx := rfl
@[simp] theorem startBreak_rx (s : State) : (startBreak s).rx = s.rx := rfl
@[simp] theorem startBreak_frameReady (s : State) : (startBreak s).frameReady = s.frameReady := rfl
@[simp] theorem startBreak_fbOwner (s : State) : (startBreak s).fbOwner = s.fbOwner := rfl
@[simp] theorem startBreak_reply (s : State) : (startBreak s).reply = s.reply := rfl
@[simp] theorem startBreak_curOp (s : State) : (startBreak s).curOp = s.curOp := rfl
@[simp] theorem startBreak_timing (s : State) : (startBreak s).timing = s.timing := rfl
@[simp] theorem startBreak_timer (s : State) :
    (startBreak s).timer = { armed := true, compareAt := s.time + Config.us s.params.breakTime.toNat } := rfl
@[simp] theorem startBreak_txQueue (s : State) : (startBreak s).txQueue = s.txQueue := rfl
@[simp] theorem startBreak_completions (s : State) : (startBreak s).completions = s.completions := rfl
@[simp] theorem startBreak_fb (s : State) : (startBreak s).fb = s.fb := rfl
@[simp] theorem startBreak_pins (s : State) : (startBreak s).pins = { s.pins with line := .brk } := rfl
@[simp] theorem startBreak_uart (s : State) : (startBreak s).uart = s.uart := rfl
@[simp] theorem startBreak_wire (s : State) : (startBreak s).wire = s.wire ++ lineWire .brk s := rfl
@[simp] theorem startBreak_hostReply (s : State) : (startBreak s).hostReply = s.hostReply := rfl
@[simp] theorem startBreak_delivered (s : State) : (startBreak s).delivered = s.delivered := rfl
@[simp] theorem startBreak_dispatch (s : State) : (startBreak s).dispatch = s.dispatch := rfl
@[simp] theorem startBreak_draws (s : State) : (startBreak s).draws = s.draws := rfl

/-! ### `endBreak` -/

@[simp] theorem endBreak_time (s : State) : (endBreak s).time = s.time := rfl
@[simp] theorem endBreak_agent (s : State) : (endBreak s).agent = s.agent := rfl
@[simp] theorem endBreak_inbox (s : State) : (endBreak s).inbox = s.inbox := rfl
@[simp] theorem endBreak_params (s : State) : (endBreak s).params = s.params := rfl
@[simp] theorem endBreak_mode (s : State) : (endBreak s).mode = s.mode := rfl
@[simp] theorem endBreak_coarseTicks (s : State) : (endBreak s).coarseTicks = s.coarseTicks := rfl
@[simp] theorem endBreak_tick (s : State) : (endBreak s).tick = s.tick := rfl
@[simp] theorem endBreak_counters (s : State) : (endBreak s).counters = s.counters := rfl
@[simp] theorem endBreak_ctrlState (s : State) : (endBreak s).ctrlState = s.ctrlState := rfl
@[simp] theorem endBreak_respState (s : State) : (endBreak s).respState = s.respState := rfl
@[simp] theorem endBreak_tx (s : State) : (endBreak s).tx = s.tx := rfl
@[simp] theorem endBreak_rx (s : State) : (endBreak s).rx = s.rx := rfl
@[simp] theorem endBreak_frameReady (s : State) : (endBreak s).frameReady = s.frameReady := rfl
@[simp] theorem endBreak_fbOwner (s : State) : (endBreak s).fbOwner = s.fbOwner := rfl
@[simp] theorem endBreak_reply (s : State) : (endBreak s).reply = s.reply := rfl
@[simp] theorem endBreak_curOp (s : State) : (endBreak s).curOp = s.curOp := rfl
@[simp] theorem endBreak_timing (s : State) : (endBreak s).timing = s.timing := rfl
@[simp] theorem endBreak_timer (s : State) :
    (endBreak s).timer = { armed := true, compareAt := s.time + Config.us s.params.markTime.toNat } := rfl
@[simp] theorem endBreak_txQueue (s : State) : (endBreak s).txQueue = s.txQueue := rfl
@[simp] theorem endBreak_completions (s : State) : (endBreak s).completions = s.completions := rfl
@[simp] theorem endBreak_fb (s : State) : (endBreak s).fb = s.fb := rfl
@[simp] theorem endBreak_pins (s : State) : (endBreak s).pins = { s.pins with line := .mark } := rfl
@[simp] theorem endBreak_uart (s : State) : (endBreak s).uart = s.uart := rfl
@[simp] theorem endBreak_wire (s : State) : (endBreak s).wire = s.wire ++ lineWire .mark s := rfl
@[simp] theorem endBreak_hostReply (s : State) : (endBreak s).hostReply = s.hostReply := rfl
@[simp] theorem endBreak_delivered (s : State) : (endBreak s).delivered = s.delivered := rfl
@[simp] theorem endBreak_dispatch (s : State) : (endBreak s).dispatch = s.dispatch := rfl
@[simp] theorem endBreak_draws (s : State) : (endBreak s).draws = s.draws := rfl

/-! ### `flush` -/

@[simp] theorem flush_time (s : State) : (flush s).time = s.time := rfl
@[simp] theorem flush_agent (s : State) : (flush s).agent = s.agent := rfl
@[simp] theorem flush_inbox (s : State) : (flush s).inbox = s.inbox := rfl
@[simp] theorem flush_params (s : State) : (flush s).params = s.params := rfl
@[simp] theorem flush_mode (s : State) : (flush s).mode = s.mode := rfl
@[simp] theorem flush_coarseTicks (s : State) : (flush s).coarseTicks = s.coarseTicks := rfl
@[simp] theorem flush_tick (s : State) : (flush s).tick = s.tick := rfl
@[simp] theorem flush_counters (s : State) : (flush s).counters = s.counters := rfl
@[simp] theorem flush_ctrlState (s : State) : (flush s).ctrlState = s.ctrlState := rfl
@[simp] theorem flush_respState (s : State) : (flush s).respState = s.respState := rfl
@[simp] theorem flush_tx (s : State) : (flush s).tx = s.tx := rfl
@[simp] theorem flush_rx (s : State) : (flush s).rx = s.rx := rfl
@[simp] theorem flush_frameReady (s : State) : (flush s).frameReady = s.frameReady := rfl
@[simp] theorem flush_fbOwner (s : State) : (flush s).fbOwner = s.fbOwner := rfl
@[simp] theorem flush_reply (s : State) : (flush s).reply = s.reply := rfl
@[simp] theorem flush_curOp (s : State) : (flush s).curOp = s.curOp := rfl
@[simp] theorem flush_timing (s : State) : (flush s).timing = s.timing := rfl
@[simp] theorem flush_timer (s : State) : (flush s).timer = s.timer := rfl
@[simp] theorem flush_txQueue (s : State) : (flush s).txQueue = s.txQueue := rfl
@[simp] theorem flush_completions (s : State) : (flush s).completions = s.completions := rfl
@[simp] theorem flush_fb (s : State) : (flush s).fb = s.fb := rfl
@[simp] theorem flush_pins (s : State) : (flush s).pins = { s.pins with line := .mark } := rfl
@[simp] theorem flush_uart (s : State) : (flush s).uart = { s.uart with fifo := [], busy := false } := rfl
@[simp] theorem flush_wire (s : State) : (flush s).wire = s.wire ++ cutWire s ++ lineWire .mark s := rfl
@[simp] theorem flush_hostReply (s : State) : (flush s).hostReply = s.hostReply := rfl
@[simp] theorem flush_delivered (s : State) : (flush s).delivered = s.delivered := rfl
@[simp] theorem flush_dispatch (s : State) : (flush s).dispatch = s.dispatch := rfl
@[simp] theorem flush_draws (s : State) : (flush s).draws = s.draws := rfl
@[simp] theorem dirWire_flush (d : Dir) (s : State) : dirWire d (flush s) = dirWire d s := rfl

/-! ### `rxBegin` -/

@[simp] theorem rxBegin_time (s : State) : (rxBegin s).time = s.time := rfl
@[simp] theorem rxBegin_agent (s : State) : (rxBegin s).agent = s.agent := rfl
@[simp] theorem rxBegin_inbox (s : State) : (rxBegin s).inbox = s.inbox := rfl
@[simp] theorem rxBegin_params (s : State) : (rxBegin s).params = s.params := rfl
@[simp] theorem rxBegin_mode (s : State) : (rxBegin s).mode = s.mode := rfl
@[simp] theorem rxBegin_coarseTicks (s : State) : (rxBegin s).coarseTicks = s.coarseTicks := rfl
@[simp] theorem rxBegin_tick (s : State) : (rxBegin s).tick = s.tick := rfl
@[simp] theorem rxBegin_counters (s : State) : (rxBegin s).counters = s.counters := rfl
@[simp] theorem rxBegin_ctrlState (s : State) : (rxBegin s).ctrlState = s.ctrlState := rfl
@[simp] theorem rxBegin_respState (s : State) : (rxBegin s).respState = s.respState := rfl
@[simp] theorem rxBegin_tx (s : State) : (rxBegin s).tx = s.tx := rfl
@[simp] theorem rxBegin_rx (s : State) : (rxBegin s).rx = { s.rx with count := 0 } := rfl
@[simp] theorem rxBegin_frameReady (s : State) : (rxBegin s).frameReady = s.frameReady := rfl
@[simp] theorem rxBegin_fbOwner (s : State) : (rxBegin s).fbOwner = s.fbOwner := rfl
@[simp] theorem rxBegin_reply (s : State) : (rxBegin s).reply = s.reply := rfl
@[simp] theorem rxBegin_curOp (s : State) : (rxBegin s).curOp = s.curOp := rfl
@[simp] theorem rxBegin_timing (s : State) : (rxBegin s).timing = s.timing := rfl
@[simp] theorem rxBegin_timer (s : State) : (rxBegin s).timer = s.timer := rfl
@[simp] theorem rxBegin_txQueue (s : State) : (rxBegin s).txQueue = s.txQueue := rfl
@[simp] theorem rxBegin_completions (s : State) : (rxBegin s).completions = s.completions := rfl
@[simp] theorem rxBegin_fb (s : State) : (rxBegin s).fb = s.fb := rfl
@[simp] theorem rxBegin_pins (s : State) : (rxBegin s).pins = s.pins := rfl
@[simp] theorem rxBegin_uart (s : State) : (rxBegin s).uart = s.uart := rfl
@[simp] theorem rxBegin_wire (s : State) : (rxBegin s).wire = s.wire := rfl
@[simp] theorem rxBegin_hostReply (s : State) : (rxBegin s).hostReply = s.hostReply := rfl
@[simp] theorem rxBegin_delivered (s : State) : (rxBegin s).delivered = s.delivered := rfl
@[simp] theorem rxBegin_dispatch (s : State) : (rxBegin s).dispatch = s.dispatch := rfl
@[simp] theorem rxBegin_draws (s : State) : (rxBegin s).draws = s.draws := rfl

/-! ### `drawNext` -/

@[simp] theorem drawNext_time (s : State) : (drawNext s).time = s.time := rfl
@[simp] theorem drawNext_agent (s : State) : (drawNext s).agent = s.agent := rfl
@[simp] theorem drawNext_inbox (s : State) : (drawNext s).inbox = s.inbox := rfl
@[simp] theorem drawNext_params (s : State) : (drawNext s).params = s.params := rfl
@[simp] theorem drawNext_mode (s : State) : (drawNext s).mode = s.mode := rfl
@[simp] theorem drawNext_coarseTicks (s : State) : (drawNext s).coarseTicks = s.coarseTicks := rfl
@[simp] theorem drawNext_tick (s : State) : (drawNext s).tick = s.tick := rfl
@[simp] theorem drawNext_counters (s : State) : (drawNext s).counters = s.counters := rfl
@[simp] theorem drawNext_ctrlState (s : State) : (drawNext s).ctrlState = s.ctrlState := rfl
@[simp] theorem drawNext_respState (s : State) : (drawNext s).respState = s.respState := rfl
@[simp] theorem drawNext_tx (s : State) : (drawNext s).tx = s.tx := rfl
@[simp] theorem drawNext_rx (s : State) : (drawNext s).rx = s.rx := rfl
@[simp] theorem drawNext_frameReady (s : State) : (drawNext s).frameReady = s.frameReady := rfl
@[simp] theorem drawNext_fbOwner (s : State) : (drawNext s).fbOwner = s.fbOwner := rfl
@[simp] theorem drawNext_reply (s : State) : (drawNext s).reply = s.reply := rfl
@[simp] theorem drawNext_curOp (s : State) : (drawNext s).curOp = s.curOp := rfl
@[simp] theorem drawNext_timing (s : State) : (drawNext s).timing = s.timing := rfl
@[simp] theorem drawNext_timer (s : State) : (drawNext s).timer = s.timer := rfl
@[simp] theorem drawNext_txQueue (s : State) : (drawNext s).txQueue = s.txQueue := rfl
@[simp] theorem drawNext_completions (s : State) : (drawNext s).completions = s.completions := rfl
@[simp] theorem drawNext_fb (s : State) : (drawNext s).fb = s.fb := rfl
@[simp] theorem drawNext_pins (s : State) : (drawNext s).pins = s.pins := rfl
@[simp] theorem drawNext_uart (s : State) : (drawNext s).uart = s.uart := rfl
@[simp] theorem drawNext_wire (s : State) : (drawNext s).wire = s.wire := rfl
@[simp] theorem drawNext_hostReply (s : State) : (drawNext s).hostReply = s.hostReply := rfl
@[simp] theorem drawNext_delivered (s : State) : (drawNext s).delivered = s.delivered := rfl
@[simp] theorem drawNext_dispatch (s : State) : (drawNext s).dispatch = s.dispatch := rfl
@[simp] theorem drawNext_draws (s : State) : (drawNext s).draws = s.draws + 1 := rfl

/-! ### `ctrlGoto` -/

@[simp] theorem ctrlGoto_time (c : CtrlState) (s : State) : (ctrlGoto c s).time = s.time := rfl
@[simp] theorem ctrlGoto_agent (c : CtrlState) (s : State) : (ctrlGoto c s).agent = s.agent := rfl
@[simp] theorem ctrlGoto_inbox (c : CtrlState) (s : State) : (ctrlGoto c s).inbox = s.inbox := rfl
@[simp] theorem ctrlGoto_params (c : CtrlState) (s : State) : (ctrlGoto c s).params = s.params := rfl
@[simp] theorem ctrlGoto_mode (c : CtrlState) (s : State) : (ctrlGoto c s).mode = s.mode := rfl
@[simp] theorem ctrlGoto_coarseTicks (c : CtrlState) (s : State) : (ctrlGoto c s).coarseTicks = s.coarseTicks := rfl
@[simp] theorem ctrlGoto_tick (c : CtrlState) (s : State) : (ctrlGoto c s).tick = s.tick := rfl
@[simp] theorem ctrlGoto_counters (c : CtrlState) (s : State) : (ctrlGoto c s).counters = s.counters := rfl
@[simp] theorem ctrlGoto_ctrlState (c : CtrlState) (s : State) : (ctrlGoto c s).ctrlState = c := rfl
@[simp] theorem ctrlGoto_respState (c : CtrlState) (s : State) : (ctrlGoto c s).respState = s.respState := rfl
@[simp] theorem ctrlGoto_tx (c : CtrlState) (s : State) : (ctrlGoto c s).tx = s.tx := rfl
@[simp] theorem ctrlGoto_rx (c : CtrlState) (s : State) : (ctrlGoto c s).rx = s.rx := rfl
@[simp] theorem ctrlGoto_frameReady (c : CtrlState) (s : State) : (ctrlGoto c s).frameReady = s.frameReady := rfl
@[simp] theorem ctrlGoto_fbOwner (c : CtrlState) (s : State) : (ctrlGoto c s).fbOwner = s.fbOwner := rfl
@[simp] theorem ctrlGoto_reply (c : CtrlState) (s : State) : (ctrlGoto c s).reply = s.reply := rfl
@[simp] theorem ctrlGoto_curOp (c : CtrlState) (s : State) : (ctrlGoto c s).curOp = s.curOp := rfl
@[simp] theorem ctrlGoto_timing (c : CtrlState) (s : State) : (ctrlGoto c s).timing = s.timing := rfl
@[simp] theorem ctrlGoto_timer (c : CtrlState) (s : State) : (ctrlGoto c s).timer = s.timer := rfl
@[simp] theorem ctrlGoto_txQueue (c : CtrlState) (s : State) : (ctrlGoto c s).txQueue = s.txQueue := rfl
@[simp] theorem ctrlGoto_completions (c : CtrlState) (s : State) : (ctrlGoto c s).completions = s.completions := rfl
@[simp] theorem ctrlGoto_fb (c : CtrlState) (s : State) : (ctrlGoto c s).fb = s.fb := rfl
@[simp] theorem ctrlGoto_pins (c : CtrlState) (s : State) : (ctrlGoto c s).pins = s.pins := rfl
@[simp] theorem ctrlGoto_uart (c : CtrlState) (s : State) : (ctrlGoto c s).uart = s.uart := rfl
@[simp] theorem ctrlGoto_wire (c : CtrlState) (s : State) : (ctrlGoto c s).wire = s.wire := rfl
@[simp] theorem ctrlGoto_hostReply (c : CtrlState) (s : State) : (ctrlGoto c s).hostReply = s.hostReply := rfl
@[simp] theorem ctrlGoto_delivered (c : CtrlState) (s : State) : (ctrlGoto c s).delivered = s.delivered := rfl
@[simp] theorem ctrlGoto_dispatch (c : CtrlState) (s : State) : (ctrlGoto c s).dispatch = s.dispatch := rfl
@[simp] theorem ctrlGoto_draws (c : CtrlState) (s : State) : (ctrlGoto c s).draws = s.draws := rfl

/-! ### `respGoto` -/

@[simp] theorem respGoto_time (c : RespState) (s : State) : (respGoto c s).time = s.time := rfl
@[simp] theorem respGoto_agent (c : RespState) (s : State) : (respGoto c s).agent = s.agent := rfl
@[simp] theorem respGoto_inbox (c : RespState) (s : State) : (respGoto c s).inbox = s.inbox := rfl
@[simp] theorem respGoto_params (c : RespState) (s : State) : (respGoto c s).params = s.params := rfl
@[simp] theorem respGoto_mode (c : RespState) (s : State) : (respGoto c s).mode = s.mode := rfl
@[simp] theorem respGoto_coarseTicks (c : RespState) (s : State) : (respGoto c s).coarseTicks = s.coarseTicks := rfl
@[simp] theorem respGoto_tick (c : RespState) (s : State) : (respGoto c s).tick = s.tick := rfl
@[simp] theorem respGoto_counters (c : RespState) (s : State) : (respGoto c s).counters = s.counters := rfl
@[simp] theorem respGoto_ctrlState (c : RespState) (s : State) : (respGoto c s).ctrlState = s.ctrlState := rfl
@[simp] theorem respGoto_respState (c : RespState) (s : State) : (respGoto c s).respState = c := rfl
@[simp] theorem respGoto_tx (c : RespState) (s : State) : (respGoto c s).tx = s.tx := rfl
@[simp] theorem respGoto_rx (c : RespState) (s : State) : (respGoto c s).rx = s.rx := rfl
@[simp] theorem respGoto_frameReady (c : RespState) (s : State) : (respGoto c s).frameReady = s.frameReady := rfl
@[simp] theorem respGoto_fbOwner (c : RespState) (s : State) : (respGoto c s).fbOwner = s.fbOwner := rfl
@[simp] theorem respGoto_reply (c : RespState) (s : State) : (respGoto c s).reply = s.reply := rfl
@[simp] theorem respGoto_curOp (c : RespState) (s : State) : (respGoto c s).curOp = s.curOp := rfl
@[simp] theorem respGoto_timing (c : RespState) (s : State) : (respGoto c s).timing = s.timing := rfl
@[simp] theorem respGoto_timer (c : RespState) (s : State) : (respGoto c s).timer = s.timer := rfl
@[simp] theorem respGoto_txQueue (c : RespState) (s : State) : (respGoto c s).txQueue = s.txQueue := rfl
@[simp] theorem respGoto_completions (c : RespState) (s : State) : (respGoto c s).completions = s.completions := rfl
@[simp] theorem respGoto_fb (c : RespState) (s : State) : (respGoto c s).fb = s.fb := rfl
@[simp] theorem respGoto_pins (c : RespState) (s : State) : (respGoto c s).pins = s.pins := rfl
@[simp] theorem respGoto_uart (c : RespState) (s : State) : (respGoto c s).uart = s.uart := rfl
@[simp] theorem respGoto_wire (c : RespState) (s : State) : (respGoto c s).wire = s.wire := rfl
@[simp] theorem respGoto_hostReply (c : RespState) (s : State) : (respGoto c s).hostReply = s.hostReply := rfl
@[simp] theorem respGoto_delivered (c : RespState) (s : State) : (respGoto c s).delivered = s.delivered := rfl
@[simp] theorem respGoto_dispatch (c : RespState) (s : State) : (respGoto c s).dispatch = s.dispatch := rfl
@[simp] theorem respGoto_draws (c : RespState) (s : State) : (respGoto c s).draws = s.draws := rfl

/-! ### `setPhase` -/

@[simp] theorem setPhase_time (p : RxPhase) (s : State) : (setPhase p s).time = s.time := rfl
@[simp] theorem setPhase_agent (p : RxPhase) (s : State) : (setPhase p s).agent = s.agent := rfl
@[simp] theorem setPhase_inbox (p : RxPhase) (s : State) : (setPhase p s).inbox = s.inbox := rfl
@[simp] theorem setPhase_params (p : RxPhase) (s : State) : (setPhase p s).params = s.params := rfl
@[simp] theorem setPhase_mode (p : RxPhase) (s : State) : (setPhase p s).mode = s.mode := rfl
@[simp] theorem setPhase_coarseTicks (p : RxPhase) (s : State) : (setPhase p s).coarseTicks = s.coarseTicks := rfl
@[simp] theorem setPhase_tick (p : RxPhase) (s : State) : (setPhase p s).tick = s.tick := rfl
@[simp] theorem setPhase_counters (p : RxPhase) (s : State) : (setPhase p s).counters = s.counters := rfl
@[simp] theorem setPhase_ctrlState (p : RxPhase) (s : State) : (setPhase p s).ctrlState = s.ctrlState := rfl
@[simp] theorem setPhase_respState (p : RxPhase) (s : State) : (setPhase p s).respState = s.respState := rfl
@[simp] theorem setPhase_tx (p : RxPhase) (s : State) : (setPhase p s).tx = s.tx := rfl
@[simp] theorem setPhase_rx (p : RxPhase) (s : State) : (setPhase p s).rx = { s.rx with phase := p } := rfl
@[simp] theorem setPhase_frameReady (p : RxPhase) (s : State) : (setPhase p s).frameReady = s.frameReady := rfl
@[simp] theorem setPhase_fbOwner (p : RxPhase) (s : State) : (setPhase p s).fbOwner = s.fbOwner := rfl
@[simp] theorem setPhase_reply (p : RxPhase) (s : State) : (setPhase p s).reply = s.reply := rfl
@[simp] theorem setPhase_curOp (p : RxPhase) (s : State) : (setPhase p s).curOp = s.curOp := rfl
@[simp] theorem setPhase_timing (p : RxPhase) (s : State) : (setPhase p s).timing = s.timing := rfl
@[simp] theorem setPhase_timer (p : RxPhase) (s : State) : (setPhase p s).timer = s.timer := rfl
@[simp] theorem setPhase_txQueue (p : RxPhase) (s : State) : (setPhase p s).txQueue = s.txQueue := rfl
@[simp] theorem setPhase_completions (p : RxPhase) (s : State) : (setPhase p s).completions = s.completions := rfl
@[simp] theorem setPhase_fb (p : RxPhase) (s : State) : (setPhase p s).fb = s.fb := rfl
@[simp] theorem setPhase_pins (p : RxPhase) (s : State) : (setPhase p s).pins = s.pins := rfl
@[simp] theorem setPhase_uart (p : RxPhase) (s : State) : (setPhase p s).uart = s.uart := rfl
@[simp] theorem setPhase_wire (p : RxPhase) (s : State) : (setPhase p s).wire = s.wire := rfl
@[simp] theorem setPhase_hostReply (p : RxPhase) (s : State) : (setPhase p s).hostReply = s.hostReply := rfl
@[simp] theorem setPhase_delivered (p : RxPhase) (s : State) : (setPhase p s).delivered = s.delivered := rfl
@[simp] theorem setPhase_dispatch (p : RxPhase) (s : State) : (setPhase p s).dispatch = s.dispatch := rfl
@[simp] theorem setPhase_draws (p : RxPhase) (s : State) : (setPhase p s).draws = s.draws := rfl

/-! ### `setTFall` -/

@[simp] theorem setTFall_time (t : Nat) (s : State) : (setTFall t s).time = s.time := rfl
@[simp] theorem setTFall_agent (t : Nat) (s : State) : (setTFall t s).agent = s.agent := rfl
@[simp] theorem setTFall_inbox (t : Nat) (s : State) : (setTFall t s).inbox = s.inbox := rfl
@[simp] theorem setTFall_params (t : Nat) (s : State) : (setTFall t s).params = s.params := rfl
@[simp] theorem setTFall_mode (t : Nat) (s : State) : (setTFall t s).mode = s.mode := rfl
@[simp] theorem setTFall_coarseTicks (t : Nat) (s : State) : (setTFall t s).coarseTicks = s.coarseTicks := rfl
@[simp] theorem setTFall_tick (t : Nat) (s : State) : (setTFall t s).tick = s.tick := rfl
@[simp] theorem setTFall_counters (t : Nat) (s : State) : (setTFall t s).counters = s.counters := rfl
@[simp] theorem setTFall_ctrlState (t : Nat) (s : State) : (setTFall t s).ctrlState = s.ctrlState := rfl
@[simp] theorem setTFall_respState (t : Nat) (s : State) : (setTFall t s).respState = s.respState := rfl
@[simp] theorem setTFall_tx (t : Nat) (s : State) : (setTFall t s).tx = s.tx := rfl
@[simp] theorem setTFall_rx (t : Nat) (s : State) : (setTFall t s).rx = s.rx := rfl
@[simp] theorem setTFall_frameReady (t : Nat) (s : State) : (setTFall t s).frameReady = s.frameReady := rfl
@[simp] theorem setTFall_fbOwner (t : Nat) (s : State) : (setTFall t s).fbOwner = s.fbOwner := rfl
@[simp] theorem setTFall_reply (t : Nat) (s : State) : (setTFall t s).reply = s.reply := rfl
@[simp] theorem setTFall_curOp (t : Nat) (s : State) : (setTFall t s).curOp = s.curOp := rfl
@[simp] theorem setTFall_timing (t : Nat) (s : State) : (setTFall t s).timing = { s.timing with tFall := t } := rfl
@[simp] theorem setTFall_timer (t : Nat) (s : State) : (setTFall t s).timer = s.timer := rfl
@[simp] theorem setTFall_txQueue (t : Nat) (s : State) : (setTFall t s).txQueue = s.txQueue := rfl
@[simp] theorem setTFall_completions (t : Nat) (s : State) : (setTFall t s).completions = s.completions := rfl
@[simp] theorem setTFall_fb (t : Nat) (s : State) : (setTFall t s).fb = s.fb := rfl
@[simp] theorem setTFall_pins (t : Nat) (s : State) : (setTFall t s).pins = s.pins := rfl
@[simp] theorem setTFall_uart (t : Nat) (s : State) : (setTFall t s).uart = s.uart := rfl
@[simp] theorem setTFall_wire (t : Nat) (s : State) : (setTFall t s).wire = s.wire := rfl
@[simp] theorem setTFall_hostReply (t : Nat) (s : State) : (setTFall t s).hostReply = s.hostReply := rfl
@[simp] theorem setTFall_delivered (t : Nat) (s : State) : (setTFall t s).delivered = s.delivered := rfl
@[simp] theorem setTFall_dispatch (t : Nat) (s : State) : (setTFall t s).dispatch = s.dispatch := rfl
@[simp] theorem setTFall_draws (t : Nat) (s : State) : (setTFall t s).draws = s.draws := rfl

/-! ### `reclaimFb` -/

@[simp] theorem reclaimFb_time (s : State) : (reclaimFb s).time = s.time := rfl
@[simp] theorem reclaimFb_agent (s : State) : (reclaimFb s).agent = s.agent := rfl
@[simp] theorem reclaimFb_inbox (s : State) : (reclaimFb s).inbox = s.inbox := rfl
@[simp] theorem reclaimFb_params (s : State) : (reclaimFb s).params = s.params := rfl
@[simp] theorem reclaimFb_mode (s : State) : (reclaimFb s).mode = s.mode := rfl
@[simp] theorem reclaimFb_coarseTicks (s : State) : (reclaimFb s).coarseTicks = s.coarseTicks := rfl
@[simp] theorem reclaimFb_tick (s : State) : (reclaimFb s).tick = s.tick := rfl
@[simp] theorem reclaimFb_counters (s : State) : (reclaimFb s).counters = s.counters := rfl
@[simp] theorem reclaimFb_ctrlState (s : State) : (reclaimFb s).ctrlState = s.ctrlState := rfl
@[simp] theorem reclaimFb_respState (s : State) : (reclaimFb s).respState = s.respState := rfl
@[simp] theorem reclaimFb_tx (s : State) : (reclaimFb s).tx = s.tx := rfl
@[simp] theorem reclaimFb_rx (s : State) : (reclaimFb s).rx = s.rx := rfl
@[simp] theorem reclaimFb_frameReady (s : State) : (reclaimFb s).frameReady = s.frameReady := rfl
@[simp] theorem reclaimFb_fbOwner (s : State) : (reclaimFb s).fbOwner = .transceiver := rfl
@[simp] theorem reclaimFb_reply (s : State) : (reclaimFb s).reply = s.reply := rfl
@[simp] theorem reclaimFb_curOp (s : State) : (reclaimFb s).curOp = s.curOp := rfl
@[simp] theorem reclaimFb_timing (s : State) : (reclaimFb s).timing = s.timing := rfl
@[simp] theorem reclaimFb_timer (s : State) : (reclaimFb s).timer = s.timer := rfl
@[simp] theorem reclaimFb_txQueue (s : State) : (reclaimFb s).txQueue = s.txQueue := rfl
@[simp] theorem reclaimFb_completions (s : State) : (reclaimFb s).completions = s.completions := rfl
@[simp] theorem reclaimFb_fb (s : State) : (reclaimFb s).fb = s.fb := rfl
@[simp] theorem reclaimFb_pins (s : State) : (reclaimFb s).pins = s.pins := rfl
@[simp] theorem reclaimFb_uart (s : State) : (reclaimFb s).uart = s.uart := rfl
@[simp] theorem reclaimFb_wire (s : State) : (reclaimFb s).wire = s.wire := rfl
@[simp] theorem reclaimFb_hostReply (s : State) : (reclaimFb s).hostReply = s.hostReply := rfl
@[simp] theorem reclaimFb_delivered (s : State) : (reclaimFb s).delivered = s.delivered := rfl
@[simp] theorem reclaimFb_dispatch (s : State) : (reclaimFb s).dispatch = none := rfl
@[simp] theorem reclaimFb_draws (s : State) : (reclaimFb s).draws = s.draws := rfl

/-! ### `endTransmission` -/

@[simp] theorem endTransmission_time (s : State) : (endTransmission s).time = s.time := rfl
@[simp] theorem endTransmission_agent (s : State) : (endTransmission s).agent = s.agent := rfl
@[simp] theorem endTransmission_inbox (s : State) : (endTransmission s).inbox = s.inbox := rfl
@[simp] theorem endTransmission_params (s : State) : (endTransmission s).params = s.params := rfl
@[simp] theorem endTransmission_mode (s : State) : (endTransmission s).mode = s.mode := rfl
@[simp] theorem endTransmission_coarseTicks (s : State) : (endTransmission s).coarseTicks = s.coarseTicks := rfl
@[simp] theorem endTransmission_tick (s : State) : (endTransmission s).tick = s.tick := rfl
@[simp] theorem endTransmission_counters (s : State) : (endTransmission s).counters = s.counters := rfl
@[simp] theorem endTransmission_ctrlState (s : State) : (endTransmission s).ctrlState = s.ctrlState := rfl
@[simp] theorem endTransmission_respState (s : State) : (endTransmission s).respState = s.respState := rfl
@[simp] theorem endTransmission_tx (s : State) : (endTransmission s).tx = s.tx := rfl
@[simp] theorem endTransmission_rx (s : State) : (endTransmission s).rx = s.rx := rfl
@[simp] theorem endTransmission_frameReady (s : State) : (endTransmission s).frameReady = s.frameReady := rfl
@[simp] theorem endTransmission_fbOwner (s : State) : (endTransmission s).fbOwner = s.fbOwner := rfl
@[simp] theorem endTransmission_reply (s : State) : (endTransmission s).reply = s.reply := rfl
@[simp] theorem endTransmission_curOp (s : State) : (endTransmission s).curOp = s.curOp := rfl
@[simp] theorem endTransmission_timing (s : State) :
    (endTransmission s).timing = { s.timing with txEndTime := s.time } := rfl
@[simp] theorem endTransmission_timer (s : State) : (endTransmission s).timer = s.timer := rfl
@[simp] theorem endTransmission_txQueue (s : State) : (endTransmission s).txQueue = s.txQueue := rfl
@[simp] theorem endTransmission_completions (s : State) : (endTransmission s).completions = s.completions := rfl
@[simp] theorem endTransmission_fb (s : State) : (endTransmission s).fb = s.fb := rfl
@[simp] theorem endTransmission_pins (s : State) : (endTransmission s).pins = { dir := .rx, line := .mark } := rfl
@[simp] theorem endTransmission_uart (s : State) : (endTransmission s).uart = s.uart := rfl
@[simp] theorem endTransmission_wire (s : State) :
    (endTransmission s).wire = s.wire ++ lineWire .mark s ++ dirWire .rx s := rfl
@[simp] theorem endTransmission_hostReply (s : State) : (endTransmission s).hostReply = s.hostReply := rfl
@[simp] theorem endTransmission_delivered (s : State) : (endTransmission s).delivered = s.delivered := rfl
@[simp] theorem endTransmission_dispatch (s : State) : (endTransmission s).dispatch = s.dispatch := rfl
@[simp] theorem endTransmission_draws (s : State) : (endTransmission s).draws = s.draws := rfl

/-! ### `abortAll` -/

@[simp] theorem abortAll_time (s : State) : (abortAll s).time = s.time := rfl
@[simp] theorem abortAll_agent (s : State) : (abortAll s).agent = s.agent := rfl
@[simp] theorem abortAll_inbox (s : State) : (abortAll s).inbox = s.inbox := rfl
@[simp] theorem abortAll_params (s : State) : (abortAll s).params = s.params := rfl
@[simp] theorem abortAll_mode (s : State) : (abortAll s).mode = s.mode := rfl
@[simp] theorem abortAll_coarseTicks (s : State) : (abortAll s).coarseTicks = s.coarseTicks := rfl
@[simp] theorem abortAll_tick (s : State) : (abortAll s).tick = s.tick := rfl
@[simp] theorem abortAll_counters (s : State) : (abortAll s).counters = s.counters := rfl
@[simp] theorem abortAll_ctrlState (s : State) : (abortAll s).ctrlState = .idle := rfl
@[simp] theorem abortAll_respState (s : State) : (abortAll s).respState = .idle := rfl
@[simp] theorem abortAll_tx (s : State) : (abortAll s).tx = { index := 0, len := 0 } := rfl
@[simp] theorem abortAll_rx (s : State) :
    (abortAll s).rx = { count := 0, phase := .waitBreak, dubActive := false } := rfl
@[simp] theorem abortAll_frameReady (s : State) : (abortAll s).frameReady = false := rfl
@[simp] theorem abortAll_fbOwner (s : State) : (abortAll s).fbOwner = .transceiver := rfl
@[simp] theorem abortAll_reply (s : State) : (abortAll s).reply = { len := 0, raw := false } := rfl
@[simp] theorem abortAll_curOp (s : State) : (abortAll s).curOp = { s.curOp with valid := false } := rfl
@[simp] theorem abortAll_timing (s : State) :
    (abortAll s).timing = { s.timing with lastBreakValid := false, backoffUntil := 0 } := rfl
@[simp] theorem abortAll_timer (s : State) : (abortAll s).timer = { s.timer with armed := false } := rfl
@[simp] theorem abortAll_txQueue (s : State) : (abortAll s).txQueue = [] := rfl
@[simp] theorem abortAll_completions (s : State) : (abortAll s).completions = s.completions ++ abortedEvents s := rfl
@[simp] theorem abortAll_fb (s : State) : (abortAll s).fb = s.fb := rfl
@[simp] theorem abortAll_pins (s : State) : (abortAll s).pins = { dir := .rx, line := .mark } := rfl
@[simp] theorem abortAll_uart (s : State) : (abortAll s).uart = { s.uart with fifo := [], busy := false } := rfl
@[simp] theorem abortAll_wire (s : State) :
    (abortAll s).wire = s.wire ++ cutWire s ++ lineWire .mark s ++ dirWire .rx s := rfl
@[simp] theorem abortAll_hostReply (s : State) : (abortAll s).hostReply = s.hostReply := rfl
@[simp] theorem abortAll_delivered (s : State) : (abortAll s).delivered = s.delivered := rfl
@[simp] theorem abortAll_dispatch (s : State) : (abortAll s).dispatch = none := rfl
@[simp] theorem abortAll_draws (s : State) : (abortAll s).draws = s.draws := rfl

/-! ### `deadlineAbort` -/

@[simp] theorem deadlineAbort_time (s : State) : (deadlineAbort s).time = s.time := by simp [deadlineAbort]
@[simp] theorem deadlineAbort_agent (s : State) : (deadlineAbort s).agent = s.agent := by simp [deadlineAbort]
@[simp] theorem deadlineAbort_inbox (s : State) : (deadlineAbort s).inbox = s.inbox := by simp [deadlineAbort]
@[simp] theorem deadlineAbort_params (s : State) : (deadlineAbort s).params = s.params := by simp [deadlineAbort]
@[simp] theorem deadlineAbort_mode (s : State) : (deadlineAbort s).mode = s.mode := by simp [deadlineAbort]
@[simp] theorem deadlineAbort_coarseTicks (s : State) :
    (deadlineAbort s).coarseTicks = s.coarseTicks := by simp [deadlineAbort]
@[simp] theorem deadlineAbort_tick (s : State) : (deadlineAbort s).tick = s.tick := by simp [deadlineAbort]
@[simp] theorem deadlineAbort_counters (s : State) :
    (deadlineAbort s).counters = s.counters := by simp [deadlineAbort]
@[simp] theorem deadlineAbort_ctrlState (s : State) : (deadlineAbort s).ctrlState = .idle := by simp [deadlineAbort]
@[simp] theorem deadlineAbort_respState (s : State) :
    (deadlineAbort s).respState = s.respState := by simp [deadlineAbort]
@[simp] theorem deadlineAbort_tx (s : State) : (deadlineAbort s).tx = s.tx := by simp [deadlineAbort]
@[simp] theorem deadlineAbort_rx (s : State) :
    (deadlineAbort s).rx = { s.rx with count := 0 } := by simp [deadlineAbort]
@[simp] theorem deadlineAbort_frameReady (s : State) : (deadlineAbort s).frameReady = false := by simp [deadlineAbort]
@[simp] theorem deadlineAbort_fbOwner (s : State) : (deadlineAbort s).fbOwner = s.fbOwner := by simp [deadlineAbort]
@[simp] theorem deadlineAbort_reply (s : State) : (deadlineAbort s).reply = s.reply := by simp [deadlineAbort]
@[simp] theorem deadlineAbort_curOp (s : State) :
    (deadlineAbort s).curOp = { s.curOp with valid := false } := by simp [deadlineAbort]
@[simp] theorem deadlineAbort_timing (s : State) :
    (deadlineAbort s).timing = { s.timing with backoffUntil := s.time } := by simp [deadlineAbort]
@[simp] theorem deadlineAbort_timer (s : State) :
    (deadlineAbort s).timer = { s.timer with armed := false } := by simp [deadlineAbort]
@[simp] theorem deadlineAbort_txQueue (s : State) : (deadlineAbort s).txQueue = s.txQueue := by simp [deadlineAbort]
@[simp] theorem deadlineAbort_completions (s : State) :
    (deadlineAbort s).completions = s.completions ++ [⟨s.curOp.token, s.curOp.cls, .aborted, []⟩] := by simp [deadlineAbort]
@[simp] theorem deadlineAbort_fb (s : State) : (deadlineAbort s).fb = s.fb := by simp [deadlineAbort]
@[simp] theorem deadlineAbort_pins (s : State) :
    (deadlineAbort s).pins = { dir := .rx, line := .mark } := by simp [deadlineAbort]
@[simp] theorem deadlineAbort_uart (s : State) :
    (deadlineAbort s).uart = { s.uart with fifo := [], busy := false } := by simp [deadlineAbort]
@[simp] theorem deadlineAbort_wire (s : State) :
    (deadlineAbort s).wire = s.wire ++ cutWire s ++ lineWire .mark s ++ dirWire .rx s := by simp [deadlineAbort]
@[simp] theorem deadlineAbort_hostReply (s : State) :
    (deadlineAbort s).hostReply = s.hostReply := by simp [deadlineAbort]
@[simp] theorem deadlineAbort_delivered (s : State) :
    (deadlineAbort s).delivered = s.delivered := by simp [deadlineAbort]
@[simp] theorem deadlineAbort_dispatch (s : State) :
    (deadlineAbort s).dispatch = s.dispatch := by simp [deadlineAbort]
@[simp] theorem deadlineAbort_draws (s : State) : (deadlineAbort s).draws = s.draws := by simp [deadlineAbort]

end Sys2Proof.Machine
end

