-- ==== Sys2Proof/Laws/Memory.lean ====
section
/-! SUPPORT. The frame buffer's memory: a read after a write, reads of a range after a range is written, and the canonical
form, which every memory operation keeps. -/

namespace Sys2Proof.Machine

/-! ### Reads after writes -/

theorem memRead_memWrite_same (m : Memory) (a : Nat) (v : Byte) : memRead (memWrite m a v) a = some v := by
  induction m with
  | nil => simp [memWrite, memRead]
  | cons c rest ih =>
    obtain ⟨k, b⟩ := c
    by_cases h1 : a < k
    · simp [memWrite, memRead, h1]
    · by_cases h2 : a = k <;> simp [memWrite, memRead, h1, h2, ih]

theorem memRead_memWrite_other (m : Memory) (a b : Nat) (v : Byte) (h : b ≠ a) :
    memRead (memWrite m a v) b = memRead m b := by
  induction m with
  | nil => simp [memWrite, memRead, h]
  | cons c rest ih =>
    obtain ⟨k, w⟩ := c
    by_cases h1 : a < k
    · simp [memWrite, memRead, h1, h]
    · by_cases h2 : a = k
      · subst h2; simp [memWrite, memRead, h]
      · simp [memWrite, memRead, h1, h2, ih]

/-- A byte after one byte is written. -/
theorem memRead_memWrite (m : Memory) (a b : Nat) (v : Byte) :
    memRead (memWrite m a v) b = if b = a then some v else memRead m b := by
  by_cases h : b = a
  · subst h; simp [memRead_memWrite_same]
  · simp [h, memRead_memWrite_other]

/-- A byte below a written range is unchanged. -/
theorem memRead_memWriteAll_below (vs : List Byte) (m : Memory) (a b : Nat) (h : b < a) :
    memRead (memWriteAll m a vs) b = memRead m b := by
  induction vs generalizing m a with
  | nil => rfl
  | cons v vs ih =>
    rw [memWriteAll, ih _ _ (by omega), memRead_memWrite_other _ _ _ _ (by omega)]

/-- A byte after a range is written: the range's own byte inside it, the old one outside. -/
theorem memRead_memWriteAll (vs : List Byte) (m : Memory) (a b : Nat) :
    memRead (memWriteAll m a vs) b =
      if a ≤ b ∧ b < a + vs.length then vs[b - a]? else memRead m b := by
  induction vs generalizing m a with
  | nil => simp [memWriteAll]
  | cons v vs ih =>
    rw [memWriteAll, ih, memRead_memWrite]
    by_cases h1 : b = a
    · subst h1; simp
    · by_cases h2 : a ≤ b ∧ b < a + (v :: vs).length
      · have h3 : a + 1 ≤ b ∧ b < a + 1 + vs.length := by simp only [List.length_cons] at h2; omega
        rw [if_pos h3, if_pos h2, show b - a = (b - (a + 1)) + 1 by omega, List.getElem?_cons_succ]
      · have h3 : ¬ (a + 1 ≤ b ∧ b < a + 1 + vs.length) := by simp only [List.length_cons] at h2; omega
        rw [if_neg h3, if_neg h2, if_neg h1]

/-- Outside a written range nothing changes. -/
theorem memRead_memWriteAll_outside (vs : List Byte) (m : Memory) (a b : Nat) (h : b < a ∨ a + vs.length ≤ b) :
    memRead (memWriteAll m a vs) b = memRead m b := by
  rw [memRead_memWriteAll, if_neg (by omega)]

/-- What is written stays written. -/
theorem memRead_memWriteAll_isSome (vs : List Byte) (m : Memory) (a b : Nat) (h : (memRead m b).isSome = true) :
    (memRead (memWriteAll m a vs) b).isSome = true := by
  rw [memRead_memWriteAll]
  split
  · rename_i hb
    rw [List.getElem?_eq_getElem (by omega)]; rfl
  · exact h

theorem memRead_memWrite_isSome (m : Memory) (a b : Nat) (v : Byte) (h : (memRead m b).isSome = true) :
    (memRead (memWrite m a v) b).isSome = true := by
  rw [memRead_memWrite]; split <;> simp_all

/-! ### The canonical form -/

theorem memWfFrom_mono {m : Memory} {lo lo' : Nat} (hle : lo' ≤ lo) (h : memWfFrom lo m = true) :
    memWfFrom lo' m = true := by
  cases m with
  | nil => rfl
  | cons c rest =>
    obtain ⟨k, b⟩ := c
    simp only [memWfFrom, Bool.and_eq_true, decide_eq_true_eq] at h ⊢
    exact ⟨⟨by omega, h.1.2⟩, h.2⟩

theorem memWfFrom_memWrite {m : Memory} {lo a : Nat} (v : Byte) (hlo : lo ≤ a) (ha : a < Config.frameBufSize)
    (h : memWfFrom lo m = true) : memWfFrom lo (memWrite m a v) = true := by
  induction m generalizing lo with
  | nil => simp [memWrite, memWfFrom, hlo, ha]
  | cons c rest ih =>
    obtain ⟨k, b⟩ := c
    simp only [memWfFrom, Bool.and_eq_true, decide_eq_true_eq] at h
    obtain ⟨⟨h1, h2⟩, h3⟩ := h
    by_cases hk : a < k
    · simp only [memWrite, hk, if_true, memWfFrom, Bool.and_eq_true, decide_eq_true_eq]
      exact ⟨⟨hlo, ha⟩, ⟨hk, h2⟩, h3⟩
    · by_cases he : a = k
      · subst he
        simp [memWrite, memWfFrom, h1, h2, h3]
      · simp only [memWrite, hk, he, if_false, memWfFrom, Bool.and_eq_true, decide_eq_true_eq]
        exact ⟨⟨h1, h2⟩, ih (by omega) h3⟩

/-- A write of one byte keeps the canonical form. -/
theorem memWrite_wf {m : Memory} {a : Nat} (v : Byte) (ha : a < Config.frameBufSize) (h : m.wf = true) :
    Memory.wf (memWrite m a v) = true := memWfFrom_memWrite v (Nat.zero_le a) ha h

/-- A write of a range inside `fb` keeps the canonical form. -/
theorem memWriteAll_wf (vs : List Byte) {m : Memory} {a : Nat} (ha : a + vs.length ≤ Config.frameBufSize)
    (h : m.wf = true) : Memory.wf (memWriteAll m a vs) = true := by
  induction vs generalizing m a with
  | nil => exact h
  | cons v vs ih =>
    simp only [List.length_cons] at ha
    exact ih (by omega) (memWrite_wf v (by omega) h)

/-- The canonical form holds after reset. -/
theorem reset_fb_wf : State.reset.fb.wf = true := rfl

theorem memWfFrom_bound {m : Memory} {lo a : Nat} (h : memWfFrom lo m = true) (hs : (memRead m a).isSome = true) :
    lo ≤ a ∧ a < Config.frameBufSize := by
  induction m generalizing lo with
  | nil => simp [memRead] at hs
  | cons c rest ih =>
    obtain ⟨k, b⟩ := c
    simp only [memWfFrom, Bool.and_eq_true, decide_eq_true_eq] at h
    obtain ⟨⟨h1, h2⟩, h3⟩ := h
    by_cases hk : a = k
    · subst hk; exact ⟨h1, h2⟩
    · simp only [memRead, hk, if_false] at hs
      have := ih h3 hs; omega

theorem memRead_below {m : Memory} {lo a : Nat} (h : memWfFrom lo m = true) (ha : a < lo) : memRead m a = none := by
  cases hr : memRead m a with
  | none => rfl
  | some b => have := (memWfFrom_bound h (by rw [hr]; rfl)).1; omega

theorem memWfFrom_ext {m n : Memory} {lo : Nat} (hm : memWfFrom lo m = true) (hn : memWfFrom lo n = true)
    (h : ∀ a, memRead m a = memRead n a) : m = n := by
  induction m generalizing n lo with
  | nil =>
    cases n with
    | nil => rfl
    | cons c rest => have := h c.1; simp [memRead] at this
  | cons c rest ih =>
    obtain ⟨k, b⟩ := c
    cases n with
    | nil => have := h k; simp [memRead] at this
    | cons d rest' =>
      obtain ⟨k', b'⟩ := d
      simp only [memWfFrom, Bool.and_eq_true, decide_eq_true_eq] at hm hn
      have hk : k = k' := by
        rcases Nat.lt_trichotomy k k' with hlt | heq | hgt
        · have := h k
          simp only [memRead, if_true, show k ≠ k' by omega, if_false] at this
          rw [memRead_below hn.2 (by omega)] at this; cases this
        · exact heq
        · have := h k'
          simp only [memRead, if_true, show k' ≠ k by omega, if_false] at this
          rw [memRead_below hm.2 (by omega)] at this; cases this
      subst hk
      have hb : b = b' := by have := h k; simpa [memRead] using this
      subst hb
      have ht : rest = rest' := by
        refine ih hm.2 hn.2 (fun a => ?_)
        by_cases ha : a = k
        · subst ha
          rw [memRead_below hm.2 (by omega), memRead_below hn.2 (by omega)]
        · have := h a
          simpa [memRead, ha] using this
      rw [ht]

/-- In canonical form, memories that read the same are the same data. -/
theorem memory_ext {m n : Memory} (hm : m.wf = true) (hn : n.wf = true) (h : ∀ a, memRead m a = memRead n a) : m = n :=
  memWfFrom_ext hm hn h

end Sys2Proof.Machine
end

