-- ==== Sys2Proof/Laws/Ops.lean ====
section
/-! SUPPORT. One lemma per shared operation that says everything it can do: what a proof cites in the place of unfolding
it. -/

namespace Sys2Proof.Machine

/-! ### Rejections, internal operations, posting -/

theorem rejectOp_eq (s : State) : rejectOp s = .next { s with hostReply := .bool false } := rfl

theorem internalOnly_host {s : State} (h : s.agent = .host) (e : Outcome) : internalOnly s e = rejectOp s := by
  simp [internalOnly, h]

theorem internalOnly_other {s : State} (h : s.agent ≠ .host) (e : Outcome) : internalOnly s e = e := by
  simp [internalOnly, h]

/-- An internal operation that answers a next state is a rejection at the host port or its own effect elsewhere. -/
theorem internalOnly_next {s t : State} {e : Outcome} (h : internalOnly s e = .next t) :
    (s.agent = .host ∧ t = answer (.bool false) s) ∨ (s.agent ≠ .host ∧ e = .next t) := by
  by_cases ha : s.agent = .host
  · rw [internalOnly_host ha] at h
    cases h; exact .inl ⟨ha, rfl⟩
  · rw [internalOnly_other ha] at h
    exact .inr ⟨ha, h⟩

/-- `settle` changes no state; it answers a next state where nothing was posted or the events fit. -/
theorem settle_next {b a t : State} (h : settle b a = .next t) :
    t = a ∧ (a.completions.length ≤ b.completions.length ∨ Config.completionsFit a.completions.length = true) := by
  unfold settle at h
  split at h
  · cases h; exact ⟨rfl, .inl ‹_›⟩
  · split at h
    · cases h; exact ⟨rfl, .inr ‹_›⟩
    · cases h

theorem settle_quiet {b a : State} (h : a.completions.length ≤ b.completions.length) : settle b a = .next a := by
  simp [settle, h]

theorem settle_fits {b a : State} (h : Config.completionsFit a.completions.length = true) :
    settle b a = .next a := by
  simp [settle, h]

theorem settle_cases (b a : State) : settle b a = .next a ∨ settle b a = .fault .completionsFull := by
  unfold settle; split
  · exact .inl rfl
  · split
    · exact .inl rfl
    · exact .inr rfl

/-- Fewer events fit where more do. -/
theorem completionsFit_mono {m n : Nat} (h : m ≤ n) (hn : Config.completionsFit n = true) :
    Config.completionsFit m = true := by
  unfold Config.completionsFit at *
  split at hn
  · rfl
  · simp only [decide_eq_true_eq] at *; omega

/-- COMPLETION_DEPTH is at least `TX_QUEUE_DEPTH + 2` (R3). -/
theorem completionsFit_small {n : Nat} (h : n ≤ Config.txQueueDepth + 2) : Config.completionsFit n = true := by
  unfold Config.completionsFit Config.completionDepth
  cases Config.completionSlack with
  | none => rfl
  | some k => simp only [Option.map_some, decide_eq_true_eq]; omega

/-- TX_QUEUE_DEPTH is at least 1 (R3). -/
theorem txQueueDepth_pos : 0 < Config.txQueueDepth := Nat.succ_pos _

/-- UART_TX_FIFO_DEPTH is at least 1 (R3). -/
theorem uartTxFifoDepth_pos : 0 < Config.uartTxFifoDepth := Nat.succ_pos _

theorem settleResult_next {s t : State} {r : Except Fault State} (h : settleResult s r = .next t) :
    r = .ok t ∧ (t.completions.length ≤ s.completions.length ∨ Config.completionsFit t.completions.length = true) := by
  unfold settleResult at h
  split at h
  · obtain ⟨rfl, hf⟩ := settle_next h; exact ⟨rfl, hf⟩
  · cases h

/-- The event of the live sequencer, where it answers a next state. -/
theorem byMode_next {s t : State} {c r : Except Fault State} (h : byMode s c r = .next t) :
    ((s.mode = .controller ∧ c = .ok t) ∨ (s.mode = .responder ∧ r = .ok t)) ∧
      (t.completions.length ≤ s.completions.length ∨ Config.completionsFit t.completions.length = true) := by
  obtain ⟨h1, h2⟩ := settleResult_next h
  refine ⟨?_, h2⟩
  cases hm : s.mode with
  | controller => rw [hm] at h1; exact .inl ⟨rfl, h1⟩
  | responder => rw [hm] at h1; exact .inr ⟨rfl, h1⟩

theorem byMode_controller {s : State} (h : s.mode = .controller) (c r : Except Fault State) :
    byMode s c r = settleResult s c := by simp [byMode, h]

theorem byMode_responder {s : State} (h : s.mode = .responder) (c r : Except Fault State) :
    byMode s c r = settleResult s r := by simp [byMode, h]

/-! ### Line events and the coarse tick -/

/-- A line event from the front end at its own instant takes its effect (R211). -/
theorem lineEvent_now {s : State} {t : U64} (h : s.agent ≠ .host) (ht : t.toNat = s.time) (e : Outcome) :
    lineEvent t s e = e := by
  simp [lineEvent, internalOnly_other h, atTime, ht]

/-- A line event that answers a next state was rejected, was of another time, or took its effect. -/
theorem lineEvent_next {s u : State} {t : U64} {e : Outcome} (h : lineEvent t s e = .next u) :
    (s.agent = .host ∧ u = answer (.bool false) s) ∨ (s.agent ≠ .host ∧ t.toNat ≠ s.time ∧ u = s) ∨
      (s.agent ≠ .host ∧ t.toNat = s.time ∧ e = .next u) := by
  rcases internalOnly_next h with ha | ⟨ha, he⟩
  · exact .inl ha
  · by_cases ht : t.toNat = s.time
    · exact .inr (.inr ⟨ha, ht, by simpa [atTime, ht] using he⟩)
    · simp only [atTime, ht, decide_false, Bool.false_eq_true, if_false] at he
      cases he; exact .inr (.inl ⟨ha, ht, rfl⟩)

/-- What a `CoarseTick` can do (R120): it is rejected at the host port, does nothing where it is not due, or counts. -/
theorem execCoarseTick_cases (s : State) :
    (s.agent = .host ∧ execCoarseTick s = .next (answer (.bool false) s)) ∨
      (s.agent ≠ .host ∧ tickDue s = false ∧ execCoarseTick s = .next s) ∨
      (s.agent ≠ .host ∧ tickDue s = true ∧
        execCoarseTick s = .next { s with coarseTicks := s.coarseTicks + 1#32, tick := nextTick s }) := by
  by_cases ha : s.agent = .host
  · exact .inl ⟨ha, internalOnly_host ha _⟩
  · refine .inr ?_
    unfold execCoarseTick
    rw [internalOnly_other ha]
    cases hd : tickDue s
    · exact .inl ⟨ha, rfl, rfl⟩
    · exact .inr ⟨ha, rfl, rfl⟩

/-- A tick always moves the instant of the next one. -/
theorem nextTick_ne (s : State) : nextTick s ≠ s.tick := by
  intro h
  have h1 := congrArg TickPhase.settled h
  have h2 := congrArg TickPhase.due h
  simp only [nextTick] at h1 h2
  rw [← h1] at h2
  simp [Config.coarseTick] at h2

/-! ### Codec operations -/

/-- Whose codec operations take effect (R55, R97, R391). -/
theorem codecAccess_legal {s : State} :
    codecAccess s = .legal ↔ s.agent = .collaborator ∧ s.fbOwner = .responder := by
  unfold codecAccess
  cases s.agent <;> cases s.fbOwner <;> simp

/-- A codec operation that answers a next state: the host's is rejected, the owner's takes its effect. -/
theorem codecOp_next {s t : State} {e : Except Fault State} (h : codecOp s e = .next t) :
    (s.agent = .host ∧ t = answer (.bool false) s) ∨ (codecAccess s = .legal ∧ e = .ok t) := by
  unfold codecOp at h
  split at h
  · rename_i ha
    refine .inr ⟨ha, ?_⟩
    unfold toOutcome at h
    split at h
    · cases h; rfl
    · cases h
  · rename_i ha
    cases h
    refine .inl ⟨?_, rfl⟩
    unfold codecAccess at ha
    cases hag : s.agent <;> cases ho : s.fbOwner <;> simp_all
  · cases h

theorem codecOp_legal {s : State} (h : codecAccess s = .legal) (e : Except Fault State) :
    codecOp s e = toOutcome e := by simp [codecOp, h]

/-! ### The frame buffer -/

theorem fbRead_ok {s : State} {a : Nat} {b : Byte} :
    fbRead s a = .ok b ↔ a < Config.frameBufSize ∧ memRead s.fb a = some b := by
  unfold fbRead
  split
  · split <;> simp_all
  · simp_all

theorem fbRead_written {s : State} {a : Nat} (ha : a < Config.frameBufSize) (h : (memRead s.fb a).isSome = true) :
    ∃ b, fbRead s a = .ok b ∧ memRead s.fb a = some b := by
  obtain ⟨b, hb⟩ := Option.isSome_iff_exists.mp h
  exact ⟨b, fbRead_ok.mpr ⟨ha, hb⟩, hb⟩

/-- Reading a range: it succeeds exactly where every byte is inside `fb` and written. -/
theorem fbBytes_ok {s : State} {off n : Nat} {bs : List Byte} :
    fbBytes s off n = .ok bs ↔ bs.length = n ∧ ∀ k, k < n → fbRead s (off + k) = .ok (bs.getD k 0#8) := by
  induction n generalizing off bs with
  | zero => cases bs <;> simp [fbBytes]
  | succ n ih =>
    constructor
    · intro h
      unfold fbBytes at h
      split at h
      · cases h
      · rename_i b hb
        split at h
        · cases h
        · rename_i bs' hbs
          cases h
          obtain ⟨hl, hk⟩ := ih.mp hbs
          refine ⟨by simp [hl], fun k hkn => ?_⟩
          cases k with
          | zero => simpa using hb
          | succ k =>
            have := hk k (by omega)
            rw [show off + 1 + k = off + (k + 1) by omega] at this
            simpa using this
    · rintro ⟨hl, hk⟩
      cases bs with
      | nil => simp at hl
      | cons b bs =>
        have h0 := hk 0 (by omega)
        have hr : fbBytes s (off + 1) n = .ok bs := by
          refine ih.mpr ⟨by simpa using hl, fun k hkn => ?_⟩
          have := hk (k + 1) (by omega)
          rw [show off + (k + 1) = off + 1 + k by omega] at this
          simpa using this
        unfold fbBytes
        simp only [Nat.add_zero, List.getD_cons_zero] at h0
        simp [h0, hr]

theorem fbBytes_length {s : State} {off n : Nat} {bs : List Byte} (h : fbBytes s off n = .ok bs) : bs.length = n :=
  (fbBytes_ok.mp h).1

/-- A range of written bytes inside `fb` can be read. -/
theorem fbBytes_written {s : State} {off n : Nat} (hn : off + n ≤ Config.frameBufSize)
    (h : ∀ k, off ≤ k → k < off + n → (memRead s.fb k).isSome = true) : ∃ bs, fbBytes s off n = .ok bs := by
  induction n generalizing off with
  | zero => exact ⟨[], rfl⟩
  | succ n ih =>
    obtain ⟨b, hb, -⟩ := fbRead_written (s := s) (a := off) (by omega) (h off (Nat.le_refl _) (by omega))
    obtain ⟨bs, hbs⟩ := ih (off := off + 1) (by omega) (fun k h1 h2 => h k (by omega) (by omega))
    exact ⟨b :: bs, by simp [fbBytes, hb, hbs]⟩

/-- A write into `fb` changes its bytes only, and stays inside it. -/
theorem fbWrite_ok {s t : State} {off : Nat} {bytes : List Byte} :
    fbWrite off bytes s = .ok t ↔
      off + bytes.length ≤ Config.frameBufSize ∧ t = { s with fb := memWriteAll s.fb off bytes } := by
  unfold fbWrite
  split
  · simp_all [eq_comm]
  · simp_all

theorem fbChecksum_ok {s : State} {off n : Nat} {c : U16} :
    fbChecksum s off n = .ok c ↔
      off + n ≤ Config.frameBufSize ∧ ∃ bs, fbBytes s off n = .ok bs ∧ sum16 bs = c := by
  unfold fbChecksum
  split
  · cases fbBytes s off n <;> simp_all [Except.map]
  · simp_all

/-- The checksum is the sum of the bytes modulo 2^16. -/
theorem sum16_eq (bytes : List Byte) : sum16 bytes = BitVec.ofNat 16 (bytes.map BitVec.toNat).sum := by
  have key : ∀ (bs : List Byte) (acc : U16),
      bs.foldl (fun acc b => acc + b.setWidth 16) acc = acc + BitVec.ofNat 16 (bs.map BitVec.toNat).sum := by
    intro bs
    induction bs with
    | nil => intro acc; simp
    | cons b bs ih =>
      intro acc
      rw [List.foldl_cons, ih, List.map_cons, List.sum_cons, BitVec.add_assoc]
      congr 1
      apply BitVec.eq_of_toNat_eq
      simp [BitVec.toNat_add, BitVec.toNat_setWidth]
  simpa [sum16] using key bytes 0#16

/-! ### validate (R134) -/

/-- `validate` changes at most one counter, by its outcome. -/
theorem validateFrame_state {s t : State} {len : Nat} {r : ValidateResult} (h : validateFrame len s = .ok (r, t)) :
    t = match r with
      | .ok => s
      | .notRdm => s
      | .shortFrame => inc .rdmShortFrame s
      | .lengthMismatch => inc .rdmLengthMismatch s
      | .checksumInvalid => inc .rdmChecksumInvalid s := by
  unfold validateFrame at h
  split at h
  · cases h; rfl
  · cases h0 : fbRead s 0 with
    | error f => simp [h0, bind, Except.bind] at h
    | ok sc =>
      simp only [h0, bind, Except.bind] at h
      split at h
      · cases h1 : fbRead s 1 with
        | error f => simp [h1] at h
        | ok sub =>
          simp only [h1] at h
          split at h
          · unfold validateLength at h
            cases h2 : fbRead s 2 with
            | error f => simp [h2, bind, Except.bind] at h
            | ok ml =>
              simp only [h2, bind, Except.bind] at h
              split at h
              · cases h; rfl
              · unfold validateChecksum at h
                cases h3 : fbChecksum s 0 ml.toNat with
                | error f => simp [h3, bind, Except.bind] at h
                | ok c =>
                  cases h4 : fbRead s ml.toNat with
                  | error f => simp [h3, h4, bind, Except.bind] at h
                  | ok hi =>
                    cases h5 : fbRead s (ml.toNat + 1) with
                    | error f => simp [h3, h4, h5, bind, Except.bind] at h
                    | ok lo =>
                      simp only [h3, h4, h5, bind, Except.bind] at h
                      split at h <;> (cases h; rfl)
          · cases h; rfl
      · cases h; rfl

/-- `validate` of bytes that have all been written has an outcome; a frame of fewer than 26 bytes is never Ok. -/
theorem validateFrame_written {s : State} {len : Nat} (hlen : len ≤ Config.frameBufSize)
    (h : ∀ k, k < len → (memRead s.fb k).isSome = true) :
    ∃ r t, validateFrame len s = .ok (r, t) ∧ (r = .ok → 26 ≤ len) := by
  unfold validateFrame
  by_cases h26 : len < Config.minRdmFrame
  · rw [if_pos h26]
    exact ⟨_, _, rfl, by intro hr; cases hr⟩
  · rw [if_neg h26]
    simp only [Config.minRdmFrame, Config.frameBufSize] at h26 hlen
    obtain ⟨sc, h0, -⟩ := fbRead_written (s := s) (a := 0) (by decide) (h 0 (by omega))
    obtain ⟨sub, h1, -⟩ := fbRead_written (s := s) (a := 1) (by decide) (h 1 (by omega))
    obtain ⟨ml, h2, -⟩ := fbRead_written (s := s) (a := 2) (by decide) (h 2 (by omega))
    simp only [h0, bind, Except.bind]
    by_cases hsc : sc = Config.scRdm
    · simp only [hsc, if_true, h1]
      by_cases hsub : sub = Config.ssc
      · simp only [hsub, if_true]
        unfold validateLength
        simp only [h2, bind, Except.bind]
        by_cases hml : ml.toNat < Config.rdmHeaderSize ∨ len - 2 < ml.toNat
        · rw [if_pos hml]; exact ⟨_, _, rfl, by intro hr; cases hr⟩
        · rw [if_neg hml]
          unfold validateChecksum
          obtain ⟨bs, hbs⟩ := fbBytes_written (s := s) (off := 0) (n := ml.toNat)
            (by simp only [Config.frameBufSize]; omega) (fun k _ hk => h k (by omega))
          have hc : fbChecksum s 0 ml.toNat = .ok (sum16 bs) :=
            fbChecksum_ok.mpr ⟨by simp only [Config.frameBufSize]; omega, bs, hbs, rfl⟩
          obtain ⟨hi, h4, -⟩ := fbRead_written (s := s) (a := ml.toNat)
            (by simp only [Config.frameBufSize]; omega) (h _ (by omega))
          obtain ⟨lo, h5, -⟩ := fbRead_written (s := s) (a := ml.toNat + 1)
            (by simp only [Config.frameBufSize]; omega) (h _ (by omega))
          simp only [hc, h4, h5, bind, Except.bind]
          split
          · exact ⟨_, _, rfl, by intro _; omega⟩
          · exact ⟨_, _, rfl, by intro hr; cases hr⟩
      · rw [if_neg hsub]; exact ⟨_, _, rfl, by intro hr; cases hr⟩
    · rw [if_neg hsc]; exact ⟨_, _, rfl, by intro hr; cases hr⟩

/-- The header of 24 written bytes can be read. -/
theorem fbHeader_written {s : State} (h : ∀ k, k < 24 → (memRead s.fb k).isSome = true) :
    ∃ hd, fbHeader s = .ok hd := by
  obtain ⟨bs, hbs⟩ := fbBytes_written (s := s) (off := 0) (n := 24) (by decide) (fun k _ hk => h k (by omega))
  have hl := fbBytes_length hbs
  unfold fbHeader
  rw [show Config.rdmHeaderSize = 24 from rfl, hbs]
  match bs, hl with
  | [_, _, _, _, _, _, _, _, _, _, _, _, _, _, _, _, _, _, _, _, _, _, _, _], _ => exact ⟨_, rfl⟩

/-! ### The slot serializer (R206) -/

/-- The feed loop with enough turns moves `min` of the room and the slots left, in index order. -/
theorem feedLoop_ok {src : Nat → Except Fault Byte} {depth len fuel index index' : Nat} {fifo fifo' : List Byte}
    (h : feedLoop src depth len fuel fifo index = .ok (fifo', index')) (hf : len - index ≤ fuel) :
    index' = index + min (depth - fifo.length) (len - index) ∧
      ∃ bs, fifo' = fifo ++ bs ∧ bs.length = min (depth - fifo.length) (len - index) ∧
        ∀ k, k < bs.length → src (index + k) = .ok (bs.getD k 0#8) := by
  induction fuel generalizing fifo index with
  | zero =>
    cases h
    exact ⟨by omega, [], by simp; omega⟩
  | succ fuel ih =>
    unfold feedLoop at h
    split at h
    · rename_i hc
      split at h
      · cases h
      · rename_i b hb
        obtain ⟨hi, bs, h1, h2, h3⟩ := ih h (by omega)
        simp only [List.length_append, List.length_cons, List.length_nil] at hi h2
        refine ⟨by omega, b :: bs, by simp [h1], by simp only [List.length_cons]; omega, fun k hk => ?_⟩
        cases k with
        | zero => simpa using hb
        | succ k =>
          have := h3 k (by simpa using hk)
          rw [show index + 1 + k = index + (k + 1) by omega] at this
          simpa using this
    · cases h
      exact ⟨by omega, [], by simp; omega⟩

/-- The feed loop succeeds where every slot it may take can be read. -/
theorem feedLoop_succeeds {src : Nat → Except Fault Byte} {depth len : Nat} (fuel : Nat) (fifo : List Byte) (index : Nat)
    (h : ∀ k, index ≤ k → k < len → ∃ b, src k = .ok b) :
    ∃ r, feedLoop src depth len fuel fifo index = .ok r := by
  induction fuel generalizing fifo index with
  | zero => exact ⟨_, rfl⟩
  | succ fuel ih =>
    unfold feedLoop
    split
    · rename_i hc
      obtain ⟨b, hb⟩ := h index (Nat.le_refl _) hc.2
      simp only [hb]
      exact ih _ _ (fun k h1 h2 => h k (by omega) h2)
    · exact ⟨_, rfl⟩

/-- `feed` moves slots into the FIFO and advances `tx_index`; nothing else changes (R206). -/
theorem feed_ok {s t : State} (h : feed s = .ok t) :
    ∃ bs, t = { s with uart.fifo := s.uart.fifo ++ bs, tx.index := s.tx.index + bs.length } ∧
      bs.length = min (Config.uartTxFifoDepth - s.uart.fifo.length) (s.tx.len - s.tx.index) ∧
        ∀ k, k < bs.length → slotSource s (s.tx.index + k) = .ok (bs.getD k 0#8) := by
  unfold feed at h
  split at h
  · cases h
  · rename_i fifo index hl
    cases h
    obtain ⟨hi, bs, h1, h2, h3⟩ := feedLoop_ok hl (Nat.le_refl _)
    exact ⟨bs, by rw [h1, hi, h2], h2, h3⟩

theorem feed_succeeds {s : State} (h : ∀ k, s.tx.index ≤ k → k < s.tx.len → ∃ b, slotSource s k = .ok b) :
    ∃ t, feed s = .ok t := by
  obtain ⟨⟨f, i⟩, hr⟩ := feedLoop_succeeds (src := slotSource s) (depth := Config.uartTxFifoDepth)
    (s.tx.len - s.tx.index) s.uart.fifo s.tx.index h
  exact ⟨_, by simp [feed, hr]; rfl⟩

/-- `start_slots` puts the UART on the line and feeds from slot 0 (R205). -/
theorem startSlots_ok {s t : State} (h : startSlots s = .ok t) :
    ∃ bs, t = { setLine .uart s with uart.fifo := s.uart.fifo ++ bs, tx.index := bs.length } ∧
      bs.length = min (Config.uartTxFifoDepth - s.uart.fifo.length) s.tx.len ∧
        ∀ k, k < bs.length → slotSource s k = .ok (bs.getD k 0#8) := by
  obtain ⟨bs, h1, h2, h3⟩ := feed_ok h
  refine ⟨bs, by simpa using h1, by simpa using h2, fun k hk => ?_⟩
  have := h3 k hk
  simpa [slotSource, fbRead] using this

theorem startSlots_succeeds {s : State} (h : ∀ k, k < s.tx.len → ∃ b, slotSource s k = .ok b) :
    ∃ t, startSlots s = .ok t := by
  refine feed_succeeds (fun k _ hk => ?_)
  obtain ⟨b, hb⟩ := h k hk
  exact ⟨b, by simpa [slotSource, fbRead] using hb⟩

/-! ### The UART transmitter (R207) -/

/-- One step of the transmitter: nothing, the end of a character, or the start of the next. -/
theorem uartShift_cases (s : State) :
    uartShift s = s ∨ (s.uart.busy = true ∧ uartShift s = { s with uart.busy := false }) ∨
      ∃ b rest, s.uart.busy = false ∧ s.uart.fifo = b :: rest ∧
        uartShift s = { s with
          uart := { fifo := rest, busy := true, shiftByte := b, shiftEnd := s.time + Config.slotTime }
          wire := s.wire ++ [⟨s.time, .slot b⟩] } := by
  unfold uartShift
  split
  · rename_i hb
    split
    · exact .inr (.inl ⟨hb, rfl⟩)
    · exact .inl rfl
  · rename_i hb
    split
    · exact .inl rfl
    · rename_i b rest hf
      exact .inr (.inr ⟨b, rest, by simpa using hb, hf, rfl⟩)

/-! ### Receive helpers (R221 to R223) -/

/-- `store_byte` writes one byte at `rx_count`, or only notes its time. -/
theorem storeByte_cases (b : Byte) (t : Nat) (s : State) :
    (s.fbOwner = .transceiver ∧ s.rx.count < Config.frameBufSize ∧
      storeByte b t s = { s with fb := memWrite s.fb s.rx.count b, rx.count := s.rx.count + 1,
                                 timing.tLastByte := t }) ∨
    (¬ (s.fbOwner = .transceiver ∧ s.rx.count < Config.frameBufSize) ∧
      storeByte b t s = { s with timing.tLastByte := t }) := by
  unfold storeByte
  split
  · rename_i h; exact .inl ⟨h.1, h.2, rfl⟩
  · rename_i h; exact .inr ⟨h, rfl⟩

/-- `length_reached` over a buffer whose received bytes have been written (R222). -/
theorem lengthReached_written {s : State} (h0 : 0 < s.rx.count)
    (h : ∀ k, k < s.rx.count → (memRead s.fb k).isSome = true) : ∃ d, lengthReached s = .ok d := by
  unfold lengthReached
  split
  · exact ⟨_, rfl⟩
  · obtain ⟨sc, hsc, -⟩ := fbRead_written (s := s) (a := 0) (by decide) (h 0 h0)
    simp only [hsc, bind, Except.bind]
    split
    · rename_i hc
      obtain ⟨ml, hml, -⟩ := fbRead_written (s := s) (a := 2) (by decide) (h 2 (by omega))
      simp only [hml]
      exact ⟨_, rfl⟩
    · exact ⟨_, rfl⟩

/-- `interslot_timeout` over a buffer with its start code. -/
theorem interslotTimeout_written {s : State} (h : (memRead s.fb 0).isSome = true) :
    ∃ w, interslotTimeout s = .ok w := by
  unfold interslotTimeout
  split
  · exact ⟨_, rfl⟩
  · obtain ⟨sc, hsc, -⟩ := fbRead_written (s := s) (a := 0) (by decide) h
    simp only [hsc, bind, Except.bind]
    exact ⟨_, rfl⟩

/-! ### Open parameters and free values -/

/-- R3, R262: OP_DEADLINE_TICKS is at least its floor. -/
theorem opDeadlineTicks_min : Config.opDeadlineMin ≤ Config.opDeadlineTicks.toNat := by
  have h5 : Config.opDeadlineMin = 5 := by decide
  have := Nat.mod_lt Config.opDeadlineSeed (y := 4294967291) (by omega)
  simp only [Config.opDeadlineTicks, h5, BitVec.toNat_ofNat]
  omega

/-- R296: whatever is drawn, it lies in `0 .. responder_jitter`. -/
theorem drawnJitter_le (s : State) : drawnJitter s ≤ s.params.responderJitter.toNat := by
  exact Nat.lt_succ_iff.mp (Nat.mod_lt _ (Nat.succ_pos s.params.responderJitter.toNat))

/-- R257: whatever is drawn, it is one of two results. -/
theorem drawnSelfTest_cases (s : State) : drawnSelfTest s = .ok ∨ drawnSelfTest s = .selfTestFailed := by
  unfold drawnSelfTest; split
  · exact .inl rfl
  · exact .inr rfl

end Sys2Proof.Machine
end

