-- ==== Sys2Proof/Laws/Buffer.lean ====
section
/-! SUPPORT. Reads of a buffer whose bytes are known (`FbHolds`), and codec operations by the owner of `fb` (`OwnsFb`). -/

namespace Sys2Proof.Safety

open Sys2Proof.Machine

theorem ownsFb_iff {s : State} : OwnsFb s ↔ codecAccess s = .legal := codecAccess_legal.symm

/-- The owner's codec operation takes its effect. -/
theorem codecOp_owner {s : State} (h : OwnsFb s) (e : Except Fault State) : codecOp s e = toOutcome e :=
  codecOp_legal (ownsFb_iff.mp h) e

theorem fbHolds_getD {s : State} {off : Nat} {f : List Byte} (h : FbHolds s off f) {k : Nat} (hk : k < f.length) :
    memRead s.fb (off + k) = some (f.getD k 0#8) := by
  refine h k _ ?_
  rw [List.getElem?_eq_getElem hk, List.getD_eq_getElem?_getD, List.getElem?_eq_getElem hk]; rfl

/-- A known byte inside `fb` is read. -/
theorem fbRead_holds {s : State} {off : Nat} {f : List Byte} (h : FbHolds s off f) {k : Nat} (hk : k < f.length)
    (hb : off + k < Config.frameBufSize) : fbRead s (off + k) = .ok (f.getD k 0#8) :=
  fbRead_ok.mpr ⟨hb, fbHolds_getD h hk⟩

/-- A known range inside `fb` is read as it stands. -/
theorem fbBytes_holds {s : State} {off : Nat} {f : List Byte} (h : FbHolds s off f)
    (hb : off + f.length ≤ Config.frameBufSize) : fbBytes s off f.length = .ok f :=
  fbBytes_ok.mpr ⟨rfl, fun _ hk => fbRead_holds h hk (by omega)⟩

theorem fbHolds_take {s : State} {off : Nat} {f : List Byte} (h : FbHolds s off f) (n : Nat) :
    FbHolds s off (f.take n) := by
  intro k b hk
  refine h k b ?_
  rw [List.getElem?_take] at hk
  split at hk
  · exact hk
  · cases hk

theorem fbHolds_drop {s : State} {off : Nat} {f : List Byte} (h : FbHolds s off f) (n : Nat) :
    FbHolds s (off + n) (f.drop n) := by
  intro k b hk
  rw [List.getElem?_drop] at hk
  rw [Nat.add_assoc]; exact h (n + k) b hk

theorem fbHolds_append {s : State} {off : Nat} {f g : List Byte} (hf : FbHolds s off f)
    (hg : FbHolds s (off + f.length) g) : FbHolds s off (f ++ g) := by
  intro k b hk
  by_cases hl : k < f.length
  · rw [List.getElem?_append_left hl] at hk; exact hf k b hk
  · rw [List.getElem?_append_right (by omega)] at hk
    have := hg _ b hk
    rwa [show off + f.length + (k - f.length) = off + k by omega] at this

/-- Only `fb` matters to what stands in it. -/
theorem fbHolds_congr {s t : State} (h : s.fb = t.fb) {off : Nat} {f : List Byte} :
    FbHolds s off f ↔ FbHolds t off f := by unfold FbHolds; rw [h]

/-- The first `n` known bytes are read by a shorter read. -/
theorem fbBytes_prefix {s : State} {off n : Nat} {f : List Byte} (h : FbHolds s off f) (hn : n ≤ f.length)
    (hb : off + n ≤ Config.frameBufSize) : fbBytes s off n = .ok (f.take n) := by
  have := fbBytes_holds (fbHolds_take h n) (by simp only [List.length_take]; omega)
  rwa [List.length_take, Nat.min_eq_left hn] at this

/-- The checksum of known bytes is their sum modulo 2^16. -/
theorem fbChecksum_holds {s : State} {off n : Nat} {f : List Byte} (h : FbHolds s off f) (hn : n ≤ f.length)
    (hb : off + n ≤ Config.frameBufSize) :
    fbChecksum s off n = .ok (BitVec.ofNat 16 (byteSum (f.take n))) :=
  fbChecksum_ok.mpr ⟨hb, _, fbBytes_prefix h hn hb, sum16_eq _⟩

/-- A header read from 24 bytes writes those bytes back. -/
theorem headerBytes_headerOf {bs : List Byte} {h : Header} (hh : headerOf bs = some h)
    (h0 : bs.getD 0 0#8 = Config.scRdm) (h1 : bs.getD 1 0#8 = Config.ssc) : headerBytes h = bs := by
  unfold headerOf at hh
  split at hh
  · cases hh
    simp only [List.getD_cons_zero, List.getD_cons_succ] at h0 h1
    subst h0 h1
    simp [headerBytes, Uid.bytes, u16Bytes_of]
  · cases hh

/-- A header's own 24 bytes read back as the header. -/
theorem headerOf_headerBytes (h : Header) : headerOf (headerBytes h) = some h := by
  simp [headerBytes, headerOf, Uid.bytes, u16Bytes, u16Of_bytes]

end Sys2Proof.Safety
end

