-- ==== Sys2Proof/Laws/PerInstr.lean ====
section
/-! SUPPORT. Statements made per instruction: one family, one lemma for each constructor of `Instr`. -/

/-- R95, R97, R98: the packet or record of an instruction begins with its opcode byte. -/
def Sys2Proof.Laws.OpcodeByte.Statement (i : Sys2Proof.Instr) : Prop :=
  (Sys2Proof.encode i).head? = some i.opcode

namespace Sys2Proof.Laws

open Sys2Proof

theorem OpcodeByte.setMode (mode : Mode) (hasToken : Bool) (token : U16) : OpcodeByte.Statement (.setMode mode hasToken token) := rfl
theorem OpcodeByte.reset : OpcodeByte.Statement .reset := rfl
theorem OpcodeByte.queueDmx (token : U16) (bytes : List Byte) : OpcodeByte.Statement (.queueDmx token bytes) := rfl
theorem OpcodeByte.queueAsc (token : U16) (startCode : Byte) (bytes : List Byte) : OpcodeByte.Statement (.queueAsc token startCode bytes) := rfl
theorem OpcodeByte.queueRdmDub (token : U16) (bytes : List Byte) : OpcodeByte.Statement (.queueRdmDub token bytes) := rfl
theorem OpcodeByte.queueRdmRequest (token : U16) (isBroadcast : Bool) (bytes : List Byte) : OpcodeByte.Statement (.queueRdmRequest token isBroadcast bytes) := rfl
theorem OpcodeByte.queueSelfTest (token : U16) : OpcodeByte.Statement (.queueSelfTest token) := rfl
theorem OpcodeByte.setBreakTime (t : U16) : OpcodeByte.Statement (.setBreakTime t) := rfl
theorem OpcodeByte.getBreakTime : OpcodeByte.Statement .getBreakTime := rfl
theorem OpcodeByte.setMarkTime (t : U16) : OpcodeByte.Statement (.setMarkTime t) := rfl
theorem OpcodeByte.getMarkTime : OpcodeByte.Statement .getMarkTime := rfl
theorem OpcodeByte.setRdmResponseTimeout (t : U32) : OpcodeByte.Statement (.setRdmResponseTimeout t) := rfl
theorem OpcodeByte.getRdmResponseTimeout : OpcodeByte.Statement .getRdmResponseTimeout := rfl
theorem OpcodeByte.setResponderDelay (d : U32) : OpcodeByte.Statement (.setResponderDelay d) := rfl
theorem OpcodeByte.getResponderDelay : OpcodeByte.Statement .getResponderDelay := rfl
theorem OpcodeByte.setResponderJitter (j : U32) : OpcodeByte.Statement (.setResponderJitter j) := rfl
theorem OpcodeByte.getResponderJitter : OpcodeByte.Statement .getResponderJitter := rfl
theorem OpcodeByte.setDubResponseLimit (l : U32) : OpcodeByte.Statement (.setDubResponseLimit l) := rfl
theorem OpcodeByte.getDubResponseLimit : OpcodeByte.Statement .getDubResponseLimit := rfl
theorem OpcodeByte.now : OpcodeByte.Statement .now := rfl
theorem OpcodeByte.elapsed (start : U32) : OpcodeByte.Statement (.elapsed start) := rfl
theorem OpcodeByte.delta (start stop : U32) : OpcodeByte.Statement (.delta start stop) := rfl
theorem OpcodeByte.hasElapsed (start duration : U32) : OpcodeByte.Statement (.hasElapsed start duration) := rfl
theorem OpcodeByte.setCounter (n : U32) : OpcodeByte.Statement (.setCounter n) := rfl
theorem OpcodeByte.readCounter (index : Byte) : OpcodeByte.Statement (.readCounter index) := rfl
theorem OpcodeByte.resetCommsStatus : OpcodeByte.Statement .resetCommsStatus := rfl
theorem OpcodeByte.incrementCounter (index : Byte) : OpcodeByte.Statement (.incrementCounter index) := rfl
theorem OpcodeByte.pushU16 (off v : U16) : OpcodeByte.Statement (.pushU16 off v) := rfl
theorem OpcodeByte.pushU32 (off : U16) (v : U32) : OpcodeByte.Statement (.pushU32 off v) := rfl
theorem OpcodeByte.checksum16 (off n : U16) : OpcodeByte.Statement (.checksum16 off n) := rfl
theorem OpcodeByte.appendChecksum : OpcodeByte.Statement .appendChecksum := rfl
theorem OpcodeByte.validate (len : U16) : OpcodeByte.Statement (.validate len) := rfl
theorem OpcodeByte.buildReplyHeader (ownUid : Uid) (rtype msgCount pdl : Byte) : OpcodeByte.Statement (.buildReplyHeader ownUid rtype msgCount pdl) := rfl
theorem OpcodeByte.dubEncode (uid : Uid) : OpcodeByte.Statement (.dubEncode uid) := rfl
theorem OpcodeByte.dubRespond (ownUid : Uid) (isMuted : Bool) : OpcodeByte.Statement (.dubRespond ownUid isMuted) := rfl
theorem OpcodeByte.uidCompare (a b : Uid) : OpcodeByte.Statement (.uidCompare a b) := rfl
theorem OpcodeByte.handlerReturn (n : U16) : OpcodeByte.Statement (.handlerReturn n) := rfl
theorem OpcodeByte.tasks : OpcodeByte.Statement .tasks := rfl
theorem OpcodeByte.coarseTick : OpcodeByte.Statement .coarseTick := rfl
theorem OpcodeByte.timerMatch : OpcodeByte.Statement .timerMatch := rfl
theorem OpcodeByte.fall (t : U64) : OpcodeByte.Statement (.fall t) := rfl
theorem OpcodeByte.rise (t : U64) : OpcodeByte.Statement (.rise t) := rfl
theorem OpcodeByte.byte (t : U64) (b : Byte) : OpcodeByte.Statement (.byte t b) := rfl
theorem OpcodeByte.err (t : U64) (kind : UartErr) : OpcodeByte.Statement (.err t kind) := rfl
theorem OpcodeByte.txFifoSpace : OpcodeByte.Statement .txFifoSpace := rfl
theorem OpcodeByte.txShiftEmpty : OpcodeByte.Statement .txShiftEmpty := rfl

end Sys2Proof.Laws
end

