-- ==== Sys2Proof/Machine/Contract.lean ====
section
/-! DEFINITION. The responder collaborator C4 as an interface contract (spec/46_responder_contract.md R320 to R333): what it
does with a dispatched frame, from the parsed header to the integer it returns. C4 is outside the block
(spec/00_scope.md section 3): no meaning of `exec` calls these, the collaborator's agent may issue any codec operation and
any `handler_return` (log entry 25). -/

namespace Sys2Proof.Machine

/-! ### Addressing (R321, R326) -/

/-- R321: whether a frame to `dest` is for the responder `own`: its UID, the all-devices broadcast, or its manufacturer's
broadcast. PRESUMED: the spec marks the rule as general knowledge (G9). -/
def addressedTo (own dest : Uid) : Bool :=
  decide (dest = own) || (uidIsBroadcast dest
    && (decide (dest.b0 = 0xFF#8 ∧ dest.b1 = 0xFF#8) || decide (dest.b0 = own.b0 ∧ dest.b1 = own.b1)))

/-- R321: the command classes C4 acts on. -/
def isRequestClass (cc : Byte) : Bool := decide (cc = Config.ccDisc ∨ cc = Config.ccGet ∨ cc = Config.ccSet)

/-- R326: a framed reply is sent to a unicast request only; `NO_RESPONSE` takes its place otherwise. -/
def replyLength (dest : Uid) (n : Int) : Int := if uidIsUnicast dest then n else 0

/-! ### Logical responders (R323, R327, R334) -/

/-- R323: an entry of the collaborator's descriptor table. -/
structure Descriptor where
  pid : U16
  hasGet : Bool
  hasSet : Bool
  getParamSize : Nat
deriving DecidableEq, Repr

/-- R327, R333, R334: what dispatch and discovery use of one logical responder, root or sub-device. -/
structure LogicalResponder where
  ownUid : Uid
  table : List Descriptor
  isMuted : Bool
  queuedMessageCount : Byte
  subDeviceCount : Nat
  managedProxy : Bool
  proxiedDevice : Bool
deriving DecidableEq, Repr

/-- R327: the root and the sub-devices by number. -/
structure Device where
  root : LogicalResponder
  subDevices : List (U16 × LogicalResponder)
deriving DecidableEq, Repr

/-- R327: the header's `sub_device` field selects the logical responder; 0 is the root. -/
def Device.select (subDevice : U16) (d : Device) : Option LogicalResponder :=
  if subDevice = 0#16 then some d.root
  else (d.subDevices.find? (fun e => decide (e.1 = subDevice))).map Prod.snd

/-- R327: the selected logical responder after its dispatch. -/
def Device.update (subDevice : U16) (r : LogicalResponder) (d : Device) : Device :=
  if subDevice = 0#16 then { d with root := r }
  else { d with subDevices := d.subDevices.map (fun e => if e.1 = subDevice then (e.1, r) else e) }

/-! ### Replies (R325, R328, R333) -/

/-- R325: the reasons a NACK carries. -/
inductive NackReason where
  | unknownPid
  | formatError
  | hardwareFault
  | unsupportedCommandClass
  | dataOutOfRange
deriving DecidableEq, Repr

/-- R325: the codes of the reasons. PRESUMED: the spec marks them as general knowledge (G5). -/
def nackCode : NackReason → U16
  | .unknownPid => 0x0000#16
  | .formatError => 0x0001#16
  | .hardwareFault => 0x0002#16
  | .unsupportedCommandClass => 0x0005#16
  | .dataOutOfRange => 0x0006#16

/-- R325, R328, R333: a reply with a 16-bit parameter, as the request's reply in `fb`; its length is 28. -/
def shortReply (r : LogicalResponder) (rtype : Byte) (param : U16) (s : State) : Except Fault State := do
  let s ← buildReplyHeader r.ownUid rtype r.queuedMessageCount 2#8 s
  let s ← fbWrite 24 (u16Bytes param) s
  appendChecksum s

/-- R325, R326: a NACK, or nothing where the request's destination is not unicast. -/
def nackReply (r : LogicalResponder) (reason : NackReason) (dest : Uid) (s : State) : Except Fault (Int × State) :=
  if uidIsUnicast dest then (shortReply r Config.rtNackReason (nackCode reason) s).map (fun t => (28, t))
  else .ok (0, s)

/-- R333: the control field of a mute reply. -/
def muteControlField (r : LogicalResponder) : U16 :=
  (if 0 < r.subDeviceCount then 1#16 else 0#16) ||| (if r.managedProxy then 2#16 else 0#16)
    ||| (if r.proxiedDevice then 4#16 else 0#16)

/-- R333: the reply of DISC_MUTE and DISC_UN_MUTE: an ACK with the control field, or nothing where the request's
destination is not unicast. -/
def muteReply (r : LogicalResponder) (dest : Uid) (s : State) : Except Fault (Int × State) :=
  if uidIsUnicast dest then (shortReply r Config.rtAck (muteControlField r) s).map (fun t => (28, t))
  else .ok (0, s)

/-! ### Dispatch rules (R324) -/

/-- R324, rule 1: the root-only administrative PIDs. PRESUMED: all numbers but 0x0002 and 0x00F0 (R337, G6). -/
def rootOnlyPids : List U16 :=
  [0x0001#16, 0x0002#16, 0x0003#16, 0x0050#16, 0x0051#16, 0x0060#16, 0x00C0#16, 0x00F0#16, 0x1000#16]

/-- R324: what the dispatcher does with a request. -/
inductive Handling where
  /-- no reply (`NO_RESPONSE`) -/
  | drop
  | nack (reason : NackReason)
  | runGet
  | runSet
  /-- R330 -/
  | uniqueBranch
  /-- R333: the value `is_muted` takes -/
  | mute (muted : Bool)
deriving DecidableEq, Repr

/-- R324, the note after rule 4: a DISC-class request reaches its handler by PID. DESIGN CHOICE (log entry 25): a PID that
has a descriptor and no DISC handler is dropped; DISC_MUTE and DISC_UN_MUTE act whatever the request's PDL is, on which the
source is silent (N18). -/
def discHandling (pid : U16) : Handling :=
  if pid = 0x0001#16 then .uniqueBranch
  else if pid = 0x0002#16 then .mute true
  else if pid = 0x0003#16 then .mute false
  else .drop

/-- R324: the clauses of rules 2 and 3 that follow the lookup, for the descriptor found. -/
def descriptorHandling (d : Descriptor) (h : Header) : Handling :=
  if h.cc = Config.ccGet then
    if d.hasGet = false then .nack .unsupportedCommandClass
    else if h.pdl.toNat ≠ d.getParamSize then .nack .formatError
    else .runGet
  else if h.cc = Config.ccSet then
    if d.hasSet then .runSet else .nack .unsupportedCommandClass
  else discHandling h.pid

/-- R321, R324: dispatch rules 1 to 4 in their order, for the logical responder selected. A frame that is not for this
responder or whose class is not a request's is dropped first; the unicast test of rule 2 stands before the lookup. -/
def dispatchRules (r : LogicalResponder) (h : Header) : Handling :=
  if addressedTo r.ownUid h.destUid = false ∨ isRequestClass h.cc = false then .drop
  else if h.subDevice ≠ 0#16 ∧ h.pid ∈ rootOnlyPids then .drop
  else if h.cc = Config.ccGet ∧ uidIsUnicast h.destUid = false then .drop
  else
    match r.table.find? (fun d => decide (d.pid = h.pid)) with
    | none => .nack .unknownPid
    | some d => descriptorHandling d h

/-! ### Dispatch (R320, R322, R326, R327) -/

/-- R322, R325: what a PID's GET or SET handler ends in. -/
inductive HandlerResult where
  /-- a complete framed reply of that length stands in `fb` -/
  | reply (length : Nat)
  | nack (reason : NackReason)
  | noResponse
deriving DecidableEq, Repr

/-- What dispatch hands back: the integer of `HandlerReturn` (R322), the collaborator's own state and `fb`. -/
structure HandOff where
  result : Int
  responder : LogicalResponder
  block : State
deriving DecidableEq, Repr

/-- A PID's handler: its data layouts are not given (R337, N20), so dispatch takes the handlers as arguments. -/
abbrev PidHandler := Header → LogicalResponder → State → Except Fault (HandlerResult × LogicalResponder × State)

/-- R325, R326: the outcome of a handler as the value returned. -/
def finishHandler (h : Header) (out : HandlerResult × LogicalResponder × State) : Except Fault HandOff :=
  match out with
  | (.reply n, r, s) => .ok ⟨replyLength h.destUid n, r, s⟩
  | (.noResponse, r, s) => .ok ⟨0, r, s⟩
  | (.nack reason, r, s) => (nackReply r reason h.destUid s).map (fun (n, t) => ⟨n, r, t⟩)

/-- R324 to R326, R330, R333: a request carried out by the logical responder selected. The raw response of
DISC_UNIQUE_BRANCH is no framed reply and is sent whatever the destination. -/
def dispatchTo (onGet onSet : PidHandler) (h : Header) (r : LogicalResponder) (s : State) : Except Fault HandOff :=
  match dispatchRules r h with
  | .drop => .ok ⟨0, r, s⟩
  | .nack reason => (nackReply r reason h.destUid s).map (fun (n, t) => ⟨n, r, t⟩)
  | .runGet => (onGet h r s).bind (finishHandler h)
  | .runSet => (onSet h r s).bind (finishHandler h)
  | .uniqueBranch => (dubRespond r.ownUid r.isMuted s).map (fun (n, t) => ⟨n, r, t⟩)
  | .mute muted => (muteReply r h.destUid s).map (fun (n, t) => ⟨n, { r with isMuted := muted }, t⟩)

/-- R320, R327: the dispatch of the request in `fb`: the integer of `HandlerReturn`, the device and the block after it.
DESIGN CHOICE (log entry 25): a sub-device number that selects no logical responder is dropped, and the destination is
compared with the UID of the responder selected. -/
def dispatchRequest (onGet onSet : PidHandler) (d : Device) (s : State) : Except Fault (Int × Device × State) := do
  let h ← fbHeader s
  match d.select h.subDevice with
  | none => return (0, d, s)
  | some r =>
    let out ← dispatchTo onGet onSet h r s
    return (out.result, d.update h.subDevice out.responder, out.block)

end Sys2Proof.Machine
end

