-- ==== Sys2Proof/Tests/Slice0.lean ====
section
/-! SUPPORT. The model's own tests: ill-formed terms and packets are refused, each constructor's packet written out from
spec/30_encoding.md decodes, one step per test from the vectors of spec/95_test_vectors.md and the examples of the rules,
and for each statement with hypotheses states that meet them (`witness_…`). -/

namespace Sys2Proof.Tests

set_option Elab.async false

open Sys2Proof Sys2Proof.Machine Sys2Proof.Safety

/-! ### WellFormed: one ill-formed term for each check (R100, R136) -/

theorem test_ill_len_513 : (Instr.queueDmx 1#16 (List.replicate 513 0#8)).ill = some .lenTooLong := by decide +kernel
theorem test_len_512_is_well_formed : (Instr.queueDmx 1#16 (List.replicate 512 0#8)).WellFormed := by decide +kernel
theorem test_ill_counter_index_8 : (Instr.readCounter 8#8).ill = some .counterIndex := by decide
theorem test_ill_increment_index_8 : (Instr.incrementCounter 8#8).ill = some .counterIndex := by decide
theorem test_ill_reply_type_4 : (Instr.buildReplyHeader ⟨0#8, 0#8, 0#8, 0#8, 0#8, 0#8⟩ 4#8 0#8 0#8).ill = some .replyType := by decide
theorem test_ill_pdl_232 : (Instr.buildReplyHeader ⟨0#8, 0#8, 0#8, 0#8, 0#8, 0#8⟩ 0#8 0#8 232#8).ill = some .pdlTooLong := by decide

/-! ### Packets that do not decode (R95, R98, R100) -/

theorem test_refuse_empty : decode [] = .error .emptyPacket := by decide
theorem test_refuse_opcode_0x08 : decode [0x08#8] = .error (.unknownOpcode 0x08#8) := by decide
theorem test_refuse_opcode_0x89 : decode [0x89#8] = .error (.unknownOpcode 0x89#8) := by decide
theorem test_refuse_truncated : decode [0x10#8, 0x00#8] = .error .truncated := by decide
theorem test_refuse_trailing : decode [0x20#8, 0x00#8] = .error .trailingBytes := by decide
theorem test_refuse_mode_2 : decode [0x01#8, 0x02#8, 0x00#8, 0x00#8, 0x00#8] = .error .badMode := by decide
theorem test_refuse_bool_2 : decode [0x01#8, 0x00#8, 0x02#8, 0x00#8, 0x00#8] = .error .badBool := by decide
theorem test_refuse_err_kind_3 :
    decode [0x86#8, 0#8, 0#8, 0#8, 0#8, 0#8, 0#8, 0#8, 0#8, 0x03#8] = .error .badErrKind := by decide
theorem test_refuse_counter_index_8 : decode [0x28#8, 0x08#8] = .error (.illFormed .counterIndex) := by decide
theorem test_refuse_short_string : decode [0x03#8, 0#8, 1#8, 0#8, 2#8, 0xFF#8] = .error .truncated := by decide

/-! ### Each constructor's packet, byte by byte from R95 to R98 -/

theorem test_decode_setMode :
    decode [0x01#8, 0x01#8, 0x01#8, 0x00#8, 0x09#8]
      = .ok (.setMode .responder true 9#16) := by decide
theorem test_decode_reset : decode [0x02#8] = .ok (.reset) := by decide
theorem test_decode_queueDmx :
    decode [0x03#8, 0x00#8, 0x01#8, 0x00#8, 0x02#8, 0xFF#8, 0x80#8]
      = .ok (.queueDmx 1#16 [0xFF#8, 0x80#8]) := by decide
theorem test_decode_queueAsc :
    decode [0x04#8, 0x00#8, 0x02#8, 0x17#8, 0x00#8, 0x02#8, 0x48#8, 0x69#8]
      = .ok (.queueAsc 2#16 0x17#8 [0x48#8, 0x69#8]) := by decide
theorem test_decode_queueRdmDub :
    decode [0x05#8, 0x00#8, 0x20#8, 0x00#8, 0x01#8, 0x01#8]
      = .ok (.queueRdmDub 0x20#16 [0x01#8]) := by decide
theorem test_decode_queueRdmRequest :
    decode [0x06#8, 0x00#8, 0x11#8, 0x01#8, 0x00#8, 0x02#8, 0x01#8, 0x18#8]
      = .ok (.queueRdmRequest 0x11#16 true [0x01#8, 0x18#8]) := by decide
theorem test_decode_queueSelfTest : decode [0x07#8, 0x12#8, 0x34#8] = .ok (.queueSelfTest 0x1234#16) := by decide
theorem test_decode_setBreakTime : decode [0x10#8, 0x00#8, 0xB0#8] = .ok (.setBreakTime 176#16) := by decide
theorem test_decode_getBreakTime : decode [0x11#8] = .ok (.getBreakTime) := by decide
theorem test_decode_setMarkTime : decode [0x12#8, 0x00#8, 0x0C#8] = .ok (.setMarkTime 12#16) := by decide
theorem test_decode_getMarkTime : decode [0x13#8] = .ok (.getMarkTime) := by decide
theorem test_decode_setRdmResponseTimeout :
    decode [0x14#8, 0x00#8, 0x00#8, 0x6D#8, 0x60#8]
      = .ok (.setRdmResponseTimeout 28000#32) := by decide
theorem test_decode_getRdmResponseTimeout : decode [0x15#8] = .ok (.getRdmResponseTimeout) := by decide
theorem test_decode_setResponderDelay :
    decode [0x16#8, 0x00#8, 0x00#8, 0x07#8, 0xD0#8]
      = .ok (.setResponderDelay 2000#32) := by decide
theorem test_decode_getResponderDelay : decode [0x17#8] = .ok (.getResponderDelay) := by decide
theorem test_decode_setResponderJitter :
    decode [0x18#8, 0x00#8, 0x00#8, 0x00#8, 0x64#8]
      = .ok (.setResponderJitter 100#32) := by decide
theorem test_decode_getResponderJitter : decode [0x19#8] = .ok (.getResponderJitter) := by decide
theorem test_decode_setDubResponseLimit :
    decode [0x1A#8, 0x00#8, 0x00#8, 0x71#8, 0x48#8]
      = .ok (.setDubResponseLimit 29000#32) := by decide
theorem test_decode_getDubResponseLimit : decode [0x1B#8] = .ok (.getDubResponseLimit) := by decide
theorem test_decode_now : decode [0x20#8] = .ok (.now) := by decide
theorem test_decode_elapsed : decode [0x21#8, 0x00#8, 0x00#8, 0x03#8, 0x84#8] = .ok (.elapsed 900#32) := by decide
theorem test_decode_delta :
    decode [0x22#8, 0x00#8, 0x00#8, 0x00#8, 0x05#8, 0x00#8, 0x00#8, 0x00#8, 0x0C#8]
      = .ok (.delta 5#32 12#32) := by decide
theorem test_decode_hasElapsed :
    decode [0x23#8, 0x00#8, 0x00#8, 0x00#8, 0x64#8, 0x00#8, 0x00#8, 0x00#8, 0x05#8]
      = .ok (.hasElapsed 100#32 5#32) := by decide
theorem test_decode_setCounter :
    decode [0x24#8, 0xFF#8, 0xFF#8, 0xFF#8, 0xFE#8]
      = .ok (.setCounter 0xFFFFFFFE#32) := by decide
theorem test_decode_readCounter : decode [0x28#8, 0x07#8] = .ok (.readCounter 7#8) := by decide
theorem test_decode_resetCommsStatus : decode [0x29#8] = .ok (.resetCommsStatus) := by decide
theorem test_decode_incrementCounter : decode [0x2A#8, 0x04#8] = .ok (.incrementCounter 4#8) := by decide
theorem test_decode_pushU16 :
    decode [0x40#8, 0x00#8, 0x18#8, 0x02#8, 0x01#8]
      = .ok (.pushU16 24#16 0x0201#16) := by decide
theorem test_decode_pushU32 :
    decode [0x41#8, 0x00#8, 0x18#8, 0x7A#8, 0x70#8, 0x00#8, 0x01#8]
      = .ok (.pushU32 24#16 0x7A700001#32) := by decide
theorem test_decode_checksum16 :
    decode [0x42#8, 0x00#8, 0x08#8, 0x00#8, 0x0C#8]
      = .ok (.checksum16 8#16 12#16) := by decide
theorem test_decode_appendChecksum : decode [0x43#8] = .ok (.appendChecksum) := by decide
theorem test_decode_validate : decode [0x44#8, 0x00#8, 0x1A#8] = .ok (.validate 26#16) := by decide
theorem test_decode_buildReplyHeader :
    decode [0x45#8, 0x7A#8, 0x70#8, 0x00#8, 0x00#8, 0x00#8, 0x01#8, 0x00#8, 0x00#8, 0x02#8]
      = .ok (.buildReplyHeader ⟨0x7A#8, 0x70#8, 0x00#8, 0x00#8, 0x00#8, 0x01#8⟩ 0#8 0#8 2#8) := by decide
theorem test_decode_dubEncode :
    decode [0x46#8, 0x7A#8, 0x70#8, 0x00#8, 0x00#8, 0x00#8, 0x01#8]
      = .ok (.dubEncode ⟨0x7A#8, 0x70#8, 0x00#8, 0x00#8, 0x00#8, 0x01#8⟩) := by decide
theorem test_decode_dubRespond :
    decode [0x47#8, 0x7A#8, 0x70#8, 0x00#8, 0x00#8, 0x00#8, 0x01#8, 0x00#8]
      = .ok (.dubRespond ⟨0x7A#8, 0x70#8, 0x00#8, 0x00#8, 0x00#8, 0x01#8⟩ false) := by decide
theorem test_decode_uidCompare :
    decode [0x48#8, 0x7A#8, 0x70#8, 0x00#8, 0x00#8, 0x00#8, 0x01#8, 0x7A#8, 0x70#8, 0x00#8, 0x00#8, 0x00#8, 0x02#8]
      = .ok (.uidCompare ⟨0x7A#8, 0x70#8, 0x00#8, 0x00#8, 0x00#8, 0x01#8⟩ ⟨0x7A#8, 0x70#8, 0x00#8, 0x00#8, 0x00#8, 0x02#8⟩) := by decide
theorem test_decode_handlerReturn : decode [0x50#8, 0xFF#8, 0xE8#8] = .ok (.handlerReturn 0xFFE8#16) := by decide
theorem test_decode_tasks : decode [0x80#8] = .ok (.tasks) := by decide
theorem test_decode_coarseTick : decode [0x81#8] = .ok (.coarseTick) := by decide
theorem test_decode_timerMatch : decode [0x82#8] = .ok (.timerMatch) := by decide
theorem test_decode_fall :
    decode [0x83#8, 0x00#8, 0x00#8, 0x00#8, 0x00#8, 0x00#8, 0x00#8, 0x03#8, 0xE8#8]
      = .ok (.fall 1000#64) := by decide
theorem test_decode_rise :
    decode [0x84#8, 0x00#8, 0x00#8, 0x00#8, 0x00#8, 0x00#8, 0x00#8, 0x07#8, 0x58#8]
      = .ok (.rise 1880#64) := by decide
theorem test_decode_byte :
    decode [0x85#8, 0x00#8, 0x00#8, 0x00#8, 0x00#8, 0x00#8, 0x00#8, 0x13#8, 0x88#8, 0xCC#8]
      = .ok (.byte 5000#64 0xCC#8) := by decide
theorem test_decode_err :
    decode [0x86#8, 0x00#8, 0x00#8, 0x00#8, 0x00#8, 0x00#8, 0x00#8, 0x13#8, 0x88#8, 0x02#8]
      = .ok (.err 5000#64 .overrun) := by decide
theorem test_decode_txFifoSpace : decode [0x87#8] = .ok (.txFifoSpace) := by decide
theorem test_decode_txShiftEmpty : decode [0x88#8] = .ok (.txShiftEmpty) := by decide

/-! ### States for the tests -/

/-- What a test looks at of an outcome: none where it is no next state. -/
def look {α : Type} (f : State → α) (o : Machine.Outcome) : Option α :=
  match o with
  | .next t => some (f t)
  | .fault _ => none
  | .refused _ => none

/-- The memory that holds the bytes from offset 0 up. -/
def memOf : Nat → List Byte → Memory
  | _, [] => []
  | a, b :: rest => (a, b) :: memOf (a + 1) rest

/-- The collaborator at work on a frame. -/
def handling (frame : List Byte) : State :=
  { State.reset with
    agent := .collaborator, mode := .responder, respState := .dispatch, fbOwner := .responder, fb := memOf 0 frame }

/-- A controller in a state, with a one-slot operation of a class. -/
def ctrlAt (c : CtrlState) (cls : FrameClass) : State :=
  { State.reset with
    agent := .line, ctrlState := c, curOp := { valid := true, token := 7#16, cls := cls, data := [0xCC#8] }
    tx := { index := 0, len := 1 } }

/-- A responder in a state. -/
def respAt (r : RespState) : State := { State.reset with agent := .line, mode := .responder, respState := r }

/-- The same with a due timer. -/
def due (s : State) : State := { s with timer := { armed := true, compareAt := 10 }, time := 10 }

/-- The same with a received frame. -/
def received (frame : List Byte) (s : State) : State :=
  { s with fb := memOf 0 frame, rx := { s.rx with count := frame.length } }

/-- Own UID of the vectors. -/
def own : Uid := ⟨0x7A#8, 0x70#8, 0x00#8, 0x00#8, 0x00#8, 0x01#8⟩
/-- V1: the DISC_MUTE request. -/
def v1 : List Byte :=
  [0xCC#8, 0x01#8, 0x18#8, 0x7A#8, 0x70#8, 0x00#8, 0x00#8, 0x00#8, 0x01#8, 0x00#8, 0x01#8, 0x00#8, 0x00#8, 0x00#8, 0x01#8, 0x00#8, 0x01#8, 0x00#8, 0x00#8, 0x00#8, 0x10#8, 0x00#8, 0x02#8, 0x00#8, 0x01#8, 0xE5#8]
/-- V2: its reply. -/
def v2 : List Byte :=
  [0xCC#8, 0x01#8, 0x1A#8, 0x00#8, 0x01#8, 0x00#8, 0x00#8, 0x00#8, 0x01#8, 0x7A#8, 0x70#8, 0x00#8, 0x00#8, 0x00#8, 0x01#8, 0x00#8, 0x00#8, 0x00#8, 0x00#8, 0x00#8, 0x11#8, 0x00#8, 0x02#8, 0x02#8, 0x00#8, 0x00#8, 0x01#8, 0xE9#8]
/-- V3: the DUB response. -/
def v3 : List Byte :=
  [0xFE#8, 0xFE#8, 0xFE#8, 0xFE#8, 0xFE#8, 0xFE#8, 0xFE#8, 0xAA#8, 0xFA#8, 0x7F#8, 0xFA#8, 0x75#8, 0xAA#8, 0x55#8, 0xAA#8, 0x55#8, 0xAA#8, 0x55#8, 0xAB#8, 0x55#8, 0xAE#8, 0x57#8, 0xEF#8, 0xF5#8]
/-- V4: the DUB request. -/
def v4 : List Byte :=
  [0xCC#8, 0x01#8, 0x24#8, 0xFF#8, 0xFF#8, 0xFF#8, 0xFF#8, 0xFF#8, 0xFF#8, 0x00#8, 0x01#8, 0x00#8, 0x00#8, 0x00#8, 0x01#8, 0x00#8, 0x01#8, 0x00#8, 0x00#8, 0x00#8, 0x10#8, 0x00#8, 0x01#8, 0x0C#8, 0x7A#8, 0x70#8, 0x00#8, 0x00#8, 0x00#8, 0x00#8, 0x7A#8, 0x70#8, 0x00#8, 0x00#8, 0x00#8, 0x02#8, 0x08#8, 0xE1#8]

/-- V7: the SET request of scenario 5, and V8: its reply. -/
def v7 : List Byte :=
  [0xCC#8, 0x01#8, 0x1A#8, 0x7A#8, 0x70#8, 0x00#8, 0x00#8, 0x00#8, 0x01#8, 0x00#8, 0x01#8, 0x00#8, 0x00#8, 0x00#8, 0x01#8, 0x05#8, 0x01#8, 0x00#8, 0x00#8, 0x00#8, 0x30#8, 0x00#8, 0xF0#8, 0x02#8, 0x02#8, 0x01#8, 0x02#8, 0xFF#8]
def v8 : List Byte :=
  [0xCC#8, 0x01#8, 0x1A#8, 0x00#8, 0x01#8, 0x00#8, 0x00#8, 0x00#8, 0x01#8, 0x7A#8, 0x70#8, 0x00#8, 0x00#8, 0x00#8, 0x01#8, 0x05#8, 0x02#8, 0x00#8, 0x00#8, 0x00#8, 0x31#8, 0x00#8, 0xF0#8, 0x02#8, 0x00#8, 0x06#8, 0x03#8, 0x04#8]

/-! ### The responder collaborator of the vectors (spec/46_responder_contract.md) -/

/-- The root responder of the vectors, with DISC_UNIQUE_BRANCH, DISC_MUTE, DISC_UN_MUTE and DMX_START_ADDRESS. -/
def rootResponder : LogicalResponder :=
  { ownUid := own, table := [⟨1#16, false, false, 0⟩, ⟨2#16, false, false, 0⟩, ⟨3#16, false, false, 0⟩, ⟨0xF0#16, true, true, 0⟩]
    isMuted := false, queuedMessageCount := 0#8, subDeviceCount := 0, managedProxy := false, proxiedDevice := false }

/-- A device without sub-devices. -/
def v1Device : Device := { root := rootResponder, subDevices := [] }

/-- A request's header. -/
def headerTo (dest : Uid) (cc : Byte) (subDevice pid : U16) (pdl : Byte) : Header :=
  { ml := 24#8 + pdl, destUid := dest, srcUid := ⟨0#8, 1#8, 0#8, 0#8, 0#8, 1#8⟩, tn := 0#8, portId := 1#8, msgCount := 0#8,
    subDevice := subDevice, cc := cc, pid := pid, pdl := pdl }

/-- The bytes of that header. -/
def requestTo (dest : Uid) (cc : Byte) (subDevice pid : U16) (pdl : Byte) : List Byte :=
  headerBytes (headerTo dest cc subDevice pid pdl)

/-- What a test looks at of a dispatch: the value returned, whether the root is muted, and `fb`. -/
def dispatched (onSet : PidHandler) (d : Device) (s : State) : Option (Int × Bool × Memory) :=
  match dispatchRequest (fun _ r s => .ok (.noResponse, r, s)) onSet d s with
  | .ok (n, d, t) => some (n, d.root.isMuted, t.fb)
  | .error _ => none

/-- Known bytes, checked one by one. -/
theorem holds {s : State} {off : Nat} {f : List Byte}
    (h : (List.range f.length).all (fun k => decide (memRead s.fb (off + k) = f[k]?)) = true) : FbHolds s off f := by
  intro k b hk
  have hl : k < f.length := by
    by_contra hn
    rw [List.getElem?_eq_none (by omega)] at hk; cases hk
  have := List.all_eq_true.mp h k (List.mem_range.mpr hl)
  rw [of_decide_eq_true this, hk]

theorem memRead_memOf (f : List Byte) (a k : Nat) (b : Byte) (h : f[k]? = some b) :
    memRead (memOf a f) (a + k) = some b := by
  induction f generalizing a k with
  | nil => cases h
  | cons c rest ih =>
    cases k with
    | zero => simpa [memOf, memRead] using h
    | succ k =>
      have := ih (a + 1) k (by simpa using h)
      simpa [memOf, memRead, show a + (k + 1) = a + 1 + k by omega, show a + 1 + k ≠ a by omega] using this

/-- Known bytes, of any number. -/
theorem holds_memOf {s : State} {f : List Byte} (h : s.fb = memOf 0 f) : FbHolds s 0 f := by
  intro k b hk
  rw [h]
  exact memRead_memOf f 0 k b hk

theorem room : (0 : Nat) < Config.txQueueDepth := txQueueDepth_pos

theorem fits_one : Config.completionsFit 1 = true := completionsFit_small (by omega)

/-! ### Steps: the examples of the rules and the vectors of spec/95_test_vectors.md -/

-- CT1 to CT10 (R120 to R125)
theorem test_tick_wraps :
    look State.coarseTicks (exec .coarseTick { State.reset with agent := .coarseTick, coarseTicks := 0xFFFFFFFF#32 })
      = some 0#32 := by decide
-- R120: the tick is periodic, and time does not pass it
theorem test_tick_not_due :
    look State.coarseTicks
      (exec .coarseTick { State.reset with agent := .coarseTick, tick := { settled := true, due := 1 } }) = some 0#32 := by
  decide
theorem test_elapse_takes_the_tick :
    look (fun t => (t.time, t.coarseTicks, t.inbox))
      (step { State.reset with time := 100000, inbox := [.elapse 1] }) = some (100000, 1#32, [.elapse 1]) := by decide
theorem test_now : look State.hostReply (exec .now { State.reset with coarseTicks := 1234#32 }) = some (.u32 1234#32) := by
  decide
theorem test_elapsed_wraps :
    look State.hostReply (exec (.elapsed 0xFFFFFFF0#32) { State.reset with coarseTicks := 0x10#32 })
      = some (.u32 0x20#32) := by decide
theorem test_delta_wraps : look State.hostReply (exec (.delta 0xFFFFFFFF#32 1#32) State.reset) = some (.u32 2#32) := by
  decide
theorem test_hasElapsed_equality_is_false :
    look State.hostReply (exec (.hasElapsed 100#32 5#32) { State.reset with coarseTicks := 105#32 })
      = some (.bool false) := by decide
theorem test_hasElapsed_one_more_is_true :
    look State.hostReply (exec (.hasElapsed 100#32 5#32) { State.reset with coarseTicks := 106#32 })
      = some (.bool true) := by decide
theorem test_setCounter : look State.coarseTicks (exec (.setCounter 0xFFFFFFFE#32) State.reset) = some 0xFFFFFFFE#32 := by
  decide
-- the examples of R360, R362, R363
theorem test_increment_saturates :
    look (fun t => t.counters.rdmFrames)
      (exec (.incrementCounter 1#8)
        { State.reset with agent := .line, counters := { Counters.reset with rdmFrames := 0xFFFF#16 } })
      = some 0xFFFF#16 := by decide
theorem test_resetCommsStatus :
    look (fun t => (counterList t.counters).take 5)
      (exec .resetCommsStatus
        { State.reset with counters := { Counters.reset with
            dmxFrames := 12#16, rdmFrames := 7#16, rdmShortFrame := 3#16, rdmLengthMismatch := 2#16,
            rdmChecksumInvalid := 1#16 } })
      = some [12#16, 7#16, 0#16, 0#16, 0#16] := by decide
theorem test_readCounter :
    look State.hostReply
      (exec (.readCounter 0#8) { State.reset with counters := { Counters.reset with dmxFrames := 12#16 } })
      = some (.u16 12#16) := by decide
-- R163, R165, R169: the bounds
theorem test_break_43_rejected : look State.hostReply (exec (.setBreakTime 43#16) State.reset) = some (.bool false) := by
  decide
theorem test_break_800_accepted : look (fun t => t.params.breakTime) (exec (.setBreakTime 800#16) State.reset) = some 800#16 := by
  decide
theorem test_mark_3_rejected : look State.hostReply (exec (.setMarkTime 3#16) State.reset) = some (.bool false) := by
  decide
theorem test_mark_4_accepted : look State.hostReply (exec (.setMarkTime 4#16) State.reset) = some (.bool true) := by
  decide
theorem test_delay_176_rejected :
    look State.hostReply (exec (.setResponderDelay 176#32) State.reset) = some (.bool false) := by decide
theorem test_delay_20000_accepted :
    look State.hostReply (exec (.setResponderDelay 20000#32) State.reset) = some (.bool true) := by decide
-- the examples of R179, R180
theorem test_queueDmx_slots :
    look (fun t => t.txQueue.map Entry.data) (exec (.queueDmx 1#16 [0xFF#8, 0x80#8]) State.reset)
      = some [[0x00#8, 0xFF#8, 0x80#8]] := by
  simp [exec, execQueueDmx, enqueueFrame, queueHasRoom, State.reset, room, enqueue, answer, look, Config.scDmx,
    Config.txSlotsMax]
theorem test_queueAsc_slots :
    look (fun t => t.txQueue.map Entry.data) (exec (.queueAsc 2#16 0x17#8 [0x48#8, 0x69#8]) State.reset)
      = some [[0x17#8, 0x48#8, 0x69#8]] := by
  simp [exec, execQueueAsc, enqueueFrame, queueHasRoom, State.reset, room, enqueue, answer, look, Config.txSlotsMax]
theorem test_enqueue_in_responder_mode_rejected :
    look State.hostReply (exec (.queueDmx 1#16 []) { State.reset with mode := .responder }) = some (.bool false) := by
  simp [exec, execQueueDmx, enqueueFrame, queueHasRoom, State.reset, rejectOp, answer, look]
-- the example of R161
theorem test_setMode_example :
    look (fun t => (t.mode, t.ctrlState, t.completions))
      (exec (.setMode .responder true 9#16) (ctrlAt .driveBreakLow .dmx))
      = some (.responder, .idle, [⟨7#16, .dmx, .aborted, []⟩, ⟨9#16, .modeChange, .ok, []⟩]) := by
  have h : Config.completionsFit 2 = true := completionsFit_small (by omega)
  simp [exec, execSetMode, changeMode, abortAll, abortedEvents, settle, post, modeEvent, answer, look, ctrlAt,
    State.reset, setDir, flush, setLine, h]
-- the examples of R130 to R132
theorem test_pushU16 :
    look (fun t => (memRead t.fb 24, memRead t.fb 25, t.hostReply)) (exec (.pushU16 24#16 0x0201#16) (handling []))
      = some (some 0x02#8, some 0x01#8, .u16 26#16) := by decide
theorem test_pushU32 :
    look (fun t => (t.fb.map Prod.snd, t.hostReply)) (exec (.pushU32 24#16 0x7A700001#32) (handling []))
      = some ([0x7A#8, 0x70#8, 0x00#8, 0x01#8], .u16 28#16) := by decide
theorem test_pushU16_at_512_faults :
    exec (.pushU16 512#16 0#16) (handling []) = .fault (.outOfBounds 514) := rfl
theorem test_checksum16 :
    look State.hostReply (exec (.checksum16 0#16 3#16) (handling [0xCC#8, 0x01#8, 0x18#8])) = some (.u16 0x00E5#16) := by
  decide
-- V1 (R133, R134)
theorem test_appendChecksum_v1 :
    look (fun t => t.fb) (exec .appendChecksum (handling (v1.take 24))) = some (memOf 0 v1) := by decide +kernel
theorem test_validate_v1 :
    look State.hostReply (exec (.validate 26#16) (handling v1))
      = some (.validation .ok (some
          { ml := 24#8, destUid := own, srcUid := ⟨0x00#8, 0x01#8, 0x00#8, 0x00#8, 0x00#8, 0x01#8⟩, tn := 0#8,
            portId := 1#8, msgCount := 0#8, subDevice := 0#16, cc := 0x10#8, pid := 2#16, pdl := 0#8 })) := by
  decide +kernel
theorem test_validate_v1_short :
    look (fun t => (t.hostReply, t.counters.rdmShortFrame)) (exec (.validate 25#16) (handling v1))
      = some (.validation .shortFrame none, 1#16) := by decide +kernel
-- V1 to V2 (R136)
theorem test_buildReplyHeader_v2 :
    look (fun t => t.fb) (exec (.buildReplyHeader own 0#8 0#8 2#8) (handling (v1.take 24)))
      = some (memOf 0 (v2.take 24)) := by decide +kernel
-- V3, V4 (R138, R139), R140
theorem test_dubEncode_v3 : look (fun t => t.fb) (exec (.dubEncode own) (handling [])) = some (memOf 0 v3) := by
  decide +kernel
theorem test_dubRespond_v4 :
    look (fun t => (t.hostReply, t.fb.take 24)) (exec (.dubRespond own false) (handling v4))
      = some (.int (-24), memOf 0 v3) := by decide +kernel
theorem test_dubRespond_outside :
    look State.hostReply
      (exec (.dubRespond ⟨0x7A#8, 0x70#8, 0x00#8, 0x00#8, 0x00#8, 0x03#8⟩ false) (handling v4)) = some (.int 0) := by
  decide +kernel
theorem test_uidCompare :
    look State.hostReply
      (exec (.uidCompare ⟨0x7A#8, 0x70#8, 0xFF#8, 0xFF#8, 0xFF#8, 0xFF#8⟩ ⟨0x7A#8, 0x71#8, 0x00#8, 0x00#8, 0x00#8, 0x00#8⟩)
        (handling [])) = some (.int (-1)) := by decide
-- R97: the two's-complement results of R139
theorem test_replyBytes : replyBytes (.int (-24)) = [0xFF#8, 0xE8#8] ∧ replyBytes (.u32 1#32) = [0#8, 0#8, 0#8, 1#8] := by
  decide
-- R6: a host operation in another agent's packet, and an event in the host's, are discarded
theorem test_step_of_another_agent :
    (look (fun t => (t.params.breakTime, t.hostReply))
      (step { State.reset with inbox := [.packet .line [0x10#8, 0x00#8, 0x2D#8]] })
      = some (State.reset.params.breakTime, .bool false)) ∧
    look State.timer (step { due State.reset with inbox := [.packet .host [0x82#8]] })
      = some { armed := true, compareAt := 10 } := by decide
-- R391, R374, R302: the front end and the foreground issue no codec operation of their own
theorem test_codec_packet_of_the_line :
    look (fun t => (t.fb, t.hostReply)) (step { State.reset with inbox := [.packet .line [0x40#8, 0#8, 0#8, 0#8, 0#8]] })
      = some ([], .bool false) := by decide
-- R337, R362: the responder's SET COMMS_STATUS
theorem test_collaborator_resets_comms_status :
    look (fun t => t.counters.rdmShortFrame)
      (step { handling [] with
        inbox := [.packet .collaborator [0x29#8]], counters := { Counters.reset with rdmShortFrame := 3#16 } })
      = some 0#16 := by decide
-- a codec operation and an internal operation, placed after reset
theorem test_withFetchWord_codec : look State.hostReply (step (State.reset.withFetchWord 40 0x40)) = some (.u16 2#16) := by
  decide
theorem test_withFetchWord_inner :
    look (fun t => t.counters.uartOverrunErrors) (step (State.reset.withFetchWord 16 0x072A)) = some 1#16 := by decide
-- R211: an event of another instant changes nothing
theorem test_fall_of_another_instant :
    look State.respState (exec (.fall 1#64) (respAt .idle)) = some .idle := by decide
-- R321 to R333: the responder collaborator on V1 (scenario 1), V6 (scenario 4), V7 (scenario 5)
theorem test_contract_mute :
    dispatched (fun _ r s => .ok (.noResponse, r, s)) v1Device (handling v1)
      = some (28, true, memOf 0 v2) := by decide +kernel
theorem test_contract_unmute_broadcast :
    dispatched (fun _ r s => .ok (.noResponse, r, s)) { v1Device with root := { rootResponder with isMuted := true } }
      (handling (requestTo ⟨0xFF#8, 0xFF#8, 0xFF#8, 0xFF#8, 0xFF#8, 0xFF#8⟩ 0x10#8 0#16 3#16 0#8))
      = some (0, false, memOf 0 (requestTo ⟨0xFF#8, 0xFF#8, 0xFF#8, 0xFF#8, 0xFF#8, 0xFF#8⟩ 0x10#8 0#16 3#16 0#8)) := by
  decide +kernel
-- N18: a DISC_MUTE with a PDL acts all the same (log entry 25)
theorem test_contract_mute_with_pdl :
    dispatchRules rootResponder (headerTo own 0x10#8 0#16 2#16 3#8) = .mute true := by decide
theorem test_contract_subdevice_root_only :
    dispatchRules rootResponder (headerTo own 0x20#8 1#16 0x00F0#16 0#8) = .drop := by decide
theorem test_contract_nack_out_of_range :
    dispatched (fun _ r s => .ok (.nack .dataOutOfRange, r, s)) v1Device (handling v7) = some (28, false, memOf 0 v8) := by
  decide +kernel
-- R321, R324 rules 2 and 4: classes and addresses before the lookup
theorem test_contract_drops :
    dispatchRules rootResponder (headerTo own 0x21#8 0#16 0x7777#16 0#8) = .drop ∧
    dispatchRules rootResponder (headerTo ⟨0x7A#8, 0x70#8, 0#8, 0#8, 0#8, 2#8⟩ 0x20#8 0#16 0x7777#16 0#8) = .drop ∧
    dispatchRules rootResponder (headerTo ⟨0x7A#8, 0x70#8, 0xFF#8, 0xFF#8, 0xFF#8, 0xFF#8⟩ 0x20#8 0#16 0x7777#16 0#8)
      = .drop ∧
    dispatchRules rootResponder (headerTo own 0x20#8 0#16 0x7777#16 0#8) = .nack .unknownPid := by decide
-- R241, R282: a break of exactly the minimum and one TU less
theorem test_controller_accepts_880 :
    look State.ctrlState
      (exec (.rise 1880#64) { ctrlAt .awaitResponse .rdmRequest with
        time := 1880, rx := { count := 0, phase := .inBreak, dubActive := false }, timing := { Timing.reset with tFall := 1000 } })
      = some .rxSlots := by decide +kernel
theorem test_responder_rejects_879 :
    look (fun t => (t.respState, t.counters.rdmShortFrame))
      (exec (.rise 1879#64) { respAt .measureBreak with time := 1879, timing := { Timing.reset with tFall := 1000 } })
      = some (.idle, 1#16) := by decide +kernel
-- R290: V1 is dispatched
theorem test_tasks_dispatches_v1 :
    look (fun t => (t.respState, t.fbOwner, t.counters.rdmFrames))
      (exec .tasks { received v1 (respAt .complete) with frameReady := true })
      = some (.dispatch, .responder, 1#16) := by decide +kernel
-- R293: -24 schedules a raw reply, 0 sends nothing
theorem test_handlerReturn_raw :
    look (fun t => (t.respState, t.reply)) (exec (.handlerReturn 0xFFE8#16) (handling v3))
      = some (.waitDelay, { len := 24, raw := true }) := by decide +kernel
theorem test_handlerReturn_zero :
    look (fun t => (t.respState, t.fbOwner)) (exec (.handlerReturn 0#16) (handling v1))
      = some (.idle, .transceiver) := by decide +kernel

/-! ### Witnesses: for each statement with hypotheses, states and operands that meet them, at the ends of the ranges -/

/-- A state whose inbox holds one stimulus. -/
def inboxOf (x : Stimulus) : State := { State.reset with inbox := [x] }

theorem witness_StepRunsDecodedInstruction :
    ((inboxOf (.packet .host [0x20#8])).inbox = [.packet .host [0x20#8]] ∧ decode [0x20#8] = .ok .now ∧
      mayIssue .host (stepKind .now) = true) ∧
    ((inboxOf (.packet .uart [0x20#8])).inbox = [.packet .uart [0x20#8]] ∧ mayIssue .uart (stepKind .now) = false) ∧
    ((inboxOf (.inner .line [0x2A#8, 0x07#8])).inbox = [.inner .line [0x2A#8, 0x07#8]] ∧
      decode [0x2A#8, 0x07#8] = .ok (.incrementCounter 7#8) ∧ mayCall .line (stepKind (.incrementCounter 7#8)) = true) ∧
    ((inboxOf (.inner .line [0x20#8])).inbox = [.inner .line [0x20#8]] ∧ mayCall .line (stepKind .now) = false) := by
  decide

theorem witness_UndecodablePacketsAreDiscarded :
    (inboxOf (.packet .host [0x08#8])).inbox = [.packet .host [0x08#8]] ∧
    decode [0x08#8] = .error (.unknownOpcode 0x08#8) ∧ (0x08#8 : Byte).toNat ∉ [0x01, 0x07, 0x10, 0x1B] := by decide

/-- The UART transmitter with a stimulus to take. -/
def uartOf (u : UartTx) (t : Nat) : State := { inboxOf .uartShift with uart := u, time := t }

theorem witness_TimeAndTransmitterSteps :
    State.reset.inbox = [] ∧
    (let s := inboxOf (.elapse 100000); s.inbox = [.elapse 100000] ∧ s.time + 100000 ≤ s.tick.due) ∧
    (let s := inboxOf (.elapse 100001)
     s.inbox = [.elapse 100001] ∧ s.tick.due < s.time + 100001 ∧ s.time < s.tick.due) ∧
    (let s := { inboxOf (.elapse 1) with time := 100000 }
     s.inbox = [.elapse 1] ∧ s.tick.due < s.time + 1 ∧ s.tick.due ≤ s.time) ∧
    (let s := uartOf { fifo := [], busy := true, shiftByte := 0#8, shiftEnd := 440 } 440
     s.inbox = [.uartShift] ∧ s.uart.busy = true ∧ s.uart.shiftEnd ≤ s.time) ∧
    (let s := uartOf { fifo := [], busy := true, shiftByte := 0#8, shiftEnd := 440 } 439
     s.inbox = [.uartShift] ∧ s.uart.busy = true ∧ s.time < s.uart.shiftEnd) ∧
    (let s := uartOf { fifo := [], busy := false, shiftByte := 0#8, shiftEnd := 0 } 0
     s.inbox = [.uartShift] ∧ s.uart.busy = false ∧ s.uart.fifo = []) ∧
    (let s := uartOf { fifo := [1#8], busy := false, shiftByte := 0#8, shiftEnd := 0 } 0
     s.inbox = [.uartShift] ∧ s.uart.busy = false ∧ s.uart.fifo = [1#8]) := by decide

theorem witness_DecodeOfEncode :
    (Instr.queueDmx 1#16 (List.replicate 512 0#8)).WellFormed ∧ (Instr.readCounter 7#8).WellFormed ∧
    (Instr.buildReplyHeader own 3#8 0#8 231#8).WellFormed := by decide +kernel

theorem witness_EncodeOfDecode : decode [0x28#8, 0x07#8] = .ok (.readCounter 7#8) := by decide

theorem witness_HostCannotForgeInternalSteps :
    State.reset.agent = .host ∧ (Instr.incrementCounter 0#8).opcode = 0x2A#8 ∧
    (Instr.handlerReturn 0#16).opcode = 0x50#8 ∧ (0x80 ≤ Instr.tasks.opcode.toNat ∧ Instr.tasks.opcode.toNat ≤ 0x88) ∧
    (0x80 ≤ Instr.txShiftEmpty.opcode.toNat ∧ Instr.txShiftEmpty.opcode.toNat ≤ 0x88) := by decide

theorem witness_CoarseTimerOperations :
    (({ State.reset with agent := .coarseTick } : State).agent ≠ .host ∧ State.reset.tick.settled = false) ∧
    (let s := { State.reset with agent := .coarseTick, time := 7, tick := { settled := true, due := 7 } }
     s.agent ≠ .host ∧ s.tick.settled = true ∧ s.tick.due ≤ s.time) ∧
    (let s := { State.reset with agent := .coarseTick, time := 6, tick := { settled := true, due := 7 } }
     s.agent ≠ .host ∧ s.tick.settled = true ∧ s.time < s.tick.due) := by decide

/-- One tick from power-on. -/
theorem one_tick : TickRun State.reset 1
    { State.reset with agent := .coarseTick, coarseTicks := 1#32, tick := { settled := true, due := 100000 } } :=
  .tick 0 { State.reset with inbox := [.packet .coarseTick [0x81#8]] } _ (.place 0 _ [.packet .coarseTick [0x81#8]] .start)
    rfl (by decide)

theorem witness_TickArithmeticLaw :
    (∃ t, TickRun State.reset 1 t ∧ 1 < 2 ^ 32) ∧ (∃ t, TickRun State.reset 0 t) ∧ TickInv State.reset ∧
    ∃ t, TickRun State.reset 1 t ∧
      exec (.hasElapsed State.reset.coarseTicks 0#32) t = .next { t with hostReply := .bool true } :=
  ⟨⟨_, one_tick, by decide⟩, ⟨_, .start⟩, ⟨by decide, by decide⟩, _, one_tick, rfl⟩

theorem witness_CountersAreReadAndCleared :
    (counterList State.reset.counters)[(0#8 : Byte).toNat]? = some 0#16 ∧
    (counterList State.reset.counters)[(7#8 : Byte).toNat]? = some 0#16 ∧ 7 < (8#8 : Byte).toNat := by decide

theorem witness_IncrementSaturates :
    ({ State.reset with agent := .foreground } : State).agent ≠ .host ∧ (4#8 : Byte).toNat ≤ 4 ∧
    ((respAt .idle).agent ≠ .host ∧ (7#8 : Byte).toNat ≤ 7 ∧ (respAt .idle).agent = .line) ∧
    7 < (8#8 : Byte).toNat ∧
    (4 < (5#8 : Byte).toNat ∧ ({ State.reset with agent := .foreground } : State).agent ≠ .line) := by decide

theorem witness_CountersNeverFall :
    (exec (.incrementCounter 1#8) (respAt .idle) = .next (inc .rdmFrames (respAt .idle)) ∧
      (counterList (respAt .idle).counters)[1]? = some 0#16 ∧
      (counterList (inc .rdmFrames (respAt .idle)).counters)[1]? = some 1#16) ∧
    ∃ t, exec .resetCommsStatus State.reset = .next t ∧ (counterList State.reset.counters)[5]? = some 0#16 ∧
      (counterList t.counters)[5]? = some 0#16 := ⟨⟨rfl, rfl, rfl⟩, _, rfl, rfl, rfl⟩

theorem witness_EnqueueAdmitsOrRejects :
    (State.reset.mode = .controller ∧ State.reset.txQueue.length < Config.txQueueDepth ∧
      (List.replicate 512 (0#8 : Byte)).length ≤ 512) ∧
    ¬ ((respAt .idle).mode = .controller) ∧ ¬ ((List.replicate 513 (0#8 : Byte)).length ≤ 512) ∧
    ¬ (({ State.reset with txQueue := List.replicate Config.txQueueDepth ⟨0#16, .dmx, []⟩ } : State).txQueue.length
        < Config.txQueueDepth) :=
  ⟨⟨rfl, room, by decide +kernel⟩, by decide, by decide +kernel, by simp⟩

theorem witness_ResetAbortsEverything :
    (State.reset.curOp.valid = false ∧ State.reset.txQueue = []) ∧ (ctrlAt .driveBreakLow .dmx).curOp.valid = true ∧
    Config.completionsFit ((ctrlAt .driveBreakLow .dmx).completions ++ [(⟨7#16, .dmx, .aborted, []⟩ : Completion)]).length = true :=
  ⟨⟨rfl, rfl⟩, rfl, fits_one⟩

theorem witness_SetModeAbortsOnARealChange :
    (Mode.controller = State.reset.mode ∧ Config.completionsFit (State.reset.completions.length + 1) = true) ∧
    Mode.responder ≠ State.reset.mode ∧
    ∃ r, exec .reset State.reset = .next r ∧ Config.completionsFit (r.completions.length + 1) = true :=
  ⟨⟨rfl, fits_one⟩, by decide, _, rfl, fits_one⟩

/-- The collaborator owns `fb`. -/
theorem handling_owns (f : List Byte) : OwnsFb (handling f) := ⟨rfl, rfl⟩

theorem witness_PushHelpersWriteBigEndian :
    OwnsFb (handling []) ∧ (511#16 : U16).toNat + 2 ≤ 513 ∧ (509#16 : U16).toNat + 4 ≤ 513 ∧
    513 < (512#16 : U16).toNat + 2 ∧ 513 < (510#16 : U16).toNat + 4 := ⟨handling_owns _, by decide⟩

/-- Three bytes at the end of `fb`. -/
def atEnd : State := { handling [] with fb := memOf 510 [1#8, 2#8, 3#8] }

theorem witness_ChecksumIsTheByteSum :
    OwnsFb atEnd ∧ FbHolds atEnd (510#16 : U16).toNat [1#8, 2#8, 3#8] ∧ [1#8, 2#8, (3#8 : Byte)].length = (3#16 : U16).toNat ∧
    (510#16 : U16).toNat + (3#16 : U16).toNat ≤ 513 ∧ FbHolds atEnd (513#16 : U16).toNat [] ∧
    513 < (511#16 : U16).toNat + (3#16 : U16).toNat :=
  ⟨⟨rfl, rfl⟩, holds (by decide), by decide, by decide, holds (by decide), by decide⟩

theorem witness_AppendChecksumWritesTheSum :
    (OwnsFb (handling (v1.take 24)) ∧ memRead (handling (v1.take 24)).fb 2 = some 24#8 ∧
      FbHolds (handling (v1.take 24)) 0 (v1.take 24) ∧ (v1.take 24).length = (24#8 : Byte).toNat) ∧
    (let f := List.replicate 255 (255#8 : Byte)
     memRead (handling f).fb 2 = some 255#8 ∧ FbHolds (handling f) 0 f ∧ f.length = (255#8 : Byte).toNat) ∧
    memRead (handling [0#8, 0#8, 0#8]).fb 2 = some 0#8 ∧ FbHolds (handling [0#8, 0#8, 0#8]) 0 [] :=
  ⟨⟨handling_owns _, by decide, holds (by decide +kernel), by decide⟩,
    ⟨by decide, holds_memOf rfl, by decide +kernel⟩, by decide, holds (by decide)⟩

/-- V1 with one byte replaced. -/
def v1With (k : Nat) (b : Byte) : List Byte := v1.set k b

theorem witness_ValidateOutcomes :
    (OwnsFb (handling v1) ∧ FbHolds (handling v1) 0 (v1.take 25) ∧ (v1.take 25).length = (25#16 : U16).toNat ∧
      (25#16 : U16).toNat < 26) ∧
    (FbHolds (handling (v1With 0 0#8)) 0 (v1With 0 0#8) ∧ (v1With 0 0#8).length = (26#16 : U16).toNat ∧
      (v1With 0 0#8).getD 0 0#8 ≠ 0xCC#8) ∧
    (FbHolds (handling (v1With 1 2#8)) 0 (v1With 1 2#8) ∧ (v1With 1 2#8).getD 1 0#8 ≠ 0x01#8) ∧
    (FbHolds (handling (v1With 2 23#8)) 0 (v1With 2 23#8) ∧ ((v1With 2 23#8).getD 2 0#8).toNat < 24) ∧
    (FbHolds (handling (v1With 2 25#8)) 0 (v1With 2 25#8) ∧ 26 - 2 < ((v1With 2 25#8).getD 2 0#8).toNat) ∧
    (FbHolds (handling (v1With 25 0#8)) 0 (v1With 25 0#8) ∧ (v1With 25 0#8).getD 0 0#8 = 0xCC#8 ∧
      (v1With 25 0#8).getD 1 0#8 = 0x01#8 ∧ ((v1With 25 0#8).getD 2 0#8).toNat = 24 ∧
      ((v1With 25 0#8).getD 24 0#8).toNat * 256 + ((v1With 25 0#8).getD 25 0#8).toNat
        ≠ byteSum ((v1With 25 0#8).take 24) % 65536) ∧
    (FbHolds (handling v1) 0 v1 ∧ v1.length = (26#16 : U16).toNat ∧ v1.getD 0 0#8 = 0xCC#8 ∧ v1.getD 1 0#8 = 0x01#8 ∧
      (v1.getD 2 0#8).toNat = 24 ∧
      (v1.getD 24 0#8).toNat * 256 + (v1.getD 25 0#8).toNat = byteSum (v1.take 24) % 65536) :=
  ⟨⟨handling_owns _, holds (by decide +kernel), by decide, by decide⟩,
    ⟨holds (by decide +kernel), by decide, by decide⟩, ⟨holds (by decide +kernel), by decide⟩,
    ⟨holds (by decide +kernel), by decide⟩, ⟨holds (by decide +kernel), by decide⟩,
    ⟨holds (by decide +kernel), by decide, by decide, by decide, by decide⟩,
    ⟨holds (by decide +kernel), by decide, by decide, by decide, by decide, by decide⟩⟩

/-- The header of V1 with a message length, a class and a parameter data length. -/
def h1 (ml cc pdl : Byte) : Header :=
  { ml := ml, destUid := own, srcUid := own, tn := 0#8, portId := 1#8, msgCount := 0#8, subDevice := 0#16, cc := cc,
    pid := 2#16, pdl := pdl }

theorem witness_SerializedFrameValidates :
    (OwnsFb (handling (headerBytes (h1 24#8 0x10#8 0#8))) ∧
      FbHolds (handling (headerBytes (h1 24#8 0x10#8 0#8))) 0 (headerBytes (h1 24#8 0x10#8 0#8) ++ []) ∧
      (h1 24#8 0x10#8 0#8).ml.toNat = 24 + ([] : List Byte).length ∧
      (26#16 : U16).toNat = 26 + ([] : List Byte).length) ∧
    (let f := headerBytes (h1 255#8 0x10#8 231#8) ++ List.replicate 231 0#8
     FbHolds (handling f) 0 f ∧ (h1 255#8 0x10#8 231#8).ml.toNat = 24 + (List.replicate 231 (0#8 : Byte)).length ∧
      (257#16 : U16).toNat = 26 + (List.replicate 231 (0#8 : Byte)).length) :=
  ⟨⟨handling_owns _, holds (by decide +kernel), by decide, by decide⟩,
    holds_memOf rfl, by decide +kernel, by decide +kernel⟩

/-- A request of a class, as it stands in `fb`. -/
def request (cc : Byte) : List Byte := 0xCC#8 :: 0x01#8 :: (headerBytes (h1 24#8 cc 0#8)).drop 2

theorem witness_ReplyHeaderAnswersTheRequest :
    OwnsFb (handling (request 0x10#8)) ∧ (3#8 : Byte).toNat ≤ 3 ∧ (231#8 : Byte).toNat ≤ 231 ∧
    FbHolds (handling (request 0x10#8)) 0 (request 0x10#8) ∧ FbHolds (handling (request 0x20#8)) 0 (request 0x20#8) ∧
    FbHolds (handling (request 0x30#8)) 0 (request 0x30#8) ∧
    ((h1 24#8 0x30#8 0#8).cc, 0x31#8) ∈ [((0x10#8 : Byte), (0x11#8 : Byte)), (0x20#8, 0x21#8), (0x30#8, 0x31#8)] :=
  ⟨handling_owns _, by decide, by decide, holds (by decide +kernel), holds (by decide +kernel),
    holds (by decide +kernel), by decide⟩

theorem witness_DubEncodeWritesTheResponse : OwnsFb (handling []) ∧ 0x05FA + 235 = 0x05FA + byteSum own.bytes :=
  ⟨handling_owns _, by decide⟩

theorem witness_DubDecodingLaw :
    OwnsFb (handling []) ∧ ∃ t, exec (.dubEncode own) (handling []) = .next t ∧ v3.length = 24 ∧ FbHolds t 0 v3 :=
  ⟨handling_owns _, _, rfl, rfl, holds (by decide +kernel)⟩

theorem witness_DubRespondAnswersInRange :
    OwnsFb (handling v4) ∧ memRead (handling v1).fb 23 = some 0#8 ∧ memRead (handling v4).fb 23 = some 12#8 ∧
    (let lower : Uid := ⟨0x7A#8, 0x70#8, 0x00#8, 0x00#8, 0x00#8, 0x00#8⟩
     let upper : Uid := ⟨0x7A#8, 0x70#8, 0x00#8, 0x00#8, 0x00#8, 0x02#8⟩
     FbHolds (handling v4) 24 (lower.bytes ++ upper.bytes) ∧
      (uidValue lower ≤ uidValue lower ∧ uidValue lower ≤ uidValue upper) ∧
      (uidValue lower ≤ uidValue upper ∧ uidValue upper ≤ uidValue upper) ∧
      ¬ (uidValue lower ≤ uidValue ⟨0x7A#8, 0x70#8, 0x00#8, 0x00#8, 0x00#8, 0x03#8⟩ ∧
        uidValue ⟨0x7A#8, 0x70#8, 0x00#8, 0x00#8, 0x00#8, 0x03#8⟩ ≤ uidValue upper) ∧
      ¬ (uidValue lower ≤ uidValue ⟨0x7A#8, 0x6F#8, 0xFF#8, 0xFF#8, 0xFF#8, 0xFF#8⟩)) :=
  ⟨handling_owns _, by decide, by decide, holds (by decide +kernel), by decide⟩

theorem witness_UidCompareIsNumeric : OwnsFb (handling []) := handling_owns _

theorem witness_CodecContract :
    (isCodecOp .appendChecksum = true ∧ isCodecOp (.pushU16 0#16 0#16) = true ∧ isCodecOp (.uidCompare own own) = true ∧
      State.reset.agent = .host) ∧
    (({ State.reset with agent := .collaborator } : State).agent ≠ .host ∧
      ¬ OwnsFb { State.reset with agent := .collaborator }) ∧
    OwnsFb (handling (request 0x11#8)) ∧ 3 < (4#8 : Byte).toNat ∧ 231 < (232#8 : Byte).toNat ∧
    FbHolds (handling (request 0x11#8)) 0 (request 0x11#8) ∧
    (h1 24#8 0x11#8 0#8).cc ∉ [(0x10#8 : Byte), 0x20#8, 0x30#8] :=
  ⟨by decide, by simp [OwnsFb, State.reset], handling_owns _, by decide, by decide, holds (by decide +kernel), by decide⟩

theorem witness_EventsNotEnabledDoNothing :
    ((ctrlAt .idle .dmx).agent ≠ .host ∧ (ctrlAt .idle .dmx).timer.armed = false) ∧
    (let s := { due (ctrlAt .idle .dmx) with time := 9 }; s.time < s.timer.compareAt) ∧
    (let s := due (ctrlAt .frameToHost .dmx)
     s.timer.armed = true ∧ s.timer.compareAt ≤ s.time ∧ s.mode = .controller ∧
      s.ctrlState ∈ [.idle, .writeSlots, .waitTxDone, .frameToHost]) ∧
    (let s := due (respAt .measureMab)
     s.timer.armed = true ∧ s.timer.compareAt ≤ s.time ∧ s.mode = .responder ∧ s.respState ∈ [.idle, .measureMab]) ∧
    (1#64 : U64).toNat ≠ (ctrlAt .idle .dmx).time ∧
    (ctrlAt .idle .dmx).ctrlState ≠ .writeSlots ∧ (respAt .idle).respState ≠ .writeSlots ∧
    (let s := { ctrlAt .writeSlots .dmx with uart.fifo := List.replicate Config.uartTxFifoDepth 0#8 }
     Config.uartTxFifoDepth ≤ s.uart.fifo.length) ∧
    ({ ctrlAt .waitTxDone .dmx with uart.fifo := [0#8] } : State).uart.fifo ≠ [] ∧
    ({ ctrlAt .waitTxDone .dmx with uart.busy := true } : State).uart.busy = true :=
  ⟨by decide, by decide, by decide, by decide, by decide, by decide, by decide, by simp, by decide, rfl⟩

theorem witness_BreakEndStartsTheMark :
    (let s := due (ctrlAt .driveBreakLow .dmx)
     s.agent ≠ .host ∧ s.timer.armed = true ∧ s.timer.compareAt ≤ s.time ∧ s.mode = .controller ∧
      s.ctrlState = .driveBreakLow) ∧
    (let s := due (respAt .driveBreak)
     s.agent ≠ .host ∧ s.timer.armed = true ∧ s.timer.compareAt ≤ s.time ∧ s.mode = .responder ∧
      s.respState = .driveBreak) := by decide

/-- A responder that sends the bytes of `fb`. -/
def sending (r : RespState) (f : List Byte) : State :=
  { due (respAt r) with fb := memOf 0 f, tx := { index := 0, len := f.length }, reply := { len := f.length, raw := true } }

theorem witness_MarkEndFeedsFromSlotZero :
    (let s := due (ctrlAt .driveMarkHigh .dmx)
     s.agent ≠ .host ∧ s.timer.armed = true ∧ s.timer.compareAt ≤ s.time ∧ s.tx.len = [(0xCC#8 : Byte)].length ∧
      s.mode = .controller ∧ s.ctrlState = .driveMarkHigh ∧ s.curOp.data = [0xCC#8]) ∧
    (let s := sending .driveMark v1
     (s.agent ≠ .host ∧ s.timer.armed = true ∧ s.timer.compareAt ≤ s.time ∧ s.tx.len = v1.length ∧
      s.mode = .responder ∧ s.respState = .driveMark ∧ v1.length ≤ 513) ∧ FbHolds s 0 v1) ∧
    (let f := List.replicate 513 (0#8 : Byte)
     FbHolds (sending .driveMark f) 0 f ∧ f.length ≤ 513) :=
  ⟨by decide, ⟨by decide, holds (by decide +kernel)⟩, holds_memOf rfl, by decide +kernel⟩

theorem witness_FifoSpaceFeedsTheNextSlots :
    (let s := ctrlAt .writeSlots .dmx
     (s.agent ≠ .host ∧ s.mode = .controller ∧ s.ctrlState = .writeSlots ∧ s.tx.len = [(0xCC#8 : Byte)].length ∧
      s.curOp.data = [0xCC#8]) ∧ s.uart.fifo.length < Config.uartTxFifoDepth) ∧
    (let s := { sending .writeSlots v1 with tx := { index := 25, len := 26 } }
     (s.agent ≠ .host ∧ s.mode = .responder ∧ s.respState = .writeSlots ∧ s.tx.len = v1.length) ∧
      s.uart.fifo.length < Config.uartTxFifoDepth ∧ FbHolds s 0 v1) :=
  ⟨⟨by decide, uartTxFifoDepth_pos⟩, by decide, uartTxFifoDepth_pos, holds (by decide +kernel)⟩

/-- A controller with one queued entry. -/
def queued (cls : FrameClass) : State :=
  { State.reset with agent := .foreground, txQueue := [⟨7#16, cls, [0xCC#8]⟩] }

theorem witness_OperationStart :
    (let s := queued .dmx
     s.agent ≠ .host ∧ s.mode = .controller ∧ s.ctrlState = .idle ∧ s.curOp.valid = false ∧
      s.txQueue = [⟨7#16, .dmx, [0xCC#8]⟩] ∧ FrameClass.dmx ≠ .selfTest ∧ s.timing.backoffUntil ≤ s.time ∧
      s.timing.lastBreakValid = false) ∧
    (let s := { queued .dmx with
                  time := 13005, timing := { Timing.reset with lastBreakStart := 5, lastBreakValid := true, backoffUntil := 13005 } }
     s.timing.backoffUntil ≤ s.time ∧ s.timing.lastBreakStart + 13000 ≤ s.time) := by decide

theorem witness_EndOfTransmissionByClass :
    (let s := ctrlAt .waitTxDone .dmx
     (s.agent ≠ .host ∧ s.mode = .controller ∧ s.ctrlState = .waitTxDone ∧ s.uart.fifo = [] ∧ s.uart.busy = false ∧
      s.curOp.cls ∈ [.dmx, .asc, .rdmBroadcast]) ∧ Config.completionsFit (s.completions.length + 1) = true) ∧
    (ctrlAt .waitTxDone .asc).curOp.cls ∈ [.dmx, .asc, .rdmBroadcast] ∧
    (ctrlAt .waitTxDone .rdmBroadcast).curOp.cls ∈ [.dmx, .asc, .rdmBroadcast] ∧
    (ctrlAt .waitTxDone .rdmRequest).curOp.cls = .rdmRequest ∧ (ctrlAt .waitTxDone .rdmDub).curOp.cls = .rdmDub :=
  ⟨⟨by decide, fits_one⟩, by decide⟩

theorem witness_ReceptionTimeouts :
    (let s := due (ctrlAt .awaitResponse .rdmRequest)
     (s.agent ≠ .host ∧ s.timer.armed = true ∧ s.timer.compareAt ≤ s.time ∧ s.mode = .controller ∧
      s.ctrlState = .awaitResponse) ∧ Config.completionsFit (s.completions.length + 1) = true) ∧
    (due (ctrlAt .rxSlots .rdmRequest)).ctrlState = .rxSlots ∧ (due (ctrlAt .awaitDub .rdmDub)).ctrlState = .awaitDub ∧
    (let s := due (respAt .collectSlots)
     s.agent ≠ .host ∧ s.timer.armed = true ∧ s.timer.compareAt ≤ s.time ∧ s.mode = .responder ∧
      s.respState = .collectSlots) := ⟨⟨by decide, fits_one⟩, by decide⟩

/-- A controller that receives, in a phase. -/
def receiving (c : CtrlState) (p : RxPhase) : State :=
  { ctrlAt c .rdmRequest with time := 1880, rx := { count := 0, phase := p, dubActive := false }
                              timing := { Timing.reset with tFall := 1000, tRise := 1000 } }

theorem witness_ControllerMeasuresBreakAndMark :
    (let s := receiving .awaitResponse .waitBreak
     s.agent ≠ .host ∧ s.mode = .controller ∧ (1880#64 : U64).toNat = s.time ∧ s.ctrlState = .awaitResponse ∧
      s.rx.phase = .waitBreak) ∧
    (∀ d, d ∈ [0, 879, 880, 3520, 3521] →
      let s := { receiving .awaitResponse .inBreak with time := 1000 + d }
      s.agent ≠ .host ∧ s.mode = .controller ∧ s.ctrlState = .awaitResponse ∧ s.rx.phase = .inBreak ∧
        (BitVec.ofNat 64 (1000 + d)).toNat = s.time ∧ (BitVec.ofNat 64 (1000 + d)).toNat = s.timing.tFall + d) ∧
    (∀ d, d ∈ [0, 880, 881] →
      let s := { receiving .rxSlots .inMark with time := 1000 + d }
      s.agent ≠ .host ∧ s.mode = .controller ∧ s.ctrlState = .rxSlots ∧ s.rx.phase = .inMark ∧
        (BitVec.ofNat 64 (1000 + d)).toNat = s.time ∧ (BitVec.ofNat 64 (1000 + d)).toNat = s.timing.tRise + d) := by
  decide +kernel

theorem witness_ControllerCollectsTheResponse :
    (let s := received (v1.take 25) (receiving .rxSlots .data)
     let g := v1.take 25 ++ [0xE5#8]
     (s.agent ≠ .host ∧ s.mode = .controller ∧ (1880#64 : U64).toNat = s.time ∧ s.ctrlState = .rxSlots ∧
      s.fbOwner = .transceiver ∧ (v1.take 25).length = s.rx.count ∧ s.rx.count < 513 ∧ s.rx.phase = .data) ∧ FbHolds s 0 (v1.take 25) ∧
      true = decide (g.length = 513 ∨ (g.getD 0 0#8 = 0xCC#8 ∧ 3 ≤ g.length ∧ (g.getD 2 0#8).toNat + 2 ≤ g.length))) ∧
    (let s := received [] (receiving .rxSlots .inMark)
     let g : List Byte := [] ++ [0xCC#8]
     ([] : List Byte).length = s.rx.count ∧ s.rx.phase = .inMark ∧
      false = decide (g.length = 513 ∨ (g.getD 0 0#8 = 0xCC#8 ∧ 3 ≤ g.length ∧ (g.getD 2 0#8).toNat + 2 ≤ g.length))) ∧
    (let f := List.replicate 512 (0#8 : Byte)
     FbHolds (received f (receiving .rxSlots .data)) 0 f ∧ f.length = 512) :=
  ⟨⟨by decide, holds (by decide +kernel), by decide⟩, by decide, holds_memOf rfl, by decide +kernel⟩

theorem witness_DubWindowCaptures :
    (let s := ctrlAt .awaitDub .rdmDub
     s.agent ≠ .host ∧ s.mode = .controller ∧ (0#64 : U64).toNat = s.time ∧ s.ctrlState = .awaitDub ∧
      s.fbOwner = .transceiver ∧ s.rx.count < 513 ∧
      s.rx.dubActive = false) ∧
    (let s := { ctrlAt .awaitDub .rdmDub with rx := { count := 512, phase := .waitBreak, dubActive := true } }
     s.rx.count < 513 ∧ s.rx.count + 1 = 513 ∧ s.rx.dubActive = true) := by decide

/-- The ticks since the start of the operation, as the statements write them. -/
def ticksSinceStart (s : State) : Nat := (s.coarseTicks.toNat + 2 ^ 32 - s.timing.opStartTick.toNat) % 2 ^ 32

/-- A state whose operation started exactly OP_DEADLINE_TICKS ticks ago. -/
def atDeadline (s : State) : State :=
  { s with coarseTicks := Config.opDeadlineTicks, timing := { s.timing with opStartTick := 0#32 } }

theorem fresh_ticks {s : State} (h : s.coarseTicks = s.timing.opStartTick) :
    ticksSinceStart s ≤ Config.opDeadlineTicks.toNat := by
  have : ticksSinceStart s = 0 := by simp [ticksSinceStart, h]
  omega

theorem ticks_from_zero (n : U32) : (n.toNat + 2 ^ 32 - (0#32).toNat) % 2 ^ 32 = n.toNat := by
  have := n.isLt
  have h : (0#32).toNat = 0 := rfl
  omega

theorem atDeadline_ticks (s : State) : ticksSinceStart (atDeadline s) ≤ Config.opDeadlineTicks.toNat :=
  Nat.le_of_eq (ticks_from_zero _)

theorem witness_ReceivedFramesAreHandedUp :
    (let s := { received v1 (ctrlAt .frameToHost .rdmRequest) with frameReady := true }
     (s.agent ≠ .host ∧ s.mode = .controller ∧ s.ctrlState = .frameToHost ∧ s.frameReady = true ∧
      v1.length = s.rx.count ∧ s.rx.count ≤ 513 ∧ s.curOp.cls = .rdmRequest) ∧
      ticksSinceStart s ≤ Config.opDeadlineTicks.toNat ∧
      ticksSinceStart (atDeadline s) ≤ Config.opDeadlineTicks.toNat ∧ FbHolds s 0 v1 ∧
      Config.completionsFit (s.completions.length + 1) = true) ∧
    (let f := List.replicate 513 (0#8 : Byte)
     let s := { received f (ctrlAt .frameToHost .rdmDub) with frameReady := true }
     (f.length = s.rx.count ∧ s.rx.count ≤ 513 ∧ s.curOp.cls = .rdmDub) ∧ FbHolds s 0 f) :=
  ⟨⟨by decide, fresh_ticks rfl, atDeadline_ticks _, holds (by decide +kernel), fits_one⟩, by decide +kernel,
    holds_memOf rfl⟩

theorem witness_WhereTheLineIsIgnored :
    (let s := ctrlAt .waitTxDone .dmx
     s.agent ≠ .host ∧ s.mode = .controller ∧
      s.ctrlState ∈ [.driveBreakLow, .driveMarkHigh, .writeSlots, .waitTxDone, .idle, .frameToHost]) ∧
    (let s := respAt .waitDelay
     s.agent ≠ .host ∧ s.mode = .responder ∧ s.respState ∈ [.complete, .dispatch, .waitDelay]) := by decide

theorem witness_SelfTestPostsADrawnResult :
    (let s := { queued .selfTest with timing := { Timing.reset with backoffUntil := 99 } }
     (s.agent ≠ .host ∧ s.mode = .controller ∧ s.ctrlState = .idle ∧ s.curOp.valid = false ∧
      s.txQueue = [⟨7#16, .selfTest, [0xCC#8]⟩]) ∧ Config.completionsFit (s.completions.length + 1) = true) :=
  ⟨by decide, fits_one⟩

theorem witness_UartErrorsEndTheReception :
    (let s := receiving .awaitResponse .inBreak
     (s.agent ≠ .host ∧ (1880#64 : U64).toNat = s.time ∧ s.mode = .controller ∧
      s.ctrlState ∈ [.awaitResponse, .rxSlots, .awaitDub]) ∧
      Config.completionsFit (s.completions.length + 1) = true) ∧
    (UartErr.framing, 5) ∈ [(UartErr.framing, 5), (.parity, 6), (.overrun, 7)] ∧
    (UartErr.overrun, 7) ∈ [(UartErr.framing, 5), (.parity, 6), (.overrun, 7)] ∧
    (ctrlAt .awaitDub .rdmDub).ctrlState ∈ [.awaitResponse, .rxSlots, .awaitDub] ∧
    (let s := respAt .collectSlots
     s.agent ≠ .host ∧ (0#64 : U64).toNat = s.time ∧ s.mode = .responder ∧ s.respState = .collectSlots) ∧
    (respAt .measureMab).respState = .measureMab := ⟨⟨by decide, fits_one⟩, by decide⟩

theorem witness_DeadlineAbortsTheOperation :
    (let s := { ctrlAt .writeSlots .dmx with coarseTicks := 51#32 }
     (s.agent ≠ .host ∧ s.mode = .controller ∧ s.curOp.valid = true) ∧ (50#32 : U32).toNat < ticksSinceStart s ∧
      Config.completionsFit (s.completions.length + 1) = true) ∧
    (0xFFFFFFFE#32 : U32).toNat < ticksSinceStart { ctrlAt .writeSlots .dmx with coarseTicks := 0xFFFFFFFF#32 } :=
  ⟨⟨by decide, by decide, fits_one⟩, by decide⟩

/-- R3, R262: the deadline covers the longest operation under the power-on timeouts (log entry 5). -/
theorem reset_deadlineCovers : DeadlineCovers State.reset.params :=
  opDeadlineTicks_min

theorem witness_TasksDeliversLast :
    (let s := { ctrlAt .awaitResponse .rdmRequest with completions := [modeEvent 1#16] }
     (s.agent ≠ .host ∧ s.frameReady = false ∧ s.ctrlState ≠ .idle ∧ s.completions = [modeEvent 1#16]) ∧
      ticksSinceStart s ≤ Config.opDeadlineTicks.toNat ∧
      ticksSinceStart (atDeadline s) ≤ Config.opDeadlineTicks.toNat) ∧
    (let s := { queued .dmx with timing := { Timing.reset with backoffUntil := 1 } }
     (s.txQueue = [⟨7#16, .dmx, [0xCC#8]⟩] ∧ FrameClass.dmx ≠ .selfTest ∧ s.time < s.timing.backoffUntil ∧
      s.completions = [] ∧ s.curOp.valid = false)) ∧
    (let s := { queued .dmx with time := 12999, timing := { Timing.reset with lastBreakValid := true } }
     s.timing.lastBreakValid = true ∧ s.time < s.timing.lastBreakStart + 13000) ∧
    State.reset.txQueue = [] ∧ (respAt .idle).mode = .responder :=
  ⟨⟨by decide, fresh_ticks rfl, atDeadline_ticks _⟩, by decide⟩

/-- A responder that measures at an instant, with a falling edge behind it. -/
def measuring (r : RespState) (t : Nat := 1879) : State :=
  { respAt r with time := t, timing := { Timing.reset with tFall := 1000, tRise := 500, lastFall := 1000 } }

theorem witness_ResponderMeasuresTheBreak :
    ((respAt .idle).agent ≠ .host ∧ (respAt .idle).mode = .responder ∧ (respAt .idle).respState = .idle ∧
      (0#64 : U64).toNat = (respAt .idle).time) ∧
    (UartErr.framing, 5) ∈ [(UartErr.framing, 5), (.parity, 6), (.overrun, 7)] ∧
    (∀ d, d ∈ [0, 879, 880, 10000000, 10000001] →
      let s := measuring .measureBreak (1000 + d)
      s.agent ≠ .host ∧ s.mode = .responder ∧ s.respState = .measureBreak ∧
        (BitVec.ofNat 64 (1000 + d)).toNat = s.time ∧ (BitVec.ofNat 64 (1000 + d)).toNat = s.timing.tFall + d) := by
  decide +kernel

theorem witness_ResponderTakesTheStartCode :
    (let s := measuring .measureMab
     s.agent ≠ .host ∧ s.mode = .responder ∧ s.respState = .measureMab ∧ s.fbOwner = .transceiver ∧ s.rx.count = 0 ∧
      (1879#64 : U64).toNat = s.time ∧ (1879#64 : U64).toNat = s.timing.tRise + 1379 ∧
      (1879#64 : U64).toNat = s.timing.lastFall + 879) := by decide

theorem witness_ResponderCollectsTheFrame :
    (let s := received (v1.take 25) (measuring .collectSlots)
     let g := v1.take 25 ++ [0xE5#8]
     (s.agent ≠ .host ∧ s.mode = .responder ∧ s.respState = .collectSlots ∧ s.fbOwner = .transceiver ∧
      (v1.take 25).length = s.rx.count ∧ 0 < s.rx.count ∧ s.rx.count < 513 ∧ (1879#64 : U64).toNat = s.time ∧
      (1879#64 : U64).toNat = s.timing.lastFall + 879) ∧ FbHolds s 0 (v1.take 25) ∧
      true = decide (g.length = 513 ∨ (g.getD 0 0#8 = 0xCC#8 ∧ 3 ≤ g.length ∧ (g.getD 2 0#8).toNat + 2 ≤ g.length))) ∧
    (let g : List Byte := [0x00#8] ++ [0xFF#8]
     FbHolds (received [0x00#8] (measuring .collectSlots)) 0 [0x00#8] ∧
      false = decide (g.length = 513 ∨ (g.getD 0 0#8 = 0xCC#8 ∧ 3 ≤ g.length ∧ (g.getD 2 0#8).toNat + 2 ≤ g.length))) ∧
    (let f := List.replicate 512 (0#8 : Byte)
     FbHolds (received f (measuring .collectSlots)) 0 f ∧ f.length = 512) :=
  ⟨⟨by decide, holds (by decide +kernel), by decide⟩, ⟨holds (by decide), by decide⟩, holds_memOf rfl,
    by decide +kernel⟩

theorem witness_BreakInsideAFrame :
    (∀ d, d ∈ [880, 10000000, 10000001] →
      let s := received [0x00#8] (measuring .collectSlots (1000 + d))
      s.agent ≠ .host ∧ s.mode = .responder ∧ s.respState = .collectSlots ∧
        (BitVec.ofNat 64 (1000 + d)).toNat = s.timing.lastFall + d ∧ (BitVec.ofNat 64 (1000 + d)).toNat = s.time ∧
        [(0x00#8 : Byte)].length = s.rx.count ∧ [(0x00#8 : Byte)] ≠ [] ∧ [(0x00#8 : Byte)].getD 0 0#8 = 0x00#8) ∧
    FbHolds (received [0x00#8] (measuring .collectSlots)) 0 [0x00#8] ∧
    (let s := received [] (measuring .measureMab)
     s.respState = .measureMab ∧ ([] : List Byte).length = s.rx.count) ∧
    ([(0x17#8 : Byte)].getD 0 0#8 ≠ 0x00#8 ∧ [(0x17#8 : Byte)].getD 0 0#8 ≠ 0xCC#8 ∧
      FbHolds (received [0x17#8] (measuring .collectSlots)) 0 [0x17#8]) ∧
    (let s := received [0xCC#8] (measuring .collectSlots)
     FbHolds s 0 [0xCC#8] ∧ [(0xCC#8 : Byte)].getD 0 0#8 = 0xCC#8 ∧
      ∃ c r, validateFrame s.rx.count s = .ok (r, c)) :=
  ⟨by decide +kernel, holds (by decide), by decide, ⟨by decide, by decide, holds (by decide)⟩, holds (by decide),
    by decide, _, _, rfl⟩

theorem witness_CompletedFrameIsConsumed :
    (let s := { received v1 (respAt .complete) with frameReady := true }
     (s.agent ≠ .host ∧ s.mode = .responder ∧ s.respState = .complete ∧ s.frameReady = true ∧
      v1.length = s.rx.count ∧ 0 < s.rx.count ∧ v1.getD 0 0#8 = 0xCC#8) ∧ FbHolds s 0 v1 ∧
      ∃ c, validateFrame s.rx.count s = .ok (.ok, c)) ∧
    (let s := received [0xCC#8] (respAt .complete)
     FbHolds s 0 [0xCC#8] ∧ ∃ r c, validateFrame s.rx.count s = .ok (r, c) ∧ r ≠ .ok) ∧
    FbHolds (received [0x00#8] (respAt .complete)) 0 [0x00#8] ∧ FbHolds (received [0x17#8] (respAt .complete)) 0 [0x17#8] :=
  ⟨⟨by decide, holds (by decide +kernel), _, rfl⟩, ⟨holds (by decide), _, _, rfl, by decide⟩, holds (by decide),
    holds (by decide)⟩

theorem witness_HandlerReturnSchedulesTheReply :
    (let s := handling v1
     s.agent ≠ .host ∧ s.mode = .responder ∧ s.respState = .dispatch ∧ s.fbOwner = .responder) ∧
    (0 < (1#16 : U16).toInt ∧ (1#16 : U16).toInt ≤ 513) ∧ (0 < (513#16 : U16).toInt ∧ (513#16 : U16).toInt ≤ 513) ∧
    (0xFFE8#16 : U16).toInt = -24 ∧ (0xFFE9#16 : U16).toInt = -23 ∧ (0#16 : U16).toInt = 0 ∧
    (0x8000#16 : U16).toInt ≤ 0 ∧ 513 < (514#16 : U16).toInt ∧ State.reset.mode = .controller ∧
    (respAt .complete).respState ≠ .dispatch ∧ (respAt .complete).fbOwner = .transceiver := by decide

theorem witness_ReplyStartAndEnd :
    (let s := { sending .waitDelay v3 with reply := { len := 24, raw := false } }
     s.agent ≠ .host ∧ s.mode = .responder ∧ s.respState = .waitDelay ∧ s.timer.armed = true ∧
      s.timer.compareAt ≤ s.time ∧ s.reply.raw = false) ∧
    (let s := sending .waitDelay v3
     (s.agent ≠ .host ∧ s.mode = .responder ∧ s.respState = .waitDelay ∧ s.timer.armed = true ∧
      s.timer.compareAt ≤ s.time ∧ s.reply.raw = true ∧ v3.length = s.reply.len ∧ v3.length ≤ 513) ∧ FbHolds s 0 v3) ∧
    (let s := respAt .waitTxDone; s.respState = .waitTxDone ∧ s.uart.fifo = [] ∧ s.uart.busy = false) ∧
    (let s := due (respAt .guard); s.respState = .guard ∧ s.timer.armed = true ∧ s.timer.compareAt ≤ s.time) :=
  ⟨by decide, ⟨by decide, holds (by decide +kernel)⟩, by decide, by decide⟩

theorem witness_EdgeDuringAReplyDiscardsIt :
    (respAt .driveBreak).agent ≠ .host ∧ (0#64 : U64).toNat = (respAt .driveBreak).time ∧ (respAt .driveBreak).mode = .responder ∧
    (respAt .driveBreak).respState ∈ [.driveBreak, .driveMark, .writeSlots, .waitTxDone, .guard] ∧
    (respAt .guard).respState ∈ [.driveBreak, .driveMark, .writeSlots, .waitTxDone, .guard] := by decide

/-! The invariant of the block in two states that are not the reset state: a controller that drives a break, and a
collaborator at work. -/

/-- A controller in DRIVE_BREAK_LOW whose break is over, with the `TimerMatch` placed. -/
def driving : State :=
  { due (ctrlAt .driveBreakLow .rdmRequest) with
    inbox := [.packet .fineTimer [0x82#8]], pins := { dir := .tx, line := .brk } }

theorem driving_blockInv : BlockInv driving where
  seq :=
    { respIdle := by decide, ctrlIdle := by decide, inFlight := by decide, dirTx := by decide, owner := by decide
      lineBreak := by decide, uartQuiet := by decide }
  buf :=
    { fbWf := by decide, rxBound := by decide, rxWritten := (fun k h => absurd h (Nat.not_lt_zero k))
      rxStarted := by decide, queueBound := Nat.zero_le _, entryBound := (fun _ h => nomatch h), opBound := by decide
      eventsFit := completionsFit_small (by decide), fifoBound := Nat.zero_le _, txLenBound := by decide
      replyBound := by decide, ctrlTxLen := by decide, respTxLen := by decide
      txIndex := by decide, guardQuiet := by decide, ready := by decide, paramsLegal := ⟨by decide, by decide, by decide⟩ }
  cls :=
    { queueClass := (fun _ h => nomatch h), opClass := by decide, responseClass := by decide, dubClass := by decide
      frameClass := by decide }
  tick := ⟨by decide, by decide⟩
  captured := ⟨by decide, by decide, by decide, by decide, by decide, by decide⟩

theorem handling_blockInv : BlockInv (handling []) where
  seq :=
    { respIdle := by decide, ctrlIdle := by decide, inFlight := by decide, dirTx := by decide, owner := by decide
      lineBreak := by decide, uartQuiet := by decide }
  buf :=
    { fbWf := by decide, rxBound := by decide, rxWritten := (fun k h => absurd h (Nat.not_lt_zero k))
      rxStarted := by decide, queueBound := Nat.zero_le _, entryBound := (fun _ h => nomatch h), opBound := by decide
      eventsFit := completionsFit_small (by decide), fifoBound := Nat.zero_le _, txLenBound := by decide
      replyBound := by decide, ctrlTxLen := by decide, respTxLen := by decide
      txIndex := by decide, guardQuiet := by decide, ready := by decide, paramsLegal := ⟨by decide, by decide, by decide⟩ }
  cls :=
    { queueClass := (fun _ h => nomatch h), opClass := by decide, responseClass := by decide, dubClass := by decide
      frameClass := by decide }
  tick := ⟨by decide, by decide⟩
  captured := ⟨by decide, by decide, by decide, by decide, by decide, by decide⟩

theorem witness_EveryStepKeepsTheInvariant : BlockInv driving ∧ ∃ t, step driving = .next t :=
  ⟨driving_blockInv, _, rfl⟩

theorem witness_ReachableStatesMeetR35 : ∃ s, Reachable s ∧ s.time = 5 :=
  ⟨{ State.reset with agent := .time, time := 5 },
    .step _ _ (.place _ [.elapse 5] rfl .reset) rfl, rfl⟩

theorem witness_NothingIsFatal :
    (BlockInv driving ∧ isCodecOp .timerMatch = false ∧ driving.mode = .controller) ∧
    (BlockInv (handling []) ∧ isCodecOp (.handlerReturn 513#16) = false ∧ (513#16 : U16).toInt ≤ 513 ∧
      (handling []).mode = .responder ∧ ReplyWritten (handling [])) :=
  ⟨⟨driving_blockInv, by decide, rfl⟩, handling_blockInv, by decide, by decide, rfl,
    fun k h => absurd h (Nat.not_lt_zero k)⟩

theorem witness_OperationsAreAnsweredOnceInOrder : BlockInv driving ∧ ∃ t, exec .timerMatch driving = .next t :=
  ⟨driving_blockInv, _, rfl⟩

theorem witness_OnlyTheirWritersWriteRegisters :
    (∃ t, exec (.setMode .responder false 0#16) State.reset = .next t ∧ t.mode ≠ State.reset.mode) ∧
    (∃ t, exec (.setBreakTime 44#16) State.reset = .next t ∧ t.params ≠ State.reset.params) ∧
    (∃ t, exec (.setCounter 1#32) State.reset = .next t ∧ t.coarseTicks ≠ State.reset.coarseTicks) ∧
    (∃ t, exec (.pushU16 0#16 0#16) (handling []) = .next t ∧ t.fb ≠ (handling []).fb) ∧
    ∃ t, exec (.byte 0#64 0#8) (ctrlAt .awaitDub .rdmDub) = .next t ∧ t.fb ≠ (ctrlAt .awaitDub .rdmDub).fb :=
  ⟨⟨_, rfl, by decide⟩, ⟨_, rfl, by decide⟩, ⟨_, rfl, by decide⟩, ⟨_, rfl, by decide⟩, _, rfl, by decide⟩

theorem witness_RepliesNeedAHandlerReturn :
    (∃ t, exec .timerMatch { sending .waitDelay v3 with reply := { len := 24, raw := false } } = .next t ∧
      respDrives RespState.waitDelay = false ∧ respDrives t.respState = true) ∧
    ∃ t, exec (.handlerReturn 1#16) (handling v1) = .next t ∧ (handling v1).respState ≠ .waitDelay ∧
      t.respState = .waitDelay := ⟨⟨_, rfl, rfl, rfl⟩, _, rfl, by decide, rfl⟩

end Sys2Proof.Tests
end

