-- ==== Sys2Proof/Proofs/Scope.lean ====
section
/-! PROOF. Statements of spec/00_scope.md: what one step of the machine does with each stimulus at the head of the inbox
(R4, R6, R95, R120, R207). -/

namespace Sys2Proof.Machine

/-! ### A step is what `fetch` found -/

theorem step_of_fetch_run {s t : State} {i : Instr} (h : fetch s = .run i t) : step s = exec i t := by
  simp only [step, h]

theorem step_of_fetch_done {s t : State} (h : fetch s = .done t) : step s = .next t := by
  simp only [step, h]

/-! ### `fetch`, stimulus by stimulus -/

theorem fetch_nil {s : State} (h : s.inbox = []) : fetch s = .done s := by
  simp only [fetch, h]

theorem fetch_packet {s : State} {agent : Agent} {bytes : List Byte} {rest : List Stimulus}
    (h : s.inbox = .packet agent bytes :: rest) :
    fetch s = fetchPacket mayIssue agent bytes { s with inbox := rest } := by
  simp only [fetch, h]

theorem fetch_inner {s : State} {agent : Agent} {bytes : List Byte} {rest : List Stimulus}
    (h : s.inbox = .inner agent bytes :: rest) :
    fetch s = fetchPacket mayCall agent bytes { s with inbox := rest } := by
  simp only [fetch, h]

theorem fetch_uartShift {s : State} {rest : List Stimulus} (h : s.inbox = .uartShift :: rest) :
    fetch s = .done (uartShift { s with inbox := rest, agent := .uart }) := by
  simp only [fetch, h]

theorem fetch_elapse {s : State} {d : Nat} {rest : List Stimulus} (h : s.inbox = .elapse d :: rest) :
    fetch s = fetchElapse d rest s := by
  simp only [fetch, h]

/-! ### Packets that decode (R95, R100) -/

section
variable {legal : Agent → StepKind → Bool} {agent : Agent} {bytes : List Byte} {i : Instr}

theorem fetchPacket_legal (hd : decode bytes = .ok i) (hl : legal agent (stepKind i) = true) (s : State) :
    fetchPacket legal agent bytes s = .run i { s with agent := agent } := by
  simp only [fetchPacket, hd, hl, if_true]

theorem fetchPacket_illegal (hd : decode bytes = .ok i) (hl : legal agent (stepKind i) = false) (s : State) :
    fetchPacket legal agent bytes s = .done (answer (.bool false) { s with agent := agent }) := by
  simp only [fetchPacket, hd, hl, Bool.false_eq_true, if_false]

/-- The step with a decodable packet at the head, for an agent's own packet and for a call within its step alike: `legal`
alone decides whether the instruction runs or is discarded. -/
theorem step_of_fetchPacket {s : State} {rest : List Stimulus} (hd : decode bytes = .ok i)
    (hf : fetch s = fetchPacket legal agent bytes { s with inbox := rest }) :
    (legal agent (stepKind i) = true → step s = exec i { s with inbox := rest, agent := agent }) ∧
    (legal agent (stepKind i) = false →
      step s = .next { s with inbox := rest, agent := agent, hostReply := .bool false }) :=
  ⟨fun hl => step_of_fetch_run (hf.trans (fetchPacket_legal hd hl _)),
    fun hl => step_of_fetch_done (hf.trans (fetchPacket_illegal hd hl _))⟩

end

/-! ### The passing of time (R4, R120) -/

section
variable {s : State} {d : Nat}

theorem fetchElapse_before (h : s.time + d ≤ s.tick.due) (rest : List Stimulus) :
    fetchElapse d rest s = .done { s with inbox := rest, agent := .time, time := s.time + d } :=
  if_pos h

theorem fetchElapse_upTo (h : s.tick.due < s.time + d) (ht : s.time < s.tick.due) (rest : List Stimulus) :
    fetchElapse d rest s = .done { s with
      inbox := .elapse (s.time + d - s.tick.due) :: rest, agent := .time, time := s.tick.due } :=
  (if_neg (Nat.not_le.mpr h)).trans (if_pos ht)

theorem fetchElapse_tick (h : s.tick.due < s.time + d) (ht : s.tick.due ≤ s.time) (rest : List Stimulus) :
    fetchElapse d rest s = .run .coarseTick { s with agent := .coarseTick } :=
  (if_neg (Nat.not_le.mpr h)).trans (if_neg (Nat.not_lt.mpr ht))

end

/-- A tick whose instant has come may occur, whether its phase is settled or still open. -/
theorem tickDue_of_due_le {s : State} (h : s.tick.due ≤ s.time) : tickDue s = true := by
  simp only [tickDue, h, decide_true, Bool.or_true]

/-- R120: a due tick of any agent but the host counts and moves the instant of the next one. -/
theorem exec_coarseTick_due {s : State} (ha : s.agent ≠ .host) (hd : tickDue s = true) :
    exec .coarseTick s = .next { s with coarseTicks := s.coarseTicks + 1#32, tick := nextTick s } := by
  change execCoarseTick s = _
  simp only [execCoarseTick, internalOnly_other ha, hd, if_true]

/-! ### One step of the transmitter (R207) -/

section
variable {s : State}

theorem uartShift_ends (hb : s.uart.busy = true) (ht : s.uart.shiftEnd ≤ s.time) :
    uartShift s = { s with uart.busy := false } :=
  (if_pos hb).trans (if_pos ht)

theorem uartShift_busy (hb : s.uart.busy = true) (ht : s.time < s.uart.shiftEnd) : uartShift s = s :=
  (if_pos hb).trans (if_neg (Nat.not_le.mpr ht))

theorem uartShift_empty (hb : s.uart.busy = false) (hf : s.uart.fifo = []) : uartShift s = s := by
  simp only [uartShift, hb, hf, Bool.false_eq_true, if_false]

theorem uartShift_starts {b : Byte} {tail : List Byte} (hb : s.uart.busy = false) (hf : s.uart.fifo = b :: tail) :
    uartShift s = { s with
      uart := { fifo := tail, busy := true, shiftByte := b, shiftEnd := s.time + Config.slotTime }
      wire := s.wire ++ [⟨s.time, .slot b⟩] } := by
  simp only [uartShift, hb, hf, Bool.false_eq_true, if_false]

end

/-! ### The steps that come of no packet -/

section
variable {s : State} {rest : List Stimulus}

theorem step_elapse_tick {d : Nat} (hi : s.inbox = .elapse d :: rest) (h : s.tick.due < s.time + d)
    (ht : s.tick.due ≤ s.time) :
    step s = .next { s with agent := .coarseTick, coarseTicks := s.coarseTicks + 1#32, tick := nextTick s } := by
  rw [step_of_fetch_run ((fetch_elapse hi).trans (fetchElapse_tick h ht rest))]
  exact exec_coarseTick_due (s := { s with agent := .coarseTick }) (by simp) (tickDue_of_due_le ht)

/-- A step of the transmitter is `uartShift` of the state with the stimulus taken. -/
theorem step_uartShift {t : State} (hi : s.inbox = .uartShift :: rest)
    (hu : uartShift { s with inbox := rest, agent := .uart } = t) : step s = .next t :=
  step_of_fetch_done (hu ▸ fetch_uartShift hi)

end

end Sys2Proof.Machine

namespace Sys2Proof.Proofs

open Sys2Proof Sys2Proof.Machine

/-- Settles O1: an agent's packet and a call within its step take the same path through `fetchPacket`, under `mayIssue` and
`mayCall`. -/
theorem stepRunsDecodedInstruction : Obligations.StepRunsDecodedInstruction := by
  intro s agent bytes rest i hd
  exact ⟨fun hi => step_of_fetchPacket hd (fetch_packet hi), fun hi => step_of_fetchPacket hd (fetch_inner hi)⟩

/-- Settles O3, stimulus by stimulus: time before, up to and at a coarse tick, then the transmitter's four cases. -/
theorem timeAndTransmitterSteps : Obligations.TimeAndTransmitterSteps := by
  intro s rest
  refine ⟨fun hi => step_of_fetch_done (fetch_nil hi), fun d hi => ⟨fun h => ?before, fun h ht => ?upTo, fun h ht => ?tick⟩,
    fun hi hb ht => ?ends, fun hi hb ht => ?busy, fun hi hb hf => ?empty, fun b tail hi hb hf => ?starts⟩
  case before => exact step_of_fetch_done ((fetch_elapse hi).trans (fetchElapse_before h rest))
  case upTo => exact step_of_fetch_done ((fetch_elapse hi).trans (fetchElapse_upTo h ht rest))
  case tick => exact step_elapse_tick hi h ht
  case ends => exact step_uartShift hi (uartShift_ends hb ht)
  case busy => exact step_uartShift hi (uartShift_busy hb ht)
  case empty => exact step_uartShift hi (uartShift_empty hb hf)
  case starts => exact step_uartShift hi (uartShift_starts hb hf)

end Sys2Proof.Proofs
end

