-- ==== Sys2Proof/Proofs/State.lean ====
section
/-! PROOF. Statements of spec/10_state.md: what power-on leaves (R34), the invariant of the block, which every step keeps
(R35, R19, R28 to R30), and which instructions write its registers. -/

namespace Sys2Proof.Safety

open Sys2Proof.Machine

/-! ### The invariant, read sequencer by sequencer

`mode` makes one sequencer live and holds the other in IDLE (R35 (a)). So `BlockInv` splits into `SharedInv`, which no
sequencer state enters, and what the live sequencer's state adds to it: `CtrlInv c` and `RespInv r`. Each clause names the
few components it reads, and an update that leaves them alone carries it over as it stands. -/

/-- R30, R221: `fb` is canonical, and every byte of the reception has been written. -/
structure ReceptionOk (fb : Memory) (count : Nat) : Prop where
  wf : fb.wf = true
  bound : count ≤ Config.frameBufSize
  written : ∀ k, k < count → (memRead fb k).isSome = true

/-- R28, R381: the TX queue. -/
structure QueueOk (q : List Entry) : Prop where
  bound : q.length ≤ Config.txQueueDepth
  entry : ∀ e ∈ q, e.data.length ≤ Config.frameBufSize
  cls : ∀ e ∈ q, e.cls ≠ .modeChange

/-- R32, R35 (f): the UART transmitter under the direction line. -/
structure UartOk (u : UartTx) (d : Dir) : Prop where
  bound : u.fifo.length ≤ Config.uartTxFifoDepth
  quiet : u.fifo ≠ [] ∨ u.busy = true → d = .tx

/-- R19, R293: the slot indices, and the length of the reply they may have to take. -/
structure SlotsOk (tx : TxSlots) (reply : Nat) : Prop where
  len : tx.len ≤ Config.frameBufSize
  index : tx.index ≤ tx.len
  reply : reply ≤ Config.frameBufSize

/-- R27, R211: the captured instants at a time. -/
structure CapturedBy (now : Nat) (t : Timing) : Prop where
  lastBreakStart : t.lastBreakStart ≤ now
  txEndTime : t.txEndTime ≤ now
  tFall : t.tFall ≤ now
  tRise : t.tRise ≤ now
  lastFall : t.lastFall ≤ now
  tLastByte : t.tLastByte ≤ now

/-- What holds in either mode and every sequencer state. -/
structure SharedInv (s : State) : Prop where
  tick : s.time ≤ s.tick.due ∧ s.tick.due ≤ s.time + 100000
  captured : CapturedBy s.time s.timing
  params : ParamsLegal s.params
  reception : ReceptionOk s.fb s.rx.count
  queue : QueueOk s.txQueue
  opBound : s.curOp.data.length ≤ Config.frameBufSize
  uart : UartOk s.uart s.pins.dir
  slots : SlotsOk s.tx s.reply.len

/-- R231, R236: the classes an operation in flight may have in a controller state. -/
def ClassAt : CtrlState → FrameClass → Prop
  | .idle, _ => True
  | .driveBreakLow, cls => cls ≠ .selfTest ∧ cls ≠ .modeChange
  | .driveMarkHigh, cls => cls ≠ .selfTest ∧ cls ≠ .modeChange
  | .writeSlots, cls => cls ≠ .selfTest ∧ cls ≠ .modeChange
  | .waitTxDone, cls => cls ≠ .selfTest ∧ cls ≠ .modeChange
  | .awaitResponse, cls => cls = .rdmRequest
  | .rxSlots, cls => cls = .rdmRequest
  | .awaitDub, cls => cls = .rdmDub
  | .frameToHost, cls => cls = .rdmRequest ∨ cls = .rdmDub

/-- The block as a controller in state `c`. -/
structure CtrlInv (c : CtrlState) (s : State) : Prop where
  mode : s.mode = .controller
  resp : s.respState = .idle
  ctrl : s.ctrlState = c
  shared : SharedInv s
  owner : s.fbOwner = .transceiver
  valid : s.curOp.valid = decide (c ≠ .idle)
  dir : s.pins.dir = if ctrlDrives c then .tx else .rx
  line : decide (s.pins.line = .brk) = decide (c = .driveBreakLow)
  ready : s.frameReady = decide (c = .frameToHost)
  txLen : ctrlHoldsSlots c = true → s.tx.len = s.curOp.data.length
  cls : ClassAt c s.curOp.cls

/-- The block as a responder in state `r`. -/
structure RespInv (r : RespState) (s : State) : Prop where
  mode : s.mode = .responder
  ctrl : s.ctrlState = .idle
  resp : s.respState = r
  shared : SharedInv s
  queue : s.txQueue = []
  valid : s.curOp.valid = false
  owner : s.fbOwner = if r = .dispatch then .responder else .transceiver
  dir : s.pins.dir = if respDrives r then .tx else .rx
  line : decide (s.pins.line = .brk) = decide (r = .driveBreak)
  ready : s.frameReady = decide (r = .complete)
  started : decide (r = .collectSlots ∨ r = .complete) = true → 0 < s.rx.count
  txLen : respHoldsSlots r = true → s.tx.len = s.reply.len
  quiet : decide (r = .guard) = true → s.uart.fifo = [] ∧ s.uart.busy = false

/-- The block as the sequencer of its mode. -/
def LiveInv (s : State) : Prop := (∃ c, CtrlInv c s) ∨ ∃ r, RespInv r s

theorem BlockInv.shared {s : State} (h : BlockInv s) : SharedInv s where
  tick := ⟨h.tick.ahead, h.tick.near⟩
  captured := { h.captured with }
  params := h.buf.paramsLegal
  reception := ⟨h.buf.fbWf, h.buf.rxBound, h.buf.rxWritten⟩
  queue := ⟨h.buf.queueBound, h.buf.entryBound, h.cls.queueClass⟩
  opBound := h.buf.opBound
  uart := ⟨h.buf.fifoBound, h.seq.uartQuiet⟩
  slots := ⟨h.buf.txLenBound, h.buf.txIndex, h.buf.replyBound⟩

theorem dir_eq_of_iff {d : Dir} {b : Bool} (h : d = .tx ↔ b = true) : d = if b then .tx else .rx := by
  cases d <;> cases b <;> simp_all

theorem BlockInv.ctrl {s : State} (h : BlockInv s) (hm : s.mode = .controller) : CtrlInv s.ctrlState s := by
  have hr : s.respState = .idle := h.seq.respIdle hm
  exact {
    mode := hm
    resp := hr
    ctrl := rfl
    shared := h.shared
    owner := by
      have := h.seq.owner
      cases ho : s.fbOwner <;> simp_all
    valid := by
      have := h.seq.inFlight
      cases hv : s.curOp.valid <;> simp_all
    dir := dir_eq_of_iff (by simpa [hr, respDrives] using h.seq.dirTx)
    line := by simpa [hr] using h.seq.lineBreak
    ready := by
      have := h.buf.ready
      cases hf : s.frameReady <;> simp_all
    txLen := h.buf.ctrlTxLen
    cls := by
      have hin := h.seq.inFlight
      obtain ⟨_, hop, hres, hdub, hframe⟩ := h.cls
      cases hc : s.ctrlState <;> simp_all [ClassAt] }

theorem BlockInv.resp {s : State} (h : BlockInv s) (hm : s.mode = .responder) : RespInv s.respState s := by
  obtain ⟨hc, hq, hv⟩ := h.seq.ctrlIdle hm
  exact {
    mode := hm
    ctrl := hc
    resp := rfl
    shared := h.shared
    queue := hq
    valid := hv
    owner := by
      have := h.seq.owner
      cases ho : s.fbOwner <;> simp_all
    dir := dir_eq_of_iff (by simpa [hc, ctrlDrives] using h.seq.dirTx)
    line := by simpa [hc] using h.seq.lineBreak
    ready := by
      have := h.buf.ready
      cases hf : s.frameReady <;> simp_all
    started := fun hr => h.buf.rxStarted (of_decide_eq_true hr)
    txLen := h.buf.respTxLen
    quiet := fun hr => h.buf.guardQuiet (of_decide_eq_true hr) }

theorem BlockInv.live {s : State} (h : BlockInv s) : LiveInv s := by
  cases hm : s.mode with
  | controller => exact .inl ⟨_, h.ctrl hm⟩
  | responder => exact .inr ⟨_, h.resp hm⟩

theorem CtrlInv.blockInv {c : CtrlState} {s : State} (h : CtrlInv c s)
    (hf : Config.completionsFit s.completions.length = true) : BlockInv s := by
  obtain ⟨hm, hr, rfl, ⟨⟨hahead, hnear⟩, hcap, hpar, hrec, hqueue, hop, huart, hslots⟩, ho, hv, hd, hl, hrd,
    htl, hcls⟩ := h
  exact {
    seq := {
      respIdle := fun _ => hr
      ctrlIdle := fun h => by simp [hm] at h
      inFlight := by simp [hv]
      dirTx := by simp [hd, hr, respDrives]
      owner := by simp [ho, hr]
      lineBreak := by simpa [hr] using hl
      uartQuiet := huart.quiet }
    buf := {
      fbWf := hrec.wf
      rxBound := hrec.bound
      rxWritten := hrec.written
      rxStarted := by simp [hr]
      queueBound := hqueue.bound
      entryBound := hqueue.entry
      opBound := hop
      eventsFit := hf
      fifoBound := huart.bound
      txLenBound := hslots.len
      replyBound := hslots.reply
      ctrlTxLen := htl
      respTxLen := by simp [hr, respHoldsSlots]
      txIndex := hslots.index
      guardQuiet := by simp [hr]
      ready := by simp [hrd, hr]
      paramsLegal := hpar }
    cls := by
      refine ⟨hqueue.cls, ?_, ?_, ?_, ?_⟩ <;> cases hc : s.ctrlState <;> simp_all [ClassAt]
      case frameToHost => rcases hcls with hcls | hcls <;> simp [hcls]
    tick := ⟨hahead, hnear⟩
    captured := { hcap with } }

theorem RespInv.blockInv {r : RespState} {s : State} (h : RespInv r s)
    (hf : Config.completionsFit s.completions.length = true) : BlockInv s := by
  obtain ⟨hm, hc, rfl, ⟨⟨hahead, hnear⟩, hcap, hpar, hrec, hqueue, hop, huart, hslots⟩, hq, hv, ho, hd, hl,
    hrd, hst, htl, hqt⟩ := h
  exact {
    seq := {
      respIdle := fun h => by simp [hm] at h
      ctrlIdle := fun _ => ⟨hc, hq, hv⟩
      inFlight := by simp [hv, hc]
      dirTx := by simp [hd, hc, ctrlDrives]
      owner := by simp [ho]
      lineBreak := by simpa [hc] using hl
      uartQuiet := huart.quiet }
    buf := {
      fbWf := hrec.wf
      rxBound := hrec.bound
      rxWritten := hrec.written
      rxStarted := fun h => hst (decide_eq_true h)
      queueBound := hqueue.bound
      entryBound := hqueue.entry
      opBound := hop
      eventsFit := hf
      fifoBound := huart.bound
      txLenBound := hslots.len
      replyBound := hslots.reply
      ctrlTxLen := by simp [hc, ctrlHoldsSlots]
      respTxLen := htl
      txIndex := hslots.index
      guardQuiet := fun h => hqt (decide_eq_true h)
      ready := by simp [hrd, hc]
      paramsLegal := hpar }
    cls := ⟨hqueue.cls, by simp [hv], by simp [hc], by simp [hc], by simp [hc]⟩
    tick := ⟨hahead, hnear⟩
    captured := { hcap with } }

/-- `BlockInv` is the view of the live sequencer and the bound of the completion queue (R29). -/
theorem blockInv_iff {s : State} :
    BlockInv s ↔ Config.completionsFit s.completions.length = true ∧ LiveInv s := by
  refine ⟨fun h => ⟨h.buf.eventsFit, h.live⟩, ?_⟩
  rintro ⟨hf, ⟨c, h⟩ | ⟨r, h⟩⟩
  · exact h.blockInv hf
  · exact h.blockInv hf

end Sys2Proof.Safety

namespace Sys2Proof.Machine

/-! ### Computations that may fault -/

theorem except_bind_eq_ok {α β : Type} {x : Except Fault α} {f : α → Except Fault β} {b : β} :
    x >>= f = .ok b ↔ ∃ a, x = .ok a ∧ f a = .ok b := by
  cases x <;> simp [bind, Except.bind]

theorem except_map_eq_ok {α β : Type} {x : Except Fault α} {f : α → β} {b : β} :
    x.map f = .ok b ↔ ∃ a, x = .ok a ∧ f a = b := by
  cases x <;> simp [Except.map]

/-- `validate` moves counters only (R134, R376). -/
theorem validateFrame_counters {s t : State} {len : Nat} {r : ValidateResult}
    (hv : validateFrame len s = .ok (r, t)) : ∃ counters, t = { s with counters := counters } := by
  rw [validateFrame_state hv]
  cases r <;> exact ⟨_, rfl⟩

end Sys2Proof.Machine

namespace Sys2Proof.Safety

open Sys2Proof.Machine

/-! ### What the updates of one component keep -/

theorem ReceptionOk.restart {fb : Memory} {n : Nat} (h : ReceptionOk fb n) : ReceptionOk fb 0 :=
  ⟨h.wf, Nat.zero_le _, fun _ hk => absurd hk (Nat.not_lt_zero _)⟩

theorem ReceptionOk.store {fb : Memory} {n : Nat} (h : ReceptionOk fb n) (hn : n < Config.frameBufSize) (b : Byte) :
    ReceptionOk (memWrite fb n b) (n + 1) where
  wf := memWrite_wf b hn h.wf
  bound := hn
  written k hk := by
    rcases Nat.lt_succ_iff_lt_or_eq.mp hk with hlt | rfl
    · exact memRead_memWrite_isSome _ _ _ _ (h.written k hlt)
    · rw [memRead_memWrite_same]; rfl

theorem QueueOk.tail {e : Entry} {q : List Entry} (h : QueueOk (e :: q)) : QueueOk q :=
  ⟨Nat.le_of_succ_le h.bound, fun d hd => h.entry d (.tail _ hd), fun d hd => h.cls d (.tail _ hd)⟩

theorem QueueOk.nil : QueueOk [] := ⟨Nat.zero_le _, nofun, nofun⟩

theorem QueueOk.snoc {q : List Entry} {e : Entry} (h : QueueOk q) (hroom : q.length < Config.txQueueDepth)
    (hlen : e.data.length ≤ Config.frameBufSize) (hcls : e.cls ≠ .modeChange) : QueueOk (q ++ [e]) where
  bound := by simpa using hroom
  entry := List.forall_mem_append.mpr ⟨h.entry, by simpa using hlen⟩
  cls := List.forall_mem_append.mpr ⟨h.cls, by simpa using hcls⟩

theorem UartOk.idle (u : UartTx) (d : Dir) : UartOk { u with fifo := [], busy := false } d :=
  ⟨Nat.zero_le _, by simp⟩

theorem UartOk.release {u : UartTx} {d : Dir} (h : UartOk u d) (hf : u.fifo = []) (hb : u.busy = false) (d' : Dir) :
    UartOk u d' :=
  ⟨h.bound, by simp [hf, hb]⟩

theorem UartOk.fill {u : UartTx} {d : Dir} (h : UartOk u d) (hd : d = .tx) {bs : List Byte}
    (hb : bs.length ≤ Config.uartTxFifoDepth - u.fifo.length) : UartOk { u with fifo := u.fifo ++ bs } d :=
  ⟨by have := h.bound; simp only [List.length_append]; omega, fun _ => hd⟩

/-- One step of the transmitter (R207). -/
theorem UartOk.shift {s : State} (h : UartOk s.uart s.pins.dir) :
    UartOk (uartShift s).uart (uartShift s).pins.dir := by
  rcases uartShift_cases s with he | ⟨hb, he⟩ | ⟨b, rest, hb, hf, he⟩ <;> rw [he]
  · exact h
  · exact ⟨h.bound, fun hq => h.quiet (.inr hb)⟩
  · exact ⟨by have := h.bound; simp only [hf, List.length_cons] at this; exact Nat.le_of_succ_le this,
      fun _ => h.quiet (.inl (by simp [hf]))⟩

theorem CapturedBy.later {now now' : Nat} {t : Timing} (h : CapturedBy now t) (hle : now ≤ now') : CapturedBy now' t :=
  ⟨h.lastBreakStart.trans hle, h.txEndTime.trans hle, h.tFall.trans hle, h.tRise.trans hle, h.lastFall.trans hle,
    h.tLastByte.trans hle⟩

/-! ### What the shared updates keep of `SharedInv` -/

theorem SharedInv.storeByte {s : State} (h : SharedInv s) (b : Byte) {t : Nat} (ht : t ≤ s.time) :
    SharedInv (storeByte b t s) := by
  have hcap : CapturedBy s.time { s.timing with tLastByte := t } := { h.captured with tLastByte := ht }
  rcases storeByte_cases b t s with ⟨_, hn, he⟩ | ⟨_, he⟩ <;> rw [he]
  · exact { h with captured := hcap, reception := h.reception.store hn b }
  · exact { h with captured := hcap }

theorem SharedInv.feed {s t : State} (h : SharedInv s) (hd : s.pins.dir = .tx) (hf : feed s = .ok t) : SharedInv t := by
  obtain ⟨bs, rfl, hl, -⟩ := feed_ok hf
  have hi := h.slots.index
  exact { h with
    uart := h.uart.fill hd (hl.trans_le (Nat.min_le_left _ _))
    slots := ⟨h.slots.len, by simp only [hl]; omega, h.slots.reply⟩ }

theorem SharedInv.endTransmission {s : State} (h : SharedInv s) (hf : s.uart.fifo = []) (hb : s.uart.busy = false) :
    SharedInv (endTransmission s) := by
  simp only [Machine.endTransmission, setDir, setLine]
  exact { h with
    captured := { h.captured with txEndTime := Nat.le_refl _ }
    uart := h.uart.release hf hb _ }

theorem SharedInv.restart {s : State} (h : SharedInv s) : SharedInv { s with rx.count := 0 } :=
  { h with reception := h.reception.restart }

end Sys2Proof.Safety

namespace Sys2Proof.Safety

open Sys2Proof.Machine

/-! ### The controller's transitions (R230 to R263) -/

section
variable {c : CtrlState} {s t : State}

/-- The registers beside the bytes: timing, the fine timer, the counters and what a reception notes of its phase. -/
theorem CtrlInv.note (h : CtrlInv c s) {timing : Timing} (ht : CapturedBy s.time timing) (counters : Counters)
    (timer : FineTimer) (phase : RxPhase) (active : Bool) :
    CtrlInv c { s with
      timing := timing, counters := counters, timer := timer
      rx := { s.rx with phase := phase, dubActive := active } } :=
  { h with shared := { h.shared with captured := ht } }

theorem CtrlInv.storeByte (h : CtrlInv c s) (b : Byte) {t : Nat} (ht : t ≤ s.time) : CtrlInv c (storeByte b t s) := by
  have hs := h.shared.storeByte b ht
  rcases storeByte_cases b t s with ⟨_, _, he⟩ | ⟨_, he⟩ <;> rw [he] at hs ⊢ <;> exact { h with shared := hs }

theorem CtrlInv.feed (h : CtrlInv c s) (hc : ctrlDrives c = true) (hf : feed s = .ok t) : CtrlInv c t := by
  have hs := h.shared.feed (by simpa [hc] using h.dir) hf
  obtain ⟨bs, rfl, -⟩ := feed_ok hf
  exact { h with shared := hs }

theorem CtrlInv.startSlots (h : CtrlInv .driveMarkHigh s) (hf : startSlots s = .ok t) : CtrlInv .driveMarkHigh t := by
  have hline : CtrlInv .driveMarkHigh { setLine .uart s with tx.index := 0 } :=
    { h with
      line := rfl
      shared := { h.shared with slots := ⟨h.shared.slots.len, Nat.zero_le _, h.shared.slots.reply⟩ } }
  exact hline.feed rfl hf

/-- A controller that has let go of the bus and of the received frame: where every way out of an operation starts. -/
structure CtrlReleased (s : State) : Prop where
  mode : s.mode = .controller
  resp : s.respState = .idle
  shared : SharedInv s
  owner : s.fbOwner = .transceiver
  dir : s.pins.dir = .rx
  line : decide (s.pins.line = .brk) = false
  ready : s.frameReady = false

theorem CtrlReleased.backoff (h : CtrlReleased s) (u : Nat) : CtrlReleased (backoff u s) :=
  { h with shared := { h.shared with captured := { h.shared.captured with } } }

/-- R265 (c): the end of an operation leaves a controller in IDLE. -/
theorem CtrlReleased.endOp (h : CtrlReleased s) (cls : FrameClass) (r : ResultCode) (bytes : List Byte) :
    CtrlInv .idle (endOp cls r bytes s) :=
  { h with
    ctrl := rfl, valid := rfl, dir := h.dir, line := h.line, ready := h.ready, txLen := nofun, cls := trivial
    shared := { h.shared with } }

theorem CtrlInv.endTransmission (h : CtrlInv .waitTxDone s) (hf : s.uart.fifo = []) (hb : s.uart.busy = false) :
    CtrlReleased (endTransmission s) :=
  { h with shared := h.shared.endTransmission hf hb, dir := rfl, line := rfl, ready := h.ready }

theorem ctrlReceives_cases (hc : ctrlReceives c = true) : c = .awaitResponse ∨ c = .rxSlots ∨ c = .awaitDub := by
  cases c <;> simp_all [ctrlReceives]

/-- The states that wait for the line drive no bus and hold no complete frame. -/
theorem CtrlInv.released (h : CtrlInv c s) (hc : ctrlReceives c = true) : CtrlReleased s := by
  rcases ctrlReceives_cases hc with rfl | rfl | rfl <;>
    exact { h with dir := h.dir, line := h.line, ready := h.ready }

theorem CtrlInv.afterFeed (h : CtrlInv .driveMarkHigh s) : ∃ c, CtrlInv c (ctrlAfterFeed s) := by
  unfold ctrlAfterFeed
  split
  · exact ⟨.writeSlots, { h with ctrl := rfl, shared := { h.shared with } }⟩
  · exact ⟨.waitTxDone, { h with ctrl := rfl, shared := { h.shared with } }⟩

theorem CtrlInv.toFrameToHost (h : CtrlInv c s) (hc : c = .rxSlots ∨ c = .awaitDub) :
    CtrlInv .frameToHost (frameToHost s) := by
  rcases hc with rfl | rfl
  · exact { h with ctrl := rfl, ready := rfl, txLen := nofun, cls := .inl h.cls, shared := { h.shared with } }
  · exact { h with ctrl := rfl, ready := rfl, txLen := nofun, cls := .inr h.cls, shared := { h.shared with } }

/-- R233, R234, R243, R246, R253: `TimerMatch`. -/
theorem CtrlInv.timerMatch (h : CtrlInv c s) (he : ctrlTimerMatch s = .ok t) : ∃ c', CtrlInv c' t := by
  have hc := h.ctrl
  cases c <;> simp only [ctrlTimerMatch, hc, Except.ok.injEq] at he
  case driveMarkHigh =>
    obtain ⟨u, hu, rfl⟩ := except_map_eq_ok.mp he
    exact (h.startSlots hu).afterFeed
  all_goals subst he
  case driveBreakLow => exact ⟨_, { h with ctrl := rfl, line := rfl, shared := { h.shared with } }⟩
  case awaitResponse => exact ⟨_, ((h.released rfl).backoff _).endOp _ _ _⟩
  case rxSlots => exact ⟨_, h.toFrameToHost (.inl rfl)⟩
  case awaitDub => exact ⟨_, h.toFrameToHost (.inr rfl)⟩
  case idle | writeSlots | waitTxDone | frameToHost => exact ⟨_, h⟩

/-- R235: `TxFifoSpace` in WRITE_SLOTS. -/
theorem CtrlInv.fifoSpace (h : CtrlInv .writeSlots s) (he : ctrlFifoSpace s = .ok t) : ∃ c', CtrlInv c' t := by
  obtain ⟨u, hu, rfl⟩ := except_map_eq_ok.mp he
  have hfed := h.feed rfl hu
  split
  · exact ⟨.waitTxDone, { hfed with ctrl := rfl, shared := { hfed.shared with } }⟩
  · exact ⟨_, hfed⟩

/-- R239: the transmitted request waits for its response. -/
theorem CtrlReleased.awaitResponse (h : CtrlReleased s) (hv : s.curOp.valid = true) (hcls : s.curOp.cls = .rdmRequest)
    (u : Nat) : CtrlInv .awaitResponse (ctrlGoto .awaitResponse (arm u (setPhase .waitBreak (rxBegin s)))) := by
  simp only [ctrlGoto, arm, setPhase, rxBegin]
  exact { h with
    ctrl := rfl, valid := hv, dir := h.dir, line := h.line, ready := h.ready, txLen := nofun, cls := hcls
    shared := { h.shared.restart with } }

/-- R250: the transmitted DUB request opens its window. -/
theorem CtrlReleased.awaitDub (h : CtrlReleased s) (hv : s.curOp.valid = true) (hcls : s.curOp.cls = .rdmDub) (u : Nat) :
    CtrlInv .awaitDub (ctrlGoto .awaitDub (arm u { rxBegin s with rx.dubActive := false })) := by
  simp only [ctrlGoto, arm, rxBegin]
  exact { h with
    ctrl := rfl, valid := hv, dir := h.dir, line := h.line, ready := h.ready, txLen := nofun, cls := hcls
    shared := { h.shared.restart with } }

/-- R236 to R239, R250: `TxShiftEmpty` in WAIT_TX_DONE, by the class of the operation. -/
theorem CtrlInv.shiftEmpty (h : CtrlInv .waitTxDone s) (hf : s.uart.fifo = []) (hb : s.uart.busy = false) :
    ∃ c', CtrlInv c' (ctrlShiftEmpty s) := by
  have hrel := h.endTransmission hf hb
  have hvalid : (Machine.endTransmission s).curOp.valid = true := h.valid
  unfold ctrlShiftEmpty
  split
  case h_1 | h_2 | h_3 => exact ⟨_, (hrel.backoff _).endOp _ _ _⟩
  case h_4 hcls => exact ⟨_, hrel.awaitResponse hvalid hcls _⟩
  case h_5 hcls => exact ⟨_, hrel.awaitDub hvalid hcls _⟩
  case h_6 hcls => exact absurd hcls h.cls.1
  case h_7 hcls => exact absurd hcls h.cls.2

/-- R252: the first activity of a DUB window arms its limit. -/
theorem CtrlInv.dubActivate (h : CtrlInv c s) (u : Nat) : CtrlInv c (dubActivate u s) := by
  unfold Machine.dubActivate
  split
  · exact h
  · exact h.note h.shared.captured _ _ _ _

/-- R244: a mark that is too long counts, and the wait for a response goes on. -/
theorem CtrlInv.toAwaitResponse (h : CtrlInv .rxSlots s) (counter : CounterId) :
    CtrlInv .awaitResponse (ctrlGoto .awaitResponse (inc counter s)) :=
  { h with ctrl := rfl, txLen := nofun, shared := { h.shared with } }

/-- R240, R244, R252, R255: `Fall`. -/
theorem CtrlInv.fall (h : CtrlInv c s) {u : Nat} (hu : u ≤ s.time) : ∃ c', CtrlInv c' (ctrlFall u s) := by
  have hc := h.ctrl
  have hcap := h.shared.captured
  have hfall : CapturedBy s.time { s.timing with tFall := u } := { hcap with tFall := hu }
  cases c <;> simp only [ctrlFall, hc]
  case awaitResponse =>
    split
    case h_1 | h_2 => exact ⟨_, h.note hfall _ _ _ _⟩
    case h_3 | h_4 => exact ⟨_, h⟩
  case rxSlots =>
    split
    case h_1 =>
      split
      · exact ⟨.rxSlots, { h with ctrl := rfl, shared := { h.shared with captured := { hcap with } } }⟩
      · exact ⟨_, (h.toAwaitResponse _).note hfall _ _ _ _⟩
    case h_2 | h_3 | h_4 => exact ⟨_, h⟩
  case awaitDub => exact ⟨_, h.dubActivate _⟩
  case idle | driveBreakLow | driveMarkHigh | writeSlots | waitTxDone | frameToHost => exact ⟨_, h⟩

/-- R241, R246, R251, R255: `Rise`. -/
theorem CtrlInv.rise (h : CtrlInv c s) {u : Nat} (hu : u ≤ s.time) : ∃ c', CtrlInv c' (ctrlRise u s) := by
  have hc := h.ctrl
  have hcap := h.shared.captured
  cases c <;> simp only [ctrlRise, hc]
  case awaitResponse =>
    split
    · unfold ctrlBreakEnd
      split
      · exact ⟨.rxSlots, { h with
          ctrl := rfl, txLen := nofun, shared := { h.shared with captured := { hcap with tRise := hu } } }⟩
      · exact ⟨_, h.note hcap _ _ _ _⟩
    · exact ⟨_, h⟩
  all_goals exact ⟨_, h⟩

/-- R245: a byte of a response. -/
theorem CtrlInv.slot (h : CtrlInv .rxSlots s) (b : Byte) {u : Nat} (hu : u ≤ s.time) (he : ctrlSlot b u s = .ok t) :
    ∃ c', CtrlInv c' t := by
  have hstored := fun phase => (h.note h.shared.captured s.counters s.timer phase s.rx.dubActive).storeByte b hu
  obtain ⟨d, -, he⟩ := except_bind_eq_ok.mp he
  cases d <;> cases he
  · exact ⟨_, (hstored _).note (hstored _).shared.captured _ _ _ _⟩
  · exact ⟨_, ((hstored _).note (hstored _).shared.captured _ _ _ _).toFrameToHost (.inl rfl)⟩

/-- R252: a byte of a DUB window. -/
theorem CtrlInv.dubByte (h : CtrlInv .awaitDub s) (b : Byte) {u : Nat} (hu : u ≤ s.time) :
    ∃ c', CtrlInv c' (ctrlDubByte b u s) := by
  have hstored := (h.dubActivate u).storeByte b (t := u) (by unfold Machine.dubActivate; split <;> exact hu)
  unfold ctrlDubByte
  dsimp only
  split
  · exact ⟨_, (hstored.note hstored.shared.captured _ _ _ _).toFrameToHost (.inr rfl)⟩
  · exact ⟨_, hstored⟩

/-- R242, R245, R252, R255: `Byte`. -/
theorem CtrlInv.byte (h : CtrlInv c s) (b : Byte) {u : Nat} (hu : u ≤ s.time) (he : ctrlByte b u s = .ok t) :
    ∃ c', CtrlInv c' t := by
  have hc := h.ctrl
  cases c <;> simp only [ctrlByte, hc, Except.ok.injEq] at he
  case rxSlots => exact h.slot b hu he
  all_goals subst he
  case awaitDub => exact h.dubByte b hu
  all_goals exact ⟨_, h⟩

/-- R255, R260: `Err`. -/
theorem CtrlInv.err (h : CtrlInv c s) (kind : UartErr) : ∃ c', CtrlInv c' (ctrlErr kind s) := by
  unfold ctrlErr
  split
  case isTrue hr =>
    have hrel := h.released (h.ctrl ▸ hr)
    have hdropped : CtrlReleased { disarm (inc (uartCounter kind) s) with rx.count := 0 } :=
      { hrel with shared := { hrel.shared.restart with } }
    exact ⟨_, (hdropped.backoff _).endOp _ _ _⟩
  case isFalse => exact ⟨_, h⟩

/-- A controller whose frame is taken up is released. -/
theorem CtrlInv.clearFrame (h : CtrlInv .frameToHost s) (counters : Counters) :
    CtrlReleased (clearFrameReady { s with counters := counters }) :=
  { h with dir := h.dir, line := h.line, ready := rfl, shared := { h.shared with } }

/-- R248, R254: the hand-up of a received frame. -/
theorem CtrlInv.handUp (h : CtrlInv .frameToHost s) (he : handUp s = .ok t) : CtrlInv .idle t := by
  unfold Machine.handUp at he
  split at he
  · obtain ⟨bytes, -, he⟩ := except_bind_eq_ok.mp he
    cases he
    exact ((h.clearFrame s.counters).backoff _).endOp _ _ _
  · obtain ⟨⟨r, checked⟩, hv, he⟩ := except_bind_eq_ok.mp he
    obtain ⟨bytes, -, he⟩ := except_bind_eq_ok.mp he
    obtain ⟨counters, rfl⟩ := validateFrame_counters hv
    cases he
    split
    · exact (h.clearFrame _).endOp _ _ _
    · exact (h.clearFrame _).endOp _ _ _

/-- A controller that flushes lets go of the bus, whatever that leaves on the wire. -/
theorem CtrlInv.flushed (h : CtrlInv c s) (wire : List WireEvent) (timer : FineTimer) :
    CtrlReleased { s with
      uart := { s.uart with fifo := [], busy := false }, pins := { dir := .rx, line := .mark }, wire := wire
      timer := timer, frameReady := false, rx := { s.rx with count := 0 } } :=
  { h with
    dir := rfl, line := rfl, ready := rfl
    shared := { h.shared with uart := .idle _ _, reception := h.shared.reception.restart } }

/-- R262: an operation past its deadline. -/
theorem CtrlInv.deadlineAbort (h : CtrlInv c s) : CtrlInv .idle (deadlineAbort s) := by
  have hrel : CtrlReleased (rxBegin (clearFrameReady (disarm (setDir .rx (flush s))))) := by
    simp only [rxBegin, clearFrameReady, disarm, setDir, flush, setLine]
    exact h.flushed _ _
  exact (hrel.backoff _).endOp _ _ _

/-- R257: a self-test leaves the queue. -/
theorem CtrlInv.selfTest (h : CtrlInv c s) {e : Entry} {rest : List Entry} (hq : s.txQueue = e :: rest) :
    CtrlInv c (runSelfTest e rest s) := by
  have hqueue : QueueOk (e :: rest) := hq ▸ h.shared.queue
  exact { h with shared := { h.shared with queue := hqueue.tail } }

/-- R231: the head of the queue becomes the operation in flight. -/
theorem CtrlInv.startOperation (h : CtrlInv .idle s) {e : Entry} {rest : List Entry} (hq : s.txQueue = e :: rest)
    (hcls : e.cls ≠ .selfTest) : CtrlInv .driveBreakLow (startOperation e rest s) := by
  have hqueue : QueueOk (e :: rest) := hq ▸ h.shared.queue
  have hlen := hqueue.entry e (.head _)
  simp only [Machine.startOperation, ctrlGoto, startBreak, arm, setLine, setDir]
  exact { h with
    ctrl := rfl, valid := rfl, dir := rfl, line := rfl, ready := h.ready, txLen := fun _ => rfl
    cls := ⟨hcls, hqueue.cls e (.head _)⟩
    shared := { h.shared with
      captured := { h.shared.captured with lastBreakStart := Nat.le_refl _ }
      queue := hqueue.tail
      opBound := hlen
      uart := ⟨h.shared.uart.bound, fun _ => rfl⟩
      slots := ⟨hlen, Nat.zero_le _, h.shared.slots.reply⟩ } }

end
end Sys2Proof.Safety

namespace Sys2Proof.Safety

open Sys2Proof.Machine

/-! ### The responder's transitions (R280 to R303) -/

section
variable {r : RespState} {s t : State}

/-- The registers beside the bytes: timing, the fine timer and the counters. -/
theorem RespInv.note (h : RespInv r s) {timing : Timing} (ht : CapturedBy s.time timing) (counters : Counters)
    (timer : FineTimer) : RespInv r { s with timing := timing, counters := counters, timer := timer } :=
  { h with shared := { h.shared with captured := ht } }

theorem RespInv.storeByte (h : RespInv r s) (b : Byte) {u : Nat} (hu : u ≤ s.time) : RespInv r (storeByte b u s) := by
  have hs := h.shared.storeByte b hu
  rcases storeByte_cases b u s with ⟨_, _, he⟩ | ⟨_, he⟩ <;> rw [he] at hs ⊢
  · exact { h with shared := hs, started := fun _ => Nat.succ_pos _ }
  · exact { h with shared := hs }

/-- Where the transceiver owns `fb`, a reception with a byte in it is no longer empty. -/
theorem storeByte_count_pos (ho : s.fbOwner = .transceiver) (b : Byte) (u : Nat) : 0 < (storeByte b u s).rx.count := by
  rcases storeByte_cases b u s with ⟨_, _, he⟩ | ⟨hn, he⟩ <;> rw [he]
  · exact Nat.succ_pos _
  · have hfull : Config.frameBufSize ≤ s.rx.count := by simpa [ho] using hn
    exact Nat.lt_of_lt_of_le (by decide) hfull

/-! #### Silent states -/

/-- A responder that owns `fb`, drives no bus and holds no complete frame: where receptions and replies start and end. -/
structure RespSilent (s : State) : Prop where
  mode : s.mode = .responder
  ctrl : s.ctrlState = .idle
  shared : SharedInv s
  queue : s.txQueue = []
  valid : s.curOp.valid = false
  owner : s.fbOwner = .transceiver
  dir : s.pins.dir = .rx
  line : decide (s.pins.line = .brk) = false
  ready : s.frameReady = false

/-- The states of a silent responder. -/
def respListens : RespState → Bool
  | .idle => true
  | .measureBreak => true
  | .measureMab => true
  | .collectSlots => true
  | .waitDelay => true
  | .complete => false
  | .dispatch => false
  | .driveBreak => false
  | .driveMark => false
  | .writeSlots => false
  | .waitTxDone => false
  | .guard => false

theorem respListens_cases (hr : respListens r = true) :
    r = .idle ∨ r = .measureBreak ∨ r = .measureMab ∨ r = .collectSlots ∨ r = .waitDelay := by
  cases r <;> simp_all [respListens]

theorem RespInv.silent (h : RespInv r s) (hr : respListens r = true) : RespSilent s := by
  rcases respListens_cases hr with rfl | rfl | rfl | rfl | rfl <;>
    exact { h with owner := h.owner, dir := h.dir, line := h.line, ready := h.ready }

theorem RespSilent.goto (h : RespSilent s) (hr : respListens r = true) (hstart : r = .collectSlots → 0 < s.rx.count) :
    RespInv r (respGoto r s) := by
  have hshared : SharedInv (respGoto r s) := { h.shared with }
  have hstarted : decide (r = .collectSlots ∨ r = .complete) = true → 0 < s.rx.count := fun hc =>
    hstart ((of_decide_eq_true hc).resolve_right (by rintro rfl; cases hr))
  rcases respListens_cases hr with rfl | rfl | rfl | rfl | rfl <;>
    exact { h with
      resp := rfl, shared := hshared, owner := h.owner, dir := h.dir, line := h.line, ready := h.ready
      started := hstarted, txLen := nofun, quiet := nofun }

/-- The registers beside the bytes, and where the reception starts over. -/
theorem RespSilent.restart (h : RespSilent s) {timing : Timing} (ht : CapturedBy s.time timing) (counters : Counters)
    (timer : FineTimer) :
    RespSilent { s with timing := timing, counters := counters, timer := timer, rx := { s.rx with count := 0 } } :=
  { h with shared := { h.shared with captured := ht, reception := h.shared.reception.restart } }

theorem RespSilent.note (h : RespSilent s) {timing : Timing} (ht : CapturedBy s.time timing) (counters : Counters)
    (timer : FineTimer) : RespSilent { s with timing := timing, counters := counters, timer := timer } :=
  { h with shared := { h.shared with captured := ht } }

/-! #### Reception -/

/-- R282, R289: an accepted break starts the measurement of the mark. -/
theorem RespSilent.breakOk (h : RespSilent s) {u : Nat} (hu : u ≤ s.time) (d : Nat) :
    RespInv .measureMab (respBreakOk u d s) := by
  have hcap : CapturedBy s.time { s.timing with rxBreakDur := d, tRise := u, rxMarkDur := 0 } :=
    { h.shared.captured with tRise := hu }
  exact (h.restart hcap s.counters s.timer).goto (r := .measureMab) rfl nofun

/-- R282: the end of a break. -/
theorem RespInv.breakEnd (h : RespInv .measureBreak s) {u : Nat} (hu : u ≤ s.time) (d : Nat) :
    ∃ r', RespInv r' (respBreakEnd u d s) := by
  have hsil := h.silent rfl
  unfold respBreakEnd
  split
  · exact ⟨_, hsil.breakOk hu d⟩
  · exact ⟨.idle, (hsil.note hsil.shared.captured _ s.timer).goto rfl nofun⟩

/-- R289: counting what was received of a cut frame moves counters only. -/
theorem finalizeCut_counters (he : finalizeCut s = .ok t) : ∃ counters, t = { s with counters := counters } := by
  unfold finalizeCut at he
  split at he
  · cases he; exact ⟨_, rfl⟩
  · obtain ⟨sc, -, he⟩ := except_bind_eq_ok.mp he
    split at he
    · cases he; exact ⟨_, rfl⟩
    · split at he
      · obtain ⟨⟨v, checked⟩, hv, he⟩ := except_bind_eq_ok.mp he
        cases he; exact validateFrame_counters hv
      · cases he; exact ⟨_, rfl⟩

/-- R289: a break inside a frame. -/
theorem RespSilent.breakInside (h : RespSilent s) {u d : Nat} (hu : u ≤ s.time) (he : respBreakInside u d s = .ok t) :
    ∃ r', RespInv r' t := by
  have hcap := h.shared.captured
  obtain ⟨counted, hf, he⟩ := except_bind_eq_ok.mp he
  obtain ⟨counters, rfl⟩ := finalizeCut_counters hf
  split at he <;> cases he
  · have hfall : CapturedBy s.time { s.timing with tFall := s.timing.lastFall } := { hcap with tFall := hcap.lastFall }
    exact ⟨_, (h.note hfall counters _).breakOk hu d⟩
  · exact ⟨.idle, (h.restart hcap _ _).goto rfl nofun⟩

/-- R301: the rest of a reply is discarded. -/
theorem RespInv.discardReply (h : RespInv r s) (hr : respDrives r = true) : RespSilent (respDiscardReply s) := by
  have hrest : s.fbOwner = .transceiver ∧ s.frameReady = false := by
    have howner := h.owner
    have hready := h.ready
    cases r <;> simp_all [respDrives]
  simp only [respDiscardReply, disarm, setDir, flush, setLine]
  exact { h with
    owner := hrest.1, dir := rfl, line := rfl, ready := hrest.2
    shared := { h.shared with
      uart := .idle _ _
      reception := h.shared.reception.restart
      slots := ⟨h.shared.slots.len, h.shared.slots.index, Nat.zero_le _⟩ } }

theorem respDiscardReply_time (s : State) : (respDiscardReply s).time = s.time := by simp [respDiscardReply]

/-- R281, R301: a falling edge starts the measurement of a break. -/
theorem RespSilent.measureBreak (h : RespSilent s) {u : Nat} (hu : u ≤ s.time) :
    RespInv .measureBreak (respGoto .measureBreak { s with timing.tFall := u }) := by
  have hfall : CapturedBy s.time { s.timing with tFall := u } := { h.shared.captured with tFall := hu }
  exact (h.note hfall s.counters s.timer).goto rfl nofun

/-- R281, R282, R283, R286, R292, R301: `Fall`. -/
theorem RespInv.fall (h : RespInv r s) {u : Nat} (hu : u ≤ s.time) : ∃ r', RespInv r' (respFall u s) := by
  have hr := h.resp
  have hcap := h.shared.captured
  unfold respFall
  split
  case isTrue hd =>
    exact ⟨_, (h.discardReply (hr ▸ hd)).measureBreak (hu.trans_eq (respDiscardReply_time s).symm)⟩
  case isFalse =>
    split
    case h_1 hi => exact ⟨_, ((hr.symm.trans hi ▸ h).silent rfl).measureBreak hu⟩
    case h_2 => exact ⟨_, h.note (timing := { s.timing with tFall := u }) { hcap with tFall := hu } _ _⟩
    case h_3 =>
      exact ⟨_, h.note (timing := { s.timing with lastFall := u, rxMarkDur := _ }) { hcap with lastFall := hu } _ _⟩
    case h_4 => exact ⟨_, h.note (timing := { s.timing with lastFall := u }) { hcap with lastFall := hu } _ _⟩
    all_goals exact ⟨_, h⟩

/-- R283, R286, R289: a rising edge in MEASURE_MAB or COLLECT_SLOTS. -/
theorem RespInv.riseInside (h : RespInv r s) (hr : respListens r = true) {u : Nat} (hu : u ≤ s.time)
    (he : respRiseInside u s = .ok t) : ∃ r', RespInv r' t := by
  unfold respRiseInside at he
  split at he
  · exact (h.silent hr).breakInside hu he
  · cases he; exact ⟨_, h⟩

/-- R282, R283, R286, R289, R292, R301: `Rise`. -/
theorem RespInv.rise (h : RespInv r s) {u : Nat} (hu : u ≤ s.time) (he : respRise u s = .ok t) :
    ∃ r', RespInv r' t := by
  have hr := h.resp
  cases r <;> simp only [respRise, hr, respDrives, if_true, Bool.false_eq_true, if_false] at he
  case measureMab | collectSlots => exact h.riseInside rfl hu he
  all_goals cases he
  case measureBreak => exact h.breakEnd hu _
  case driveBreak | driveMark | writeSlots | waitTxDone | guard => exact ⟨.idle, (h.discardReply rfl).goto rfl nofun⟩
  all_goals exact ⟨_, h⟩

/-- R283: the start code. -/
theorem RespInv.startCode (h : RespInv .measureMab s) (b : Byte) {u : Nat} (hu : u ≤ s.time)
    (he : respStartCode b u s = .ok t) : RespInv .collectSlots t := by
  have hstored := (h.storeByte b hu).silent rfl
  obtain ⟨wait, -, he⟩ := except_bind_eq_ok.mp he
  cases he
  exact (hstored.note hstored.shared.captured _ _).goto rfl fun _ => storeByte_count_pos h.owner b u

/-- R284, R285: a frame is complete. -/
theorem RespInv.complete (h : RespInv .collectSlots s) : RespInv .complete (respComplete s) :=
  { h with resp := rfl, ready := rfl, shared := { h.shared with } }

/-- R284: a byte after the first. -/
theorem RespInv.slot (h : RespInv .collectSlots s) (b : Byte) {u : Nat} (hu : u ≤ s.time)
    (he : respSlot b u s = .ok t) : ∃ r', RespInv r' t := by
  have hstored := h.storeByte b hu
  obtain ⟨done, -, he⟩ := except_bind_eq_ok.mp he
  cases done
  · obtain ⟨wait, -, he⟩ := except_bind_eq_ok.mp he
    cases he
    exact ⟨_, hstored.note hstored.shared.captured _ _⟩
  · cases he
    exact ⟨_, (hstored.note hstored.shared.captured _ _).complete⟩

/-- R283, R284, R292, R301: `Byte`. -/
theorem RespInv.byte (h : RespInv r s) (b : Byte) {u : Nat} (hu : u ≤ s.time) (he : respByte b u s = .ok t) :
    ∃ r', RespInv r' t := by
  have hr := h.resp
  cases r <;> simp only [respByte, hr, Except.ok.injEq] at he
  case measureMab => exact ⟨_, h.startCode b hu he⟩
  case collectSlots => exact h.slot b hu he
  all_goals exact ⟨_, he ▸ h⟩

/-- R291, R292, R301: `Err`. -/
theorem RespInv.err (h : RespInv r s) (kind : UartErr) : ∃ r', RespInv r' (respErr kind s) := by
  have hr := h.resp
  have hcap := h.shared.captured
  cases r <;> simp only [respErr, hr]
  case idle | measureBreak => exact ⟨_, h.note hcap _ _⟩
  case measureMab | collectSlots => exact ⟨.idle, ((h.silent rfl).restart hcap _ _).goto rfl nofun⟩
  all_goals exact ⟨_, h⟩

/-! #### Validation, dispatch and the handler's answer -/

/-- R290: a completed frame is taken up. -/
theorem RespInv.clearFrame (h : RespInv .complete s) : RespSilent (clearFrameReady s) :=
  { h with owner := h.owner, dir := h.dir, line := h.line, ready := rfl, shared := { h.shared with } }

/-- R290: a validated frame goes to the collaborator, with `fb`. -/
theorem RespSilent.dispatched (h : RespSilent s) (d : Dispatch) :
    RespInv .dispatch (respGoto .dispatch { s with fbOwner := .responder, dispatch := some d }) :=
  { h with
    resp := rfl, owner := rfl, dir := h.dir, line := h.line, ready := h.ready, shared := { h.shared with }
    started := nofun, txLen := nofun, quiet := nofun }

theorem RespSilent.consumeRdm (h : RespSilent s) (he : respConsumeRdm s = .ok t) : ∃ r', RespInv r' t := by
  have hcap := h.shared.captured
  obtain ⟨⟨v, checked⟩, hv, he⟩ := except_bind_eq_ok.mp he
  obtain ⟨counters, rfl⟩ := validateFrame_counters hv
  dsimp only at he
  split at he
  · obtain ⟨hd, -, he⟩ := except_bind_eq_ok.mp he
    cases he
    exact ⟨_, (h.note hcap _ s.timer).dispatched _⟩
  · cases he
    exact ⟨.idle, (h.note hcap _ s.timer).goto rfl nofun⟩

/-- R290: consuming a completed frame. -/
theorem RespInv.consume (h : RespInv .complete s) (he : respConsume s = .ok t) : ∃ r', RespInv r' t := by
  have hsil := h.clearFrame
  obtain ⟨sc, -, he⟩ := except_bind_eq_ok.mp he
  split at he
  · cases he
    exact ⟨.idle, (hsil.note hsil.shared.captured _ s.timer).goto rfl nofun⟩
  · split at he
    · exact hsil.consumeRdm he
    · cases he; exact ⟨.idle, hsil.goto rfl nofun⟩

/-- R293: `fb` goes back to the transceiver. -/
theorem RespInv.reclaim (h : RespInv .dispatch s) : RespSilent (reclaimFb s) :=
  { h with owner := rfl, dir := h.dir, line := h.line, ready := h.ready, shared := { h.shared with } }

/-- R293: a reply that fits `fb` is scheduled. -/
theorem RespSilent.schedule (h : RespSilent s) {len : Nat} (hl : len ≤ Config.frameBufSize) (raw : Bool) :
    RespInv .waitDelay (scheduleReply len raw s) := by
  unfold scheduleReply
  have hplan : RespSilent { s with reply := { len := len, raw := raw } } :=
    { h with shared := { h.shared with slots := ⟨h.shared.slots.len, h.shared.slots.index, hl⟩ } }
  have harmed : ∀ u, RespSilent (drawNext (arm u { s with reply := { len := len, raw := raw } })) := fun u =>
    { hplan with shared := { hplan.shared with } }
  exact (harmed _).goto rfl nofun

/-- R293: the handler's answer in DISPATCH; it posts nothing. -/
theorem RespInv.handlerReturn (h : RespInv .dispatch s) {n : Int} (he : respHandlerReturn n s = .ok t) :
    (∃ r', RespInv r' t) ∧ t.completions = s.completions := by
  unfold respHandlerReturn at he
  split at he
  · cases he
  · rename_i hn
    split at he
    · cases he; exact ⟨⟨_, h.reclaim.schedule (by omega) _⟩, rfl⟩
    · split at he <;> cases he
      · exact ⟨⟨_, h.reclaim.schedule (by decide) _⟩, rfl⟩
      · exact ⟨⟨.idle, h.reclaim.goto rfl nofun⟩, rfl⟩

/-! #### The reply -/

/-- A responder that drives the bus and may feed the slots of its reply. -/
structure RespFeeding (s : State) : Prop where
  mode : s.mode = .responder
  ctrl : s.ctrlState = .idle
  shared : SharedInv s
  queue : s.txQueue = []
  valid : s.curOp.valid = false
  owner : s.fbOwner = .transceiver
  dir : s.pins.dir = .tx
  line : decide (s.pins.line = .brk) = false
  ready : s.frameReady = false
  txLen : s.tx.len = s.reply.len

theorem RespFeeding.feed (h : RespFeeding s) (hf : feed s = .ok t) : RespFeeding t := by
  have hs := h.shared.feed h.dir hf
  obtain ⟨bs, rfl, -⟩ := feed_ok hf
  exact { h with shared := hs }

theorem RespFeeding.startSlots (h : RespFeeding s) (hf : startSlots s = .ok t) : RespFeeding t := by
  have hline : RespFeeding { setLine .uart s with tx.index := 0 } :=
    { h with
      line := rfl
      shared := { h.shared with slots := ⟨h.shared.slots.len, Nat.zero_le _, h.shared.slots.reply⟩ } }
  exact hline.feed hf

theorem RespFeeding.goto (h : RespFeeding s) (hr : r = .driveMark ∨ r = .writeSlots ∨ r = .waitTxDone) :
    RespInv r (respGoto r s) := by
  have hshared : SharedInv (respGoto r s) := { h.shared with }
  rcases hr with rfl | rfl | rfl <;>
    exact { h with
      resp := rfl, shared := hshared, owner := h.owner, dir := h.dir, line := h.line, ready := h.ready
      started := nofun, txLen := fun _ => h.txLen, quiet := nofun }

theorem RespInv.feeding (h : RespInv r s) (hr : r = .driveMark ∨ r = .writeSlots) : RespFeeding s := by
  rcases hr with rfl | rfl <;>
    exact { h with owner := h.owner, dir := h.dir, line := h.line, ready := h.ready, txLen := h.txLen rfl }

theorem RespFeeding.afterFeed (h : RespFeeding s) : ∃ r', RespInv r' (respAfterFeed s) := by
  unfold respAfterFeed
  split
  · exact ⟨_, h.goto (.inr (.inl rfl))⟩
  · exact ⟨_, h.goto (.inr (.inr rfl))⟩

/-- R297: the start of the reply. -/
theorem RespInv.startReply (h : RespInv .waitDelay s) (he : startReply s = .ok t) : ∃ r', RespInv r' t := by
  have hloaded : RespFeeding { setDir .tx s with tx := { index := 0, len := s.reply.len } } :=
    { h with
      owner := h.owner, dir := rfl, line := h.line, ready := h.ready, txLen := rfl
      shared := { h.shared with
        uart := ⟨h.shared.uart.bound, fun _ => rfl⟩
        slots := ⟨h.shared.slots.reply, Nat.zero_le _, h.shared.slots.reply⟩ } }
  unfold Machine.startReply at he
  split at he
  · obtain ⟨u, hu, rfl⟩ := except_map_eq_ok.mp he
    exact (hloaded.startSlots hu).afterFeed
  · cases he
    exact ⟨.driveBreak, { hloaded with
      resp := rfl, line := rfl, owner := h.owner, dir := rfl, ready := h.ready, shared := { hloaded.shared with }
      started := nofun, txLen := fun _ => rfl, quiet := nofun }⟩

/-- R285, R297, R298, R300: `TimerMatch`. -/
theorem RespInv.timerMatch (h : RespInv r s) (he : respTimerMatch s = .ok t) : ∃ r', RespInv r' t := by
  have hr := h.resp
  cases r <;> simp only [respTimerMatch, hr, Except.ok.injEq] at he
  case waitDelay => exact h.startReply he
  case driveMark =>
    obtain ⟨u, hu, rfl⟩ := except_map_eq_ok.mp he
    exact ((h.feeding (.inl rfl)).startSlots hu).afterFeed
  all_goals subst he
  case collectSlots => exact ⟨_, h.complete⟩
  case driveBreak => exact ⟨.driveMark, { h with resp := rfl, line := rfl, shared := { h.shared with } }⟩
  case guard =>
    obtain ⟨hf, hb⟩ := h.quiet rfl
    have hsil : RespSilent (setDir .rx s) :=
      { h with
        owner := h.owner, dir := rfl, line := h.line, ready := h.ready
        shared := { h.shared with uart := h.shared.uart.release hf hb _ } }
    exact ⟨.idle, hsil.goto rfl nofun⟩
  all_goals exact ⟨_, h⟩

/-- R298: `TxFifoSpace` in RESP_WRITE_SLOTS. -/
theorem RespInv.fifoSpace (h : RespInv .writeSlots s) (he : respFifoSpace s = .ok t) : ∃ r', RespInv r' t := by
  obtain ⟨u, hu, rfl⟩ := except_map_eq_ok.mp he
  have hfed := (h.feeding (.inr rfl)).feed hu
  split
  · exact ⟨_, hfed.goto (.inr (.inr rfl))⟩
  · obtain ⟨bs, rfl, -⟩ := feed_ok hu
    exact ⟨_, { h with shared := hfed.shared, quiet := nofun }⟩

/-- R299: `TxShiftEmpty` in RESP_WAIT_TX_DONE. -/
theorem RespInv.shiftEmpty (h : RespInv .waitTxDone s) (hf : s.uart.fifo = []) (hb : s.uart.busy = false) :
    RespInv .guard (respShiftEmpty s) :=
  { h with resp := rfl, line := rfl, txLen := nofun, quiet := fun _ => ⟨hf, hb⟩, shared := { h.shared with } }

end
end Sys2Proof.Safety

namespace Sys2Proof.Machine

/-! ### What a codec operation leaves (R55, R130 to R142) -/

/-- Codec writes keep the canonical form, and what is written stays written. -/
structure FbGrows (m m' : Memory) : Prop where
  wf : m.wf = true → m'.wf = true
  written : ∀ a, (memRead m a).isSome = true → (memRead m' a).isSome = true

/-- A codec operation moves `fb`, the counters and the reply only. -/
def CodecStep (s t : State) : Prop :=
  ∃ fb counters reply, FbGrows s.fb fb ∧ t = { s with fb := fb, counters := counters, hostReply := reply }

section
variable {s t u : State}

theorem CodecStep.refl (s : State) : CodecStep s s := ⟨s.fb, s.counters, s.hostReply, ⟨id, fun _ => id⟩, rfl⟩

theorem CodecStep.trans (h1 : CodecStep s t) (h2 : CodecStep t u) : CodecStep s u := by
  obtain ⟨fb, counters, reply, h1, rfl⟩ := h1
  obtain ⟨fb', counters', reply', h2, rfl⟩ := h2
  exact ⟨fb', counters', reply', ⟨fun h => h2.wf (h1.wf h), fun a h => h2.written a (h1.written a h)⟩, rfl⟩

theorem CodecStep.answer (h : CodecStep s t) (r : Reply) : CodecStep s (answer r t) :=
  h.trans ⟨t.fb, t.counters, r, ⟨id, fun _ => id⟩, rfl⟩

theorem CodecStep.answered {x : Except Fault State} (hx : ∀ u, x = .ok u → CodecStep s u) {r : Reply}
    (he : x.map (Machine.answer r) = .ok t) : CodecStep s t := by
  obtain ⟨u, hu, rfl⟩ := except_map_eq_ok.mp he
  exact (hx u hu).answer r

theorem CodecStep.fbWrite {off : Nat} {bytes : List Byte} (he : fbWrite off bytes s = .ok t) : CodecStep s t := by
  obtain ⟨hb, rfl⟩ := fbWrite_ok.mp he
  exact ⟨_, s.counters, s.hostReply,
    ⟨fun h => memWriteAll_wf bytes hb h, fun a h => memRead_memWriteAll_isSome _ _ _ _ h⟩, rfl⟩

theorem CodecStep.appendChecksum (he : appendChecksum s = .ok t) : CodecStep s t := by
  obtain ⟨ml, -, he⟩ := except_bind_eq_ok.mp he
  obtain ⟨c, -, he⟩ := except_bind_eq_ok.mp he
  exact .fbWrite he

theorem CodecStep.validateReply {len : Nat} (he : validateReply len s = .ok t) : CodecStep s t := by
  obtain ⟨⟨v, after⟩, hv, he⟩ := except_bind_eq_ok.mp he
  obtain ⟨counters, rfl⟩ := validateFrame_counters hv
  have hcount : CodecStep s { s with counters := counters } := ⟨s.fb, counters, s.hostReply, ⟨id, fun _ => id⟩, rfl⟩
  dsimp only at he
  split at he
  · obtain ⟨hd, -, he⟩ := except_bind_eq_ok.mp he
    cases he; exact hcount.answer _
  · cases he; exact hcount.answer _

theorem CodecStep.buildReplyHeader {own : Uid} {rtype msgCount pdl : Byte}
    (he : buildReplyHeader own rtype msgCount pdl s = .ok t) : CodecStep s t := by
  obtain ⟨reqSrc, -, he⟩ := except_bind_eq_ok.mp he
  obtain ⟨cc, -, he⟩ := except_bind_eq_ok.mp he
  split at he
  · cases he
  · obtain ⟨s1, h1, he⟩ := except_bind_eq_ok.mp he
    obtain ⟨s2, h2, he⟩ := except_bind_eq_ok.mp he
    obtain ⟨s3, h3, he⟩ := except_bind_eq_ok.mp he
    obtain ⟨s4, h4, he⟩ := except_bind_eq_ok.mp he
    obtain ⟨s5, h5, he⟩ := except_bind_eq_ok.mp he
    exact (((((fbWrite h1).trans (fbWrite h2)).trans (fbWrite h3)).trans (fbWrite h4)).trans (fbWrite h5)).trans
      (fbWrite he)

theorem CodecStep.dubEncode {uid : Uid} (he : dubEncode uid s = .ok t) : CodecStep s t := by
  obtain ⟨s1, h1, he⟩ := except_bind_eq_ok.mp he
  obtain ⟨c, -, he⟩ := except_bind_eq_ok.mp he
  exact (fbWrite h1).trans (fbWrite he)

theorem CodecStep.dubRespond {own : Uid} {muted : Bool} {n : Int} (he : dubRespond own muted s = .ok (n, t)) :
    CodecStep s t := by
  unfold Machine.dubRespond at he
  split at he
  · cases he; exact .refl s
  · obtain ⟨pdl, -, he⟩ := except_bind_eq_ok.mp he
    split at he
    · obtain ⟨hit, -, he⟩ := except_bind_eq_ok.mp he
      split at he
      · obtain ⟨u, hu, heq⟩ := except_map_eq_ok.mp he
        cases heq; exact dubEncode hu
      · cases he; exact .refl s
    · cases he; exact .refl s

/-- A codec operation that answers a next state: it is rejected at the host port, or the owner of `fb` makes its step. -/
theorem codecOp_step {x : Except Fault State} (hx : ∀ u, x = .ok u → CodecStep s u) (he : codecOp s x = .next t) :
    CodecStep s t ∧ (t.fb ≠ s.fb → s.agent = .collaborator ∧ s.fbOwner = .responder) := by
  rcases codecOp_next he with ⟨_, rfl⟩ | ⟨hl, hok⟩
  · exact ⟨(CodecStep.refl s).answer _, fun h => absurd rfl h⟩
  · exact ⟨hx t hok, fun _ => codecAccess_legal.mp hl⟩

end

/-- Every codec instruction makes a `CodecStep`, and writes `fb` for its owner only (R55, R97). -/
theorem exec_codec {i : Instr} {s t : State} (hi : Safety.isCodecOp i = true) (he : exec i s = .next t) :
    CodecStep s t ∧ (t.fb ≠ s.fb → s.agent = .collaborator ∧ s.fbOwner = .responder) := by
  cases i with
  | pushU16 off v => exact codecOp_step (fun _ => .answered fun _ => .fbWrite) he
  | pushU32 off v => exact codecOp_step (fun _ => .answered fun _ => .fbWrite) he
  | checksum16 off n =>
    refine codecOp_step (fun u hu => ?_) he
    obtain ⟨c, -, rfl⟩ := except_map_eq_ok.mp hu
    exact (CodecStep.refl s).answer _
  | appendChecksum => exact codecOp_step (fun _ => .answered fun _ => .appendChecksum) he
  | validate len => exact codecOp_step (fun _ => .validateReply) he
  | buildReplyHeader own rtype msgCount pdl =>
    refine codecOp_step (fun u hu => ?_) he
    split at hu
    · exact .answered (fun _ => .buildReplyHeader) hu
    · cases hu; exact (CodecStep.refl s).answer _
  | dubEncode uid => exact codecOp_step (fun _ => .answered fun _ => .dubEncode) he
  | dubRespond own muted =>
    refine codecOp_step (fun u hu => ?_) he
    obtain ⟨⟨n, v⟩, hv, rfl⟩ := except_map_eq_ok.mp hu
    exact (CodecStep.dubRespond hv).answer _
  | uidCompare a b => exact codecOp_step (fun u hu => by cases hu; exact (CodecStep.refl s).answer _) he
  | _ => exact absurd hi (by simp [Safety.isCodecOp, Instr.opcode])

end Sys2Proof.Machine

namespace Sys2Proof.Safety

open Sys2Proof.Machine

/-! ### Steps that either mode takes -/

section
variable {s t : State}

/-- The components that no clause of the invariant reads. -/
theorem BlockInv.bookkeeping (h : BlockInv s) (agent : Agent) (inbox : List Stimulus) (ticks : U32)
    (counters : Counters) (timer : FineTimer) (reply : Reply) (delivered : List Completion) :
    BlockInv { s with
      agent := agent, inbox := inbox, coarseTicks := ticks, counters := counters, timer := timer, hostReply := reply
      delivered := delivered } where
  seq := { h.seq with }
  buf := { h.buf with }
  cls := { h.cls with }
  tick := { h.tick with }
  captured := { h.captured with }

theorem BlockInv.answer (h : BlockInv s) (r : Reply) : BlockInv (answer r s) := h.bookkeeping _ _ _ _ _ _ _

theorem BlockInv.setParams (h : BlockInv s) {p : Params} (hp : ParamsLegal p) : BlockInv { s with params := p } where
  seq := { h.seq with }
  buf := { h.buf with paramsLegal := hp }
  cls := { h.cls with }
  tick := { h.tick with }
  captured := { h.captured with }

theorem nextTick_due (h : TickInv s) (hd : tickDue s = true) :
    s.time ≤ (nextTick s).due ∧ (nextTick s).due ≤ s.time + 100000 := by
  have hahead := h.ahead
  cases hs : s.tick.settled
  case false => simp [nextTick, hs, Config.coarseTick]
  case true =>
    have hdue : s.tick.due ≤ s.time := by simpa [tickDue, hs] using hd
    simp only [nextTick, hs, if_true, Config.coarseTick]
    omega

/-- R120: a due tick puts the next one a period later. -/
theorem BlockInv.coarseTick (h : BlockInv s) (hd : tickDue s = true) :
    BlockInv { s with coarseTicks := s.coarseTicks + 1#32, tick := nextTick s } where
  seq := { h.seq with }
  buf := { h.buf with }
  cls := { h.cls with }
  tick := ⟨(nextTick_due h.tick hd).1, (nextTick_due h.tick hd).2⟩
  captured := { h.captured with }

/-- R4, R120: time passes, up to the next tick. -/
theorem BlockInv.elapse (h : BlockInv s) {now : Nat} (hle : s.time ≤ now) (hdue : now ≤ s.tick.due) :
    BlockInv { s with time := now } where
  seq := { h.seq with }
  buf := { h.buf with }
  cls := { h.cls with }
  tick := ⟨hdue, h.tick.near.trans (Nat.add_le_add_right hle _)⟩
  captured := { h.shared.captured.later hle with }

/-- R207: in RESP_GUARD the transmitter has nothing left to shift. -/
theorem uartShift_guard (h : BlockInv s) (hg : s.respState = .guard) : uartShift s = s :=
  uartShift_empty (h.buf.guardQuiet hg).2 (h.buf.guardQuiet hg).1

/-- R207: the transmitter's own step moves the UART and the wire only. -/
theorem uartShift_frame (s : State) : ∃ uart wire, uartShift s = { s with uart := uart, wire := wire } := by
  rcases uartShift_cases s with he | ⟨_, he⟩ | ⟨_, _, _, _, he⟩ <;> exact ⟨_, _, he⟩

theorem BlockInv.uartShift (h : BlockInv s) : BlockInv (uartShift s) := by
  by_cases hg : s.respState = .guard
  · rw [uartShift_guard h hg]; exact h
  · have huart := h.shared.uart.shift
    obtain ⟨uart, wire, he⟩ := uartShift_frame s
    rw [he] at huart ⊢
    exact {
      seq := { h.seq with uartQuiet := huart.quiet }
      buf := { h.buf with fifoBound := huart.bound, guardQuiet := fun hc => absurd hc hg }
      cls := { h.cls with }
      tick := { h.tick with }
      captured := { h.captured with } }

/-- R178: an admitted entry. -/
theorem BlockInv.enqueue (h : BlockInv s) {e : Entry} (hroom : queueHasRoom s = true)
    (hlen : e.data.length ≤ Config.frameBufSize) (hcls : e.cls ≠ .modeChange) :
    BlockInv { s with txQueue := s.txQueue ++ [e] } := by
  obtain ⟨hm, hr⟩ : s.mode = .controller ∧ s.txQueue.length < Config.txQueueDepth := by
    simpa [queueHasRoom] using hroom
  have hctrl := h.ctrl hm
  have hqueued : CtrlInv s.ctrlState { s with txQueue := s.txQueue ++ [e] } :=
    { hctrl with shared := { hctrl.shared with queue := hctrl.shared.queue.snoc hr hlen hcls } }
  exact hqueued.blockInv h.buf.eventsFit

/-- R383: a delivery. -/
theorem BlockInv.deliver (h : BlockInv s) : BlockInv (deliver s) := by
  unfold Machine.deliver
  split
  · exact h
  · rename_i ev rest he
    have hfit := h.buf.eventsFit
    rw [he] at hfit
    exact {
      seq := { h.seq with }
      buf := { h.buf with eventsFit := completionsFit_mono (Nat.le_succ _) hfit }
      cls := { h.cls with }
      tick := { h.tick with }
      captured := { h.captured with } }

theorem BlockInv.codec (h : BlockInv s) (hs : CodecStep s t) : BlockInv t := by
  obtain ⟨fb, counters, reply, hgrow, rfl⟩ := hs
  exact {
    seq := { h.seq with }
    buf := { h.buf with
      fbWf := hgrow.wf h.buf.fbWf
      rxWritten := fun k hk => hgrow.written k (h.buf.rxWritten k hk) }
    cls := { h.cls with }
    tick := { h.tick with }
    captured := { h.captured with } }

/-! ### Outcomes -/

theorem BlockInv.of_next {u : State} (h : BlockInv u) (he : (.next u : Outcome) = .next t) : BlockInv t := by
  cases he; exact h

/-- A step that may have posted: the events fit where they grew, and still fit where they did not (R380, U7). -/
theorem BlockInv.of_live (h : BlockInv s) (hl : LiveInv t)
    (hf : t.completions.length ≤ s.completions.length ∨ Config.completionsFit t.completions.length = true) :
    BlockInv t :=
  blockInv_iff.mpr ⟨hf.elim (fun hle => completionsFit_mono hle h.buf.eventsFit) id, hl⟩

theorem BlockInv.settle {u : State} (h : BlockInv s) (hl : LiveInv u) (he : settle s u = .next t) : BlockInv t := by
  obtain ⟨rfl, hf⟩ := settle_next he
  exact h.of_live hl hf

theorem BlockInv.of_settle {u : State} (h : BlockInv u) (he : Machine.settle s u = .next t) : BlockInv t := by
  obtain ⟨rfl, -⟩ := settle_next he
  exact h

theorem BlockInv.internalOnly {e : Outcome} (h : BlockInv s) (he : internalOnly s e = .next t)
    (hk : e = .next t → BlockInv t) : BlockInv t := by
  rcases internalOnly_next he with ⟨_, rfl⟩ | ⟨_, he⟩
  · exact h.answer _
  · exact hk he

/-- An event taken by the sequencer of the mode. -/
theorem BlockInv.byMode {c r : Except Fault State} (h : BlockInv s) (he : byMode s c r = .next t)
    (hc : CtrlInv s.ctrlState s → c = .ok t → ∃ c', CtrlInv c' t)
    (hr : RespInv s.respState s → r = .ok t → ∃ r', RespInv r' t) : BlockInv t := by
  obtain ⟨⟨hm, ht⟩ | ⟨hm, ht⟩, hf⟩ := byMode_next he
  · exact h.of_live (.inl (hc (h.ctrl hm) ht)) hf
  · exact h.of_live (.inr (hr (h.resp hm) ht)) hf

/-- A line event reaches the sequencer at its own instant only (R211). -/
theorem BlockInv.lineEvent {u : U64} {c r : Except Fault State} (h : BlockInv s)
    (he : lineEvent u s (Machine.byMode s c r) = .next t)
    (hc : CtrlInv s.ctrlState s → u.toNat ≤ s.time → c = .ok t → ∃ c', CtrlInv c' t)
    (hr : RespInv s.respState s → u.toNat ≤ s.time → r = .ok t → ∃ r', RespInv r' t) : BlockInv t := by
  rcases lineEvent_next he with ⟨_, rfl⟩ | ⟨_, _, rfl⟩ | ⟨_, hu, he⟩
  · exact h.answer _
  · exact h
  · exact h.byMode he (fun hi => hc hi hu.le) (fun hi => hr hi hu.le)

/-! ### Host operations -/

theorem BlockInv.acceptParams {p : Params} (h : BlockInv s) (he : acceptParams p s = .next t) (hp : ParamsLegal p) :
    BlockInv t :=
  ((h.setParams hp).answer _).of_next he

theorem BlockInv.reject (h : BlockInv s) (he : rejectOp s = .next t) : BlockInv t := (h.answer _).of_next he

theorem BlockInv.enqueueFrame {token : U16} {cls : FrameClass} {sc : Byte} {bytes : List Byte} (h : BlockInv s)
    (he : enqueueFrame token cls sc bytes s = .next t) (hcls : cls ≠ .modeChange) : BlockInv t := by
  unfold Machine.enqueueFrame at he
  split at he
  · rename_i hadmit
    have hlen : (sc :: bytes).length ≤ Config.frameBufSize := Nat.succ_le_succ hadmit.2
    exact ((h.enqueue (e := ⟨token, cls, sc :: bytes⟩) hadmit.1 hlen hcls).answer _).of_next he
  · exact h.reject he

/-- R177: after `abort_all` the block may be of either mode. -/
theorem SharedInv.abortAll (h : SharedInv s) (mode : Mode) : LiveInv { Machine.abortAll s with mode := mode } := by
  have hs : SharedInv { Machine.abortAll s with mode := mode } := by
    simp only [Machine.abortAll, setDir, flush, setLine]
    exact { h with
      captured := { h.captured with }
      reception := h.reception.restart
      queue := .nil
      uart := .idle _ _
      slots := ⟨Nat.zero_le _, Nat.zero_le _, Nat.zero_le _⟩ }
  cases mode
  · exact .inl ⟨.idle, rfl, rfl, rfl, hs, rfl, rfl, rfl, rfl, rfl, nofun, trivial⟩
  · exact .inr ⟨.idle, rfl, rfl, rfl, hs, rfl, rfl, rfl, rfl, rfl, rfl, nofun, nofun, nofun⟩

theorem LiveInv.changeMode (h : LiveInv s) (hs : SharedInv s) (mode : Mode) : LiveInv (changeMode mode s) := by
  unfold Machine.changeMode
  split
  · exact h
  · exact hs.abortAll mode

/-- Replies and posted events are not the sequencers'. -/
theorem LiveInv.reply (h : LiveInv s) (reply : Reply) (events : List Completion) :
    LiveInv { s with hostReply := reply, completions := events } := by
  rcases h with ⟨c, h⟩ | ⟨r, h⟩
  · exact .inl ⟨c, { h with shared := { h.shared with } }⟩
  · exact .inr ⟨r, { h with shared := { h.shared with } }⟩

theorem BlockInv.setMode {mode : Mode} {hasToken : Bool} {token : U16} (h : BlockInv s)
    (he : execSetMode mode hasToken token s = .next t) : BlockInv t := by
  have hl := h.live.changeMode h.shared mode
  refine h.settle ?_ he
  split
  · exact hl.reply _ _
  · exact hl.reply _ _

theorem BlockInv.reset (h : BlockInv s) (he : execReset s = .next t) : BlockInv t :=
  h.settle ((h.shared.abortAll s.mode).reply _ _) he

theorem BlockInv.enqueueSelfTest {token : U16} (h : BlockInv s) (he : execQueueSelfTest token s = .next t) :
    BlockInv t := by
  unfold execQueueSelfTest at he
  split at he
  · exact ((h.enqueue (e := ⟨token, .selfTest, []⟩) ‹_› (Nat.zero_le _) nofun).answer _).of_next he
  · exact h.reject he

theorem BlockInv.setBreakTime {v : U16} (h : BlockInv s) (he : execSetBreakTime v s = .next t) : BlockInv t := by
  unfold execSetBreakTime at he
  split at he
  · rename_i hv
    exact h.acceptParams he { h.buf.paramsLegal with breakTime := of_decide_eq_true (p := _ ∧ _) hv }
  · exact h.reject he

theorem BlockInv.setMarkTime {v : U16} (h : BlockInv s) (he : execSetMarkTime v s = .next t) : BlockInv t := by
  unfold execSetMarkTime at he
  split at he
  · rename_i hv
    exact h.acceptParams he { h.buf.paramsLegal with markTime := of_decide_eq_true (p := _ ∧ _) hv }
  · exact h.reject he

theorem BlockInv.setResponderDelay {v : U32} (h : BlockInv s) (he : execSetResponderDelay v s = .next t) :
    BlockInv t := by
  unfold execSetResponderDelay at he
  split at he
  · rename_i hv
    exact h.acceptParams he { h.buf.paramsLegal with responderDelay := of_decide_eq_true (p := _ ∧ _) hv }
  · exact h.reject he

theorem BlockInv.readCounter {index : Byte} (h : BlockInv s) (he : execReadCounter index s = .next t) :
    BlockInv t := by
  unfold execReadCounter at he
  split at he
  · exact (h.answer _).of_next he
  · exact h.reject he

theorem BlockInv.incrementCounter {index : Byte} (h : BlockInv s) (he : execIncrementCounter index s = .next t) :
    BlockInv t := by
  refine h.internalOnly he fun he => ?_
  split at he
  · split at he
    · exact h.reject he
    · exact (h.bookkeeping _ _ _ _ _ _ _).of_next he
  · exact h.reject he

/-! ### Events -/

theorem BlockInv.timerMatch (h : BlockInv s) (he : execTimerMatch s = .next t) : BlockInv t := by
  refine h.internalOnly he fun he => ?_
  split at he
  · exact h.byMode he
      (fun hc => (hc.note hc.shared.captured _ _ _ _).timerMatch)
      (fun hr => (hr.note hr.shared.captured _ _).timerMatch)
  · exact h.of_next he

theorem BlockInv.fifoSpace (h : BlockInv s) (he : execTxFifoSpace s = .next t) : BlockInv t := by
  refine h.internalOnly he fun he => ?_
  split at he
  · rename_i hdue
    obtain ⟨hwrite, _⟩ : inWriteState s = true ∧ _ := by simpa only [fifoSpaceDue, Bool.and_eq_true] using hdue
    refine h.byMode he (fun hc ht => ?_) (fun hr ht => ?_)
    · have hs : s.ctrlState = .writeSlots := by simpa [inWriteState, hc.mode] using hwrite
      exact (hs ▸ hc).fifoSpace ht
    · have hs : s.respState = .writeSlots := by simpa [inWriteState, hr.mode] using hwrite
      exact (hs ▸ hr).fifoSpace ht
  · exact h.of_next he

theorem BlockInv.shiftEmpty (h : BlockInv s) (he : execTxShiftEmpty s = .next t) : BlockInv t := by
  refine h.internalOnly he fun he => ?_
  split at he
  · rename_i hdue
    obtain ⟨⟨hwait, hf⟩, hb⟩ : (inWaitState s = true ∧ s.uart.fifo = []) ∧ s.uart.busy = false := by
      simpa [shiftEmptyDue] using hdue
    refine h.byMode he (fun hc ht => ?_) (fun hr ht => ?_)
    · have hs : s.ctrlState = .waitTxDone := by simpa [inWaitState, hc.mode] using hwait
      cases ht
      exact (hs ▸ hc).shiftEmpty hf hb
    · have hs : s.respState = .waitTxDone := by simpa [inWaitState, hr.mode] using hwait
      cases ht
      exact ⟨_, (hs ▸ hr).shiftEmpty hf hb⟩
  · exact h.of_next he

theorem BlockInv.coarseTickEvent (h : BlockInv s) (he : execCoarseTick s = .next t) : BlockInv t := by
  refine h.internalOnly he fun he => BlockInv.of_next ?_ he
  split
  · exact h.coarseTick ‹_›
  · exact h

theorem BlockInv.handlerReturn {n : U16} (h : BlockInv s) (he : execHandlerReturn n s = .next t) : BlockInv t := by
  refine h.internalOnly he fun he => ?_
  split at he
  · rename_i hd
    unfold toOutcome at he
    split at he
    · rename_i hok
      cases he
      obtain ⟨hlive, hquiet⟩ := (hd.2.1 ▸ h.resp hd.1).handlerReturn hok
      exact h.of_live (.inr hlive) (.inl (congrArg List.length hquiet).le)
    · cases he
  · exact h.of_next he

/-- R384: the head of the queue, or a delivery. -/
theorem BlockInv.tasksQueue (h : BlockInv s) (he : Machine.settle s (Machine.tasksQueue s) = .next t) :
    BlockInv t := by
  unfold Machine.tasksQueue at he
  split at he
  case h_1 => exact h.deliver.of_settle he
  case h_2 e rest hq =>
    split at he
    · rename_i hidle
      have hc : CtrlInv .idle s := hidle.2 ▸ h.ctrl hidle.1
      split at he
      · exact h.settle (.inl ⟨_, hc.selfTest hq⟩) he
      · split at he
        · exact h.settle (.inl ⟨_, hc.startOperation hq ‹_›⟩) he
        · exact h.deliver.of_settle he
    · exact h.deliver.of_settle he

/-- R384: a frame that waits is the live sequencer's. -/
theorem frameWaiting_state (hw : frameWaiting s = true) :
    (s.mode = .controller → s.ctrlState = .frameToHost) ∧ (s.mode = .responder → s.respState = .complete) := by
  constructor <;> intro hm <;> simp_all [frameWaiting, ctrlFrameWaiting]

theorem BlockInv.tasks (h : BlockInv s) (he : execTasks s = .next t) : BlockInv t := by
  refine h.internalOnly he fun he => ?_
  split at he
  · rename_i hdue
    obtain ⟨⟨hm, _⟩, _⟩ : (s.mode = .controller ∧ _) ∧ _ := by
      simpa only [deadlineDue, Bool.and_eq_true, decide_eq_true_eq] using hdue
    exact h.settle (.inl ⟨_, (h.ctrl hm).deadlineAbort⟩) he
  · split at he
    · obtain ⟨hctrl, hresp⟩ := frameWaiting_state ‹_›
      exact h.byMode he
        (fun hc ht => ⟨_, (hctrl hc.mode ▸ hc).handUp ht⟩)
        (fun hr ht => (hresp hr.mode ▸ hr).consume ht)
    · exact h.tasksQueue he

/-! ### Every instruction, every step -/

theorem exec_keeps_blockInv {i : Instr} (h : BlockInv s) (he : exec i s = .next t) : BlockInv t := by
  by_cases hi : isCodecOp i = true
  · exact h.codec (exec_codec hi he).1
  · cases i with
    | setMode mode hasToken token => exact h.setMode he
    | reset => exact h.reset he
    | queueDmx token bytes => exact h.enqueueFrame he nofun
    | queueAsc token startCode bytes => exact h.enqueueFrame he nofun
    | queueRdmDub token bytes => exact h.enqueueFrame he nofun
    | queueRdmRequest token isBroadcast bytes => exact h.enqueueFrame he (by split <;> exact nofun)
    | queueSelfTest token => exact h.enqueueSelfTest he
    | setBreakTime v => exact h.setBreakTime he
    | setMarkTime v => exact h.setMarkTime he
    | setResponderDelay v => exact h.setResponderDelay he
    | setRdmResponseTimeout v | setResponderJitter v | setDubResponseLimit v =>
      exact h.acceptParams he { h.buf.paramsLegal with }
    | getBreakTime | getMarkTime | getRdmResponseTimeout | getResponderDelay | getResponderJitter
    | getDubResponseLimit | now | elapsed _ | delta _ _ | hasElapsed _ _ => exact (h.answer _).of_next he
    | setCounter n => exact (h.bookkeeping _ _ _ _ _ _ _).of_next he
    | readCounter index => exact h.readCounter he
    | resetCommsStatus => exact (h.bookkeeping _ _ _ _ _ _ _).of_next he
    | incrementCounter index => exact h.incrementCounter he
    | handlerReturn n => exact h.handlerReturn he
    | tasks => exact h.tasks he
    | coarseTick => exact h.coarseTickEvent he
    | timerMatch => exact h.timerMatch he
    | fall u =>
      exact h.lineEvent he (fun hc hu ht => by cases ht; exact hc.fall hu) (fun hr hu ht => by cases ht; exact hr.fall hu)
    | rise u => exact h.lineEvent he (fun hc hu ht => by cases ht; exact hc.rise hu) (fun hr hu => hr.rise hu)
    | byte u b => exact h.lineEvent he (fun hc hu => hc.byte b hu) (fun hr hu => hr.byte b hu)
    | err u kind =>
      exact h.lineEvent he (fun hc _ ht => by cases ht; exact hc.err kind) (fun hr _ ht => by cases ht; exact hr.err kind)
    | txFifoSpace => exact h.fifoSpace he
    | txShiftEmpty => exact h.shiftEmpty he
    | _ => exact absurd rfl hi

/-- The state that `fetch` hands on, to an instruction or as the end of the step. -/
def fetchedState : Fetched → State
  | .run _ u => u
  | .done u => u

theorem BlockInv.fetchPacket (h : BlockInv s) (legal : Agent → StepKind → Bool) (agent : Agent) (bytes : List Byte)
    (rest : List Stimulus) : BlockInv (fetchedState (fetchPacket legal agent bytes { s with inbox := rest })) := by
  unfold Machine.fetchPacket
  split
  · split <;> exact h.bookkeeping _ _ _ _ _ _ _
  · exact h.bookkeeping _ _ _ _ _ _ _

theorem BlockInv.fetchElapse (h : BlockInv s) (d : Nat) (rest : List Stimulus) :
    BlockInv (fetchedState (fetchElapse d rest s)) := by
  unfold Machine.fetchElapse
  split
  · exact (h.elapse (Nat.le_add_right _ _) ‹_›).bookkeeping _ _ _ _ _ _ _
  · split
    · exact (h.elapse h.tick.ahead (Nat.le_refl _)).bookkeeping _ _ _ _ _ _ _
    · exact h.bookkeeping _ _ _ _ _ _ _

theorem BlockInv.fetch (h : BlockInv s) : BlockInv (fetchedState (fetch s)) := by
  unfold Machine.fetch
  split
  · exact h
  · exact h.fetchPacket _ _ _ _
  · exact h.fetchPacket _ _ _ _
  · exact BlockInv.uartShift (h.bookkeeping _ _ _ _ _ _ _)
  · exact h.fetchElapse _ _

theorem step_keeps_blockInv (h : BlockInv s) (he : step s = .next t) : BlockInv t := by
  have hf := h.fetch
  unfold step at he
  split at he
  next i u hu => rw [hu] at hf; exact exec_keeps_blockInv hf he
  next u hu => rw [hu] at hf; cases he; exact hf

theorem reset_blockInv : BlockInv State.reset := by
  have hctrl : CtrlInv .idle State.reset := {
    mode := rfl, resp := rfl, ctrl := rfl, owner := rfl, valid := rfl, dir := rfl, line := rfl, ready := rfl
    txLen := nofun, cls := trivial
    shared := {
      tick := by decide
      captured := ⟨by decide, by decide, by decide, by decide, by decide, by decide⟩
      params := ⟨by decide, by decide, by decide⟩
      reception := ⟨rfl, Nat.zero_le _, nofun⟩
      queue := .nil
      opBound := Nat.zero_le _
      uart := ⟨Nat.zero_le _, by decide⟩
      slots := ⟨Nat.zero_le _, Nat.zero_le _, Nat.zero_le _⟩ } }
  exact hctrl.blockInv (completionsFit_small (Nat.zero_le _))

/-- R35 and the bounds hold in every state of every run. -/
theorem Reachable.blockInv (h : Reachable s) : BlockInv s := by
  induction h with
  | reset => exact reset_blockInv
  | place s stimuli _ _ ih => exact ih.bookkeeping _ _ _ _ _ _ _
  | step s t _ he ih => exact step_keeps_blockInv ih he

end
end Sys2Proof.Safety

namespace Sys2Proof.Proofs

open Sys2Proof Sys2Proof.Machine Sys2Proof.Safety

/-- Settles O55: `fetch` hands on a state of the invariant, and every instruction keeps it, in the view of the sequencer
that `mode` makes live. -/
theorem everyStepKeepsTheInvariant : Obligations.EveryStepKeepsTheInvariant := fun _ _ => step_keeps_blockInv

/-- Settles O56, by induction on the run, with O55's invariant. -/
theorem reachableStatesMeetR35 : Obligations.ReachableStatesMeetR35 := fun _ h => h.blockInv.seq

/-- Settles O53: each element of R34 as `State.reset` gives it. -/
theorem powerOnState : Obligations.PowerOnState :=
  ⟨State.reset, rfl, rfl, rfl, rfl, rfl, rfl, rfl, rfl, rfl, rfl, rfl, rfl, rfl, rfl, rfl, rfl, rfl, rfl, fun _ => rfl,
    rfl⟩

/-- Settles O54: power-on is a controller in IDLE. -/
theorem resetMeetsTheInvariant : Obligations.ResetMeetsTheInvariant := reset_blockInv

end Sys2Proof.Proofs

namespace Sys2Proof.Safety

open Sys2Proof.Machine

/-! ### Who writes `mode`, the parameters, the coarse counter and `fb` (R21, R10, R125, R55)

`Writes` composes, so a transition made of named updates has it from theirs; what touches none of the four has it under
any conditions. -/

/-- From `s` to `t` each of the four differs only under its condition. -/
structure Writes (m p c f : Prop) (s t : State) : Prop where
  mode : t.mode ≠ s.mode → m
  params : t.params ≠ s.params → p
  ticks : t.coarseTicks ≠ s.coarseTicks → c
  fb : t.fb ≠ s.fb → f

section
variable {m p c f : Prop} {s t u : State}

theorem Writes.none (h : t.mode = s.mode ∧ t.params = s.params ∧ t.coarseTicks = s.coarseTicks ∧ t.fb = s.fb) :
    Writes m p c f s t := by
  obtain ⟨hm, hp, hc, hf⟩ := h
  exact ⟨absurd hm, absurd hp, absurd hc, absurd hf⟩

theorem Writes.trans (h1 : Writes m p c f s t) (h2 : Writes m p c f t u) : Writes m p c f s u where
  mode h := (ne_or_eq t.mode s.mode).elim h1.mode fun he => h2.mode (he ▸ h)
  params h := (ne_or_eq t.params s.params).elim h1.params fun he => h2.params (he ▸ h)
  ticks h := (ne_or_eq t.coarseTicks s.coarseTicks).elim h1.ticks fun he => h2.ticks (he ▸ h)
  fb h := (ne_or_eq t.fb s.fb).elim h1.fb fun he => h2.fb (he ▸ h)

theorem Writes.of_next (h : Writes m p c f s u) (he : (.next u : Outcome) = .next t) : Writes m p c f s t := by
  cases he; exact h

theorem Writes.settle {b : State} (h : Writes m p c f s u) (he : settle b u = .next t) : Writes m p c f s t := by
  obtain ⟨rfl, -⟩ := settle_next he
  exact h

theorem Writes.internalOnly {e : Outcome} (he : internalOnly s e = .next t) (hk : e = .next t → Writes m p c f s t) :
    Writes m p c f s t := by
  rcases internalOnly_next he with ⟨_, rfl⟩ | ⟨_, he⟩
  · exact .none (by simp)
  · exact hk he

theorem Writes.byMode {x y : Except Fault State} (he : byMode s x y = .next t)
    (hx : s.mode = .controller → x = .ok t → Writes m p c f s t)
    (hy : s.mode = .responder → y = .ok t → Writes m p c f s t) : Writes m p c f s t := by
  obtain ⟨⟨hm, ht⟩ | ⟨hm, ht⟩, -⟩ := byMode_next he
  · exact hx hm ht
  · exact hy hm ht

theorem Writes.lineEvent {v : U64} {x y : Except Fault State}
    (he : lineEvent v s (Machine.byMode s x y) = .next t)
    (hx : s.mode = .controller → x = .ok t → Writes m p c f s t)
    (hy : s.mode = .responder → y = .ok t → Writes m p c f s t) : Writes m p c f s t := by
  rcases lineEvent_next he with ⟨_, rfl⟩ | ⟨_, _, rfl⟩ | ⟨_, _, he⟩
  · exact .none (by simp)
  · exact .none (by simp)
  · exact .byMode he hx hy

/-! #### Shared operations -/

theorem Writes.feed (he : feed s = .ok t) : Writes m p c f s t := by
  obtain ⟨bs, rfl, -⟩ := feed_ok he
  exact .none (by simp)

theorem Writes.startSlots (he : startSlots s = .ok t) : Writes m p c f s t := by
  obtain ⟨bs, rfl, -⟩ := startSlots_ok he
  exact .none (by simp)

theorem Writes.validate {len : Nat} {r : ValidateResult} (he : validateFrame len s = .ok (r, t)) :
    Writes m p c f s t := by
  obtain ⟨counters, rfl⟩ := validateFrame_counters he
  exact .none (by simp)

/-- R55, R221: a received byte goes into `fb` only while the transceiver owns it. -/
theorem Writes.storeByte (hf : s.fbOwner = .transceiver → f) (b : Byte) (v : Nat) :
    Writes m p c f s (storeByte b v s) := by
  rcases storeByte_cases b v s with ⟨ho, _, he⟩ | ⟨_, he⟩ <;> rw [he]
  · exact ⟨absurd rfl, absurd rfl, absurd rfl, fun _ => hf ho⟩
  · exact .none (by simp)

/-! #### The controller -/

theorem Writes.frameToHost : Writes m p c f s (frameToHost s) := by
  unfold Machine.frameToHost
  exact .none (by simp)

theorem Writes.ctrlAfterFeed : Writes m p c f s (ctrlAfterFeed s) := by
  unfold Machine.ctrlAfterFeed
  exact .none (by simp)

theorem Writes.ctrlTimerMatch (he : ctrlTimerMatch s = .ok t) : Writes m p c f s t := by
  unfold Machine.ctrlTimerMatch at he
  split at he
  case h_2 =>
    obtain ⟨u, hu, rfl⟩ := except_map_eq_ok.mp he
    exact (Writes.startSlots hu).trans .ctrlAfterFeed
  case h_4 | h_5 => cases he; exact .frameToHost
  all_goals cases he; exact .none (by simp)

theorem Writes.ctrlFifoSpace (he : ctrlFifoSpace s = .ok t) : Writes m p c f s t := by
  obtain ⟨u, hu, rfl⟩ := except_map_eq_ok.mp he
  refine (Writes.feed hu).trans ?_
  split <;> exact .none (by simp)

theorem Writes.ctrlShiftEmpty : Writes m p c f s (ctrlShiftEmpty s) := by
  unfold Machine.ctrlShiftEmpty
  split <;> exact .none (by simp)

theorem Writes.dubActivate (v : Nat) : Writes m p c f s (dubActivate v s) := by
  unfold Machine.dubActivate
  split <;> exact .none (by simp)

theorem Writes.ctrlFall (v : Nat) : Writes m p c f s (ctrlFall v s) := by
  unfold Machine.ctrlFall
  split
  case h_1 => split <;> exact .none (by simp)
  case h_2 =>
    split
    · split <;> exact .none (by simp)
    all_goals exact .none (by simp)
  case h_3 => exact .dubActivate v
  all_goals exact .none (by simp)

theorem Writes.ctrlRise (v : Nat) : Writes m p c f s (ctrlRise v s) := by
  unfold Machine.ctrlRise ctrlBreakEnd
  split
  · split
    · split <;> exact .none (by simp)
    · exact .none (by simp)
  all_goals exact .none (by simp)

theorem Writes.ctrlErr (kind : UartErr) : Writes m p c f s (ctrlErr kind s) := by
  unfold Machine.ctrlErr ctrlErrAbort
  split <;> exact .none (by simp)

theorem Writes.ctrlSlot (hf : s.fbOwner = .transceiver → f) {b : Byte} {v : Nat} (he : ctrlSlot b v s = .ok t) :
    Writes m p c f s t := by
  obtain ⟨d, -, he⟩ := except_bind_eq_ok.mp he
  have hstored (phase : RxPhase) : Writes m p c f s (Machine.storeByte b v (setPhase phase s)) :=
    .trans (.none (s := s) (t := setPhase phase s) (by simp)) (Writes.storeByte (s := setPhase phase s) hf b v)
  refine (hstored (if s.rx.phase = .inMark then .data else s.rx.phase)).trans ?_
  split at he <;> cases he
  · exact .trans (.none (t := disarm _) (by simp)) .frameToHost
  · exact .none (by simp)

theorem Writes.ctrlDubByte (hf : s.fbOwner = .transceiver → f) (b : Byte) (v : Nat) :
    Writes m p c f s (ctrlDubByte b v s) := by
  have howner : (Machine.dubActivate v s).fbOwner = s.fbOwner := by unfold Machine.dubActivate; split <;> rfl
  have hstored : Writes m p c f s (Machine.storeByte b v (Machine.dubActivate v s)) :=
    (Writes.dubActivate v).trans (.storeByte (fun ho => hf (howner ▸ ho)) b v)
  unfold Machine.ctrlDubByte
  dsimp only
  split
  · exact hstored.trans (.trans (.none (t := disarm _) (by simp)) .frameToHost)
  · exact hstored

/-- R242, R245, R252: a byte is stored in RX_SLOTS and AWAIT_DUB only. -/
theorem Writes.ctrlByte (hf : s.fbOwner = .transceiver → s.ctrlState = .rxSlots ∨ s.ctrlState = .awaitDub → f)
    {b : Byte} {v : Nat} (he : ctrlByte b v s = .ok t) : Writes m p c f s t := by
  unfold Machine.ctrlByte at he
  split at he
  case h_1 hs => exact .ctrlSlot (fun ho => hf ho (.inl hs)) he
  case h_2 hs => cases he; exact .ctrlDubByte (fun ho => hf ho (.inr hs)) b v
  all_goals cases he; exact .none (by simp)

theorem Writes.handUp (he : handUp s = .ok t) : Writes m p c f s t := by
  unfold Machine.handUp at he
  split at he
  · obtain ⟨bytes, -, he⟩ := except_bind_eq_ok.mp he
    cases he; exact .none (by simp)
  · obtain ⟨⟨r, checked⟩, hv, he⟩ := except_bind_eq_ok.mp he
    obtain ⟨bytes, -, he⟩ := except_bind_eq_ok.mp he
    cases he
    refine (Writes.validate hv).trans ?_
    split <;> exact .none (by simp)

theorem Writes.runSelfTest (e : Entry) (rest : List Entry) : Writes m p c f s (runSelfTest e rest s) := by
  unfold Machine.runSelfTest
  exact .none (by simp)

theorem Writes.startOperation (e : Entry) (rest : List Entry) : Writes m p c f s (startOperation e rest s) := by
  unfold Machine.startOperation
  exact .none (by simp)

theorem Writes.tasksQueue : Writes m p c f s (tasksQueue s) := by
  have hdeliver : Writes m p c f s (deliver s) := by
    unfold deliver
    split <;> exact .none (by simp)
  unfold Machine.tasksQueue
  split
  · exact hdeliver
  · split
    · split
      · exact .runSelfTest _ _
      · split
        · exact .startOperation _ _
        · exact hdeliver
    · exact hdeliver

/-! #### The responder -/

theorem Writes.respAfterFeed : Writes m p c f s (respAfterFeed s) := by
  unfold Machine.respAfterFeed
  exact .none (by simp)

theorem Writes.respComplete : Writes m p c f s (respComplete s) := by
  unfold Machine.respComplete
  exact .none (by simp)

theorem Writes.respBreakOk (v d : Nat) : Writes m p c f s (respBreakOk v d s) := by
  unfold Machine.respBreakOk
  exact .none (by simp)

theorem Writes.scheduleReply (len : Nat) (raw : Bool) : Writes m p c f s (scheduleReply len raw s) := by
  unfold Machine.scheduleReply
  exact .none (by simp)

theorem Writes.respShiftEmpty : Writes m p c f s (respShiftEmpty s) := by
  unfold Machine.respShiftEmpty
  exact .none (by simp)

theorem Writes.respTimerMatch (he : respTimerMatch s = .ok t) : Writes m p c f s t := by
  unfold Machine.respTimerMatch at he
  split at he
  case h_1 => cases he; exact .respComplete
  case h_2 =>
    unfold startReply at he
    split at he
    · obtain ⟨u, hu, rfl⟩ := except_map_eq_ok.mp he
      exact .trans (.none (t := { setDir .tx s with tx := { index := 0, len := s.reply.len } }) (by simp))
        ((Writes.startSlots hu).trans .respAfterFeed)
    · cases he; exact .none (by simp)
  case h_4 =>
    obtain ⟨u, hu, rfl⟩ := except_map_eq_ok.mp he
    exact (Writes.startSlots hu).trans .respAfterFeed
  all_goals cases he; exact .none (by simp)

theorem Writes.respFifoSpace (he : respFifoSpace s = .ok t) : Writes m p c f s t := by
  obtain ⟨u, hu, rfl⟩ := except_map_eq_ok.mp he
  refine (Writes.feed hu).trans ?_
  split <;> exact .none (by simp)

theorem Writes.respDiscardReply : Writes m p c f s (respDiscardReply s) := by
  unfold Machine.respDiscardReply
  exact .none (by simp)

theorem Writes.respFall (v : Nat) : Writes m p c f s (respFall v s) := by
  unfold Machine.respFall
  split
  · exact Writes.respDiscardReply.trans (.none (by simp))
  · split <;> exact .none (by simp)

theorem Writes.respBreakInside {v d : Nat} (he : respBreakInside v d s = .ok t) : Writes m p c f s t := by
  obtain ⟨counted, hf, he⟩ := except_bind_eq_ok.mp he
  obtain ⟨counters, rfl⟩ := finalizeCut_counters hf
  split at he <;> cases he
  · refine .trans (.none (t := { disarm s with counters := counters, timing.tFall := s.timing.lastFall }) (by simp)) ?_
    exact .respBreakOk _ _
  · exact .none (by simp)

theorem Writes.respBreakEnd (v d : Nat) : Writes m p c f s (respBreakEnd v d s) := by
  unfold Machine.respBreakEnd
  split
  · exact .respBreakOk _ _
  · exact .none (by simp)

theorem Writes.respRiseInside {v : Nat} (he : respRiseInside v s = .ok t) : Writes m p c f s t := by
  unfold Machine.respRiseInside at he
  split at he
  · exact .respBreakInside he
  · cases he; exact .none (by simp)

theorem Writes.respRise {v : Nat} (he : respRise v s = .ok t) : Writes m p c f s t := by
  unfold Machine.respRise at he
  split at he
  · cases he; exact Writes.respDiscardReply.trans (.none (by simp))
  · split at he
    case h_1 => cases he; exact .respBreakEnd _ _
    case h_2 | h_3 => exact .respRiseInside he
    all_goals cases he; exact .none (by simp)

theorem Writes.respErr (kind : UartErr) : Writes m p c f s (respErr kind s) := by
  unfold Machine.respErr respErrAbort
  split <;> exact .none (by simp)

/-- R283, R284: a byte is stored in MEASURE_MAB and COLLECT_SLOTS only. -/
theorem Writes.respByte (hf : s.fbOwner = .transceiver → s.respState = .measureMab ∨ s.respState = .collectSlots → f)
    {b : Byte} {v : Nat} (he : respByte b v s = .ok t) : Writes m p c f s t := by
  unfold Machine.respByte at he
  split at he
  case h_1 hs =>
    obtain ⟨wait, -, he⟩ := except_bind_eq_ok.mp he
    cases he
    exact (Writes.storeByte (fun ho => hf ho (.inl hs)) b v).trans (.none (by simp))
  case h_2 hs =>
    refine (Writes.storeByte (fun ho => hf ho (.inr hs)) b v).trans ?_
    obtain ⟨done, -, he⟩ := except_bind_eq_ok.mp he
    split at he
    · cases he; exact .trans (.none (t := disarm _) (by simp)) .respComplete
    · obtain ⟨wait, -, he⟩ := except_bind_eq_ok.mp he
      cases he; exact .none (by simp)
  all_goals cases he; exact .none (by simp)

theorem Writes.respConsume (he : respConsume s = .ok t) : Writes m p c f s t := by
  obtain ⟨sc, -, he⟩ := except_bind_eq_ok.mp he
  split at he
  · cases he; exact .none (by simp)
  · split at he
    · obtain ⟨⟨r, checked⟩, hv, he⟩ := except_bind_eq_ok.mp he
      refine .trans (.none (t := clearFrameReady s) (by simp)) ((Writes.validate hv).trans ?_)
      dsimp only at he
      split at he
      · obtain ⟨hd, -, he⟩ := except_bind_eq_ok.mp he
        cases he; exact .none (by simp)
      · cases he; exact .none (by simp)
    · cases he; exact .none (by simp)

theorem Writes.respHandlerReturn {n : Int} (he : respHandlerReturn n s = .ok t) : Writes m p c f s t := by
  unfold Machine.respHandlerReturn at he
  split at he
  · cases he
  · split at he
    · cases he; exact .trans (.none (t := reclaimFb s) (by simp)) (.scheduleReply _ _)
    · split at he <;> cases he
      · exact .trans (.none (t := reclaimFb s) (by simp)) (.scheduleReply _ _)
      · exact .none (by simp)

/-! #### Instructions -/

theorem Writes.execTimerMatch (he : execTimerMatch s = .next t) : Writes m p c f s t := by
  refine .internalOnly he fun he => ?_
  split at he
  · exact .byMode he (fun _ ht => .trans (.none (t := disarm s) (by simp)) (.ctrlTimerMatch ht))
      (fun _ ht => .trans (.none (t := disarm s) (by simp)) (.respTimerMatch ht))
  · exact Writes.of_next (.none (by simp)) he

theorem Writes.execTxFifoSpace (he : execTxFifoSpace s = .next t) : Writes m p c f s t := by
  refine .internalOnly he fun he => ?_
  split at he
  · exact .byMode he (fun _ => .ctrlFifoSpace) (fun _ => .respFifoSpace)
  · exact Writes.of_next (.none (by simp)) he

theorem Writes.execTxShiftEmpty (he : execTxShiftEmpty s = .next t) : Writes m p c f s t := by
  refine .internalOnly he fun he => ?_
  split at he
  · exact .byMode he (fun _ ht => by cases ht; exact .ctrlShiftEmpty) (fun _ ht => by cases ht; exact .respShiftEmpty)
  · exact Writes.of_next (.none (by simp)) he

theorem Writes.execTasks (he : execTasks s = .next t) : Writes m p c f s t := by
  refine .internalOnly he fun he => ?_
  split at he
  · exact Writes.settle (.none (by simp)) he
  · split at he
    · exact .byMode he (fun _ => .handUp) (fun _ => .respConsume)
    · exact Writes.tasksQueue.settle he

theorem Writes.execHandlerReturn {n : U16} (he : execHandlerReturn n s = .next t) : Writes m p c f s t := by
  refine .internalOnly he fun he => ?_
  split at he
  · unfold toOutcome at he
    split at he
    · rename_i hok
      cases he; exact .respHandlerReturn hok
    · cases he
  · exact Writes.of_next (.none (by simp)) he

theorem Writes.execIncrementCounter {index : Byte} (he : execIncrementCounter index s = .next t) :
    Writes m p c f s t := by
  refine .internalOnly he fun he => ?_
  split at he
  · split at he <;> exact Writes.of_next (.none (by simp)) he
  · exact Writes.of_next (.none (by simp)) he

theorem Writes.execReadCounter {index : Byte} (he : execReadCounter index s = .next t) : Writes m p c f s t := by
  unfold Machine.execReadCounter at he
  split at he <;> exact Writes.of_next (.none (by simp)) he

theorem Writes.enqueueFrame {token : U16} {cls : FrameClass} {sc : Byte} {bytes : List Byte}
    (he : enqueueFrame token cls sc bytes s = .next t) : Writes m p c f s t := by
  unfold Machine.enqueueFrame at he
  split at he <;> exact Writes.of_next (.none (by simp)) he

theorem Writes.execQueueSelfTest {token : U16} (he : execQueueSelfTest token s = .next t) : Writes m p c f s t := by
  unfold Machine.execQueueSelfTest at he
  split at he <;> exact Writes.of_next (.none (by simp)) he

/-- R21: a mode change writes `mode`, whatever it aborts. -/
theorem Writes.execSetMode (hm : m) {mode : Mode} {hasToken : Bool} {token : U16}
    (he : execSetMode mode hasToken token s = .next t) : Writes m p c f s t := by
  have hchange : Writes m p c f s (changeMode mode s) := by
    unfold changeMode
    split
    · exact .none (by simp)
    · exact .trans (.none (t := abortAll s) (by simp)) ⟨fun _ => hm, absurd rfl, absurd rfl, absurd rfl⟩
  refine (hchange.trans ?_).settle he
  split <;> exact .none (by simp)

/-- R125: the tick and the test injection write `coarse_ticks`. -/
theorem Writes.ticks_only (hc : c) (n : U32) (tick : TickPhase) :
    Writes m p c f s { s with coarseTicks := n, tick := tick } :=
  ⟨absurd rfl, absurd rfl, fun _ => hc, absurd rfl⟩

theorem Writes.execCoarseTick (hc : c) (he : execCoarseTick s = .next t) : Writes m p c f s t := by
  refine .internalOnly he fun he => Writes.of_next ?_ he
  split
  · exact .ticks_only hc _ _
  · exact .none (by simp)

/-- R10: a setter, accepted or not, writes the parameters only. -/
theorem Writes.setter (hp : p) {legal : Bool} {q : Params}
    (he : (if legal = true then acceptParams q s else rejectOp s) = .next t) : Writes m p c f s t := by
  split at he
  · refine Writes.of_next ?_ he
    exact ⟨absurd rfl, fun _ => hp, absurd rfl, absurd rfl⟩
  · exact Writes.of_next (.none (by simp)) he

theorem Writes.codec (hs : CodecStep s t) (hf : t.fb ≠ s.fb → f) : Writes m p c f s t := by
  obtain ⟨fb, counters, reply, -, rfl⟩ := hs
  exact ⟨absurd rfl, absurd rfl, absurd rfl, hf⟩

end
end Sys2Proof.Safety

namespace Sys2Proof.Proofs

open Sys2Proof Sys2Proof.Machine Sys2Proof.Safety

/-- Settles O59: the codec by its own step law, every other instruction by what it is made of. -/
theorem onlyTheirWritersWriteRegisters : Obligations.OnlyTheirWritersWriteRegisters := by
  intro i s t he
  refine (fun h : Writes _ _ _ _ s t => ⟨h.mode, h.params, h.ticks, h.fb⟩) ?_
  by_cases hi : isCodecOp i = true
  · obtain ⟨hs, howner⟩ := exec_codec hi he
    exact .codec hs fun h => .inl ⟨hi, howner h⟩
  · cases i with
    | setMode mode hasToken token => exact .execSetMode ⟨_, _, _, rfl⟩ he
    | reset => exact Writes.settle (.none (by simp)) he
    | queueDmx token bytes => exact .enqueueFrame he
    | queueAsc token startCode bytes => exact .enqueueFrame he
    | queueRdmDub token bytes => exact .enqueueFrame he
    | queueRdmRequest token isBroadcast bytes => exact .enqueueFrame he
    | queueSelfTest token => exact .execQueueSelfTest he
    | setBreakTime v => exact .setter (.inl ⟨_, rfl⟩) he
    | setMarkTime v => exact .setter (.inr (.inl ⟨_, rfl⟩)) he
    | setRdmResponseTimeout v => exact .setter (legal := true) (.inr (.inr (.inl ⟨_, rfl⟩))) he
    | setResponderDelay v => exact .setter (.inr (.inr (.inr (.inl ⟨_, rfl⟩)))) he
    | setResponderJitter v => exact .setter (legal := true) (.inr (.inr (.inr (.inr (.inl ⟨_, rfl⟩))))) he
    | setDubResponseLimit v => exact .setter (legal := true) (.inr (.inr (.inr (.inr (.inr ⟨_, rfl⟩))))) he
    | getBreakTime | getMarkTime | getRdmResponseTimeout | getResponderDelay | getResponderJitter
    | getDubResponseLimit | now | elapsed _ | delta _ _ | hasElapsed _ _ | resetCommsStatus =>
      exact Writes.of_next (.none (by simp)) he
    | setCounter n => exact ((Writes.ticks_only (.inr ⟨_, rfl⟩) n s.tick).trans (.none (by simp))).of_next he
    | readCounter index => exact .execReadCounter he
    | incrementCounter index => exact .execIncrementCounter he
    | handlerReturn n => exact .execHandlerReturn he
    | tasks => exact .execTasks he
    | coarseTick => exact .execCoarseTick (.inl rfl) he
    | timerMatch => exact .execTimerMatch he
    | fall u =>
      exact .lineEvent he (fun _ ht => by cases ht; exact .ctrlFall _) (fun _ ht => by cases ht; exact .respFall _)
    | rise u => exact .lineEvent he (fun _ ht => by cases ht; exact .ctrlRise _) (fun _ => .respRise)
    | byte u b =>
      refine .lineEvent he (fun hm => .ctrlByte fun ho hs => ?_) (fun hm => .respByte fun ho hs => ?_)
      · exact .inr ⟨⟨u, b, rfl⟩, ho, fun _ => hs, fun h => by simp [hm] at h⟩
      · exact .inr ⟨⟨u, b, rfl⟩, ho, fun h => by simp [hm] at h, fun _ => hs⟩
    | err u kind =>
      exact .lineEvent he (fun _ ht => by cases ht; exact .ctrlErr _) (fun _ ht => by cases ht; exact .respErr _)
    | txFifoSpace => exact .execTxFifoSpace he
    | txShiftEmpty => exact .execTxShiftEmpty he
    | _ => exact absurd rfl hi

end Sys2Proof.Proofs
end

/-! PROOF. Statements of spec/20_memory.md: who may run a codec operation on `fb` (R55, R97, U2), and where
`build_reply_header` is turned away or stops (R136, R137, U4, U5). -/

namespace Sys2Proof.Machine

/-! ### Who may run a codec operation (R55, R97) -/

/-- Log entry 8: the host port's codec operation is a rejection. -/
theorem codecOp_host {s : State} (h : s.agent = .host) (e : Except Fault State) : codecOp s e = rejectOp s := by
  simp only [codecOp, codecAccess, h]

/-- U2: away from the host port, only the owner of `fb` is spared the fault. -/
theorem codecOp_notOwned {s : State} (hh : s.agent ≠ .host) (ho : ¬ Safety.OwnsFb s) (e : Except Fault State) :
    codecOp s e = .fault .fbNotOwned := by
  have access : codecAccess s = .violation := by
    unfold codecAccess
    cases ha : s.agent with
    | host => exact absurd ha hh
    | collaborator => exact if_neg fun hr => ho ⟨ha, hr⟩
    | foreground | line | fineTimer | coarseTick | uart | time => rfl
  simp only [codecOp, access]

/-- Format C is `codecOp` throughout: every codec instruction asks for the ownership of `fb` before its effect. -/
theorem exec_eq_codecOp {i : Instr} (hi : Safety.isCodecOp i = true) (s : State) :
    ∃ effect, exec i s = codecOp s effect := by
  cases i with
  | pushU16 off v | pushU32 off v | checksum16 off n | appendChecksum | validate len
  | buildReplyHeader own rtype msgCount pdl | dubEncode uid | dubRespond own muted | uidCompare a b => exact ⟨_, rfl⟩
  | _ => exact absurd hi (by simp [Safety.isCodecOp, Instr.opcode])

/-! ### The operands and the request's class (R136, R137) -/

theorem checkReplyHeader_eq_none {rtype pdl : Byte} :
    checkReplyHeader rtype pdl = none ↔ rtype.toNat ≤ 3 ∧ pdl.toNat ≤ 231 := by
  unfold checkReplyHeader Config.maxPdl
  split
  · split <;> simp [*]
  · simp [*]

/-- U4: the classes with no response class are all but DISC, GET and SET. -/
theorem responseClass_eq_none {cc : Byte} : responseClass cc = none ↔ cc ∉ [0x10#8, 0x20#8, 0x30#8] := by
  unfold responseClass
  split_ifs with hdisc hget hset
  · simp [hdisc, Config.ccDisc]
  · simp [hget, Config.ccGet]
  · simp [hset, Config.ccSet]
  · exact iff_of_true rfl (by simpa using ⟨hdisc, hget, hset⟩)

/-- U4: an unmapped class stops `build_reply_header` before it writes. -/
theorem buildReplyHeader_unmapped {s : State} {src : List Byte} {cc : Byte} (hsrc : fbBytes s 9 6 = .ok src)
    (hcc : fbRead s 20 = .ok cc) (hnone : responseClass cc = none) (own : Uid) (rtype msgCount pdl : Byte) :
    buildReplyHeader own rtype msgCount pdl s = .error (.unmappedCommandClass cc) := by
  simp only [buildReplyHeader, hsrc, hcc, hnone, bind, Except.bind]

end Sys2Proof.Machine

namespace Sys2Proof.Safety

open Sys2Proof.Machine

/-! ### The request header in `fb` (R82, R136) -/

theorem length_headerBytes (h : Header) : (headerBytes h).length = 24 := rfl

section
variable {s : State} {b0 b1 : Byte} {req : Header} (h : FbHolds s 0 (b0 :: b1 :: (headerBytes req).drop 2))
include h

/-- The source UID of a request stands at offsets 9 to 14, whatever its start codes. -/
theorem fbBytes_requestSrc : fbBytes s 9 6 = .ok req.srcUid.bytes :=
  fbBytes_prefix (fbHolds_drop h 9) (by simp [length_headerBytes]) (by decide)

/-- The command class of a request stands at offset 20, whatever its start codes. -/
theorem fbRead_requestClass : fbRead s 20 = .ok req.cc :=
  fbRead_holds h (k := 20) (by simp [length_headerBytes]) (by decide)

end

/-! ### `build_reply_header` by the owner of `fb` (R136) -/

section
variable {s : State} {rtype pdl : Byte} (ho : OwnsFb s)
include ho

/-- U5, log entry 21: operands outside their sets are answered `false`. -/
theorem exec_buildReplyHeader_rejected (h : ¬ (rtype.toNat ≤ 3 ∧ pdl.toNat ≤ 231)) (own : Uid) (msgCount : Byte) :
    exec (.buildReplyHeader own rtype msgCount pdl) s = .next { s with hostReply := .bool false } := by
  change execBuildReplyHeader own rtype msgCount pdl s = _
  rw [execBuildReplyHeader, codecOp_owner ho, if_neg (mt checkReplyHeader_eq_none.mp h)]
  rfl

/-- With operands inside their sets, the header is built and its length answered. -/
theorem exec_buildReplyHeader_accepted (h : rtype.toNat ≤ 3 ∧ pdl.toNat ≤ 231) (own : Uid) (msgCount : Byte) :
    exec (.buildReplyHeader own rtype msgCount pdl) s =
      toOutcome ((buildReplyHeader own rtype msgCount pdl s).map (answer (.u16 24#16))) := by
  change execBuildReplyHeader own rtype msgCount pdl s = _
  rw [execBuildReplyHeader, codecOp_owner ho, if_pos (checkReplyHeader_eq_none.mpr h)]

end

end Sys2Proof.Safety

namespace Sys2Proof.Proofs

open Sys2Proof Sys2Proof.Machine Sys2Proof.Safety

/-- Settles O28: every codec operation asks `codecOp` for the ownership of `fb`, and the owner's `build_reply_header`
tests its operands, then the request's class. -/
theorem codecContract : Obligations.CodecContract := by
  refine ⟨fun i s hi => ?access, fun s own rtype msgCount pdl ho => ⟨fun hbad => ?operands, ?unmapped⟩⟩
  case access =>
    obtain ⟨effect, he⟩ := exec_eq_codecOp hi s
    rw [he]
    exact ⟨fun hh => codecOp_host hh effect, fun hh hn => codecOp_notOwned hh hn effect⟩
  case operands => exact exec_buildReplyHeader_rejected ho (by omega) own msgCount
  case unmapped =>
    intro hr hp b0 b1 req hreq hcc
    rw [exec_buildReplyHeader_accepted ho ⟨hr, hp⟩,
      buildReplyHeader_unmapped (fbBytes_requestSrc hreq) (fbRead_requestClass hreq) (responseClass_eq_none.mpr hcc)]
    rfl

end Sys2Proof.Proofs

/-! PROOF. Statements of spec/30_encoding.md: packets and instructions stand for each other (R95 to R98), and what R100
refuses: a packet that does not decode, and an internal operation or event from the host port. -/

namespace Sys2Proof

/-! ### A reader and the bytes of one value -/

/-- `r` yields `a` from exactly the inputs that begin with `bytes`, and hands on what follows them. -/
def Spells {α : Type} (r : Reader α) (a : α) (bytes : List Byte) : Prop :=
  ∀ input rest, r input = .ok (a, rest) ↔ input = bytes ++ rest

/-- A reader spells `a` as `bytes` when it takes the bytes back and takes nothing else for `a`. -/
theorem Spells.of_reads {α : Type} {r : Reader α} {a : α} {bytes : List Byte}
    (takes : ∀ rest, r (bytes ++ rest) = .ok (a, rest))
    (took : ∀ {input rest}, r input = .ok (a, rest) → input = bytes ++ rest) : Spells r a bytes :=
  fun _ rest => ⟨took, fun h => h ▸ takes rest⟩

theorem Spells.takes {α : Type} {r : Reader α} {a : α} {bytes : List Byte} (h : Spells r a bytes) (rest : List Byte) :
    r (bytes ++ rest) = .ok (a, rest) := (h _ _).mpr rfl

theorem readU8_spells (b : Byte) : Spells readU8 b [b] := .of_reads (readU8_bytes b) readU8_ok

theorem readU16_spells (v : U16) : Spells readU16 v (u16Bytes v) := .of_reads (readU16_bytes v) readU16_ok

theorem readU32_spells (v : U32) : Spells readU32 v (u32Bytes v) := .of_reads (readU32_bytes v) readU32_ok

theorem readU64_spells (v : U64) : Spells readU64 v (u64Bytes v) := .of_reads (readU64_bytes v) readU64_ok

theorem readBool_spells (b : Bool) : Spells readBool b [boolByte b] := .of_reads (readBool_bytes b) readBool_ok

theorem readMode_spells (m : Mode) : Spells readMode m [m.code] := .of_reads (readMode_bytes m) readMode_ok

theorem readErrKind_spells (k : UartErr) : Spells readErrKind k [k.code] :=
  .of_reads (readErrKind_bytes k) readErrKind_ok

theorem readUid_spells (u : Uid) : Spells readUid u u.bytes := .of_reads (readUid_bytes u) readUid_ok

/-- R100: the longest byte string an operand may be is far below what its u16 length can say. -/
theorem length_lt_of_checkLen {bs : List Byte} (h : checkLen bs = none) : bs.length < 65536 := by
  unfold checkLen at h
  split at h
  case isTrue hle => exact Nat.lt_of_le_of_lt hle (by decide)
  case isFalse => cases h

theorem readBytes_spells {bs : List Byte} (h : checkLen bs = none) : Spells readBytes bs (stringBytes bs) :=
  .of_reads (fun rest => readBytes_bytes bs rest (length_lt_of_checkLen h)) fun hr => (readBytes_ok hr).1

/-! ### Operands in signature order

The operands of an instruction stand one after the other; `hb` says that the instruction determines them. -/

theorem spells_nil (i : Instr) : Spells (fun rest => .ok (i, rest)) i [] := by
  intro input rest; simp

section
variable {α β γ δ : Type} {r : Reader α} {q : Reader β} {p : Reader γ} {o : Reader δ} {a : α} {b : β} {c : γ} {d : δ}
  {x y z w : List Byte} (ha : Spells r a x)
include ha

theorem with1_spells {build : α → Instr} (hb : ∀ a', build a = build a' → a = a') :
    Spells (with1 r build) (build a) x := by
  refine .of_reads (fun rest => by simp only [with1, ha.takes]) fun h => ?_
  obtain ⟨a', hr, hi⟩ := with1_ok h
  obtain rfl := hb a' hi
  exact (ha _ _).mp hr

theorem with2_spells (hq : Spells q b y) {build : α → β → Instr}
    (hb : ∀ a' b', build a b = build a' b' → a = a' ∧ b = b') : Spells (with2 r q build) (build a b) (x ++ y) := by
  refine .of_reads (fun rest => by simp only [with2, with1, List.append_assoc, ha.takes, hq.takes]) fun h => ?_
  obtain ⟨a', m, b', hr, hq', hi⟩ := with2_ok h
  obtain ⟨rfl, rfl⟩ := hb a' b' hi
  rw [(ha _ _).mp hr, (hq _ _).mp hq', List.append_assoc]

theorem with3_spells (hq : Spells q b y) (hp : Spells p c z) {build : α → β → γ → Instr}
    (hb : ∀ a' b' c', build a b c = build a' b' c' → a = a' ∧ b = b' ∧ c = c') :
    Spells (with3 r q p build) (build a b c) (x ++ (y ++ z)) := by
  refine .of_reads (fun rest => by simp only [with3, with2, with1, List.append_assoc, ha.takes, hq.takes, hp.takes])
    fun h => ?_
  obtain ⟨a', m, b', n, c', hr, hq', hp', hi⟩ := with3_ok h
  obtain ⟨rfl, rfl, rfl⟩ := hb a' b' c' hi
  rw [(ha _ _).mp hr, (hq _ _).mp hq', (hp _ _).mp hp', List.append_assoc, List.append_assoc]

theorem with4_spells (hq : Spells q b y) (hp : Spells p c z) (ho : Spells o d w) {build : α → β → γ → δ → Instr}
    (hb : ∀ a' b' c' d', build a b c d = build a' b' c' d' → a = a' ∧ b = b' ∧ c = c' ∧ d = d') :
    Spells (with4 r q p o build) (build a b c d) (x ++ (y ++ (z ++ w))) := by
  refine .of_reads (fun rest => by
    simp only [with4, with3, with2, with1, List.append_assoc, ha.takes, hq.takes, hp.takes, ho.takes]) fun h => ?_
  obtain ⟨a', m, b', n, c', l, d', hr, hq', hp', ho', hi⟩ := with4_ok h
  obtain ⟨rfl, rfl, rfl, rfl⟩ := hb a' b' c' d' hi
  rw [(ha _ _).mp hr, (hq _ _).mp hq', (hp _ _).mp hp', (ho _ _).mp ho', List.append_assoc, List.append_assoc,
    List.append_assoc]

end

/-! ### The opcode map (R96) -/

/-- The row of an instruction's opcode reads that instruction from exactly its operand bytes: one case per signature. -/
theorem decodeOperands_spells {i : Instr} (hi : i.WellFormed) :
    Spells (decodeOperands i.opcode) i i.operandBytes := by
  cases i with
  | reset | getBreakTime | getMarkTime | getRdmResponseTimeout | getResponderDelay | getResponderJitter
  | getDubResponseLimit | now | resetCommsStatus | appendChecksum | tasks | coarseTick | timerMatch | txFifoSpace
  | txShiftEmpty => exact spells_nil _
  | readCounter v | incrementCounter v => exact with1_spells (readU8_spells v) (by simp)
  | queueSelfTest v | setBreakTime v | setMarkTime v | validate v | handlerReturn v =>
    exact with1_spells (readU16_spells v) (by simp)
  | setRdmResponseTimeout v | setResponderDelay v | setResponderJitter v | setDubResponseLimit v | elapsed v
  | setCounter v => exact with1_spells (readU32_spells v) (by simp)
  | fall t | rise t => exact with1_spells (readU64_spells t) (by simp)
  | byte t b => exact with2_spells (readU64_spells t) (readU8_spells b) (by simp)
  | err t kind => exact with2_spells (readU64_spells t) (readErrKind_spells kind) (by simp)
  | delta v w | hasElapsed v w => exact with2_spells (readU32_spells v) (readU32_spells w) (by simp)
  | pushU16 v w | checksum16 v w => exact with2_spells (readU16_spells v) (readU16_spells w) (by simp)
  | pushU32 off v => exact with2_spells (readU16_spells off) (readU32_spells v) (by simp)
  | queueDmx token bs | queueRdmDub token bs =>
    exact with2_spells (readU16_spells token) (readBytes_spells hi) (by simp)
  | queueAsc token startCode bs =>
    exact with3_spells (readU16_spells token) (readU8_spells startCode) (readBytes_spells hi) (by simp)
  | queueRdmRequest token isBroadcast bs =>
    exact with3_spells (readU16_spells token) (readBool_spells isBroadcast) (readBytes_spells hi) (by simp)
  | setMode mode hasToken token =>
    exact with3_spells (readMode_spells mode) (readBool_spells hasToken) (readU16_spells token) (by simp)
  | dubEncode u => exact with1_spells (readUid_spells u) (by simp)
  | dubRespond own muted => exact with2_spells (readUid_spells own) (readBool_spells muted) (by simp)
  | uidCompare u v => exact with2_spells (readUid_spells u) (readUid_spells v) (by simp)
  | buildReplyHeader own rtype msgCount pdl =>
    exact with4_spells (readUid_spells own) (readU8_spells rtype) (readU8_spells msgCount) (readU8_spells pdl) (by simp)


/-- What was read, if anything, is an instruction with the opcode `op`. -/
def ReadsOpcode (op : Byte) : Except DecodeError (Instr × List Byte) → Prop
  | .ok (i, _) => i.opcode = op
  | .error _ => True

section
variable {α β γ δ : Type} (r : Reader α) (q : Reader β) (p : Reader γ) (o : Reader δ) (input : List Byte) {op : Byte}

theorem readsOpcode_with1 {build : α → Instr} (hb : ∀ a, (build a).opcode = op) :
    ReadsOpcode op (with1 r build input) := by
  unfold with1; split
  · trivial
  · exact hb _

theorem readsOpcode_with2 {build : α → β → Instr} (hb : ∀ a b, (build a b).opcode = op) :
    ReadsOpcode op (with2 r q build input) := by
  unfold with2; split
  · trivial
  · exact readsOpcode_with1 q _ (hb _)

theorem readsOpcode_with3 {build : α → β → γ → Instr} (hb : ∀ a b c, (build a b c).opcode = op) :
    ReadsOpcode op (with3 r q p build input) := by
  unfold with3; split
  · trivial
  · exact readsOpcode_with2 q p _ (hb _)

theorem readsOpcode_with4 {build : α → β → γ → δ → Instr} (hb : ∀ a b c d, (build a b c d).opcode = op) :
    ReadsOpcode op (with4 r q p o build input) := by
  unfold with4; split
  · trivial
  · exact readsOpcode_with3 q p o _ (hb _)

end

/-- Each row builds the instruction whose opcode it is filed under. The cases are the rows of R96 in the table's order, taken
together by their number of operands. -/
theorem readsOpcode_decodeOperands (op : Byte) (input : List Byte) : ReadsOpcode op (decodeOperands op input) := by
  unfold decodeOperands
  split
  case h_2 | h_9 | h_11 | h_13 | h_15 | h_17 | h_19 | h_20 | h_26 | h_31 | h_38 | h_39 | h_40 | h_45 | h_46 => rfl
  case h_7 | h_8 | h_10 | h_12 | h_14 | h_16 | h_18 | h_21 | h_24 | h_25 | h_27 | h_32 | h_34 | h_37 | h_41 | h_42 =>
    exact readsOpcode_with1 _ _ fun _ => rfl
  case h_3 | h_5 | h_22 | h_23 | h_28 | h_29 | h_30 | h_35 | h_36 | h_43 | h_44 =>
    exact readsOpcode_with2 _ _ _ fun _ _ => rfl
  case h_1 | h_4 | h_6 => exact readsOpcode_with3 _ _ _ _ fun _ _ _ => rfl
  case h_33 => exact readsOpcode_with4 _ _ _ _ _ fun _ _ _ _ => rfl
  case h_47 => trivial

/-! ### Whole packets (R95, R100) -/

theorem decodeFront_cons_eq_ok_iff {op : Byte} {operands rest : List Byte} {i : Instr} :
    decodeFront (op :: operands) = .ok (i, rest) ↔ decodeOperands op operands = .ok (i, rest) ∧ i.WellFormed := by
  cases hd : decodeOperands op operands with
  | error e => simp only [decodeFront, hd, reduceCtorEq, false_and]
  | ok read =>
    obtain ⟨j, after⟩ := read
    cases hj : j.ill with
    | none =>
      simp only [decodeFront, hd, hj]
      exact iff_self_and.mpr fun h => by cases h; exact hj
    | some why =>
      simp only [decodeFront, hd, hj, reduceCtorEq, false_iff]
      rintro ⟨h, hi⟩
      cases h
      exact absurd (hj.symm.trans hi) nofun

/-- The front of an input is a well-formed instruction exactly where that instruction's packet stands there. -/
theorem decodeFront_eq_ok_iff {input rest : List Byte} {i : Instr} :
    decodeFront input = .ok (i, rest) ↔ i.WellFormed ∧ input = encode i ++ rest := by
  cases input with
  | nil => simp [decodeFront, encode]
  | cons op operands =>
    rw [decodeFront_cons_eq_ok_iff]
    constructor
    · rintro ⟨hd, hi⟩
      obtain rfl : i.opcode = op :=
        show ReadsOpcode op (.ok (i, rest)) from hd ▸ readsOpcode_decodeOperands op operands
      exact ⟨hi, congrArg _ ((decodeOperands_spells hi _ _).mp hd)⟩
    · rintro ⟨hi, heq⟩
      obtain ⟨rfl, rfl⟩ := List.cons.inj heq
      exact ⟨(decodeOperands_spells hi).takes rest, hi⟩

/-- A packet decodes to exactly the well-formed instruction whose packet it is. -/
theorem decode_eq_ok_iff {packet : List Byte} {i : Instr} :
    decode packet = .ok i ↔ i.WellFormed ∧ encode i = packet := by
  have front : decode packet = .ok i ↔ decodeFront packet = .ok (i, []) := by
    unfold decode
    split <;> simp_all
  rw [front, decodeFront_eq_ok_iff, List.append_nil, eq_comm (a := packet)]

end Sys2Proof

namespace Sys2Proof.Machine

/-! ### Packets that do not decode (R100) -/

theorem fetchPacket_undecodable {bytes : List Byte} {e : DecodeError} (hd : decode bytes = .error e)
    (legal : Agent → StepKind → Bool) (agent : Agent) (s : State) :
    fetchPacket legal agent bytes s = .done (answer (.bool false) { s with agent := agent }) := by
  simp only [fetchPacket, hd]

/-! ### What the host port does not accept (R100) -/

/-- The internal `increment_counter`, the collaborator's answer and the events are `internalOnly` throughout. -/
theorem exec_eq_internalOnly {i : Instr}
    (hi : i.opcode = 0x2A#8 ∨ i.opcode = 0x50#8 ∨ (0x80 ≤ i.opcode.toNat ∧ i.opcode.toNat ≤ 0x88)) (s : State) :
    ∃ effect, exec i s = internalOnly s effect := by
  cases i with
  | incrementCounter _ | handlerReturn _ | tasks | coarseTick | timerMatch | fall _ | rise _ | byte _ _ | err _ _
  | txFifoSpace | txShiftEmpty => exact ⟨_, rfl⟩
  | _ => exact absurd hi (by simp [Instr.opcode])

end Sys2Proof.Machine

namespace Sys2Proof.Proofs

open Sys2Proof Sys2Proof.Machine

/-- Settles O4: one direction of `decode_eq_ok_iff`. -/
theorem decodeOfEncode : Obligations.DecodeOfEncode :=
  fun _ hi => decode_eq_ok_iff.mpr ⟨hi, rfl⟩

/-- Settles O5: the other direction of `decode_eq_ok_iff`. -/
theorem encodeOfDecode : Obligations.EncodeOfDecode :=
  fun _ _ hd => decode_eq_ok_iff.mp hd

/-- Settles O2: neither `mayIssue` nor `mayCall` is asked for a packet that does not decode, and an opcode outside the table
ends the decoding at the opcode map. -/
theorem undecodablePacketsAreDiscarded : Obligations.UndecodablePacketsAreDiscarded := by
  refine ⟨fun s agent bytes rest e hi hd => ?discarded, fun op rest hop => ?unknown⟩
  case discarded =>
    rcases hi with hi | hi
    · exact step_of_fetch_done ((fetch_packet hi).trans (fetchPacket_undecodable hd ..))
    · exact step_of_fetch_done ((fetch_inner hi).trans (fetchPacket_undecodable hd ..))
  case unknown =>
    have noRow : decodeOperands op rest = .error (.unknownOpcode op) := by
      unfold decodeOperands
      split
      case h_47 => rfl
      all_goals exact absurd (by decide) hop
    simp only [decode, decodeFront, noRow]

/-- Settles O6: each written word is its well-formed instruction's packet, and the encoder shows it. -/
theorem writtenOutWordsDecode : Obligations.WrittenOutWordsDecode := by
  refine ⟨?_, ?_, ?_, ?_, ?_, ?_, ?_, ?replies⟩
  case replies => decide
  all_goals exact decode_eq_ok_iff.mpr ⟨rfl, rfl⟩

/-- Settles O7: each of these instructions has its effect behind `internalOnly`, which rejects the host port. -/
theorem hostCannotForgeInternalSteps : Obligations.HostCannotForgeInternalSteps := by
  intro i s hs hi
  obtain ⟨effect, he⟩ := exec_eq_internalOnly hi s
  rw [he, internalOnly_host hs, rejectOp_eq]

end Sys2Proof.Proofs

/-! PROOF. Statements of spec/40_coarse_timer.md: the coarse timer's operations as arithmetic (R120 to R125), and what they
say of the ticks and of the time that passed (R126, R127). -/

namespace Sys2Proof.Machine

/-! ### Tick arithmetic on natural numbers (R122 to R124) -/

theorem toNat_tickDelta (start stop : U32) :
    (tickDelta start stop).toNat = (stop.toNat + 2 ^ 32 - start.toNat) % 2 ^ 32 := by
  have := start.isLt
  rw [tickDelta, BitVec.toNat_sub]
  congr 1
  omega

theorem tickDelta_eq (start stop : U32) :
    tickDelta start stop = BitVec.ofNat 32 ((stop.toNat + 2 ^ 32 - start.toNat) % 2 ^ 32) := by
  rw [← toNat_tickDelta, BitVec.ofNat_toNat, BitVec.setWidth_eq]

theorem tickHasElapsed_eq (ticks start duration : U32) :
    tickHasElapsed ticks start duration =
      decide (duration.toNat < (ticks.toNat + 2 ^ 32 - start.toNat) % 2 ^ 32) := by
  rw [tickHasElapsed, toNat_tickDelta]

/-- R126: `n` ticks after `start`, the difference is `n`. -/
theorem tickDelta_add (start n : U32) : tickDelta start (start + n) = n := by
  rw [tickDelta, BitVec.add_comm, BitVec.add_sub_cancel]

/-- R120: the tick's increment as arithmetic. -/
theorem succ_tick_eq (ticks : U32) : ticks + 1#32 = BitVec.ofNat 32 ((ticks.toNat + 1) % 2 ^ 32) :=
  BitVec.eq_of_toNat_eq (by simp)

/-! ### The coarse timer's instructions (R120 to R124) -/

theorem exec_coarseTick_notDue {s : State} (ha : s.agent ≠ .host) (hd : tickDue s = false) :
    exec .coarseTick s = .next s := by
  change execCoarseTick s = _
  simp only [execCoarseTick, internalOnly_other ha, hd, Bool.false_eq_true, if_false]

theorem exec_elapsed (start : U32) (s : State) :
    exec (.elapsed start) s = .next { s with hostReply := .u32 (tickDelta start s.coarseTicks) } := rfl

theorem exec_hasElapsed (start duration : U32) (s : State) :
    exec (.hasElapsed start duration) s =
      .next { s with hostReply := .bool (tickHasElapsed s.coarseTicks start duration) } := rfl

/-- A `has_elapsed` that answers true has counted more than `duration` ticks. -/
theorem tickHasElapsed_of_exec {s : State} {start duration : U32}
    (h : exec (.hasElapsed start duration) s = .next { s with hostReply := .bool true }) :
    tickHasElapsed s.coarseTicks start duration = true :=
  Reply.bool.inj (congrArg State.hostReply (Host.Outcome.next.inj h))

theorem tickDue_of_open {s : State} (h : s.tick.settled = false) : tickDue s = true := by
  simp only [tickDue, h, Bool.not_false, Bool.true_or]

theorem tickDue_eq_false {s : State} (hs : s.tick.settled = true) (ht : s.time < s.tick.due) : tickDue s = false := by
  simp only [tickDue, hs, Bool.not_true, Bool.false_or, decide_eq_false (Nat.not_le.mpr ht)]

theorem nextTick_open {s : State} (h : s.tick.settled = false) :
    nextTick s = { settled := true, due := s.time + 100000 } := by
  simp only [nextTick, h, Bool.false_eq_true, if_false, Config.coarseTick]

theorem nextTick_settled {s : State} (h : s.tick.settled = true) :
    nextTick s = { settled := true, due := s.tick.due + 100000 } := by
  simp only [nextTick, h, if_true, Config.coarseTick]

end Sys2Proof.Machine

namespace Sys2Proof.Proofs

open Sys2Proof Sys2Proof.Machine Sys2Proof.Safety

/-- Settles O8: the tick by its phase, open, settled and due, settled and not due; then the operations by their
arithmetic. -/
theorem coarseTimerOperations : Obligations.CoarseTimerOperations := by
  intro s a b
  refine ⟨fun ha hs => ?openPhase, fun ha hs ht => ?due, fun ha hs ht => ?notDue, rfl, ?elapsed, ?delta, ?hasElapsed,
    rfl⟩
  case openPhase => rw [exec_coarseTick_due ha (tickDue_of_open hs), nextTick_open hs, succ_tick_eq]
  case due => rw [exec_coarseTick_due ha (tickDue_of_due_le ht), nextTick_settled hs, succ_tick_eq]
  case notDue => exact exec_coarseTick_notDue ha (tickDue_eq_false hs ht)
  case elapsed => rw [exec_elapsed, tickDelta_eq]
  case delta => exact congrArg (fun v => Host.Outcome.next { s with hostReply := .u32 v }) (tickDelta_eq a b)
  case hasElapsed => rw [exec_hasElapsed, tickHasElapsed_eq]

end Sys2Proof.Proofs

namespace Sys2Proof.Machine

/-! ### What the transitions leave of the clock (R4, R120)

Time and the instant of the next tick move by the passing of time and by the tick alone: no sequencer, codec or host
operation writes them. -/

/-- The time and where the coarse tick stands on it. -/
@[simp] def clock (s : State) : Nat × TickPhase := (s.time, s.tick)

theorem clock_eq_iff {s t : State} : clock t = clock s ↔ t.time = s.time ∧ t.tick = s.tick := Prod.mk_inj

section
variable {s t : State}

/-! #### Shared operations -/

theorem clock_of_settle {u : State} (he : settle s u = .next t) (hu : clock u = clock s) : clock t = clock s := by
  obtain ⟨rfl, -⟩ := settle_next he
  exact hu

theorem clock_of_internalOnly {e : Outcome} (he : internalOnly s e = .next t)
    (hk : e = .next t → clock t = clock s) : clock t = clock s := by
  rcases internalOnly_next he with ⟨_, rfl⟩ | ⟨_, he⟩
  · rfl
  · exact hk he

theorem clock_of_byMode {x y : Except Fault State} (he : byMode s x y = .next t)
    (hx : x = .ok t → clock t = clock s) (hy : y = .ok t → clock t = clock s) : clock t = clock s := by
  obtain ⟨⟨-, ht⟩ | ⟨-, ht⟩, -⟩ := byMode_next he
  · exact hx ht
  · exact hy ht

theorem clock_of_lineEvent {v : U64} {x y : Except Fault State} (he : lineEvent v s (byMode s x y) = .next t)
    (hx : x = .ok t → clock t = clock s) (hy : y = .ok t → clock t = clock s) : clock t = clock s := by
  rcases lineEvent_next he with ⟨_, rfl⟩ | ⟨_, _, rfl⟩ | ⟨_, _, he⟩
  · rfl
  · rfl
  · exact clock_of_byMode he hx hy

/-- The end of an event that may be disabled: the state as it was, or what the event leaves. -/
theorem clock_of_ite {b : Prop} [Decidable b] {e : Outcome} (he : (if b then e else .next s) = .next t)
    (hk : e = .next t → clock t = clock s) : clock t = clock s := by
  split at he
  · exact hk he
  · cases he; rfl

theorem clock_feed (he : feed s = .ok t) : clock t = clock s := by
  obtain ⟨bs, rfl, -⟩ := feed_ok he
  rfl

theorem clock_startSlots (he : startSlots s = .ok t) : clock t = clock s := by
  obtain ⟨bs, rfl, -⟩ := startSlots_ok he
  rfl

theorem clock_validateFrame {len : Nat} {r : ValidateResult} (he : validateFrame len s = .ok (r, t)) :
    clock t = clock s := by
  obtain ⟨counters, rfl⟩ := validateFrame_counters he
  rfl

@[simp] theorem storeByte_time (b : Byte) (v : Nat) (s : State) : (storeByte b v s).time = s.time := by
  rcases storeByte_cases b v s with ⟨_, _, he⟩ | ⟨_, he⟩ <;> rw [he]

@[simp] theorem storeByte_tick (b : Byte) (v : Nat) (s : State) : (storeByte b v s).tick = s.tick := by
  rcases storeByte_cases b v s with ⟨_, _, he⟩ | ⟨_, he⟩ <;> rw [he]

theorem clock_codecStep (h : CodecStep s t) : clock t = clock s := by
  obtain ⟨_, _, _, _, rfl⟩ := h
  rfl

/-! #### The controller -/

theorem clock_ctrlTimerMatch (he : ctrlTimerMatch s = .ok t) : clock t = clock s := by
  unfold ctrlTimerMatch at he
  split at he
  case h_2 =>
    obtain ⟨u, hu, rfl⟩ := except_map_eq_ok.mp he
    simpa [ctrlAfterFeed] using clock_startSlots hu
  all_goals cases he; rfl

theorem clock_ctrlFifoSpace (he : ctrlFifoSpace s = .ok t) : clock t = clock s := by
  obtain ⟨u, hu, rfl⟩ := except_map_eq_ok.mp he
  split <;> simpa using clock_feed hu

theorem clock_ctrlShiftEmpty (s : State) : clock (ctrlShiftEmpty s) = clock s := by
  unfold ctrlShiftEmpty
  split <;> simp

@[simp] theorem dubActivate_time (v : Nat) (s : State) : (dubActivate v s).time = s.time := by
  unfold dubActivate
  split <;> rfl

@[simp] theorem dubActivate_tick (v : Nat) (s : State) : (dubActivate v s).tick = s.tick := by
  unfold dubActivate
  split <;> rfl

theorem clock_ctrlFall (v : Nat) (s : State) : clock (ctrlFall v s) = clock s := by
  unfold ctrlFall
  split
  case h_1 => split <;> simp
  case h_2 =>
    split
    · split <;> simp
    all_goals rfl
  case h_3 => simp
  all_goals rfl

theorem clock_ctrlRise (v : Nat) (s : State) : clock (ctrlRise v s) = clock s := by
  unfold ctrlRise ctrlBreakEnd
  split
  · split
    · split <;> rfl
    · rfl
  all_goals rfl

theorem clock_ctrlErr (kind : UartErr) (s : State) : clock (ctrlErr kind s) = clock s := by
  unfold ctrlErr ctrlErrAbort
  split <;> simp

theorem clock_ctrlSlot {b : Byte} {v : Nat} (he : ctrlSlot b v s = .ok t) : clock t = clock s := by
  obtain ⟨d, -, he⟩ := except_bind_eq_ok.mp he
  split at he <;> cases he <;> simp [frameToHost]

theorem clock_ctrlDubByte (b : Byte) (v : Nat) (s : State) : clock (ctrlDubByte b v s) = clock s := by
  unfold ctrlDubByte
  dsimp only
  split <;> simp [frameToHost]

theorem clock_ctrlByte {b : Byte} {v : Nat} (he : ctrlByte b v s = .ok t) : clock t = clock s := by
  unfold ctrlByte at he
  split at he
  case h_1 => exact clock_ctrlSlot he
  case h_2 => cases he; exact clock_ctrlDubByte b v s
  all_goals cases he; rfl

theorem clock_handUp (he : handUp s = .ok t) : clock t = clock s := by
  unfold handUp at he
  split at he
  · obtain ⟨bytes, -, he⟩ := except_bind_eq_ok.mp he
    cases he; simp
  · obtain ⟨⟨r, checked⟩, hv, he⟩ := except_bind_eq_ok.mp he
    obtain ⟨bytes, -, he⟩ := except_bind_eq_ok.mp he
    cases he
    split <;> simpa using clock_validateFrame hv

theorem clock_deliver (s : State) : clock (deliver s) = clock s := by
  unfold deliver
  split <;> rfl

theorem clock_tasksQueue (s : State) : clock (tasksQueue s) = clock s := by
  unfold tasksQueue
  split
  · exact clock_deliver s
  · split
    · split
      · simp [runSelfTest]
      · split
        · simp [startOperation]
        · exact clock_deliver s
    · exact clock_deliver s

/-! #### The responder -/

theorem clock_respTimerMatch (he : respTimerMatch s = .ok t) : clock t = clock s := by
  unfold respTimerMatch at he
  split at he
  case h_2 =>
    unfold startReply at he
    split at he
    · obtain ⟨u, hu, rfl⟩ := except_map_eq_ok.mp he
      simpa [respAfterFeed] using clock_startSlots hu
    · cases he; simp
  case h_4 =>
    obtain ⟨u, hu, rfl⟩ := except_map_eq_ok.mp he
    simpa [respAfterFeed] using clock_startSlots hu
  all_goals cases he; rfl

theorem clock_respFifoSpace (he : respFifoSpace s = .ok t) : clock t = clock s := by
  obtain ⟨u, hu, rfl⟩ := except_map_eq_ok.mp he
  split <;> simpa using clock_feed hu

theorem clock_respFall (v : Nat) (s : State) : clock (respFall v s) = clock s := by
  unfold respFall respDiscardReply
  split
  · simp
  · split <;> rfl

theorem clock_respRiseInside {v : Nat} (he : respRiseInside v s = .ok t) : clock t = clock s := by
  unfold respRiseInside at he
  split at he
  · obtain ⟨counted, hf, he⟩ := except_bind_eq_ok.mp he
    obtain ⟨counters, rfl⟩ := Safety.finalizeCut_counters hf
    split at he <;> cases he <;> rfl
  · cases he; rfl

theorem clock_respBreakEnd (v d : Nat) (s : State) : clock (respBreakEnd v d s) = clock s := by
  unfold respBreakEnd
  split <;> rfl

theorem clock_respRise {v : Nat} (he : respRise v s = .ok t) : clock t = clock s := by
  unfold respRise respDiscardReply at he
  split at he
  · cases he; simp
  · split at he
    case h_1 => cases he; exact clock_respBreakEnd _ _ s
    case h_2 | h_3 => exact clock_respRiseInside he
    all_goals cases he; rfl

theorem clock_respErr (kind : UartErr) (s : State) : clock (respErr kind s) = clock s := by
  unfold respErr
  split <;> rfl

theorem clock_respByte {b : Byte} {v : Nat} (he : respByte b v s = .ok t) : clock t = clock s := by
  unfold respByte at he
  split at he
  case h_1 =>
    obtain ⟨wait, -, he⟩ := except_bind_eq_ok.mp he
    cases he; simp
  case h_2 =>
    obtain ⟨done, -, he⟩ := except_bind_eq_ok.mp he
    split at he
    · cases he; simp [respComplete]
    · obtain ⟨wait, -, he⟩ := except_bind_eq_ok.mp he
      cases he; simp
  all_goals cases he; rfl

theorem clock_respConsume (he : respConsume s = .ok t) : clock t = clock s := by
  obtain ⟨sc, -, he⟩ := except_bind_eq_ok.mp he
  split at he
  · cases he; rfl
  · split at he
    · obtain ⟨⟨r, checked⟩, hv, he⟩ := except_bind_eq_ok.mp he
      have hchecked : clock checked = clock s := by simpa using clock_validateFrame hv
      dsimp only at he
      split at he
      · obtain ⟨hd, -, he⟩ := except_bind_eq_ok.mp he
        cases he; exact hchecked
      · cases he; exact hchecked
    · cases he; rfl

theorem clock_respHandlerReturn {n : Int} (he : respHandlerReturn n s = .ok t) : clock t = clock s := by
  unfold respHandlerReturn at he
  split at he
  · cases he
  · split at he
    · cases he; simp [scheduleReply]
    · split at he <;> cases he <;> simp [scheduleReply]

/-! #### Instructions -/

theorem clock_execTasks (he : execTasks s = .next t) : clock t = clock s := by
  refine clock_of_internalOnly he fun he => ?_
  split at he
  · exact clock_of_settle he (by simp)
  · split at he
    · exact clock_of_byMode he clock_handUp clock_respConsume
    · exact clock_of_settle he (clock_tasksQueue s)

theorem clock_execHandlerReturn {n : U16} (he : execHandlerReturn n s = .next t) : clock t = clock s := by
  refine clock_of_internalOnly he fun he => clock_of_ite he fun he => ?_
  unfold toOutcome at he
  split at he
  · rename_i hok
    cases he; exact clock_respHandlerReturn hok
  · cases he

theorem clock_execIncrementCounter {index : Byte} (he : execIncrementCounter index s = .next t) :
    clock t = clock s := by
  refine clock_of_internalOnly he fun he => ?_
  split at he
  · split at he <;> cases he <;> rfl
  · cases he; rfl

theorem clock_execReadCounter {index : Byte} (he : execReadCounter index s = .next t) : clock t = clock s := by
  unfold execReadCounter at he
  split at he <;> cases he <;> rfl

theorem clock_enqueueFrame {token : U16} {cls : FrameClass} {sc : Byte} {bytes : List Byte}
    (he : enqueueFrame token cls sc bytes s = .next t) : clock t = clock s := by
  unfold enqueueFrame at he
  split at he <;> cases he <;> rfl

theorem clock_execQueueSelfTest {token : U16} (he : execQueueSelfTest token s = .next t) : clock t = clock s := by
  unfold execQueueSelfTest at he
  split at he <;> cases he <;> rfl

theorem clock_changeMode (mode : Mode) (s : State) : clock (changeMode mode s) = clock s := by
  unfold changeMode
  split <;> simp

theorem clock_execSetMode {mode : Mode} {hasToken : Bool} {token : U16}
    (he : execSetMode mode hasToken token s = .next t) : clock t = clock s := by
  refine clock_of_settle he ?_
  split <;> simpa using clock_changeMode mode s

/-- A setter, accepted or not. -/
theorem clock_setter {legal : Bool} {p : Params}
    (he : (if legal = true then acceptParams p s else rejectOp s) = .next t) : clock t = clock s := by
  split at he <;> cases he <;> rfl

/-- Every instruction but the tick leaves the clock. -/
theorem exec_clock {i : Instr} (hi : i ≠ .coarseTick) (he : exec i s = .next t) : clock t = clock s := by
  by_cases hc : Safety.isCodecOp i = true
  · exact clock_codecStep (exec_codec hc he).1
  · cases i with
    | setMode mode hasToken token => exact clock_execSetMode he
    | reset => exact clock_of_settle he (by simp)
    | queueDmx _ _ | queueAsc _ _ _ | queueRdmDub _ _ | queueRdmRequest _ _ _ => exact clock_enqueueFrame he
    | queueSelfTest token => exact clock_execQueueSelfTest he
    | setBreakTime v | setMarkTime v | setResponderDelay v => exact clock_setter he
    | setRdmResponseTimeout v | setResponderJitter v | setDubResponseLimit v
    | getBreakTime | getMarkTime | getRdmResponseTimeout | getResponderDelay | getResponderJitter
    | getDubResponseLimit | now | elapsed _ | delta _ _ | hasElapsed _ _ | setCounter _ | resetCommsStatus =>
      cases he; rfl
    | readCounter index => exact clock_execReadCounter he
    | incrementCounter index => exact clock_execIncrementCounter he
    | handlerReturn n => exact clock_execHandlerReturn he
    | tasks => exact clock_execTasks he
    | coarseTick => exact absurd rfl hi
    | timerMatch =>
      exact clock_of_internalOnly he fun he => clock_of_ite he fun he =>
        clock_of_byMode he clock_ctrlTimerMatch clock_respTimerMatch
    | fall u =>
      exact clock_of_lineEvent he (fun ht => by cases ht; exact clock_ctrlFall _ s)
        (fun ht => by cases ht; exact clock_respFall _ s)
    | rise u => exact clock_of_lineEvent he (fun ht => by cases ht; exact clock_ctrlRise _ s) clock_respRise
    | byte u b => exact clock_of_lineEvent he clock_ctrlByte clock_respByte
    | err u kind =>
      exact clock_of_lineEvent he (fun ht => by cases ht; exact clock_ctrlErr kind s)
        (fun ht => by cases ht; exact clock_respErr kind s)
    | txFifoSpace =>
      exact clock_of_internalOnly he fun he => clock_of_ite he fun he =>
        clock_of_byMode he clock_ctrlFifoSpace clock_respFifoSpace
    | txShiftEmpty =>
      exact clock_of_internalOnly he fun he => clock_of_ite he fun he =>
        clock_of_byMode he (fun ht => by cases ht; exact clock_ctrlShiftEmpty s) (fun ht => by cases ht; rfl)
    | _ => exact absurd rfl hc

end
end Sys2Proof.Machine

namespace Sys2Proof.Safety

open Sys2Proof.Machine

/-! ### What a step does to the clock (R120, R125) -/

/-- A step from `s` to `u` is a tick that was due, or one that leaves the tick where it stands and the time before it, and
that writes `coarse_ticks` only as the injection `p`. -/
inductive ClockStep (p : Prop) (s u : State) : Prop where
  | ticks (due : tickDue s = true) (time : u.time = s.time) (tick : u.tick = nextTick s)
    (count : u.coarseTicks = s.coarseTicks + 1#32)
  | keeps (tick : u.tick = s.tick) (later : s.time ≤ u.time) (before : s.time ≤ s.tick.due → u.time ≤ s.tick.due)
    (count : u.coarseTicks = s.coarseTicks ∨ p)

section
variable {p q : Prop} {s t u : State} {i : Instr}

theorem ClockStep.of_clock (h : clock u = clock s) (hc : u.coarseTicks = s.coarseTicks ∨ p) : ClockStep p s u := by
  obtain ⟨htime, htick⟩ := clock_eq_iff.mp h
  exact .keeps htick htime.ge (fun hle => htime.le.trans hle) hc

/-- The agent and the inbox are not on the clock. -/
theorem ClockStep.of_fetched {agent : Agent} {inbox : List Stimulus}
    (h : ClockStep p { s with agent := agent, inbox := inbox } u) (hq : p → q) : ClockStep q s u := by
  cases h with
  | ticks due time tick count => exact .ticks due time tick count
  | keeps tick later before count => exact .keeps tick later before (count.imp_right hq)

/-! #### The next step as `fetch` finds it -/

theorem fetchPacket_run {legal : Agent → StepKind → Bool} {agent : Agent} {bytes : List Byte}
    (h : fetchPacket legal agent bytes s = .run i u) :
    decode bytes = .ok i ∧ legal agent (stepKind i) = true ∧ u = { s with agent := agent } := by
  unfold fetchPacket at h
  split at h
  · split at h <;> cases h
    exact ⟨‹_›, ‹_›, rfl⟩
  · cases h

/-- `fetch` takes the stimulus and notes the agent; only the host's own packet brings a `set_counter` (R6, R125). -/
theorem fetch_run (h : fetch s = .run i u) :
    (∃ agent inbox, u = { s with agent := agent, inbox := inbox }) ∧ ((∃ n, i = .setCounter n) → InjectsCounter s) := by
  unfold fetch at h
  split at h
  case h_1 => cases h
  case h_2 agent bytes rest hi =>
    obtain ⟨hd, hl, rfl⟩ := fetchPacket_run h
    refine ⟨⟨_, _, rfl⟩, ?_⟩
    rintro ⟨n, rfl⟩
    obtain rfl : agent = .host := of_decide_eq_true hl
    exact ⟨bytes, rest, n, hi, hd⟩
  case h_3 =>
    obtain ⟨-, hl, rfl⟩ := fetchPacket_run h
    refine ⟨⟨_, _, rfl⟩, ?_⟩
    rintro ⟨n, rfl⟩
    exact absurd hl nofun
  case h_4 => cases h
  case h_5 =>
    unfold fetchElapse at h
    split at h
    · cases h
    · split at h <;> cases h
      exact ⟨⟨_, _, rfl⟩, nofun⟩

theorem fetchPacket_done {legal : Agent → StepKind → Bool} {agent : Agent} {bytes : List Byte}
    (h : fetchPacket legal agent bytes s = .done u) : u = answer (.bool false) { s with agent := agent } := by
  unfold fetchPacket at h
  split at h
  · split at h <;> cases h
    rfl
  · cases h; rfl

/-- R4: time passes up to the next tick at most. -/
theorem fetchElapse_done {d : Nat} {rest : List Stimulus} (h : fetchElapse d rest s = .done u) : ClockStep p s u := by
  unfold fetchElapse at h
  split at h
  · cases h; exact .keeps rfl (Nat.le_add_right _ _) (fun _ => ‹_›) (.inl rfl)
  · split at h <;> cases h
    exact .keeps rfl (Nat.le_of_lt ‹_›) (fun _ => Nat.le_refl _) (.inl rfl)

theorem fetch_done (h : fetch s = .done u) : ClockStep p s u := by
  unfold fetch at h
  split at h
  case h_1 => cases h; exact .of_clock rfl (.inl rfl)
  case h_2 | h_3 => rw [fetchPacket_done h]; exact .of_clock rfl (.inl rfl)
  case h_4 rest _ =>
    cases h
    obtain ⟨uart, wire, he⟩ := uartShift_frame { s with inbox := rest, agent := .uart }
    rw [he]
    exact .of_clock rfl (.inl rfl)
  case h_5 => exact fetchElapse_done h

/-! #### Every step -/

/-- What the tick can do, and what every other instruction leaves (O59). -/
theorem exec_clockStep (he : exec i s = .next t) : ClockStep (∃ n, i = .setCounter n) s t := by
  by_cases hi : i = .coarseTick
  · subst hi
    change execCoarseTick s = .next t at he
    rcases execCoarseTick_cases s with ⟨-, h⟩ | ⟨-, -, h⟩ | ⟨-, hdue, h⟩ <;> rw [h] at he <;> cases he
    · exact .of_clock rfl (.inl rfl)
    · exact .of_clock rfl (.inl rfl)
    · exact .ticks hdue rfl rfl rfl
  · obtain ⟨-, -, hwriter, -⟩ := Proofs.onlyTheirWritersWriteRegisters i s t he
    refine .of_clock (exec_clock hi he) ?_
    by_cases hc : t.coarseTicks = s.coarseTicks
    · exact .inl hc
    · exact .inr ((hwriter hc).resolve_left hi)

theorem step_clockStep (he : step s = .next t) : ClockStep (InjectsCounter s) s t := by
  unfold step at he
  split at he
  next i u hu =>
    obtain ⟨⟨agent, inbox, rfl⟩, hset⟩ := fetch_run hu
    exact (exec_clockStep he).of_fetched hset
  next u hu => cases he; exact fetch_done hu

/-- A step that moves the instant of the next tick is a tick. -/
theorem step_ticks (he : step s = .next t) (ht : t.tick ≠ s.tick) :
    tickDue s = true ∧ t.time = s.time ∧ t.tick = nextTick s ∧ t.coarseTicks = s.coarseTicks + 1#32 := by
  rcases step_clockStep he with ⟨hdue, htime, htick, hcount⟩ | ⟨htick, -, -, -⟩
  · exact ⟨hdue, htime, htick, hcount⟩
  · exact absurd htick ht

/-- A step that does not move it leaves the time before it, and the counter but for an injection. -/
theorem step_keeps (he : step s = .next t) (ht : t.tick = s.tick) :
    s.time ≤ t.time ∧ (s.time ≤ s.tick.due → t.time ≤ s.tick.due) ∧
      (t.coarseTicks = s.coarseTicks ∨ InjectsCounter s) := by
  rcases step_clockStep he with ⟨-, -, htick, -⟩ | ⟨-, hlater, hbefore, hcount⟩
  · exact absurd (htick.symm.trans ht) (nextTick_ne s)
  · exact ⟨hlater, hbefore, hcount⟩

/-! ### Runs without an injection (R126, R127) -/

/-- R126: the ticks of a run are what it adds to `coarse_ticks`. -/
theorem TickRun.count {k : Nat} (h : TickRun s k t) : t.coarseTicks = s.coarseTicks + BitVec.ofNat 32 k := by
  induction h with
  | start => simp
  | place k t stimuli _ ih => exact ih
  | tick k t u _ he ht ih =>
    obtain ⟨-, -, -, hcount⟩ := step_ticks he ht
    rw [hcount, ih, BitVec.add_assoc, BitVec.ofNat_add]
  | other k t u _ he ht hinj ih =>
    obtain ⟨-, -, hcount⟩ := step_keeps he ht
    rw [hcount.resolve_right hinj, ih]

/-- R127: where `k` ticks after `s` leave the time and the next tick. An open phase has not ticked yet. -/
structure TicksAfter (s : State) (k : Nat) (t : State) : Prop where
  inv : TickInv t
  later : s.time ≤ t.time
  lower : s.time + k * 100000 ≤ t.tick.due
  upper : t.tick.due ≤ s.tick.due + k * 100000
  unticked : t.tick.settled = false → k = 0

theorem TicksAfter.keeps {k : Nat} (h : TicksAfter s k t) (htick : u.tick = t.tick) (hlater : t.time ≤ u.time)
    (hbefore : u.time ≤ t.tick.due) : TicksAfter s k u where
  inv := ⟨htick ▸ hbefore, htick ▸ h.inv.near.trans (Nat.add_le_add_right hlater _)⟩
  later := h.later.trans hlater
  lower := htick ▸ h.lower
  upper := htick ▸ h.upper
  unticked := htick ▸ h.unticked

theorem TicksAfter.ticks {k : Nat} (h : TicksAfter s k t) (hdue : tickDue t = true) (htime : u.time = t.time)
    (htick : u.tick = nextTick t) : TicksAfter s (k + 1) u := by
  have inv : TickInv u := by
    obtain ⟨hahead, hnear⟩ := nextTick_due h.inv hdue
    exact ⟨by rwa [htick, htime], by rwa [htick, htime]⟩
  have hlater : s.time ≤ u.time := htime ▸ h.later
  have hsettled : u.tick.settled = true := htick ▸ rfl
  obtain ⟨⟨hahead, -⟩, -, hlow, hup, hopen⟩ := h
  cases hs : t.tick.settled with
  | false =>
    obtain rfl : k = 0 := hopen hs
    have hnext : u.tick.due = t.time + 100000 := by rw [htick, nextTick_open hs]
    exact ⟨inv, hlater, by linarith, by linarith, by simp [hsettled]⟩
  | true =>
    have hnext : u.tick.due = t.tick.due + 100000 := by rw [htick, nextTick_settled hs]
    exact ⟨inv, hlater, by linarith, by linarith, by simp [hsettled]⟩

theorem TickRun.ticksAfter {k : Nat} (h : TickRun s k t) (hs : TickInv s) : TicksAfter s k t := by
  induction h with
  | start => exact ⟨hs, by omega, by simpa using hs.ahead, by omega, fun _ => rfl⟩
  | place k t stimuli _ ih => exact ih.keeps rfl (Nat.le_refl _) ih.inv.ahead
  | tick k t u _ he ht ih =>
    obtain ⟨hdue, htime, htick, -⟩ := step_ticks he ht
    exact ih.ticks hdue htime htick
  | other k t u _ he ht _ ih =>
    obtain ⟨hlater, hbefore, -⟩ := step_keeps he ht
    exact ih.keeps ht hlater (hbefore ih.inv.ahead)

/-- R127: `k` ticks mean that between `k - 1` and `k + 1` periods passed. -/
theorem TicksAfter.periods {k : Nat} (h : TicksAfter s k t) (hs : TickInv s) :
    s.time + (k - 1) * 100000 ≤ t.time ∧ t.time ≤ s.time + (k + 1) * 100000 := by
  obtain ⟨⟨hahead, hnear⟩, hlater, hlow, hup, -⟩ := h
  have := hs.near
  omega

/-- R126: `has_elapsed` after `k` ticks. -/
theorem TickRun.hasElapsed {k : Nat} (h : TickRun s k t) (d : U32) :
    tickHasElapsed t.coarseTicks s.coarseTicks d = decide (d.toNat < k % 2 ^ 32) := by
  rw [tickHasElapsed, h.count, tickDelta_add, BitVec.toNat_ofNat]

end
end Sys2Proof.Safety

namespace Sys2Proof.Proofs

open Sys2Proof Sys2Proof.Machine Sys2Proof.Safety

/-- Settles O9, by induction on the run: R126 from what the ticks add to the counter, R127 from where they leave the next
tick. -/
theorem tickArithmeticLaw : Obligations.TickArithmeticLaw := by
  intro s t k hrun
  refine ⟨fun hk => ⟨?elapsed, fun d => ?hasElapsed⟩, fun hs => ?periods⟩
  case elapsed => rw [exec_elapsed, hrun.count, tickDelta_add]
  case hasElapsed => rw [exec_hasElapsed, hrun.hasElapsed, Nat.mod_eq_of_lt hk]
  case periods =>
    obtain ⟨hlow, hhigh⟩ := (hrun.ticksAfter hs).periods hs
    refine ⟨hlow, hhigh, fun d hd => ?_⟩
    have helapsed : d.toNat < k % 2 ^ 32 := by simpa [hrun.hasElapsed] using tickHasElapsed_of_exec hd
    have hdk : d.toNat ≤ k - 1 := Nat.le_sub_one_of_lt (helapsed.trans_le (Nat.mod_le _ _))
    calc s.time + d.toNat * 100000 ≤ s.time + (k - 1) * 100000 := by gcongr
      _ ≤ t.time := hlow

end Sys2Proof.Proofs

/-! PROOF. Statements of spec/41_codec.md: what the codec's operations write into `fb` and answer (R130 to R142), and
the round trips of an RDM frame (P1) and of a DUB response (P4). -/

namespace Sys2Proof.Machine

/-! ### Words and bytes as numbers (R90, R130) -/

theorem u16Bytes_eq (v : U16) : u16Bytes v = [BitVec.ofNat 8 (v.toNat / 256), BitVec.ofNat 8 v.toNat] := by
  simp [u16Bytes, BitVec.extractLsb', Nat.shiftRight_eq_div_pow]

theorem u32Bytes_eq (v : U32) :
    u32Bytes v = [BitVec.ofNat 8 (v.toNat / 16777216), BitVec.ofNat 8 (v.toNat / 65536),
      BitVec.ofNat 8 (v.toNat / 256), BitVec.ofNat 8 v.toNat] := by
  simp [u32Bytes, BitVec.extractLsb', Nat.shiftRight_eq_div_pow]

/-- The two bytes of a sum kept modulo 2^16 are bytes of the sum itself. -/
theorem u16Bytes_ofNat (n : Nat) :
    u16Bytes (BitVec.ofNat 16 n) = [BitVec.ofNat 8 (n / 256), BitVec.ofNat 8 n] := by
  have hi : BitVec.ofNat 8 (n % 65536 / 256) = BitVec.ofNat 8 (n / 256) :=
    BitVec.eq_of_toNat_eq (by simp only [BitVec.toNat_ofNat]; omega)
  have lo : BitVec.ofNat 8 (n % 65536) = BitVec.ofNat 8 n :=
    BitVec.eq_of_toNat_eq (by simp only [BitVec.toNat_ofNat]; omega)
  rw [u16Bytes_eq, BitVec.toNat_ofNat, hi, lo]

theorem toNat_u16Of (hi lo : Byte) : (u16Of hi lo).toNat = hi.toNat * 256 + lo.toNat := by
  rw [u16Of, BitVec.toNat_append, ← Nat.shiftLeft_add_eq_or_of_lt lo.isLt, Nat.shiftLeft_eq]

theorem ofNat16_mod (n : Nat) : BitVec.ofNat 16 (n % 65536) = BitVec.ofNat 16 n :=
  BitVec.eq_of_toNat_eq (by simp)

/-- A pair of bytes holds the number `n` modulo 2^16. -/
theorem u16Of_eq_ofNat_iff {hi lo : Byte} {n : Nat} :
    u16Of hi lo = BitVec.ofNat 16 n ↔ hi.toNat * 256 + lo.toNat = n % 65536 := by
  rw [← BitVec.toNat_inj, toNat_u16Of, BitVec.toNat_ofNat]

/-- The low two bytes of a number, read big-endian. -/
theorem toNat_twoBytes (n : Nat) :
    (BitVec.ofNat 8 (n / 256)).toNat * 256 + (BitVec.ofNat 8 n).toNat = n % 65536 := by
  simp only [BitVec.toNat_ofNat]
  omega

/-- R133: the two bytes that complete a body. -/
def checksumBytes (body : List Byte) : List Byte :=
  [BitVec.ofNat 8 (Safety.byteSum body / 256), BitVec.ofNat 8 (Safety.byteSum body)]

/-- The sum that `append_checksum` takes is written as the body's two bytes. -/
theorem u16Bytes_byteSum (body : List Byte) :
    u16Bytes (BitVec.ofNat 16 (Safety.byteSum body)) = checksumBytes body := u16Bytes_ofNat _

/-- In a completed body the two bytes and the sum agree, as `validate` compares them. -/
theorem append_checksumBytes (body : List Byte) :
    ((body ++ checksumBytes body).getD body.length 0#8).toNat * 256 +
        ((body ++ checksumBytes body).getD (body.length + 1) 0#8).toNat
      = Safety.byteSum ((body ++ checksumBytes body).take body.length) % 65536 := by
  rw [List.getD_append_right _ _ _ _ (Nat.le_refl _), List.getD_append_right _ _ _ _ (Nat.le_add_right _ 1),
    Nat.sub_self, Nat.add_sub_cancel_left, List.take_left]
  exact toNat_twoBytes _

theorem byteSum_cons (b : Byte) (bs : List Byte) : Safety.byteSum (b :: bs) = b.toNat + Safety.byteSum bs := rfl

/-! ### UIDs as numbers (R90, R140) -/

/-- The number of big-endian bytes that follow bytes of the number `acc`. -/
def bigEndianFrom (acc : Nat) (bs : List Byte) : Nat := bs.foldl (fun acc b => acc * 256 + b.toNat) acc

theorem bigEndianFrom_cons (acc : Nat) (b : Byte) (bs : List Byte) :
    bigEndianFrom acc (b :: bs) = bigEndianFrom (acc * 256 + b.toNat) bs := rfl

theorem uidValue_eq (u : Uid) : uidValue u = bigEndianFrom 0 u.bytes := rfl

/-- What the earlier bytes decide, the later bytes do not change. -/
theorem bigEndianFrom_lt {as bs : List Byte} (hlen : as.length = bs.length) {m n : Nat} (h : m < n) :
    bigEndianFrom m as < bigEndianFrom n bs := by
  induction as generalizing bs m n with
  | nil => obtain rfl := List.length_eq_zero_iff.mp hlen.symm; exact h
  | cons a as ih =>
    cases bs with
    | nil => cases hlen
    | cons b bs =>
      have := a.isLt
      rw [bigEndianFrom_cons, bigEndianFrom_cons]
      exact ih (Nat.succ.inj hlen) (by omega)

/-- R140: byte strings of one length compare as their big-endian numbers. -/
theorem compareBytes_eq {as bs : List Byte} (hlen : as.length = bs.length) (acc : Nat) :
    compareBytes as bs =
      if bigEndianFrom acc as < bigEndianFrom acc bs then -1
      else if bigEndianFrom acc bs < bigEndianFrom acc as then 1 else 0 := by
  induction as generalizing bs acc with
  | nil => obtain rfl := List.length_eq_zero_iff.mp hlen.symm; simp [compareBytes]
  | cons a as ih =>
    cases bs with
    | nil => cases hlen
    | cons b bs =>
      have hrest : as.length = bs.length := Nat.succ.inj hlen
      rw [compareBytes, bigEndianFrom_cons, bigEndianFrom_cons]
      rcases Nat.lt_trichotomy a.toNat b.toNat with hlt | heq | hgt
      · rw [if_pos hlt, if_pos (bigEndianFrom_lt hrest (by omega))]
      · rw [heq, if_neg (Nat.lt_irrefl _), if_neg (Nat.lt_irrefl _), ih hrest]
      · have := bigEndianFrom_lt hrest.symm (show acc * 256 + b.toNat < acc * 256 + a.toNat by omega)
        rw [if_neg (Nat.lt_asymm hgt), if_pos hgt, if_neg (Nat.lt_asymm this), if_pos this]

theorem compareUid_eq (a b : Uid) :
    compareUid a b = if uidValue a < uidValue b then -1 else if uidValue b < uidValue a then 1 else 0 := by
  rw [compareUid, uidValue_eq, uidValue_eq, compareBytes_eq (as := a.bytes) (bs := b.bytes) rfl 0]

theorem compareUid_le_zero {a b : Uid} : compareUid a b ≤ 0 ↔ uidValue a ≤ uidValue b := by
  rw [compareUid_eq]
  split_ifs <;> omega

/-! ### The DUB expansion (R86, R90, R142) -/

/-- Two masks with no bit in common are both lost when the masked bytes are met. -/
theorem or_and_or_of_disjoint {x y : Byte} (h : x &&& y = 0#8) (b : Byte) : (b ||| x) &&& (b ||| y) = b := by
  ext i hi
  have hbit : (x &&& y)[i] = false := by rw [h, BitVec.getElem_zero]
  rw [BitVec.getElem_and] at hbit
  rw [BitVec.getElem_and, BitVec.getElem_or, BitVec.getElem_or, ← Bool.or_and_distrib_left, hbit, Bool.or_false]

theorem dubContract_dubExpand (b : Byte) : dubContract (b ||| 0xAA#8) (b ||| 0x55#8) = b :=
  or_and_or_of_disjoint (by decide) b

/-- The pair of a byte has each of the eight bits set, and the byte's own bits set twice. -/
theorem toNat_dubExpand : ∀ b : Byte, (b ||| 0xAA#8).toNat + (b ||| 0x55#8).toNat = 0xFF + b.toNat := by decide

theorem byteSum_dubExpand (bs : List Byte) :
    Safety.byteSum (bs.flatMap dubExpand) = 0xFF * bs.length + Safety.byteSum bs := by
  induction bs with
  | nil => rfl
  | cons b bs ih =>
    have hb := toNat_dubExpand b
    simp only [List.flatMap_cons, dubExpand, List.cons_append, List.nil_append, byteSum_cons, ih, List.length_cons]
    omega

/-- R138: the checksum of a response, from the sum of the UID's own bytes. -/
theorem byteSum_dubUid (uid : Uid) :
    Safety.byteSum (uid.bytes.flatMap dubExpand) = 0x05FA + Safety.byteSum uid.bytes := byteSum_dubExpand uid.bytes

theorem dubTail_ofNat (n : Nat) :
    dubTail (BitVec.ofNat 16 n) = dubExpand (BitVec.ofNat 8 (n / 256)) ++ dubExpand (BitVec.ofNat 8 n) := by
  have hpair : dubTail (BitVec.ofNat 16 n) = (u16Bytes (BitVec.ofNat 16 n)).flatMap dubExpand := rfl
  rw [hpair, u16Bytes_ofNat]
  rfl

/-- R86: the 24 bytes of a DUB response. -/
def dubResponse (uid : Uid) : List Byte :=
  dubHead uid ++ dubTail (BitVec.ofNat 16 (Safety.byteSum (uid.bytes.flatMap dubExpand)))

/-- A pair of the response contracts to the byte of the UID it was expanded from. -/
theorem dubResponse_uid (uid : Uid) {i : Nat} (hi : i < 6) :
    uid.bytes[i]? =
      some (dubContract ((dubResponse uid).getD (8 + 2 * i) 0#8) ((dubResponse uid).getD (9 + 2 * i) 0#8)) :=
  match i, hi with
  | 0, _ | 1, _ | 2, _ | 3, _ | 4, _ | 5, _ => congrArg some (dubContract_dubExpand _).symm

/-- The last two pairs contract to the sum of the twelve expanded bytes. -/
theorem dubResponse_checksum (uid : Uid) :
    (dubContract ((dubResponse uid).getD 20 0#8) ((dubResponse uid).getD 21 0#8)).toNat * 256 +
        (dubContract ((dubResponse uid).getD 22 0#8) ((dubResponse uid).getD 23 0#8)).toNat
      = Safety.byteSum (((dubResponse uid).drop 8).take 12) % 65536 := by
  have expanded : ((dubResponse uid).drop 8).take 12 = uid.bytes.flatMap dubExpand := rfl
  rw [expanded, dubResponse, dubTail_ofNat, ← toNat_twoBytes]
  exact congrArg₂ (·.toNat * 256 + ·.toNat) (dubContract_dubExpand _) (dubContract_dubExpand _)

theorem length_dubHead (uid : Uid) : (dubHead uid).length = 20 := rfl

theorem length_dubTail (c : U16) : (dubTail c).length = 4 := rfl

/-! ### Counters (R23, R360) -/

theorem satSucc_eq_upOne (v : U16) : satSucc v = Safety.upOne v := by
  refine BitVec.eq_of_toNat_eq ?_
  have hv := v.isLt
  rw [satSucc, Safety.upOne, BitVec.toNat_ofNat]
  split
  · next h => subst h; rfl
  · next h =>
    have : v.toNat ≠ 0xFFFF := fun h' => h (BitVec.eq_of_toNat_eq h')
    rw [BitVec.toNat_add]
    simp only [BitVec.toNat_ofNat]
    omega

/-- The counter of an index, as the step increments it and as the statements count it. -/
theorem inc_eq_countUp {index : Byte} {c : CounterId} (h : counterOfIndex index = some c) (s : State) :
    inc c s = { s with counters := Safety.countUp index.toNat s.counters } := by
  unfold counterOfIndex at h
  split at h <;> cases h <;> simp only [inc, getCounter, satSucc_eq_upOne] <;> rfl

end Sys2Proof.Machine

namespace Sys2Proof.Safety

open Sys2Proof.Machine

/-! ### What stands in `fb` after writes (R57) -/

section
variable {s t : State} {off n k : Nat} {bytes f g : List Byte}

/-- Bytes of one length that stand at one place are the same bytes. -/
theorem fbHolds_unique (hf : FbHolds s off f) (hg : FbHolds s off g) (hlen : f.length = g.length) : f = g := by
  refine List.ext_getElem hlen fun k hkf hkg => ?_
  have hread := (hf k _ (List.getElem?_eq_getElem hkf)).symm.trans (hg k _ (List.getElem?_eq_getElem hkg))
  exact Option.some.inj hread

/-- Bytes that stand in `fb` stand there still where nothing below their end has changed. -/
theorem FbHolds.of_eq_below (hf : FbHolds s 0 f) (h : ∀ a, a < f.length → memRead t.fb a = memRead s.fb a) :
    FbHolds t 0 f := by
  intro k b hk
  obtain ⟨hlt, -⟩ := List.getElem?_eq_some_iff.mp hk
  rw [Nat.zero_add, h k hlt, ← hf k b hk, Nat.zero_add]

/-- A byte of a written range is what was written. -/
theorem memRead_written {m : Memory} (k : Nat) {b : Byte} (hk : bytes[k]? = some b) :
    memRead (memWriteAll m off bytes) (off + k) = some b := by
  obtain ⟨hlt, -⟩ := List.getElem?_eq_some_iff.mp hk
  rw [memRead_memWriteAll, if_pos ⟨by omega, by omega⟩, Nat.add_sub_cancel_left, hk]

theorem fbHolds_pair {b c : Byte} (hb : memRead s.fb off = some b) (hc : memRead s.fb (off + 1) = some c) :
    FbHolds s off [b, c]
  | 0, _, rfl => hb
  | 1, _, rfl => hc

/-- A known byte from the start of `fb`. -/
theorem fbRead_holds_start (h : FbHolds s 0 f) (hk : k < f.length) (hb : k < Config.frameBufSize) :
    fbRead s k = .ok (f.getD k 0#8) := by
  simpa using fbRead_holds h hk (by omega)

theorem fbWrite_fits (h : off + bytes.length ≤ 513) (s : State) :
    fbWrite off bytes s = .ok { s with fb := memWriteAll s.fb off bytes } := fbWrite_ok.mpr ⟨h, rfl⟩

theorem fbWrite_past (h : 513 < off + bytes.length) (s : State) :
    fbWrite off bytes s = .error (.outOfBounds (off + bytes.length)) := if_neg (Nat.not_le.mpr h)

/-- `f` with `bytes` over what stood from `off` up. -/
def overwrite (off : Nat) (bytes f : List Byte) : List Byte := f.take off ++ bytes ++ f.drop (off + bytes.length)

theorem getElem?_overwrite (hoff : off ≤ f.length) :
    (overwrite off bytes f)[k]? = if off ≤ k ∧ k < off + bytes.length then bytes[k - off]? else f[k]? := by
  have htake : (f.take off).length = off := List.length_take_of_le hoff
  rw [overwrite]
  rcases Nat.lt_or_ge k off with hlow | hge
  · rw [List.append_assoc, List.getElem?_append_left (by omega), List.getElem?_take_of_lt hlow, if_neg (by omega)]
  · rcases Nat.lt_or_ge k (off + bytes.length) with hin | hout
    · rw [List.getElem?_append_left (by simp only [List.length_append]; omega),
        List.getElem?_append_right (by omega), htake, if_pos ⟨hge, hin⟩]
    · rw [List.getElem?_append_right (by simp only [List.length_append]; omega), List.getElem?_drop,
        if_neg (by omega), List.length_append, htake, Nat.add_sub_cancel' hout]

/-- `t` is `s` but for the first `n` bytes of `fb`, which now begin with `f`. -/
structure Rewritten (s : State) (n : Nat) (f : List Byte) (t : State) : Prop where
  frame : t = { s with fb := t.fb }
  holds : FbHolds t 0 f
  above : ∀ a, n ≤ a → memRead t.fb a = memRead s.fb a

theorem Rewritten.start (h : FbHolds s 0 f) : Rewritten s n f s := ⟨rfl, h, fun _ _ => rfl⟩

/-- A write inside the first `n` bytes, at most at the end of what stands there, is made and leaves the rest. -/
theorem Rewritten.write (h : Rewritten s n f t) (off : Nat) (bytes : List Byte) (hg : overwrite off bytes f = g)
    (hoff : off ≤ f.length) (hn : off + bytes.length ≤ n) (hfit : n ≤ 513) :
    ∃ u, fbWrite off bytes t = .ok u ∧ Rewritten s n g u := by
  refine ⟨_, fbWrite_fits (hn.trans hfit) t, ?_, fun k b hk => ?_, fun a ha => ?_⟩
  · rw [h.frame]
  · rw [Nat.zero_add, memRead_memWriteAll]
    rw [← hg, getElem?_overwrite hoff] at hk
    split at hk
    · next hin => rw [if_pos hin, hk]
    · next hout => rw [if_neg hout, ← h.holds k b hk, Nat.zero_add]
  · rw [memRead_memWriteAll_outside _ _ _ _ (.inr (hn.trans ha)), h.above a ha]

end

/-! ### Frames (R135) -/

theorem headerBytes_injective : Function.Injective headerBytes := fun a b hab =>
  Option.some.inj (by rw [← headerOf_headerBytes a, hab, headerOf_headerBytes])

theorem execAll_pair {i j : Instr} {s t u : State} (hi : exec i s = .next t) (hj : exec j t = .next u) :
    execAll [i, j] s = .next u := by
  simp only [execAll, hi, hj]

/-! ### `validate` over known bytes (R134) -/

section
variable {s : State} {len : Nat} {f : List Byte}

theorem validateFrame_short (h : len < 26) :
    validateFrame len s = .ok (.shortFrame, { s with counters := countUp 2 s.counters }) := by
  rw [validateFrame, Config.minRdmFrame, if_pos h, inc_eq_countUp (index := 2#8) rfl]
  rfl

section
variable (hf : FbHolds s 0 f) (h26 : 26 ≤ f.length)
include hf h26

theorem validateFrame_notRdm (h : f.getD 0 0#8 ≠ 0xCC#8 ∨ f.getD 1 0#8 ≠ 0x01#8) :
    validateFrame f.length s = .ok (.notRdm, s) := by
  have read0 := fbRead_holds_start hf (k := 0) (by omega) (by decide)
  have read1 := fbRead_holds_start hf (k := 1) (by omega) (by decide)
  rw [validateFrame, Config.minRdmFrame, if_neg (Nat.not_lt.mpr h26)]
  refine except_bind_eq_ok.mpr ⟨_, read0, ?_⟩
  by_cases hsc : f.getD 0 0#8 = Config.scRdm
  · rw [if_pos hsc]
    exact except_bind_eq_ok.mpr ⟨_, read1, if_neg (h.resolve_left (not_not_intro hsc))⟩
  · exact if_neg hsc

/-- Of a frame with RDM's start codes, `validate` tests the declared length next. -/
theorem validateFrame_eq_validateLength {r : ValidateResult × State} (h0 : f.getD 0 0#8 = 0xCC#8)
    (h1 : f.getD 1 0#8 = 0x01#8) (h : validateLength f.length s = .ok r) : validateFrame f.length s = .ok r := by
  have read0 := fbRead_holds_start hf (k := 0) (by omega) (by decide)
  have read1 := fbRead_holds_start hf (k := 1) (by omega) (by decide)
  rw [validateFrame, Config.minRdmFrame, if_neg (Nat.not_lt.mpr h26)]
  refine except_bind_eq_ok.mpr ⟨_, read0, ?_⟩
  rw [Config.scRdm, if_pos h0]
  refine except_bind_eq_ok.mpr ⟨_, read1, ?_⟩
  rw [Config.ssc, if_pos h1, h]

section
variable {ml : Nat} (hml : ml = (f.getD 2 0#8).toNat)
include hml

theorem validateLength_mismatch (h : ml < 24 ∨ f.length - 2 < ml) :
    validateLength f.length s = .ok (.lengthMismatch, { s with counters := countUp 3 s.counters }) := by
  have read2 := fbRead_holds_start hf (k := 2) (by omega) (by decide)
  refine except_bind_eq_ok.mpr ⟨_, read2, ?_⟩
  rw [← hml, Config.rdmHeaderSize, if_pos h, inc_eq_countUp (index := 3#8) rfl]
  rfl

/-- With a length that is in range, `validate` compares the sum of the declared bytes with the two bytes after them. -/
theorem validateLength_inRange (hlow : 24 ≤ ml) (hhigh : ml ≤ f.length - 2) :
    validateLength f.length s = .ok
      (if (f.getD ml 0#8).toNat * 256 + (f.getD (ml + 1) 0#8).toNat = byteSum (f.take ml) % 65536 then (.ok, s)
        else (.checksumInvalid, { s with counters := countUp 4 s.counters })) := by
  have hbyte : ml + 2 ≤ Config.frameBufSize := by
    have := (f.getD 2 0#8).isLt
    rw [Config.frameBufSize]
    omega
  have read2 := fbRead_holds_start hf (k := 2) (by omega) (by decide)
  have hsum : fbChecksum s 0 ml = .ok (BitVec.ofNat 16 (byteSum (f.take ml))) :=
    fbChecksum_holds hf (by omega) (by omega)
  have readHi := fbRead_holds_start hf (k := ml) (by omega) (by omega)
  have readLo := fbRead_holds_start hf (k := ml + 1) (by omega) (by omega)
  refine except_bind_eq_ok.mpr ⟨_, read2, ?_⟩
  rw [← hml, Config.rdmHeaderSize, if_neg (not_or.mpr ⟨Nat.not_lt.mpr hlow, Nat.not_lt.mpr hhigh⟩)]
  refine except_bind_eq_ok.mpr ⟨_, hsum, except_bind_eq_ok.mpr ⟨_, readHi, except_bind_eq_ok.mpr ⟨_, readLo, ?_⟩⟩⟩
  simp only [u16Of_eq_ofNat_iff, inc_eq_countUp (index := 4#8) (c := .rdmChecksumInvalid) rfl]
  split <;> rfl

end

/-- The header read from known bytes with RDM's start codes is the header those bytes serialize. -/
theorem fbHeader_holds (h0 : f.getD 0 0#8 = 0xCC#8) (h1 : f.getD 1 0#8 = 0x01#8) :
    ∃ h, headerBytes h = f.take 24 ∧ fbHeader s = .ok h := by
  have hread : fbBytes s 0 Config.rdmHeaderSize = .ok (f.take 24) :=
    fbBytes_prefix hf (Nat.le_trans (by decide) h26) (by decide)
  obtain ⟨h, hh⟩ := fbHeader_written (s := s) fun k hk => by
    rw [← Nat.zero_add k, fbHolds_getD hf (by omega)]
    rfl
  have hof : headerOf (f.take 24) = some h := by
    rw [fbHeader, hread] at hh
    dsimp only at hh
    split at hh
    · next hof => cases hh; exact hof
    · cases hh
  have take_getD : ∀ k < 24, (f.take 24).getD k 0#8 = f.getD k 0#8 := fun k hk => by
    rw [List.getD_eq_getElem?_getD, List.getElem?_take_of_lt hk, List.getD_eq_getElem?_getD]
  exact ⟨h, headerBytes_headerOf hof ((take_getD 0 (by decide)).trans h0) ((take_getD 1 (by decide)).trans h1), hh⟩

end

end

/-! ### Headers and responses written in place (R136, R138) -/

section
variable {s : State} {cc rcc : Byte}

/-- R137: the three pairs of a class and its response class. -/
theorem responseClass_of_mem
    (h : (cc, rcc) ∈ [((0x10#8 : Byte), (0x11#8 : Byte)), (0x20#8, 0x21#8), (0x30#8, 0x31#8)]) :
    responseClass cc = some rcc := by
  simp only [List.mem_cons, Prod.mk.injEq, List.not_mem_nil, or_false] at h
  rcases h with ⟨rfl, rfl⟩ | ⟨rfl, rfl⟩ | ⟨rfl, rfl⟩ <;> rfl

/-- R136: the header of the reply to a request. -/
def replyHeader (own : Uid) (rtype msgCount pdl rcc : Byte) (req : Header) : Header :=
  { ml := 24#8 + pdl, destUid := req.srcUid, srcUid := own, tn := req.tn, portId := rtype, msgCount := msgCount,
    subDevice := req.subDevice, cc := rcc, pid := req.pid, pdl := pdl }

/-- A write that sets fields of the header. -/
theorem Rewritten.writeHeader {t : State} {h : Header} (hr : Rewritten s 24 (headerBytes h) t) (off : Nat)
    (bytes : List Byte) (update : Header → Header)
    (hupdate : overwrite off bytes (headerBytes h) = headerBytes (update h))
    (hn : off + bytes.length ≤ 24) :
    ∃ u, fbWrite off bytes t = .ok u ∧ Rewritten s 24 (headerBytes (update h)) u :=
  hr.write off bytes hupdate (by rw [length_headerBytes]; omega) hn (by decide)

/-- R136: each of the six writes sets its fields of the header; the fields that none sets are echoed. -/
theorem buildReplyHeader_rewritten {b0 b1 : Byte} {req : Header}
    (h : FbHolds s 0 (b0 :: b1 :: (headerBytes req).drop 2)) (hclass : responseClass req.cc = some rcc)
    (own : Uid) (rtype msgCount pdl : Byte) :
    ∃ t, buildReplyHeader own rtype msgCount pdl s = .ok t ∧
      Rewritten s 24 (headerBytes (replyHeader own rtype msgCount pdl rcc req)) t := by
  obtain ⟨s1, w1, r1⟩ := (Rewritten.start (n := 24) h).write 0 [Config.scRdm, Config.ssc, 24#8 + pdl]
    (g := headerBytes { req with ml := 24#8 + pdl }) rfl (by simp) (by simp) (by decide)
  obtain ⟨s2, w2, r2⟩ := r1.writeHeader 3 req.srcUid.bytes ({ · with destUid := req.srcUid }) rfl (by simp [Uid.bytes])
  obtain ⟨s3, w3, r3⟩ := r2.writeHeader 9 own.bytes ({ · with srcUid := own }) rfl (by simp [Uid.bytes])
  obtain ⟨s4, w4, r4⟩ := r3.writeHeader 16 [rtype, msgCount] ({ · with portId := rtype, msgCount := msgCount }) rfl
    (by simp)
  obtain ⟨s5, w5, r5⟩ := r4.writeHeader 20 [rcc] ({ · with cc := rcc }) rfl (by simp)
  obtain ⟨s6, w6, r6⟩ := r5.writeHeader 23 [pdl] ({ · with pdl := pdl }) rfl (by simp)
  refine ⟨s6, ?_, r6⟩
  simp only [buildReplyHeader, fbBytes_requestSrc h, fbRead_requestClass h, hclass, w1, w2, w3, w4, w5, w6, bind,
    Except.bind]

/-- R138: the head, then the sum of its expanded UID. -/
theorem dubEncode_rewritten (s : State) (uid : Uid) :
    ∃ t, dubEncode uid s = .ok t ∧
      Rewritten s 24 (dubResponse uid) t := by
  have hempty : FbHolds s 0 [] := fun _ _ h => by cases h
  obtain ⟨t, w1, r1⟩ := (Rewritten.start (n := 24) hempty).write 0 (dubHead uid) (g := dubHead uid) rfl (Nat.le_refl 0)
    (by simp [length_dubHead]) (by decide)
  have hsum : fbChecksum t 8 12 = .ok (BitVec.ofNat 16 (byteSum (uid.bytes.flatMap dubExpand))) :=
    fbChecksum_holds (f := uid.bytes.flatMap dubExpand) (fbHolds_drop r1.holds 8) (Nat.le_refl 12) (by decide)
  obtain ⟨u, w2, r2⟩ := r1.write 20 (dubTail (BitVec.ofNat 16 (byteSum (uid.bytes.flatMap dubExpand)))) rfl
    (length_dubHead uid).ge (by simp [length_dubTail]) (by decide)
  exact ⟨u, except_bind_eq_ok.mpr ⟨t, w1, except_bind_eq_ok.mpr ⟨_, hsum, w2⟩⟩, r2⟩

/-! ### `dub_respond` between its bounds (R139) -/

section
variable {t : State} {own lower upper : Uid} (hpdl : memRead s.fb 23 = some 12#8)
  (hbounds : FbHolds s 24 (lower.bytes ++ upper.bytes))
include hbounds

/-- The bounds of a request, as 48-bit numbers. -/
theorem dubInRange_holds :
    dubInRange own s = .ok (decide (uidValue lower ≤ uidValue own ∧ uidValue own ≤ uidValue upper)) := by
  have readLower : fbBytes s 24 6 = .ok lower.bytes := fbBytes_prefix hbounds (by simp [Uid.bytes]) (by decide)
  have readUpper : fbBytes s 30 6 = .ok upper.bytes :=
    fbBytes_holds (f := upper.bytes) (fbHolds_drop hbounds 6) (by simp [Uid.bytes, Config.frameBufSize])
  refine except_bind_eq_ok.mpr ⟨_, readLower, except_bind_eq_ok.mpr ⟨_, readUpper, ?_⟩⟩
  simp only [← compareUid_le_zero]
  rfl

include hpdl

/-- A request of 12 parameter bytes is answered by the test of its bounds. -/
theorem dubRespond_bounded {r : Int × State}
    (h : (if uidValue lower ≤ uidValue own ∧ uidValue own ≤ uidValue upper then
      (dubEncode own s).map (fun t => (-24, t)) else .ok (0, s)) = .ok r) : dubRespond own false s = .ok r := by
  have hread : fbRead s 23 = .ok 12#8 := fbRead_ok.mpr ⟨by decide, hpdl⟩
  refine except_bind_eq_ok.mpr ⟨_, hread, except_bind_eq_ok.mpr ⟨_, dubInRange_holds hbounds, ?_⟩⟩
  rw [← h]
  simp only [decide_eq_true_eq]
  rfl

theorem dubRespond_outside (h : ¬ (uidValue lower ≤ uidValue own ∧ uidValue own ≤ uidValue upper)) :
    dubRespond own false s = .ok (0, s) := dubRespond_bounded hpdl hbounds (if_neg h)

theorem dubRespond_between (h : uidValue lower ≤ uidValue own ∧ uidValue own ≤ uidValue upper)
    (ht : dubEncode own s = .ok t) : dubRespond own false s = .ok (-24, t) :=
  dubRespond_bounded hpdl hbounds (by rw [if_pos h, ht]; rfl)

end

end

/-! ### Codec operations by the owner of `fb` -/

section
variable {s t : State} {x : Except Fault State} {r : Reply} (ho : OwnsFb s)
include ho

theorem codecOp_owner_ok (hx : x = .ok t) : codecOp s x = .next t := by
  rw [codecOp_owner ho, hx]
  rfl

theorem codecOp_owner_error {f : Fault} (hx : x = .error f) : codecOp s x = .fault f := by
  rw [codecOp_owner ho, hx]
  rfl

/-- An effect followed by its reply. -/
theorem codecOp_owner_answer (hx : x = .ok t) : codecOp s (x.map (answer r)) = .next { t with hostReply := r } :=
  codecOp_owner_ok ho (except_map_eq_ok.mpr ⟨t, hx, rfl⟩)

/-! #### Push helpers (R131, R132) -/

theorem exec_pushU16 {off : U16} (h : off.toNat + 2 ≤ 513) (v : U16) :
    exec (.pushU16 off v) s =
      .next { s with fb := memWriteAll s.fb off.toNat (u16Bytes v), hostReply := .u16 (off + 2#16) } :=
  codecOp_owner_answer ho (fbWrite_fits h s)

theorem exec_pushU32 {off : U16} (h : off.toNat + 4 ≤ 513) (v : U32) :
    exec (.pushU32 off v) s =
      .next { s with fb := memWriteAll s.fb off.toNat (u32Bytes v), hostReply := .u16 (off + 4#16) } :=
  codecOp_owner_answer ho (fbWrite_fits h s)

theorem exec_pushU16_past {off : U16} (h : 513 < off.toNat + 2) (v : U16) :
    exec (.pushU16 off v) s = .fault (.outOfBounds (off.toNat + 2)) :=
  codecOp_owner_error ho (by rw [fbWrite_past (bytes := u16Bytes v) h]; rfl)

theorem exec_pushU32_past {off : U16} (h : 513 < off.toNat + 4) (v : U32) :
    exec (.pushU32 off v) s = .fault (.outOfBounds (off.toNat + 4)) :=
  codecOp_owner_error ho (by rw [fbWrite_past (bytes := u32Bytes v) h]; rfl)

/-! #### Checksums (R130, R133) -/

theorem exec_checksum16 {off n : U16} {f : List Byte} (hf : FbHolds s off.toNat f) (hlen : f.length = n.toNat)
    (hfit : off.toNat + n.toNat ≤ 513) :
    exec (.checksum16 off n) s = .next { s with hostReply := .u16 (BitVec.ofNat 16 (byteSum f)) } := by
  have hsum : fbChecksum s off.toNat n.toNat = .ok (BitVec.ofNat 16 (byteSum f)) := by
    rw [fbChecksum_holds hf hlen.ge hfit, List.take_of_length_le hlen.le]
  exact codecOp_owner_ok ho (except_map_eq_ok.mpr ⟨_, hsum, rfl⟩)

theorem exec_checksum16_past {off n : U16} (h : 513 < off.toNat + n.toNat) :
    exec (.checksum16 off n) s = .fault (.outOfBounds (off.toNat + n.toNat)) := by
  have hpast : fbChecksum s off.toNat n.toNat = .error (.outOfBounds (off.toNat + n.toNat)) :=
    if_neg (Nat.not_le.mpr h)
  exact codecOp_owner_error ho (by rw [hpast]; rfl)

/-- R133: the two bytes after the declared length receive the sum. -/
theorem exec_appendChecksum {f : List Byte} {ml : Byte} (h2 : memRead s.fb 2 = some ml) (hf : FbHolds s 0 f)
    (hlen : f.length = ml.toNat) :
    exec .appendChecksum s = .next { s with
      fb := memWriteAll s.fb ml.toNat (checksumBytes f), hostReply := .nothing } := by
  have hml := ml.isLt
  have hread : fbRead s 2 = .ok ml := fbRead_ok.mpr ⟨by decide, h2⟩
  have hsum : fbChecksum s 0 ml.toNat = .ok (BitVec.ofNat 16 (byteSum f)) := by
    rw [fbChecksum_holds hf hlen.ge (by rw [Config.frameBufSize]; omega), List.take_of_length_le hlen.le]
  have hwrite := fbWrite_fits (off := ml.toNat) (bytes := u16Bytes (BitVec.ofNat 16 (byteSum f)))
    (by rw [u16Bytes, List.length_cons, List.length_singleton]; omega) s
  rw [← u16Bytes_byteSum]
  have happend : appendChecksum s = .ok _ :=
    except_bind_eq_ok.mpr ⟨_, hread, except_bind_eq_ok.mpr ⟨_, hsum, hwrite⟩⟩
  exact codecOp_owner_answer ho happend

/-! #### `validate` (R134, R135) -/

theorem exec_validate_failed {len : U16} {v : ValidateResult} (hv : validateFrame len.toNat s = .ok (v, t))
    (hfail : v ≠ .ok) : exec (.validate len) s = .next { t with hostReply := .validation v none } := by
  have hreply : validateReply len.toNat s = .ok { t with hostReply := .validation v none } :=
    except_bind_eq_ok.mpr ⟨_, hv, if_neg hfail⟩
  exact codecOp_owner_ok ho hreply

theorem exec_validate_ok {len : U16} {h : Header} (hv : validateFrame len.toNat s = .ok (.ok, s))
    (hh : fbHeader s = .ok h) : exec (.validate len) s = .next { s with hostReply := .validation .ok (some h) } := by
  have hreply : validateReply len.toNat s = .ok { s with hostReply := .validation .ok (some h) } :=
    except_bind_eq_ok.mpr ⟨_, hv, except_bind_eq_ok.mpr ⟨h, hh, rfl⟩⟩
  exact codecOp_owner_ok ho hreply

/-! #### DUB responses (R138, R139) -/

/-- R86, R138: the bytes of a DUB response. -/
theorem exec_dubEncode (uid : Uid) :
    ∃ u, dubEncode uid s = .ok u ∧ exec (.dubEncode uid) s = .next { u with hostReply := .u16 24#16 } ∧
      Rewritten s 24 (dubResponse uid) u := by
  obtain ⟨u, hu, hr⟩ := dubEncode_rewritten s uid
  exact ⟨u, hu, codecOp_owner_answer ho hu, hr⟩

/-- An answer that leaves `fb` as it is. -/
theorem exec_dubRespond_silent {own : Uid} {muted : Bool} (h : dubRespond own muted s = .ok (0, s)) :
    exec (.dubRespond own muted) s = .next { s with hostReply := .int 0 } :=
  codecOp_owner_ok ho (except_map_eq_ok.mpr ⟨_, h, rfl⟩)

theorem exec_dubRespond_answered {own : Uid} {muted : Bool} (h : dubRespond own muted s = .ok (-24, t)) :
    exec (.dubRespond own muted) s = .next { t with hostReply := .int (-24) } :=
  codecOp_owner_ok ho (except_map_eq_ok.mpr ⟨_, h, rfl⟩)

end

end Sys2Proof.Safety

namespace Sys2Proof.Proofs

open Sys2Proof Sys2Proof.Machine Sys2Proof.Safety

/-- Settles O18: a push writes the value's big-endian bytes where they fit, and faults where they do not. -/
theorem pushHelpersWriteBigEndian : Obligations.PushHelpersWriteBigEndian := by
  intro s off v w ho
  refine ⟨fun hfit => ?two, fun hfit => ?four, fun hpast => ⟨_, exec_pushU16_past ho hpast v⟩,
    fun hpast => ⟨_, exec_pushU32_past ho hpast w⟩⟩
  case two =>
    have run := exec_pushU16 ho hfit v
    rw [u16Bytes_eq] at run
    exact ⟨_, run, memRead_written 0 rfl, memRead_written 1 rfl, fun a ha => memRead_memWriteAll_outside _ _ _ _ ha⟩
  case four =>
    have run := exec_pushU32 ho hfit w
    rw [u32Bytes_eq] at run
    exact ⟨_, run, memRead_written 0 rfl, memRead_written 1 rfl, memRead_written 2 rfl, memRead_written 3 rfl,
      fun a ha => memRead_memWriteAll_outside _ _ _ _ ha⟩

/-- Settles O19: the operation adds modulo 2^16, so the sum itself may be taken before the reduction. -/
theorem checksumIsTheByteSum : Obligations.ChecksumIsTheByteSum := by
  intro s off n ho
  refine ⟨fun f hf hlen hfit => ?_, fun hpast => ⟨_, exec_checksum16_past ho hpast⟩⟩
  rw [exec_checksum16 ho hf hlen hfit, ofNat16_mod]

/-- Settles O20: the sum is written after the bytes it is taken over, so that its write changes none of them. -/
theorem appendChecksumWritesTheSum : Obligations.AppendChecksumWritesTheSum := by
  intro s f ml ho h2 hf hlen
  exact ⟨_, exec_appendChecksum ho h2 hf hlen, memRead_written 0 rfl, memRead_written 1 rfl,
    fun a ha => memRead_memWriteAll_outside _ _ _ _ ha⟩

/-- Settles O21: the tests in the rule's order, each outcome by the lemma of the test that gives it. -/
theorem validateOutcomes : Obligations.ValidateOutcomes := by
  intro s len f ml ho hf hlen hml
  simp only [← hlen]
  refine ⟨fun h => ?short, fun h26 hcodes => ?notRdm, fun h26 h0 h1 hbad => ?mismatch,
    fun h26 h0 h1 hlow hhigh hsum => ?invalid, fun h26 h0 h1 hlow hhigh hsum => ?ok⟩
  case short => exact exec_validate_failed ho (validateFrame_short (hlen ▸ h)) (by decide)
  case notRdm => exact exec_validate_failed ho (hlen ▸ validateFrame_notRdm hf h26 hcodes) (by decide)
  case mismatch =>
    have hv := validateFrame_eq_validateLength hf h26 h0 h1 (validateLength_mismatch hf h26 hml hbad)
    exact exec_validate_failed ho (hlen ▸ hv) (by decide)
  case invalid =>
    have hv := validateFrame_eq_validateLength hf h26 h0 h1 (validateLength_inRange hf h26 hml hlow hhigh)
    rw [if_neg hsum] at hv
    exact exec_validate_failed ho (hlen ▸ hv) (by decide)
  case ok =>
    have hv := validateFrame_eq_validateLength hf h26 h0 h1 (validateLength_inRange hf h26 hml hlow hhigh)
    rw [if_pos hsum] at hv
    obtain ⟨h, hbytes, hh⟩ := fbHeader_holds hf h26 h0 h1
    exact ⟨h, hbytes, exec_validate_ok ho (hlen ▸ hv) hh⟩

/-- P1 for a frame that stands complete in `fb`: its sum follows the header and the data. -/
theorem exec_validate_complete {s : State} {h : Header} {pd : List Byte} {len : U16} (ho : OwnsFb s)
    (hml : h.ml.toNat = 24 + pd.length) (hlen : len.toNat = 26 + pd.length)
    (hf : FbHolds s 0 (headerBytes h ++ pd ++ checksumBytes (headerBytes h ++ pd))) :
    exec (.validate len) s = .next { s with hostReply := .validation .ok (some h) } := by
  have hbody : (headerBytes h ++ pd).length = h.ml.toNat := by rw [List.length_append, length_headerBytes, hml]
  have hframe : (headerBytes h ++ pd ++ checksumBytes (headerBytes h ++ pd)).length = len.toNat := by
    rw [List.length_append, hbody, hml, hlen]
    exact Nat.add_right_comm 24 pd.length 2
  obtain ⟨-, -, -, -, hok⟩ := validateOutcomes s len _ (headerBytes h ++ pd).length ho hf hframe hbody
  obtain ⟨h', hbytes, hvalidate⟩ := hok (by omega) rfl rfl (by omega) (by omega) (append_checksumBytes _)
  obtain rfl : h' = h := headerBytes_injective hbytes
  exact hvalidate

/-- Settles O22: `append_checksum` completes the header and the data (O20) to a frame that passes every test of
`validate` (O21). -/
theorem serializedFrameValidates : Obligations.SerializedFrameValidates := by
  intro s h pd len ho hml hlen hf
  have hbody : (headerBytes h ++ pd).length = h.ml.toNat := by rw [List.length_append, length_headerBytes, hml]
  obtain ⟨fb, happend, hhi, hlo, houtside⟩ := appendChecksumWritesTheSum s _ h.ml ho (hf 2 _ rfl) hf hbody
  rw [← hbody] at hhi hlo houtside
  have hkept := hf.of_eq_below (t := { s with fb := fb, hostReply := .nothing }) fun a ha => houtside a (.inl ha)
  have hframe := fbHolds_append hkept (by rw [Nat.zero_add]; exact fbHolds_pair hhi hlo)
  have hvalidate := exec_validate_complete (s := { s with fb := fb, hostReply := .nothing }) ho hml hlen hframe
  exact ⟨fb, execAll_pair happend hvalidate, fun a ha => houtside a (by omega)⟩

/-- Settles O23: the request's class has a response class, and the six writes make the reply's header. -/
theorem replyHeaderAnswersTheRequest : Obligations.ReplyHeaderAnswersTheRequest := by
  intro s own rtype msgCount pdl b0 b1 rcc req ho hr hp hreq hclass
  obtain ⟨t, ht, hframe, hholds, habove⟩ :=
    buildReplyHeader_rewritten hreq (responseClass_of_mem hclass) own rtype msgCount pdl
  refine ⟨t.fb, ?_, hholds, habove⟩
  rw [exec_buildReplyHeader_accepted ho ⟨hr, hp⟩, ht, hframe]
  rfl

/-- Settles O24: what `dub_encode` wrote, with the sum taken over the UID's own bytes. -/
theorem dubEncodeWritesTheResponse : Obligations.DubEncodeWritesTheResponse := by
  intro s uid c ho hc
  obtain ⟨t, -, hrun, hframe, hholds, habove⟩ := exec_dubEncode ho uid
  rw [dubResponse, byteSum_dubUid, ← hc, dubTail_ofNat] at hholds
  rw [hframe] at hrun
  exact ⟨t.fb, hrun, hholds, habove⟩

/-- Settles O25: the 24 bytes are the response of `dub_encode`, and its pairs contract to what was expanded. -/
theorem dubDecodingLaw : Obligations.DubDecodingLaw := by
  intro s t uid d ho hrun hlen hd
  obtain ⟨u, -, hrun', -, hholds, -⟩ := exec_dubEncode ho uid
  obtain rfl : { u with hostReply := .u16 24#16 } = t := Host.Outcome.next.inj (hrun'.symm.trans hrun)
  obtain rfl : d = dubResponse uid := fbHolds_unique hd hholds hlen
  exact ⟨fun i hi => dubResponse_uid uid hi, dubResponse_checksum uid⟩

/-- Settles O26: muted, another data length, outside the bounds, between them. -/
theorem dubRespondAnswersInRange : Obligations.DubRespondAnswersInRange := by
  intro s own ho
  refine ⟨exec_dubRespond_silent ho rfl, fun pdl hpdl hne => ?otherLength, fun lower upper hpdl hbounds =>
    ⟨fun hout => ?outside, fun hlow hhigh => ?between⟩⟩
  case otherLength =>
    have hread : fbRead s 23 = .ok pdl := fbRead_ok.mpr ⟨by decide, hpdl⟩
    exact exec_dubRespond_silent ho (except_bind_eq_ok.mpr ⟨pdl, hread, if_neg hne⟩)
  case outside => exact exec_dubRespond_silent ho (dubRespond_outside hpdl hbounds hout)
  case between =>
    obtain ⟨t, ht, hrun, -⟩ := exec_dubEncode ho own
    have answered := exec_dubRespond_answered ho (dubRespond_between hpdl hbounds ⟨hlow, hhigh⟩ ht)
    exact ⟨_, hrun, answered⟩

/-- Settles O27: the replies agree because the comparisons do. -/
theorem uidCompareIsNumeric : Obligations.UidCompareIsNumeric := by
  intro s a b ho
  rw [← compareUid_eq]
  exact codecOp_owner_ok ho rfl

end Sys2Proof.Proofs

/-! PROOF. Statements of spec/42_transceiver_ops.md: nothing is fatal (R160, R370), what `reset()` and a real change of
mode abort (R161, R176, R177), the timing parameters (R163 to R175), and admission to the TX queue (R178 to R183). -/

namespace Sys2Proof.Machine

/-! ### Computations that answer -/

/-- The computation does not fault. -/
def Answers {α : Type} (x : Except Fault α) : Prop := ∃ a, x = .ok a

section
variable {α β : Type} {x y : Except Fault α}

theorem Answers.ok (a : α) : Answers (.ok a) := ⟨a, rfl⟩

theorem Answers.map (h : Answers x) (f : α → β) : Answers (x.map f) := by
  obtain ⟨a, rfl⟩ := h
  exact .ok (f a)

theorem Answers.bind {f : α → Except Fault β} (h : Answers x) (hf : ∀ a, x = .ok a → Answers (f a)) :
    Answers (x >>= f) := by
  obtain ⟨a, rfl⟩ := h
  exact hf a rfl

theorem Answers.ite {c : Prop} [Decidable c] (hx : c → Answers x) (hy : ¬ c → Answers y) :
    Answers (if c then x else y) := by
  split
  · exact hx ‹_›
  · exact hy ‹_›

end

/-! ### Outcomes that are not fatal -/

/-- R160, R370: a next state, or the stop on a completion queue over its depth (U7). -/
def NotFatal (o : Outcome) : Prop := (∃ t, o = .next t) ∨ o = .fault .completionsFull

section
variable {s : State} {d e : Outcome} {c r : Except Fault State}

theorem NotFatal.next (t : State) : NotFatal (.next t) := .inl ⟨t, rfl⟩

theorem NotFatal.settle (before after : State) : NotFatal (settle before after) :=
  (settle_cases before after).imp_left fun h => ⟨after, h⟩

theorem NotFatal.ite {p : Prop} [Decidable p] (hd : p → NotFatal d) (he : ¬ p → NotFatal e) :
    NotFatal (if p then d else e) := by
  split
  · exact hd ‹_›
  · exact he ‹_›

/-- A rejection of the host port (R100) is a next state. -/
theorem NotFatal.internalOnly (he : NotFatal e) : NotFatal (internalOnly s e) :=
  .ite (fun _ => .next _) fun _ => he

theorem NotFatal.toOutcome (h : Answers r) : NotFatal (toOutcome r) := by
  obtain ⟨t, rfl⟩ := h
  exact .next t

/-- Only the live sequencer has to answer. -/
theorem NotFatal.byMode (hc : s.mode = .controller → Answers c) (hr : s.mode = .responder → Answers r) :
    NotFatal (byMode s c r) := by
  cases hm : s.mode with
  | controller =>
    obtain ⟨t, rfl⟩ := hc hm
    rw [byMode_controller hm]
    exact .settle s t
  | responder =>
    obtain ⟨t, rfl⟩ := hr hm
    rw [byMode_responder hm]
    exact .settle s t

theorem NotFatal.lineEvent {u : U64} (hc : s.mode = .controller → u.toNat ≤ s.time → Answers c)
    (hr : s.mode = .responder → u.toNat ≤ s.time → Answers r) : NotFatal (lineEvent u s (Machine.byMode s c r)) := by
  refine .internalOnly (.ite (fun hnow => ?_) fun _ => .next s)
  have hle : u.toNat ≤ s.time := (of_decide_eq_true hnow).le
  exact .byMode (hc · hle) (hr · hle)

end

end Sys2Proof.Machine

namespace Sys2Proof.Safety

open Sys2Proof.Machine

/-! ### Reads that the invariant makes safe

The faults left to a step of the invariant are reads of `fb` or of `cur_op.data`. The reception has been written (R221),
so reads of it answer; so do the slots of `cur_op` up to `tx_len`, and those of a written reply. -/

section
variable {s : State}

/-! #### The reception -/

theorem ReceptionOk.first_answers (h : ReceptionOk s.fb s.rx.count) (hpos : 0 < s.rx.count) : Answers (fbRead s 0) :=
  (fbRead_written (by decide) (h.written 0 hpos)).imp fun _ => And.left

theorem ReceptionOk.bytes_answers (h : ReceptionOk s.fb s.rx.count) : Answers (fbBytes s 0 s.rx.count) :=
  fbBytes_written (by simpa using h.bound) fun k _ hk => h.written k (by simpa using hk)

theorem ReceptionOk.validate_answers (h : ReceptionOk s.fb s.rx.count) : Answers (validateFrame s.rx.count s) := by
  obtain ⟨r, t, hv, -⟩ := validateFrame_written h.bound h.written
  exact ⟨_, hv⟩

/-- R134: a frame that validates has at least 26 bytes, so its header has been received. -/
theorem ReceptionOk.header_answers (h : ReceptionOk s.fb s.rx.count) {t : State}
    (hv : validateFrame s.rx.count s = .ok (.ok, t)) : Answers (fbHeader s) := by
  obtain ⟨r, u, hv', hlen⟩ := validateFrame_written h.bound h.written
  obtain ⟨rfl, -⟩ := Prod.mk.inj (Except.ok.inj (hv'.symm.trans hv))
  exact fbHeader_written fun k hk => h.written k (by have := hlen rfl; omega)

/-- R221: with the byte stored, the reception holds at least that byte. -/
theorem SharedInv.received (h : SharedInv s) (ho : s.fbOwner = .transceiver) (b : Byte) {u : Nat} (hu : u ≤ s.time) :
    0 < (Machine.storeByte b u s).rx.count ∧
      ReceptionOk (Machine.storeByte b u s).fb (Machine.storeByte b u s).rx.count :=
  ⟨storeByte_count_pos ho b u, (h.storeByte b hu).reception⟩

theorem SharedInv.lengthReached_answers (h : SharedInv s) (ho : s.fbOwner = .transceiver) (b : Byte) {u : Nat}
    (hu : u ≤ s.time) : Answers (lengthReached (Machine.storeByte b u s)) := by
  obtain ⟨hpos, hrec⟩ := h.received ho b hu
  exact lengthReached_written hpos hrec.written

theorem SharedInv.interslotTimeout_answers (h : SharedInv s) (ho : s.fbOwner = .transceiver) (b : Byte) {u : Nat}
    (hu : u ≤ s.time) : Answers (interslotTimeout (Machine.storeByte b u s)) := by
  obtain ⟨hpos, hrec⟩ := h.received ho b hu
  exact interslotTimeout_written (hrec.written 0 hpos)

/-! #### The slots of a transmission (R205) -/

theorem CtrlInv.slot_answers {c : CtrlState} (h : CtrlInv c s) (hc : ctrlHoldsSlots c = true) {k : Nat}
    (hk : k < s.tx.len) : Answers (slotSource s k) := by
  rw [h.txLen hc] at hk
  simp only [slotSource, h.mode, List.getElem?_eq_getElem hk]
  exact .ok _

theorem ReplyWritten.slot_answers (hw : ReplyWritten s) (hm : s.mode = .responder)
    (hlen : s.tx.len = s.reply.len) (hb : s.reply.len ≤ Config.frameBufSize) {k : Nat} (hk : k < s.tx.len) :
    Answers (slotSource s k) := by
  rw [hlen] at hk
  simp only [slotSource, hm]
  exact (fbRead_written (hk.trans_le hb) (hw k hk)).imp fun _ => And.left

theorem RespInv.slot_answers {r : RespState} (h : RespInv r s) (hr : respHoldsSlots r = true) (hw : ReplyWritten s)
    {k : Nat} (hk : k < s.tx.len) : Answers (slotSource s k) :=
  hw.slot_answers h.mode (h.txLen hr) h.shared.slots.reply hk

/-! ### The controller's transitions answer -/

section
variable {c : CtrlState} (h : CtrlInv c s)
include h

theorem CtrlInv.timerMatch_answers : Answers (ctrlTimerMatch s) := by
  have hc := h.ctrl
  cases c <;> simp only [ctrlTimerMatch, hc]
  case driveMarkHigh => exact .map (startSlots_succeeds fun _ hk => h.slot_answers rfl hk) _
  all_goals exact .ok _

/-- R245, R252: in both states that store a byte the transceiver owns `fb`. -/
theorem CtrlInv.byte_answers (b : Byte) {u : Nat} (hu : u ≤ s.time) : Answers (ctrlByte b u s) := by
  have hc := h.ctrl
  cases c <;> simp only [ctrlByte, hc]
  case rxSlots =>
    have hphase (p : RxPhase) : SharedInv (setPhase p s) := { h.shared with }
    have hreached (p : RxPhase) := (hphase p).lengthReached_answers h.owner b hu
    exact .bind (hreached _) fun _ _ => .ite (fun _ => .ok _) fun _ => .ok _
  all_goals exact .ok _

end

theorem CtrlInv.fifoSpace_answers (h : CtrlInv .writeSlots s) : Answers (ctrlFifoSpace s) :=
  .map (feed_succeeds fun _ _ hk => h.slot_answers rfl hk) _

/-- R248, R254: the received frame is read whole. -/
theorem SharedInv.handUp_answers (h : SharedInv s) : Answers (handUp s) := by
  refine .ite (fun _ => ?dub) fun _ => ?response
  case dub => exact .bind h.reception.bytes_answers fun _ _ => .ok _
  case response => exact .bind h.reception.validate_answers fun _ _ => .bind h.reception.bytes_answers fun _ _ => .ok _

/-! ### The responder's transitions answer -/

theorem ReceptionOk.finalizeCut_answers (h : ReceptionOk s.fb s.rx.count) : Answers (finalizeCut s) := by
  refine .ite (fun _ => .ok _) fun hne => .bind (h.first_answers (Nat.pos_of_ne_zero hne)) fun _ _ => ?_
  exact .ite (fun _ => .ok _) fun _ => .ite (fun _ => .bind h.validate_answers fun _ _ => .ok _) fun _ => .ok _

/-- R283, R286, R289: a rising edge inside a frame, which a break may have cut. -/
theorem ReceptionOk.riseInside_answers (h : ReceptionOk s.fb s.rx.count) (u : Nat) : Answers (respRiseInside u s) := by
  have hcut : Answers (finalizeCut (disarm s)) := ReceptionOk.finalizeCut_answers (s := disarm s) h
  exact .ite (fun _ => .bind hcut fun _ _ => .ite (fun _ => .ok _) fun _ => .ok _) fun _ => .ok _

theorem SharedInv.consumeRdm_answers (h : SharedInv s) : Answers (respConsumeRdm s) := by
  refine .bind h.reception.validate_answers ?_
  rintro ⟨v, checked⟩ hv
  exact .ite (fun hok => .bind (h.reception.header_answers (hok ▸ hv)) fun _ _ => .ok _) fun _ => .ok _

/-- R290: a complete frame has its start code. -/
theorem RespInv.consume_answers (h : RespInv .complete s) : Answers (respConsume s) := by
  refine .bind (h.shared.reception.first_answers (h.started rfl)) fun _ _ => ?_
  exact .ite (fun _ => .ok _) fun _ => .ite (fun _ => h.clearFrame.shared.consumeRdm_answers) fun _ => .ok _

/-- R293, U3: a length that fits `fb` is answered. -/
theorem respHandlerReturn_answers {n : Int} (hn : n ≤ 513) (s : State) : Answers (respHandlerReturn n s) := by
  have hfits : ¬ (Config.frameBufSize : Int) < n := not_lt.mpr hn
  unfold respHandlerReturn
  rw [if_neg hfits]
  exact .ite (fun _ => .ok _) fun _ => .ite (fun _ => .ok _) fun _ => .ok _

section
variable {r : RespState} (h : RespInv r s)
include h

theorem RespInv.rise_answers (u : Nat) : Answers (respRise u s) := by
  refine .ite (fun _ => .ok _) fun _ => ?_
  split
  case h_2 | h_3 => exact h.shared.reception.riseInside_answers u
  all_goals exact .ok _

/-- R283, R284: in both states that store a byte the transceiver owns `fb`. -/
theorem RespInv.byte_answers (b : Byte) {u : Nat} (hu : u ≤ s.time) : Answers (respByte b u s) := by
  have hr := h.resp
  cases r <;> simp only [respByte, hr]
  case measureMab => exact .bind (h.shared.interslotTimeout_answers h.owner b hu) fun _ _ => .ok _
  case collectSlots =>
    have hwait := h.shared.interslotTimeout_answers h.owner b hu
    exact .bind (h.shared.lengthReached_answers h.owner b hu) fun _ _ =>
      .ite (fun _ => .ok _) fun _ => .bind hwait fun _ _ => .ok _
  all_goals exact .ok _

end

/-- R297: a raw reply is fed at once, and `tx_len` is its length. -/
theorem RespInv.startReply_answers (h : RespInv .waitDelay s) (hw : ReplyWritten s) :
    Answers (Machine.startReply s) := by
  refine .ite (fun _ => .map (startSlots_succeeds fun _ hk => ?_) _) fun _ => .ok _
  have hloaded : ReplyWritten { setDir .tx s with tx := { index := 0, len := s.reply.len } } := hw
  exact hloaded.slot_answers h.mode rfl h.shared.slots.reply hk

theorem RespInv.timerMatch_answers {r : RespState} (h : RespInv r s) (hw : ReplyWritten s) :
    Answers (respTimerMatch s) := by
  have hr := h.resp
  cases r <;> simp only [respTimerMatch, hr]
  case waitDelay => exact h.startReply_answers hw
  case driveMark => exact .map (startSlots_succeeds fun _ hk => h.slot_answers rfl hw hk) _
  all_goals exact .ok _

theorem RespInv.fifoSpace_answers (h : RespInv .writeSlots s) (hw : ReplyWritten s) : Answers (respFifoSpace s) :=
  .map (feed_succeeds fun _ _ hk => h.slot_answers rfl hw hk) _

/-! ### Instructions are not fatal -/

theorem notFatal_enqueueFrame (token : U16) (cls : FrameClass) (sc : Byte) (bytes : List Byte) (s : State) :
    NotFatal (enqueueFrame token cls sc bytes s) := .ite (fun _ => .next _) fun _ => .next _

theorem notFatal_setter (legal : Bool) (p : Params) (s : State) :
    NotFatal (if legal = true then acceptParams p s else rejectOp s) := .ite (fun _ => .next _) fun _ => .next _

theorem notFatal_readCounter (index : Byte) (s : State) : NotFatal (execReadCounter index s) := by
  unfold execReadCounter
  split <;> exact .next _

theorem notFatal_incrementCounter (index : Byte) (s : State) : NotFatal (execIncrementCounter index s) := by
  refine .internalOnly ?_
  split
  · exact .ite (fun _ => .next _) fun _ => .next _
  · exact .next _

theorem notFatal_handlerReturn {n : U16} (hn : n.toInt ≤ 513) (s : State) : NotFatal (execHandlerReturn n s) :=
  .internalOnly (.ite (fun _ => .toOutcome (respHandlerReturn_answers hn s)) fun _ => .next s)

section
variable (h : BlockInv s) (hw : s.mode = .responder → ReplyWritten s)
include h

theorem BlockInv.tasks_notFatal : NotFatal (execTasks s) := by
  refine .internalOnly (.ite (fun _ => .settle _ _) fun _ => .ite (fun hwait => ?_) fun _ => .settle _ _)
  refine .byMode (fun _ => h.shared.handUp_answers) fun hm => ?_
  have hcomplete : s.respState = .complete := (frameWaiting_state hwait).2 hm
  exact (hcomplete ▸ h.resp hm).consume_answers

include hw

theorem BlockInv.timerMatch_notFatal : NotFatal (execTimerMatch s) := by
  refine .internalOnly (.ite (fun _ => .byMode (fun hm => ?controller) fun hm => ?responder) fun _ => .next s)
  case controller =>
    have hc := h.ctrl hm
    exact (hc.note hc.shared.captured s.counters (disarm s).timer s.rx.phase s.rx.dubActive).timerMatch_answers
  case responder =>
    have hr := h.resp hm
    exact (hr.note hr.shared.captured s.counters (disarm s).timer).timerMatch_answers (hw hm)

theorem BlockInv.fifoSpace_notFatal : NotFatal (execTxFifoSpace s) := by
  refine .internalOnly (.ite (fun hdue => ?_) fun _ => .next s)
  obtain ⟨hwrite, -⟩ : inWriteState s = true ∧ _ := by simpa only [fifoSpaceDue, Bool.and_eq_true] using hdue
  refine .byMode (fun hm => ?controller) fun hm => ?responder
  case controller =>
    have hs : s.ctrlState = .writeSlots := by simpa [inWriteState, hm] using hwrite
    exact (hs ▸ h.ctrl hm).fifoSpace_answers
  case responder =>
    have hs : s.respState = .writeSlots := by simpa [inWriteState, hm] using hwrite
    exact (hs ▸ h.resp hm).fifoSpace_answers (hw hm)

/-- R160, R370: from the invariant no instruction but the contract's exceptions is fatal. -/
theorem exec_notFatal {i : Instr} (hi : isCodecOp i = false) (hn : ∀ n, i = .handlerReturn n → n.toInt ≤ 513) :
    NotFatal (exec i s) := by
  cases i with
  | setMode mode hasToken token => exact .settle _ _
  | reset => exact .settle _ _
  | queueDmx token bytes | queueAsc token startCode bytes | queueRdmDub token bytes
  | queueRdmRequest token isBroadcast bytes => exact notFatal_enqueueFrame _ _ _ _ s
  | queueSelfTest token => exact .ite (fun _ => .next _) fun _ => .next _
  | setBreakTime v | setMarkTime v | setResponderDelay v => exact notFatal_setter _ _ s
  | setRdmResponseTimeout v | setResponderJitter v | setDubResponseLimit v => exact .next _
  | getBreakTime | getMarkTime | getRdmResponseTimeout | getResponderDelay | getResponderJitter
  | getDubResponseLimit | now | elapsed _ | delta _ _ | hasElapsed _ _ | setCounter _ | resetCommsStatus =>
    exact .next _
  | readCounter index => exact notFatal_readCounter index s
  | incrementCounter index => exact notFatal_incrementCounter index s
  | handlerReturn n => exact notFatal_handlerReturn (hn n rfl) s
  | tasks => exact h.tasks_notFatal
  | coarseTick => exact .internalOnly (.next _)
  | timerMatch => exact h.timerMatch_notFatal hw
  | fall u => exact .lineEvent (fun _ _ => .ok _) fun _ _ => .ok _
  | rise u => exact .lineEvent (fun _ _ => .ok _) fun hm _ => (h.resp hm).rise_answers _
  | byte u b =>
    exact .lineEvent (fun hm hu => (h.ctrl hm).byte_answers b hu) fun hm hu => (h.resp hm).byte_answers b hu
  | err u kind => exact .lineEvent (fun _ _ => .ok _) fun _ _ => .ok _
  | txFifoSpace => exact h.fifoSpace_notFatal hw
  | txShiftEmpty =>
    exact .internalOnly (.ite (fun _ => .byMode (fun _ => .ok _) fun _ => .ok _) fun _ => .next s)
  | _ => exact absurd rfl (Bool.eq_false_iff.mp hi)

end

end

end Sys2Proof.Safety

namespace Sys2Proof.Machine

section
variable {s t : State}

/-! ### Admission to the TX queue (R178 to R183) -/

theorem queueHasRoom_iff : queueHasRoom s = true ↔ s.mode = .controller ∧ s.txQueue.length < Config.txQueueDepth := by
  simp [queueHasRoom]

/-- R178: the condition of an admission. -/
theorem admission_iff {bytes : List Byte} :
    (queueHasRoom s = true ∧ bytes.length ≤ Config.txSlotsMax) ↔
      s.mode = .controller ∧ s.txQueue.length < Config.txQueueDepth ∧ bytes.length ≤ 512 := by
  rw [queueHasRoom_iff, and_assoc]
  rfl

theorem enqueueFrame_admitted {bytes : List Byte}
    (h : s.mode = .controller ∧ s.txQueue.length < Config.txQueueDepth ∧ bytes.length ≤ 512)
    (token : U16) (cls : FrameClass) (sc : Byte) :
    enqueueFrame token cls sc bytes s =
      .next { s with txQueue := s.txQueue ++ [⟨token, cls, sc :: bytes⟩], hostReply := .bool true } :=
  if_pos (admission_iff.mpr h)

theorem enqueueFrame_rejected {bytes : List Byte}
    (h : ¬ (s.mode = .controller ∧ s.txQueue.length < Config.txQueueDepth ∧ bytes.length ≤ 512))
    (token : U16) (cls : FrameClass) (sc : Byte) :
    enqueueFrame token cls sc bytes s = .next { s with hostReply := .bool false } :=
  if_neg (mt admission_iff.mp h)

theorem execQueueSelfTest_eq (token : U16) (s : State) :
    execQueueSelfTest token s =
      (if s.mode = .controller ∧ s.txQueue.length < Config.txQueueDepth then
        .next { s with txQueue := s.txQueue ++ [⟨token, .selfTest, []⟩], hostReply := .bool true }
       else .next { s with hostReply := .bool false }) :=
  if_congr queueHasRoom_iff rfl rfl

/-! ### A bounded setter (R163, R165, R169) -/

theorem boundedSetter_eq {legal : Bool} {inRange : Prop} [Decidable inRange] (hlegal : legal = true ↔ inRange)
    (p : Params) (s : State) :
    (if legal = true then acceptParams p s else rejectOp s) =
      (if inRange then .next { s with params := p, hostReply := .bool true }
       else .next { s with hostReply := .bool false }) :=
  if_congr hlegal rfl rfl

/-! ### `abort_all` and `set_mode` (R161, R177) -/

/-- R177: `abort_all()`, field by field; the wire only grows. -/
theorem abortAll_eq (s : State) : ∃ wire, abortAll s = { s with
    completions := s.completions ++ abortedEvents s
    curOp.valid := false
    txQueue := []
    uart := { s.uart with fifo := [], busy := false }
    pins := { dir := .rx, line := .mark }
    wire := s.wire ++ wire
    timer.armed := false
    frameReady := false
    ctrlState := .idle
    respState := .idle
    rx := { count := 0, phase := .waitBreak, dubActive := false }
    tx := { index := 0, len := 0 }
    reply := { len := 0, raw := false }
    fbOwner := .transceiver
    timing := { s.timing with lastBreakValid := false, backoffUntil := 0 }
    dispatch := none } := by
  refine ⟨cutWire s ++ (lineWire .mark s ++ dirWire .rx s), ?_⟩
  rw [← List.append_assoc, ← List.append_assoc]
  rfl

/-- U7: a step that posts `events` is kept where there are none of them, or they fit. -/
theorem settle_posted {before after : State} {events : List Completion}
    (ha : after.completions = before.completions ++ events)
    (h : events = [] ∨ Config.completionsFit (before.completions ++ events).length = true) :
    settle before after = .next after := by
  rcases h with rfl | hfit
  · exact settle_quiet (by simp [ha])
  · exact settle_fits (ha ▸ hfit)

theorem execReset_eq
    (h : abortedEvents s = [] ∨ Config.completionsFit (s.completions ++ abortedEvents s).length = true) :
    execReset s = .next (answer .nothing (abortAll s)) :=
  settle_posted rfl h

theorem changeMode_same {mode : Mode} (h : mode = s.mode) : changeMode mode s = s := if_pos h

theorem changeMode_other {mode : Mode} (h : mode ≠ s.mode) : changeMode mode s = { abortAll s with mode := mode } :=
  if_neg h

/-- R161: a mode change without a token. -/
theorem execSetMode_noToken {mode : Mode} (hchange : changeMode mode s = t)
    (h : t.completions.length ≤ s.completions.length ∨ Config.completionsFit t.completions.length = true)
    (token : U16) : execSetMode mode false token s = .next (answer .nothing t) := by
  subst hchange
  rcases h with hquiet | hfits
  · exact settle_quiet hquiet
  · exact settle_fits hfits

/-- R161: a mode change with its token, where its event fits. -/
theorem execSetMode_token {mode : Mode} (hchange : changeMode mode s = t)
    (h : Config.completionsFit (t.completions.length + 1) = true) (token : U16) :
    execSetMode mode true token s = .next (answer .nothing (post (modeEvent token) t)) := by
  subst hchange
  exact settle_fits (by simpa using h)

end

end Sys2Proof.Machine

namespace Sys2Proof.Proofs

open Sys2Proof Sys2Proof.Machine Sys2Proof.Safety

/-- Settles O57, instruction by instruction: what the live sequencer reads has been written. -/
theorem nothingIsFatal : Obligations.NothingIsFatal := fun _ _ h hi hn hw => exec_notFatal h hw hi hn

/-- Settles O15: the four frame operations are `enqueueFrame` with their classes and start codes. -/
theorem enqueueAdmitsOrRejects : Obligations.EnqueueAdmitsOrRejects := by
  intro s token sc bytes
  refine ⟨execQueueSelfTest_eq token s, fun h => ?admitted, fun h => ?rejected⟩
  case admitted =>
    have admits := enqueueFrame_admitted h token
    exact ⟨admits .dmx _, admits .asc sc, admits .rdmDub _, admits .rdmBroadcast _, admits .rdmRequest _⟩
  case rejected =>
    have rejects := enqueueFrame_rejected h token
    exact ⟨rejects .dmx _, rejects .asc sc, rejects .rdmDub _, fun _ => rejects _ _⟩

/-- Settles O16: `reset()` is `abort_all()`, whose events are the aborted operations. -/
theorem resetAbortsEverything : Obligations.ResetAbortsEverything := by
  intro s aborted haborted hfit
  obtain rfl : aborted = abortedEvents s := haborted
  obtain ⟨wire, hwire⟩ := abortAll_eq s
  have hreset : exec .reset s = .next (answer .nothing (abortAll s)) := execReset_eq hfit
  rw [hwire] at hreset
  exact ⟨wire, hreset⟩

/-- Settles O13: a getter answers its register, and these setters have no test. -/
theorem gettersAndUnboundedSetters : Obligations.GettersAndUnboundedSetters :=
  fun _ _ => ⟨rfl, rfl, rfl, rfl, rfl, rfl, rfl, rfl, rfl⟩

/-- Settles O14: each legal set is the range of the statement. -/
theorem boundedSetters : Obligations.BoundedSetters := fun s _ _ =>
  ⟨boundedSetter_eq decide_eq_true_iff _ s, boundedSetter_eq decide_eq_true_iff _ s,
    boundedSetter_eq decide_eq_true_iff _ s⟩

/-- Settles O17: with the mode in force `changeMode` is the identity; otherwise it is the `abort_all()` of `reset()`,
then the new mode, and posts what `reset()` posts. -/
theorem setModeAbortsOnARealChange : Obligations.SetModeAbortsOnARealChange := by
  intro s mode token
  refine ⟨fun hsame => ?same, fun hother r hreset => ?change⟩
  case same =>
    have hchange := changeMode_same hsame
    exact ⟨execSetMode_noToken hchange (.inl (Nat.le_refl _)) token, fun hfit => execSetMode_token hchange hfit token⟩
  case change =>
    obtain ⟨rfl, hkept⟩ := settle_next hreset
    have hchange := changeMode_other hother
    exact ⟨execSetMode_noToken hchange hkept token, fun hfit => execSetMode_token hchange hfit token⟩

end Sys2Proof.Proofs

/-! PROOF. Statements of spec/43_line_interface.md: when an event is enabled, and that one which is not enabled does
nothing (R208, R209, R211, R214, R263, R303). -/

namespace Sys2Proof.Machine

section
variable {s : State}

/-! ### The enabling conditions (R208, R209, R214) -/

theorem timerDue_iff : timerDue s = true ↔ s.timer.armed = true ∧ s.timer.compareAt ≤ s.time := by
  simp [timerDue]

theorem inWriteState_controller (h : s.mode = .controller) : inWriteState s = decide (s.ctrlState = .writeSlots) := by
  simp only [inWriteState, h]

theorem inWriteState_responder (h : s.mode = .responder) : inWriteState s = decide (s.respState = .writeSlots) := by
  simp only [inWriteState, h]

theorem inWaitState_controller (h : s.mode = .controller) : inWaitState s = decide (s.ctrlState = .waitTxDone) := by
  simp only [inWaitState, h]

theorem inWaitState_responder (h : s.mode = .responder) : inWaitState s = decide (s.respState = .waitTxDone) := by
  simp only [inWaitState, h]

theorem fifoSpaceDue_iff :
    fifoSpaceDue s = true ↔ inWriteState s = true ∧ s.uart.fifo.length < Config.uartTxFifoDepth := by
  simp [fifoSpaceDue]

theorem shiftEmptyDue_iff :
    shiftEmptyDue s = true ↔ inWaitState s = true ∧ s.uart.fifo = [] ∧ s.uart.busy = false := by
  simp [shiftEmptyDue, and_assoc]

/-! ### The events by their enabling conditions -/

theorem exec_timerMatch_notDue (ha : s.agent ≠ .host) (hd : ¬ timerDue s = true) : exec .timerMatch s = .next s :=
  (internalOnly_other ha _).trans (if_neg hd)

theorem exec_timerMatch_due (ha : s.agent ≠ .host) (hd : timerDue s = true) :
    exec .timerMatch s = byMode s (ctrlTimerMatch (disarm s)) (respTimerMatch (disarm s)) :=
  (internalOnly_other ha _).trans (if_pos hd)

theorem exec_txFifoSpace_notDue (ha : s.agent ≠ .host) (hd : ¬ fifoSpaceDue s = true) :
    exec .txFifoSpace s = .next s :=
  (internalOnly_other ha _).trans (if_neg hd)

theorem exec_txShiftEmpty_notDue (ha : s.agent ≠ .host) (hd : ¬ shiftEmptyDue s = true) :
    exec .txShiftEmpty s = .next s :=
  (internalOnly_other ha _).trans (if_neg hd)

/-- Log entry 2: whatever its effect, a line event of another instant is no event now. -/
theorem lineEvent_otherTime {t : U64} (ha : s.agent ≠ .host) (ht : t.toNat ≠ s.time) (e : Outcome) :
    lineEvent t s e = .next s :=
  (internalOnly_other ha _).trans (if_neg (by simpa [atTime] using ht))

/-! ### `TimerMatch` in a state with no rule for it (R263, R303) -/

theorem ctrlTimerMatch_noRule (h : s.ctrlState ∈ [.idle, .writeSlots, .waitTxDone, .frameToHost]) :
    ctrlTimerMatch s = .ok s := by
  simp only [List.mem_cons, List.not_mem_nil, or_false] at h
  rcases h with hc | hc | hc | hc <;> simp only [ctrlTimerMatch, hc]

theorem respTimerMatch_noRule
    (h : s.respState ∈ [.idle, .measureBreak, .measureMab, .complete, .dispatch, .writeSlots, .waitTxDone]) :
    respTimerMatch s = .ok s := by
  simp only [List.mem_cons, List.not_mem_nil, or_false] at h
  rcases h with hr | hr | hr | hr | hr | hr | hr <;> simp only [respTimerMatch, hr]

theorem settleResult_disarm (s : State) : settleResult s (.ok (disarm s)) = .next (disarm s) :=
  settle_quiet (Nat.le_refl _)

end

end Sys2Proof.Machine

namespace Sys2Proof.Proofs

open Sys2Proof Sys2Proof.Machine Sys2Proof.Safety

/-- Settles O29: each premise denies a part of its event's enabling condition; a `TimerMatch` that is enabled disarms,
and a state with no rule for it adds nothing. -/
theorem eventsNotEnabledDoNothing : Obligations.EventsNotEnabledDoNothing := by
  intro s ha
  refine ⟨fun h => ?timerNotDue, fun harmed htime h => ?timerNoRule, fun h => ?fifoSpace, fun h => ?shiftEmpty,
    fun t b kind ht => ?line⟩
  case timerNotDue =>
    refine exec_timerMatch_notDue ha fun hdue => ?_
    obtain ⟨harmed, htime⟩ := timerDue_iff.mp hdue
    rcases h with hoff | hearly
    · simp [harmed] at hoff
    · omega
  case timerNoRule =>
    rw [exec_timerMatch_due ha (timerDue_iff.mpr ⟨harmed, htime⟩)]
    rcases h with ⟨hm, hstate⟩ | ⟨hm, hstate⟩
    · rw [byMode_controller hm, ctrlTimerMatch_noRule (s := disarm s) hstate]
      exact settleResult_disarm s
    · rw [byMode_responder hm, respTimerMatch_noRule (s := disarm s) hstate]
      exact settleResult_disarm s
  case fifoSpace =>
    refine exec_txFifoSpace_notDue ha fun hdue => ?_
    obtain ⟨hwrite, hroom⟩ := fifoSpaceDue_iff.mp hdue
    rcases h with ⟨hm, hstate⟩ | ⟨hm, hstate⟩ | hfull
    · simp [inWriteState_controller hm, hstate] at hwrite
    · simp [inWriteState_responder hm, hstate] at hwrite
    · omega
  case shiftEmpty =>
    refine exec_txShiftEmpty_notDue ha fun hdue => ?_
    obtain ⟨hwait, hempty, hidle⟩ := shiftEmptyDue_iff.mp hdue
    rcases h with ⟨hm, hstate⟩ | ⟨hm, hstate⟩ | hslots | hbusy
    · simp [inWaitState_controller hm, hstate] at hwait
    · simp [inWaitState_responder hm, hstate] at hwait
    · exact hslots hempty
    · simp [hidle] at hbusy
  case line =>
    have ignored := lineEvent_otherTime ha ht
    exact ⟨ignored _, ignored _, ignored _, ignored _⟩

end Sys2Proof.Proofs

/-! PROOF. Statements of spec/44_controller.md: operations are answered once and in admission order (R265), and what the
controller does with each event (R230 to R263), with the transmission both sequencers share (R203 to R209). -/

namespace Sys2Proof.Safety

open Sys2Proof.Machine

/-! ### The line of operation tokens (R265)

An operation's token moves along the line: queued, in flight, posted, delivered. Each move is a lemma here; a transition
that makes none of them leaves the four components the line is read from. -/

/-- R265: the tokens of the operations among completion events. -/
def opTokens (events : List Completion) : List U16 :=
  (events.filter fun ev => decide (ev.cls ≠ .modeChange)).map Completion.token

theorem opTokens_append (xs ys : List Completion) : opTokens (xs ++ ys) = opTokens xs ++ opTokens ys := by
  simp [opTokens]

theorem opTokens_op {ev : Completion} (h : ev.cls ≠ .modeChange) : opTokens [ev] = [ev.token] := by
  simp [opTokens, h]

/-- R265: the token of the operation in flight. -/
def flightToken (op : CurOp) : List U16 := if op.valid then [op.token] else []

theorem opLine_eq (s : State) :
    opLine s = opTokens s.delivered ++ opTokens s.completions ++ flightToken s.curOp ++ s.txQueue.map Entry.token := by
  rw [← opTokens_append]
  rfl

section
variable {s t u : State} {c : CtrlState}

/-- From `s` to `t` the components that the line is read from stay. -/
@[simp] def SameOps (s t : State) : Prop :=
  t.delivered = s.delivered ∧ t.completions = s.completions ∧ t.curOp = s.curOp ∧ t.txQueue = s.txQueue

theorem opLine_untouched (h : SameOps s t) : opLine t = opLine s := by
  obtain ⟨hdelivered, hposted, hflight, hqueue⟩ := h
  rw [opLine, opLine, hdelivered, hposted, hflight, hqueue]

/-- A last step that leaves the four components adds nothing to what the steps before it left. -/
theorem opLine_after (hu : opLine u = opLine s) (h : SameOps u t) : opLine t = opLine s :=
  (opLine_untouched h).trans hu

/-! #### The moves -/

/-- R265 (c): the token in flight is posted. -/
theorem opLine_endOp (hu : SameOps s u) (hv : s.curOp.valid = true) {cls : FrameClass} (hcls : cls ≠ .modeChange)
    (r : ResultCode) (bytes : List Byte) : opLine (endOp cls r bytes u) = opLine s := by
  obtain ⟨hdelivered, hposted, hflight, hqueue⟩ := hu
  simp [opLine_eq, opTokens_append, opTokens_op, flightToken, hdelivered, hposted, hflight, hqueue, hv, hcls]

/-- R383: the oldest event is delivered. -/
theorem opLine_deliver (s : State) : opLine (deliver s) = opLine s := by
  unfold deliver
  split
  · rfl
  · next hc => simp [opLine_eq, hc, ← opTokens_append]

/-- R231: the head of the queue becomes the operation in flight. -/
theorem opLine_startOperation {e : Entry} {rest : List Entry} (hq : s.txQueue = e :: rest)
    (hv : s.curOp.valid = false) : opLine (startOperation e rest s) = opLine s := by
  simp [opLine_eq, startOperation, flightToken, hq, hv]

/-- R257: a self-test is posted from the head of the queue, with nothing in flight before it. -/
theorem opLine_runSelfTest {e : Entry} {rest : List Entry} (hq : s.txQueue = e :: rest)
    (hv : s.curOp.valid = false) : opLine (runSelfTest e rest s) = opLine s := by
  simp [opLine_eq, runSelfTest, opTokens_append, opTokens_op, flightToken, hq, hv]

/-- R178: an admitted entry joins at the end. -/
theorem opLine_enqueue (e : Entry) (s : State) :
    opLine { s with txQueue := s.txQueue ++ [e] } = opLine s ++ [e.token] := by
  simp [opLine_eq]

/-- R161: the event of a mode change is no operation's. -/
theorem opLine_modeEvent (token : U16) (s : State) : opLine (post (modeEvent token) s) = opLine s := by
  simp [opLine_eq, opTokens, modeEvent]

theorem opTokens_abortedEvents (h : BlockInv s) :
    opTokens (abortedEvents s) = flightToken s.curOp ++ s.txQueue.map Entry.token := by
  have hqueue : opTokens (s.txQueue.map fun e => ⟨e.token, e.cls, .aborted, []⟩) = s.txQueue.map Entry.token := by
    have hall : ∀ e ∈ s.txQueue, decide (e.cls ≠ .modeChange) = true := fun e he => by simp [h.cls.queueClass e he]
    rw [opTokens, List.filter_map, Function.comp_def, List.filter_eq_self.mpr hall, List.map_map]
    rfl
  rw [abortedEvents, opTokens_append, hqueue, flightToken]
  cases hv : s.curOp.valid
  · rfl
  · simp [opTokens_op, (h.cls.opClass hv).2]

/-- R177: `abort_all` posts what is in flight and what is queued, in that order. -/
theorem opLine_abortAll (h : BlockInv s) : opLine (abortAll s) = opLine s := by
  simp [opLine_eq, opTokens_append, opTokens_abortedEvents h, flightToken]

/-! #### Shared operations that move no token -/

theorem opLine_feed (he : feed s = .ok t) : opLine t = opLine s := by
  obtain ⟨bs, rfl, -⟩ := feed_ok he
  exact opLine_untouched (by simp)

theorem opLine_startSlots (he : startSlots s = .ok t) : opLine t = opLine s := by
  obtain ⟨bs, rfl, -⟩ := startSlots_ok he
  exact opLine_untouched (by simp)

theorem sameOps_validateFrame {len : Nat} {r : ValidateResult} (he : validateFrame len s = .ok (r, t)) :
    SameOps s t := by
  obtain ⟨counters, rfl⟩ := validateFrame_counters he
  simp

theorem opLine_storeByte (b : Byte) (v : Nat) (s : State) : opLine (storeByte b v s) = opLine s := by
  rcases storeByte_cases b v s with ⟨_, _, he⟩ | ⟨_, he⟩ <;> rw [he] <;> exact opLine_untouched (by simp)

theorem opLine_dubActivate (v : Nat) (s : State) : opLine (dubActivate v s) = opLine s := by
  unfold dubActivate
  split <;> exact opLine_untouched (by simp)

theorem opLine_codecStep (h : CodecStep s t) : opLine t = opLine s := by
  obtain ⟨_, _, _, _, rfl⟩ := h
  exact opLine_untouched (by simp)

/-! #### The controller -/

/-- R35 (b), R381: outside IDLE an operation is in flight, and it is no mode change. -/
theorem CtrlInv.inFlight (h : CtrlInv c s) (hc : c ≠ .idle) :
    s.curOp.valid = true ∧ s.curOp.cls ≠ .modeChange := by
  refine ⟨by simp [h.valid, hc], fun hmode => ?_⟩
  have hcls := h.cls
  rw [hmode] at hcls
  cases c <;> simp_all [ClassAt]

theorem CtrlInv.opLine_timerMatch (h : CtrlInv c s) (he : ctrlTimerMatch s = .ok t) : opLine t = opLine s := by
  have hc := h.ctrl
  cases c <;> simp only [ctrlTimerMatch, hc, Except.ok.injEq] at he
  case driveMarkHigh =>
    obtain ⟨u, hu, rfl⟩ := except_map_eq_ok.mp he
    exact opLine_after (opLine_startSlots hu) (by simp [ctrlAfterFeed])
  case awaitResponse =>
    subst he
    exact opLine_endOp (by simp) (h.inFlight nofun).1 (by decide) _ _
  all_goals subst he; exact opLine_untouched (by simp [frameToHost])

theorem opLine_ctrlFifoSpace (he : ctrlFifoSpace s = .ok t) : opLine t = opLine s := by
  obtain ⟨u, hu, rfl⟩ := except_map_eq_ok.mp he
  split
  · exact opLine_after (opLine_feed hu) (by simp)
  · exact opLine_feed hu

theorem CtrlInv.opLine_shiftEmpty (h : CtrlInv .waitTxDone s) : opLine (ctrlShiftEmpty s) = opLine s := by
  have hv := (h.inFlight nofun).1
  unfold ctrlShiftEmpty
  split
  case h_1 | h_2 | h_3 => exact opLine_endOp (by simp) hv (by decide) _ _
  all_goals exact opLine_untouched (by simp)

theorem opLine_ctrlFall (v : Nat) (s : State) : opLine (ctrlFall v s) = opLine s := by
  unfold ctrlFall
  split
  case h_1 => split <;> exact opLine_untouched (by simp)
  case h_2 =>
    split
    · split <;> exact opLine_untouched (by simp)
    all_goals exact opLine_untouched (by simp)
  case h_3 => exact opLine_dubActivate v s
  all_goals exact opLine_untouched (by simp)

theorem opLine_ctrlRise (v : Nat) (s : State) : opLine (ctrlRise v s) = opLine s := by
  unfold ctrlRise ctrlBreakEnd
  split
  · split
    · split <;> exact opLine_untouched (by simp)
    · exact opLine_untouched (by simp)
  all_goals exact opLine_untouched (by simp)

theorem opLine_ctrlSlot {b : Byte} {v : Nat} (he : ctrlSlot b v s = .ok t) : opLine t = opLine s := by
  obtain ⟨d, -, he⟩ := except_bind_eq_ok.mp he
  have hphase : opLine (setPhase (if s.rx.phase = .inMark then .data else s.rx.phase) s) = opLine s :=
    opLine_untouched (by simp)
  have hstored := (opLine_storeByte b v _).trans hphase
  split at he <;> cases he <;> exact opLine_after hstored (by simp [frameToHost])

theorem opLine_ctrlDubByte (b : Byte) (v : Nat) (s : State) : opLine (ctrlDubByte b v s) = opLine s := by
  have hstored := (opLine_storeByte b v _).trans (opLine_dubActivate v s)
  unfold ctrlDubByte
  dsimp only
  split
  · exact opLine_after hstored (by simp [frameToHost])
  · exact hstored

theorem opLine_ctrlByte {b : Byte} {v : Nat} (he : ctrlByte b v s = .ok t) : opLine t = opLine s := by
  unfold ctrlByte at he
  split at he
  case h_1 => exact opLine_ctrlSlot he
  case h_2 => cases he; exact opLine_ctrlDubByte b v s
  all_goals cases he; exact opLine_untouched (by simp)

theorem CtrlInv.opLine_err (h : CtrlInv c s) (kind : UartErr) : opLine (ctrlErr kind s) = opLine s := by
  unfold ctrlErr
  split
  case isTrue hr =>
    have hc : c ≠ .idle := by rintro rfl; simp [h.ctrl, ctrlReceives] at hr
    obtain ⟨hv, hcls⟩ := h.inFlight hc
    exact opLine_endOp (by simp) hv hcls _ _
  case isFalse => exact opLine_untouched (by simp)

theorem CtrlInv.opLine_handUp (h : CtrlInv .frameToHost s) (he : Machine.handUp s = .ok t) : opLine t = opLine s := by
  have hv := (h.inFlight nofun).1
  unfold Machine.handUp at he
  split at he
  · obtain ⟨bytes, -, he⟩ := except_bind_eq_ok.mp he
    cases he
    exact opLine_endOp (by simp) hv (by decide) _ _
  · obtain ⟨⟨r, checked⟩, hr, he⟩ := except_bind_eq_ok.mp he
    obtain ⟨bytes, -, he⟩ := except_bind_eq_ok.mp he
    have hchecked := sameOps_validateFrame hr
    cases he
    split <;> exact opLine_endOp (by simpa using hchecked) hv (by decide) _ _

theorem BlockInv.opLine_tasksQueue (h : BlockInv s) : opLine (Machine.tasksQueue s) = opLine s := by
  unfold Machine.tasksQueue
  split
  case h_1 => exact opLine_deliver s
  case h_2 e rest hq =>
    split
    case isTrue hidle =>
      have hv : s.curOp.valid = false := by simp [(h.ctrl hidle.1).valid, hidle.2]
      split
      · exact opLine_runSelfTest hq hv
      · split
        · exact opLine_startOperation hq hv
        · exact opLine_deliver s
    case isFalse => exact opLine_deliver s

/-! #### The responder -/

theorem opLine_respTimerMatch (he : respTimerMatch s = .ok t) : opLine t = opLine s := by
  unfold respTimerMatch at he
  split at he
  case h_2 =>
    unfold startReply at he
    split at he
    · obtain ⟨u, hu, rfl⟩ := except_map_eq_ok.mp he
      have hloaded : opLine { setDir .tx s with tx := { index := 0, len := s.reply.len } } = opLine s :=
        opLine_untouched (by simp)
      exact opLine_after ((opLine_startSlots hu).trans hloaded) (by simp [respAfterFeed])
    · cases he; exact opLine_untouched (by simp)
  case h_4 =>
    obtain ⟨u, hu, rfl⟩ := except_map_eq_ok.mp he
    exact opLine_after (opLine_startSlots hu) (by simp [respAfterFeed])
  all_goals cases he; exact opLine_untouched (by simp [respComplete])

theorem opLine_respFifoSpace (he : respFifoSpace s = .ok t) : opLine t = opLine s := by
  obtain ⟨u, hu, rfl⟩ := except_map_eq_ok.mp he
  split
  · exact opLine_after (opLine_feed hu) (by simp)
  · exact opLine_feed hu

theorem opLine_respFall (v : Nat) (s : State) : opLine (respFall v s) = opLine s := by
  unfold respFall respDiscardReply
  split
  · exact opLine_untouched (by simp)
  · split <;> exact opLine_untouched (by simp)

theorem opLine_respRiseInside {v : Nat} (he : respRiseInside v s = .ok t) : opLine t = opLine s := by
  unfold respRiseInside at he
  split at he
  · obtain ⟨counted, hf, he⟩ := except_bind_eq_ok.mp he
    obtain ⟨counters, rfl⟩ := finalizeCut_counters hf
    split at he <;> cases he <;> exact opLine_untouched (by simp [respBreakOk])
  · cases he; exact opLine_untouched (by simp)

theorem opLine_respRise {v : Nat} (he : respRise v s = .ok t) : opLine t = opLine s := by
  unfold respRise respDiscardReply at he
  split at he
  · cases he; exact opLine_untouched (by simp)
  · split at he
    case h_1 =>
      cases he
      unfold respBreakEnd respBreakOk
      split <;> exact opLine_untouched (by simp)
    case h_2 | h_3 => exact opLine_respRiseInside he
    all_goals cases he; exact opLine_untouched (by simp)

theorem opLine_respByte {b : Byte} {v : Nat} (he : respByte b v s = .ok t) : opLine t = opLine s := by
  have hstored := opLine_storeByte b v s
  unfold respByte at he
  split at he
  case h_1 =>
    obtain ⟨wait, -, he⟩ := except_bind_eq_ok.mp he
    cases he
    exact opLine_after hstored (by simp)
  case h_2 =>
    obtain ⟨done, -, he⟩ := except_bind_eq_ok.mp he
    split at he
    · cases he
      exact opLine_after hstored (by simp [respComplete])
    · obtain ⟨wait, -, he⟩ := except_bind_eq_ok.mp he
      cases he
      exact opLine_after hstored (by simp)
  all_goals cases he; exact opLine_untouched (by simp)

theorem opLine_respErr (kind : UartErr) (s : State) : opLine (respErr kind s) = opLine s := by
  unfold respErr respErrAbort
  split <;> exact opLine_untouched (by simp)

theorem opLine_respConsume (he : respConsume s = .ok t) : opLine t = opLine s := by
  obtain ⟨sc, -, he⟩ := except_bind_eq_ok.mp he
  split at he
  · cases he; exact opLine_untouched (by simp)
  · split at he
    · obtain ⟨⟨r, checked⟩, hv, he⟩ := except_bind_eq_ok.mp he
      have hchecked : SameOps s checked := by simpa using sameOps_validateFrame hv
      dsimp only at he
      split at he
      · obtain ⟨hd, -, he⟩ := except_bind_eq_ok.mp he
        cases he
        exact opLine_untouched (by simpa using hchecked)
      · cases he
        exact opLine_untouched (by simpa using hchecked)
    · cases he; exact opLine_untouched (by simp)

theorem opLine_respHandlerReturn {n : Int} (he : respHandlerReturn n s = .ok t) : opLine t = opLine s := by
  unfold respHandlerReturn at he
  split at he
  · cases he
  · split at he
    · cases he; exact opLine_untouched (by simp [scheduleReply])
    · split at he <;> cases he <;> exact opLine_untouched (by simp [scheduleReply])

/-! #### Outcomes -/

theorem opLine_of_settle (he : settle s u = .next t) (hu : opLine u = opLine s) : opLine t = opLine s := by
  obtain ⟨rfl, -⟩ := settle_next he
  exact hu

theorem opLine_of_internalOnly {e : Outcome} (he : internalOnly s e = .next t)
    (hk : e = .next t → opLine t = opLine s) : opLine t = opLine s := by
  rcases internalOnly_next he with ⟨_, rfl⟩ | ⟨_, he⟩
  · exact opLine_untouched (by simp)
  · exact hk he

/-- An event that is not enabled leaves the state as it is. -/
theorem opLine_of_enabled {b : Prop} [Decidable b] {e : Outcome} (he : (if b then e else .next s) = .next t)
    (hk : b → e = .next t → opLine t = opLine s) : opLine t = opLine s := by
  split at he
  · exact hk ‹_› he
  · cases he; rfl

theorem opLine_of_byMode {x y : Except Fault State} (he : byMode s x y = .next t)
    (hx : s.mode = .controller → x = .ok t → opLine t = opLine s)
    (hy : s.mode = .responder → y = .ok t → opLine t = opLine s) : opLine t = opLine s := by
  obtain ⟨⟨hm, ht⟩ | ⟨hm, ht⟩, -⟩ := byMode_next he
  · exact hx hm ht
  · exact hy hm ht

theorem opLine_of_lineEvent {v : U64} {x y : Except Fault State} (he : lineEvent v s (byMode s x y) = .next t)
    (hx : s.mode = .controller → x = .ok t → opLine t = opLine s)
    (hy : s.mode = .responder → y = .ok t → opLine t = opLine s) : opLine t = opLine s := by
  rcases lineEvent_next he with ⟨_, rfl⟩ | ⟨_, _, rfl⟩ | ⟨_, _, he⟩
  · exact opLine_untouched (by simp)
  · rfl
  · exact opLine_of_byMode he hx hy

/-! #### Instructions -/

theorem BlockInv.opLine_tasks (h : BlockInv s) (he : execTasks s = .next t) : opLine t = opLine s := by
  refine opLine_of_internalOnly he fun he => ?_
  split at he
  case isTrue hdue =>
    obtain ⟨⟨hm, hv⟩, _⟩ : (s.mode = .controller ∧ s.curOp.valid = true) ∧ _ := by
      simpa only [deadlineDue, Bool.and_eq_true, decide_eq_true_eq] using hdue
    exact opLine_of_settle he (opLine_endOp (by simp) hv (h.cls.opClass hv).2 _ _)
  case isFalse =>
    split at he
    · obtain ⟨hctrl, -⟩ := frameWaiting_state ‹_›
      exact opLine_of_byMode he (fun hm => (hctrl hm ▸ h.ctrl hm).opLine_handUp) fun _ => opLine_respConsume
    · exact opLine_of_settle he h.opLine_tasksQueue

theorem BlockInv.opLine_timerMatch (h : BlockInv s) (he : execTimerMatch s = .next t) : opLine t = opLine s := by
  have hdisarmed : opLine (disarm s) = opLine s := opLine_untouched (by simp)
  refine opLine_of_internalOnly he fun he => opLine_of_enabled he fun _ he =>
    opLine_of_byMode he (fun hm ht => ?_) fun _ ht => (opLine_respTimerMatch ht).trans hdisarmed
  have hctrl := h.ctrl hm
  have hnote := hctrl.note hctrl.shared.captured s.counters (disarm s).timer s.rx.phase s.rx.dubActive
  exact (hnote.opLine_timerMatch ht).trans hdisarmed

theorem BlockInv.opLine_txShiftEmpty (h : BlockInv s) (he : execTxShiftEmpty s = .next t) : opLine t = opLine s := by
  refine opLine_of_internalOnly he fun he => opLine_of_enabled he fun hdue he =>
    opLine_of_byMode he (fun hm ht => ?_) fun _ ht => by cases ht; exact opLine_untouched (by simp [respShiftEmpty])
  have hstate : s.ctrlState = .waitTxDone := by
    obtain ⟨hwait, -⟩ := shiftEmptyDue_iff.mp hdue
    simpa [inWaitState_controller hm] using hwait
  cases ht
  exact (hstate ▸ h.ctrl hm).opLine_shiftEmpty

theorem opLine_handlerReturn {n : U16} (he : execHandlerReturn n s = .next t) : opLine t = opLine s := by
  refine opLine_of_internalOnly he fun he => ?_
  split at he
  · unfold toOutcome at he
    split at he
    · next hok => cases he; exact opLine_respHandlerReturn hok
    · cases he
  · cases he; exact opLine_untouched (by simp)

theorem opLine_incrementCounter {index : Byte} (he : execIncrementCounter index s = .next t) :
    opLine t = opLine s := by
  refine opLine_of_internalOnly he fun he => ?_
  split at he
  · split at he <;> cases he <;> exact opLine_untouched (by simp)
  · cases he; exact opLine_untouched (by simp)

theorem opLine_coarseTick (he : execCoarseTick s = .next t) : opLine t = opLine s := by
  refine opLine_of_internalOnly he fun he => ?_
  cases he
  split <;> exact opLine_untouched (by simp)

theorem opLine_readCounter {index : Byte} (he : execReadCounter index s = .next t) : opLine t = opLine s := by
  unfold execReadCounter at he
  split at he <;> cases he <;> exact opLine_untouched (by simp)

theorem opLine_setter {legal : Bool} {p : Params}
    (he : (if legal = true then acceptParams p s else rejectOp s) = .next t) : opLine t = opLine s := by
  split at he <;> cases he <;> exact opLine_untouched (by simp)

theorem BlockInv.opLine_setMode (h : BlockInv s) {mode : Mode} {hasToken : Bool} {token : U16}
    (he : execSetMode mode hasToken token s = .next t) : opLine t = opLine s := by
  have hchange : opLine (changeMode mode s) = opLine s := by
    unfold changeMode
    split
    · exact opLine_untouched (by simp)
    · exact opLine_after (opLine_abortAll h) ⟨rfl, rfl, rfl, rfl⟩
  refine opLine_of_settle he ?_
  split
  · exact (opLine_modeEvent token _).trans hchange
  · exact hchange

/-- R178: an admitted frame, as `admitted` counts it. -/
theorem opLine_enqueueFrame {token : U16} {cls : FrameClass} {sc : Byte} {bytes : List Byte}
    (he : enqueueFrame token cls sc bytes s = .next t) : opLine t = opLine s ++ admittedFrame token bytes s := by
  unfold enqueueFrame at he
  unfold admittedFrame
  split at he <;> cases he
  · rw [if_pos ‹_›]; exact opLine_enqueue ⟨token, cls, sc :: bytes⟩ s
  · rw [if_neg ‹_›, List.append_nil]; exact opLine_untouched (by simp)

/-- R183: an admitted self-test. -/
theorem opLine_queueSelfTest {token : U16} (he : execQueueSelfTest token s = .next t) :
    opLine t = opLine s ++ if queueHasRoom s then [token] else [] := by
  unfold execQueueSelfTest at he
  split at he <;> cases he
  · rw [if_pos ‹_›]; exact opLine_enqueue ⟨token, .selfTest, []⟩ s
  · rw [if_neg ‹_›, List.append_nil]; exact opLine_untouched (by simp)

/-- The instructions that admit an operation (R178 to R183). -/
def isEnqueue : Instr → Bool
  | .queueDmx _ _ => true
  | .queueAsc _ _ _ => true
  | .queueRdmDub _ _ => true
  | .queueRdmRequest _ _ _ => true
  | .queueSelfTest _ => true
  | _ => false

/-- R265: no instruction but an enqueue moves the line's end, and none its order. -/
theorem exec_keeps_opLine (h : BlockInv s) {i : Instr} (hi : isEnqueue i = false) (he : exec i s = .next t) :
    opLine t = opLine s := by
  by_cases hcodec : isCodecOp i = true
  · exact opLine_codecStep (exec_codec hcodec he).1
  · cases i with
    | setMode mode hasToken token => exact h.opLine_setMode he
    | reset => exact opLine_of_settle he (opLine_after (opLine_abortAll h) (by simp))
    | queueDmx _ _ | queueAsc _ _ _ | queueRdmDub _ _ | queueRdmRequest _ _ _ | queueSelfTest _ => cases hi
    | setBreakTime v | setMarkTime v | setResponderDelay v => exact opLine_setter he
    | setRdmResponseTimeout v | setResponderJitter v | setDubResponseLimit v
    | getBreakTime | getMarkTime | getRdmResponseTimeout | getResponderDelay | getResponderJitter
    | getDubResponseLimit | now | elapsed _ | delta _ _ | hasElapsed _ _ | setCounter _ | resetCommsStatus =>
      cases he; exact opLine_untouched (by simp)
    | readCounter index => exact opLine_readCounter he
    | incrementCounter index => exact opLine_incrementCounter he
    | handlerReturn n => exact opLine_handlerReturn he
    | tasks => exact h.opLine_tasks he
    | coarseTick => exact opLine_coarseTick he
    | timerMatch => exact h.opLine_timerMatch he
    | fall u =>
      exact opLine_of_lineEvent he (fun _ ht => by cases ht; exact opLine_ctrlFall _ s)
        (fun _ ht => by cases ht; exact opLine_respFall _ s)
    | rise u =>
      exact opLine_of_lineEvent he (fun _ ht => by cases ht; exact opLine_ctrlRise _ s) fun _ => opLine_respRise
    | byte u b => exact opLine_of_lineEvent he (fun _ => opLine_ctrlByte) fun _ => opLine_respByte
    | err u kind =>
      exact opLine_of_lineEvent he (fun hm ht => by cases ht; exact (h.ctrl hm).opLine_err kind)
        (fun _ ht => by cases ht; exact opLine_respErr kind s)
    | txFifoSpace =>
      exact opLine_of_internalOnly he fun he => opLine_of_enabled he fun _ he =>
        opLine_of_byMode he (fun _ => opLine_ctrlFifoSpace) fun _ => opLine_respFifoSpace
    | txShiftEmpty => exact h.opLine_txShiftEmpty he
    | _ => exact absurd rfl hcodec

end
end Sys2Proof.Safety

namespace Sys2Proof.Proofs

open Sys2Proof Sys2Proof.Machine Sys2Proof.Safety

/-- Settles O58: an enqueue that admits adds its token at the end; every other instruction moves tokens along the line,
if any, in their order. -/
theorem operationsAreAnsweredOnceInOrder : Obligations.OperationsAreAnsweredOnceInOrder := by
  intro i s t h he
  cases i with
  | queueDmx _ _ | queueAsc _ _ _ | queueRdmDub _ _ | queueRdmRequest _ _ _ => exact opLine_enqueueFrame he
  | queueSelfTest _ => exact opLine_queueSelfTest he
  | _ => exact (exec_keeps_opLine h rfl he).trans (List.append_nil _).symm

end Sys2Proof.Proofs

namespace Sys2Proof.Machine

/-! ### An event's outcome -/

section
variable {s u : State} {t : U64}

/-- A transition that posts nothing. -/
theorem settle_unposted (h : u.completions = s.completions) : settle s u = .next u :=
  settle_quiet (by rw [h])

/-- A transition that posts nothing and stays in the state `c`. -/
theorem settle_unposted_in {c : CtrlState} (h : u.completions = s.completions) (hstate : u.ctrlState = c) :
    settle s u = .next { u with ctrlState := c } := by
  subst hstate
  exact settle_unposted h

/-- R380: a transition that posts one event, where it fits. -/
theorem settle_one {ev : Completion} (h : u.completions = s.completions ++ [ev])
    (hfit : Config.completionsFit (s.completions.length + 1) = true) : settle s u = .next u :=
  settle_posted h (.inr (by simpa using hfit))

/-! #### `TimerMatch` in each mode (R214) -/

section
variable (ha : s.agent ≠ .host) (harmed : s.timer.armed = true) (htime : s.timer.compareAt ≤ s.time)
include ha harmed htime

theorem exec_timerMatch_controller (hm : s.mode = .controller) :
    exec .timerMatch s = settleResult s (ctrlTimerMatch (disarm s)) := by
  rw [exec_timerMatch_due ha (timerDue_iff.mpr ⟨harmed, htime⟩), byMode_controller hm]

theorem exec_timerMatch_responder (hm : s.mode = .responder) :
    exec .timerMatch s = settleResult s (respTimerMatch (disarm s)) := by
  rw [exec_timerMatch_due ha (timerDue_iff.mpr ⟨harmed, htime⟩), byMode_responder hm]

end

/-! #### Line events in each mode, at their own instant (R211) -/

section
variable (ha : s.agent ≠ .host) (ht : t.toNat = s.time)
include ha ht

section
variable (hm : s.mode = .controller)
include hm

theorem exec_fall_controller : exec (.fall t) s = settle s (ctrlFall t.toNat s) :=
  (lineEvent_now ha ht _).trans (byMode_controller hm _ _)

theorem exec_rise_controller : exec (.rise t) s = settle s (ctrlRise t.toNat s) :=
  (lineEvent_now ha ht _).trans (byMode_controller hm _ _)

theorem exec_byte_controller (b : Byte) : exec (.byte t b) s = settleResult s (ctrlByte b t.toNat s) :=
  (lineEvent_now ha ht _).trans (byMode_controller hm _ _)

theorem exec_err_controller (kind : UartErr) : exec (.err t kind) s = settle s (ctrlErr kind s) :=
  (lineEvent_now ha ht _).trans (byMode_controller hm _ _)

end

theorem exec_err_responder (hm : s.mode = .responder) (kind : UartErr) :
    exec (.err t kind) s = settle s (respErr kind s) :=
  (lineEvent_now ha ht _).trans (byMode_responder hm _ _)

end

/-- A line event whose effect is nothing does nothing, whatever its instant. -/
theorem lineEvent_ignored (ha : s.agent ≠ .host) {e : Outcome} (he : e = .next s) (t : U64) :
    lineEvent t s e = .next s := by
  by_cases ht : t.toNat = s.time
  · rw [lineEvent_now ha ht, he]
  · exact lineEvent_otherTime ha ht e

theorem lineEvent_ignored_controller (ha : s.agent ≠ .host) (hm : s.mode = .controller) {c r : Except Fault State}
    (hc : c = .ok s) (t : U64) : lineEvent t s (byMode s c r) = .next s := by
  subst hc
  exact lineEvent_ignored ha ((byMode_controller hm (.ok s) r).trans (settle_unposted rfl)) t

theorem lineEvent_ignored_responder (ha : s.agent ≠ .host) (hm : s.mode = .responder) {c r : Except Fault State}
    (hr : r = .ok s) (t : U64) : lineEvent t s (byMode s c r) = .next s := by
  subst hr
  exact lineEvent_ignored ha ((byMode_responder hm c (.ok s)).trans (settle_unposted rfl)) t

/-! #### The UART transmitter's events in each mode (R208, R209) -/

theorem exec_txFifoSpace_due (ha : s.agent ≠ .host) (hd : fifoSpaceDue s = true) :
    exec .txFifoSpace s = byMode s (ctrlFifoSpace s) (respFifoSpace s) :=
  (internalOnly_other ha _).trans (if_pos hd)

theorem exec_txShiftEmpty_due (ha : s.agent ≠ .host) (hd : shiftEmptyDue s = true) :
    exec .txShiftEmpty s = byMode s (.ok (ctrlShiftEmpty s)) (.ok (respShiftEmpty s)) :=
  (internalOnly_other ha _).trans (if_pos hd)

theorem exec_txShiftEmpty_controller (ha : s.agent ≠ .host) (hm : s.mode = .controller)
    (hstate : s.ctrlState = .waitTxDone) (hf : s.uart.fifo = []) (hb : s.uart.busy = false) :
    exec .txShiftEmpty s = settle s (ctrlShiftEmpty s) := by
  have hwait : inWaitState s = true := by rw [inWaitState_controller hm, hstate]; rfl
  rw [exec_txShiftEmpty_due ha (shiftEmptyDue_iff.mpr ⟨hwait, hf, hb⟩), byMode_controller hm]
  rfl

/-! #### `Tasks` by its priorities (R384) -/

theorem deadlineDue_iff {deadline : U32} : deadlineDue deadline s = true ↔
    s.mode = .controller ∧ s.curOp.valid = true ∧
      deadline.toNat < (s.coarseTicks.toNat + 2 ^ 32 - s.timing.opStartTick.toNat) % 2 ^ 32 := by
  simp [deadlineDue, tickHasElapsed_eq, and_assoc]

theorem tasksUnder_deadline {deadline : U32} (ha : s.agent ≠ .host) (hd : deadlineDue deadline s = true) :
    tasksUnder deadline s = settle s (deadlineAbort s) :=
  (internalOnly_other ha _).trans (if_pos hd)

theorem exec_tasks_frameWaiting (ha : s.agent ≠ .host) (hd : ¬ deadlineDue Config.opDeadlineTicks s = true)
    (hw : frameWaiting s = true) : exec .tasks s = byMode s (handUp s) (respConsume s) :=
  (internalOnly_other ha _).trans ((if_neg hd).trans (if_pos hw))

theorem exec_tasks_queue (ha : s.agent ≠ .host) (hd : ¬ deadlineDue Config.opDeadlineTicks s = true)
    (hw : ¬ frameWaiting s = true) : exec .tasks s = settle s (tasksQueue s) :=
  (internalOnly_other ha _).trans ((if_neg hd).trans (if_neg hw))

/-- R232, R257: an idle controller with nothing in flight goes to its queue. -/
theorem exec_tasks_idle (ha : s.agent ≠ .host) (hm : s.mode = .controller) (hstate : s.ctrlState = .idle)
    (hv : s.curOp.valid = false) : exec .tasks s = settle s (tasksQueue s) := by
  refine exec_tasks_queue ha (fun hd => ?_) fun hw => ?_
  · obtain ⟨-, hvalid, -⟩ := deadlineDue_iff.mp hd
    simp [hv] at hvalid
  · obtain ⟨hframe, -⟩ := Safety.frameWaiting_state hw
    simp [hframe hm] at hstate

end

/-! ### The slot serializer over known slots (R205, R206) -/

section
variable {s t : State} {d : List Byte}

/-- R205: `d` is the slot source. -/
def SlotsAre (s : State) (d : List Byte) : Prop := ∀ k, k < d.length → slotSource s k = .ok (d.getD k 0#8)

theorem SlotsAre.controller (hm : s.mode = .controller) (hd : s.curOp.data = d) : SlotsAre s d := by
  intro k hk
  simp [slotSource, hm, hd, hk]

theorem SlotsAre.responder (hm : s.mode = .responder) (hd : Safety.FbHolds s 0 d) (hlen : d.length ≤ 513) :
    SlotsAre s d := by
  intro k hk
  simp only [slotSource, hm]
  exact Safety.fbRead_holds_start hd hk (hk.trans_le hlen)

/-- R206: `feed()` takes the next slots in index order, as many as there is room for. -/
theorem feed_slots (hd : SlotsAre s d) (hlen : s.tx.len = d.length) {n : Nat}
    (hn : n = min (Config.uartTxFifoDepth - s.uart.fifo.length) (d.length - s.tx.index)) :
    feed s = .ok { s with
      uart.fifo := s.uart.fifo ++ (d.drop s.tx.index).take n, tx.index := s.tx.index + n } := by
  obtain ⟨t, ht⟩ := feed_succeeds fun k _ hk => ⟨_, hd k (hlen ▸ hk)⟩
  obtain ⟨bs, rfl, hbs, hslot⟩ := feed_ok ht
  rw [hlen, ← hn] at hbs
  have htaken : bs = (d.drop s.tx.index).take n := by
    refine List.ext_getElem (by simp; omega) fun k hk hk' => ?_
    have hin : s.tx.index + k < d.length := by omega
    have := Except.ok.inj ((hslot k hk).symm.trans (hd _ hin))
    simpa [hk, hin] using this
  rw [ht, hbs, htaken]

/-- R205: `start_slots()` gives the line to the UART and takes slots from 0. -/
theorem startSlots_slots (hd : SlotsAre s d) (hlen : s.tx.len = d.length) {n : Nat}
    (hn : n = min (Config.uartTxFifoDepth - s.uart.fifo.length) d.length) :
    startSlots s = .ok { setLine .uart s with uart.fifo := s.uart.fifo ++ d.take n, tx.index := n } := by
  have hstart : SlotsAre { setLine .uart s with tx.index := 0 } d := fun k hk => by
    simpa [slotSource, fbRead] using hd k hk
  have := feed_slots hstart hlen hn
  simpa [startSlots] using this

end

/-! ### The fine timer in each state (R203, R204, R233, R234, R243, R246, R253, R285, R298) -/

section
variable {s : State}

theorem ctrlTimerMatch_driveBreakLow (h : s.ctrlState = .driveBreakLow) :
    ctrlTimerMatch s = .ok (ctrlGoto .driveMarkHigh (endBreak s)) := by simp only [ctrlTimerMatch, h]

theorem ctrlTimerMatch_driveMarkHigh (h : s.ctrlState = .driveMarkHigh) :
    ctrlTimerMatch s = (startSlots s).map ctrlAfterFeed := by simp only [ctrlTimerMatch, h]

theorem ctrlTimerMatch_awaitResponse (h : s.ctrlState = .awaitResponse) :
    ctrlTimerMatch s =
      .ok (endOp .rdmRequest .timeout [] (backoff (s.timing.txEndTime + Config.ctrlMissingResponseBackoff) s)) := by
  simp only [ctrlTimerMatch, h]

theorem ctrlTimerMatch_receiving (h : s.ctrlState = .rxSlots ∨ s.ctrlState = .awaitDub) :
    ctrlTimerMatch s = .ok (frameToHost s) := by
  rcases h with h | h <;> simp only [ctrlTimerMatch, h]

theorem respTimerMatch_driveBreak (h : s.respState = .driveBreak) :
    respTimerMatch s = .ok (respGoto .driveMark (endBreak s)) := by simp only [respTimerMatch, h]

theorem respTimerMatch_driveMark (h : s.respState = .driveMark) :
    respTimerMatch s = (startSlots s).map respAfterFeed := by simp only [respTimerMatch, h]

theorem respTimerMatch_collectSlots (h : s.respState = .collectSlots) :
    respTimerMatch s = .ok (respComplete s) := by simp only [respTimerMatch, h]

theorem ctrlGoto_self {c : CtrlState} (h : s.ctrlState = c) : ctrlGoto c s = s := by subst h; rfl

theorem respGoto_self {r : RespState} (h : s.respState = r) : respGoto r s = s := by subst h; rfl

/-! ### The slot feed in the write states (R235, R298) -/

theorem ctrlFifoSpace_writeSlots (h : s.ctrlState = .writeSlots) :
    ctrlFifoSpace s =
      (feed s).map fun u => ctrlGoto (if u.tx.index = u.tx.len then .waitTxDone else .writeSlots) u := by
  rw [ctrlFifoSpace]
  cases hf : feed s with
  | error f => rfl
  | ok u =>
    have hstate : u.ctrlState = .writeSlots := by obtain ⟨bs, rfl, -⟩ := feed_ok hf; exact h
    refine congrArg Except.ok ?_
    dsimp only
    split
    · rfl
    · exact (ctrlGoto_self hstate).symm

theorem respFifoSpace_writeSlots (h : s.respState = .writeSlots) :
    respFifoSpace s =
      (feed s).map fun u => respGoto (if u.tx.index = u.tx.len then .waitTxDone else .writeSlots) u := by
  rw [respFifoSpace]
  cases hf : feed s with
  | error f => rfl
  | ok u =>
    have hstate : u.respState = .writeSlots := by obtain ⟨bs, rfl, -⟩ := feed_ok hf; exact h
    refine congrArg Except.ok ?_
    dsimp only
    split
    · rfl
    · exact (respGoto_self hstate).symm

end

/-! ### The controller's answers to the line and to the end of a transmission -/

section
variable {s : State} {t d : Nat}

/-! #### The end of a transmission (R236 to R239, R250) -/

theorem endTransmission_eq (s : State) : endTransmission s = { s with
    pins := { dir := .rx, line := .mark }
    wire := s.wire ++ lineWire .mark s ++ dirWire .rx s
    timing.txEndTime := s.time } := rfl

theorem ctrlShiftEmpty_ends (h : s.curOp.cls ∈ [.dmx, .asc, .rdmBroadcast]) :
    ctrlShiftEmpty s = endOp s.curOp.cls .ok [] (backoff (s.time + 2000) (endTransmission s)) := by
  simp only [List.mem_cons, List.not_mem_nil, or_false] at h
  rcases h with h | h | h <;> simp only [ctrlShiftEmpty, h] <;> rfl

theorem ctrlShiftEmpty_request (h : s.curOp.cls = .rdmRequest) :
    ctrlShiftEmpty s = ctrlGoto .awaitResponse
      (arm (s.time + s.params.rdmResponseTimeout.toNat) (setPhase .waitBreak (rxBegin (endTransmission s)))) := by
  simp only [ctrlShiftEmpty, h]

theorem ctrlShiftEmpty_dub (h : s.curOp.cls = .rdmDub) :
    ctrlShiftEmpty s = ctrlGoto .awaitDub (arm (s.time + s.params.rdmResponseTimeout.toNat)
      { rxBegin (endTransmission s) with rx.dubActive := false }) := by
  simp only [ctrlShiftEmpty, h]

/-! #### Awaiting a response (R240 to R242) -/

section
variable (h : s.ctrlState = .awaitResponse)
include h

theorem ctrlFall_waitBreak (hp : s.rx.phase = .waitBreak) (t : Nat) :
    ctrlFall t s = setPhase .inBreak (setTFall t s) := by simp only [ctrlFall, h, hp]

theorem ctrlFall_inBreak (hp : s.rx.phase = .inBreak) (t : Nat) : ctrlFall t s = setTFall t s := by
  simp only [ctrlFall, h, hp]

theorem ctrlRise_waitBreak (hp : s.rx.phase = .waitBreak) (t : Nat) : ctrlRise t s = s := by
  simp only [ctrlRise, h, hp, reduceCtorEq, if_false]

/-- R241: a rising edge ends a break of the time since its fall. -/
theorem ctrlRise_inBreak (hp : s.rx.phase = .inBreak) (ht : t = s.timing.tFall + d) :
    ctrlRise t s = ctrlBreakEnd t d s := by
  simp only [ctrlRise, h, hp, if_true, ht, Nat.add_sub_cancel_left]

theorem ctrlByte_awaitResponse (b : Byte) (t : Nat) : ctrlByte b t s = .ok s := by simp only [ctrlByte, h]

end

/-- R241: a break within its limits opens the reception. -/
theorem ctrlBreakEnd_accepted (hmin : 880 ≤ d) (hmax : d ≤ 3520) :
    ctrlBreakEnd t d s = arm (t + 21000) (ctrlGoto .rxSlots
      (setPhase .inMark { s with timing.rxBreakDur := d, timing.tRise := t })) :=
  if_pos ⟨hmin, hmax⟩

theorem ctrlBreakEnd_short (hd : d < 880) : ctrlBreakEnd t d s = setPhase .waitBreak (inc .rdmShortFrame s) := by
  have hlimits : ¬ (Config.ctrlRxBreakMin ≤ d ∧ d ≤ Config.ctrlRxBreakMax) := fun h => absurd h.1 (Nat.not_le.mpr hd)
  have hshort : d < Config.ctrlRxBreakMin := hd
  rw [ctrlBreakEnd, if_neg hlimits, if_pos hshort]

theorem ctrlBreakEnd_long (hd : 3520 < d) : ctrlBreakEnd t d s = setPhase .waitBreak (inc .rdmLengthMismatch s) := by
  have hlimits : ¬ (Config.ctrlRxBreakMin ≤ d ∧ d ≤ Config.ctrlRxBreakMax) := fun h => absurd h.2 (Nat.not_le.mpr hd)
  have hshort : ¬ d < Config.ctrlRxBreakMin := by simp only [Config.ctrlRxBreakMin]; omega
  rw [ctrlBreakEnd, if_neg hlimits, if_neg hshort]

/-! #### Receiving a response (R244, R246) -/

section
variable (h : s.ctrlState = .rxSlots)
include h

/-- R244: the mark ends within its limit. -/
theorem ctrlFall_mark (hp : s.rx.phase = .inMark) (ht : t = s.timing.tRise + d) (hd : d ≤ 880) :
    ctrlFall t s = setPhase .data { s with timing.rxMarkDur := d } := by
  have hmark : t - s.timing.tRise = d := by omega
  simp only [ctrlFall, h, hp, hmark, Config.ctrlRxMarkMax, hd, if_true]

/-- R244: the mark has been too long, and this edge may begin another break. -/
theorem ctrlFall_longMark (hp : s.rx.phase = .inMark) (ht : t = s.timing.tRise + d) (hd : 880 < d) :
    ctrlFall t s = arm (max s.time (s.timing.txEndTime + s.params.rdmResponseTimeout.toNat))
      (setTFall t (setPhase .inBreak (ctrlGoto .awaitResponse (inc .rdmLengthMismatch s)))) := by
  have hmark : t - s.timing.tRise = d := by omega
  simp only [ctrlFall, h, hp, hmark, Config.ctrlRxMarkMax, Nat.not_le.mpr hd, if_false]

theorem ctrlFall_data (hp : s.rx.phase = .data) (t : Nat) : ctrlFall t s = s := by simp only [ctrlFall, h, hp]

theorem ctrlRise_rxSlots (t : Nat) : ctrlRise t s = s := by simp only [ctrlRise, h]

theorem ctrlByte_rxSlots (b : Byte) (t : Nat) : ctrlByte b t s = ctrlSlot b t s := by simp only [ctrlByte, h]

end

/-! #### A DUB window (R251, R252) -/

section
variable (h : s.ctrlState = .awaitDub)
include h

theorem ctrlFall_awaitDub (t : Nat) : ctrlFall t s = dubActivate t s := by simp only [ctrlFall, h]

theorem ctrlRise_awaitDub (t : Nat) : ctrlRise t s = s := by simp only [ctrlRise, h]

theorem ctrlByte_awaitDub (b : Byte) (t : Nat) : ctrlByte b t s = .ok (ctrlDubByte b t s) := by
  simp only [ctrlByte, h]

end

/-- R252: the window's limit runs from its first activity. -/
theorem dubActivate_eq (t : Nat) (s : State) : dubActivate t s = { s with
    rx.dubActive := true
    timer := if s.rx.dubActive then s.timer
      else { armed := true, compareAt := t + s.params.dubResponseLimit.toNat } } := by
  unfold dubActivate
  cases hactive : s.rx.dubActive
  · rfl
  · have hrx : { s.rx with dubActive := true } = s.rx := by rw [← hactive]
    simp only [if_true, hrx]

/-! #### A received byte (R221, R222, R245, R252) -/

/-- R221: a byte goes to `rx_count` while the transceiver owns `fb` and there is room. -/
theorem storeByte_stores (ho : s.fbOwner = .transceiver) (hroom : s.rx.count < 513) (b : Byte) (t : Nat) :
    storeByte b t s =
      { s with fb := memWrite s.fb s.rx.count b, rx.count := s.rx.count + 1, timing.tLastByte := t } :=
  if_pos ⟨ho, hroom⟩

/-- R222: the received bytes `g` are a whole frame: `fb` is full, or an RDM frame has its declared length. -/
def frameEnds (g : List Byte) : Bool :=
  decide (g.length = 513 ∨ (g.getD 0 0#8 = 0xCC#8 ∧ 3 ≤ g.length ∧ (g.getD 2 0#8).toNat + 2 ≤ g.length))

theorem lengthReached_holds {g : List Byte} (hg : Safety.FbHolds s 0 g) (hlen : g.length = s.rx.count)
    (hpos : 0 < g.length) : lengthReached s = .ok (frameEnds g) := by
  unfold lengthReached
  rw [← hlen]
  by_cases hfull : g.length = Config.frameBufSize
  · rw [if_pos hfull]
    exact congrArg Except.ok (decide_eq_true (.inl hfull)).symm
  · rw [if_neg hfull, Safety.fbRead_holds_start hg hpos (by decide)]
    by_cases hrdm : g.getD 0 0#8 = Config.scRdm ∧ 3 ≤ g.length
    · refine (if_pos hrdm).trans ?_
      rw [Safety.fbRead_holds_start hg hrdm.2 (by decide)]
      exact congrArg Except.ok (decide_eq_decide.mpr ⟨fun hml => .inr ⟨hrdm.1, hrdm.2, hml⟩,
        fun hends => (hends.resolve_left hfull).2.2⟩)
    · refine (if_neg hrdm).trans (congrArg Except.ok (decide_eq_false fun hends => ?_).symm)
      obtain ⟨hsc, h3, -⟩ := hends.resolve_left hfull
      exact hrdm ⟨hsc, h3⟩

/-- R221: with the byte after them stored, the bytes stand in `fb` with it. -/
theorem fbHolds_store {f : List Byte} (hf : Safety.FbHolds s 0 f) (hlen : f.length = s.rx.count) (b : Byte) :
    Safety.FbHolds { s with fb := memWrite s.fb s.rx.count b } 0 (f ++ [b]) := by
  refine Safety.fbHolds_append (hf.of_eq_below fun a ha => ?_) fun k c hk => ?_
  · exact memRead_memWrite_other _ _ _ _ (by omega)
  · obtain ⟨rfl, rfl⟩ : k = 0 ∧ b = c := by simpa [List.getElem?_singleton] using hk
    rw [hlen, Nat.zero_add, Nat.add_zero]
    exact memRead_memWrite_same _ _ _

/-- R245: a byte of a response ends the frame, or restarts the inter-slot timer. -/
theorem ctrlSlot_eq {b : Byte} {stored : State} {done : Bool}
    (hstored : storeByte b t (setPhase (if s.rx.phase = .inMark then .data else s.rx.phase) s) = stored)
    (hdone : lengthReached stored = .ok done) :
    ctrlSlot b t s = .ok (if done then frameToHost (disarm stored) else arm (t + 21000) stored) := by
  subst hstored
  unfold ctrlSlot
  dsimp only
  rw [hdone]
  cases done <;> rfl

/-- R222, R245: the byte `b` after `f` ends the frame where the bytes then stored do. -/
theorem ctrlSlot_stores {f : List Byte} (ho : s.fbOwner = .transceiver) (hf : Safety.FbHolds s 0 f)
    (hlen : f.length = s.rx.count) (hroom : s.rx.count < 513) (b : Byte) (t : Nat) {stored : State}
    (hstored : stored = { s with
      fb := memWrite s.fb s.rx.count b
      rx := { s.rx with count := s.rx.count + 1, phase := if s.rx.phase = .inMark then .data else s.rx.phase }
      timing.tLastByte := t }) :
    ctrlSlot b t s =
      .ok (if frameEnds (f ++ [b]) then frameToHost (disarm stored) else arm (t + 21000) stored) := by
  subst hstored
  have hstore := storeByte_stores (s := setPhase (if s.rx.phase = .inMark then .data else s.rx.phase) s) ho hroom b t
  refine ctrlSlot_eq hstore (lengthReached_holds ?_ ?_ ?_)
  · exact (Safety.fbHolds_congr rfl).mp (fbHolds_store hf hlen b)
  · simp [hlen]
  · simp

/-- R252: a byte of a DUB window is activity, and the 513th closes the window. -/
theorem ctrlDubByte_eq {b : Byte} {stored : State} (hstored : storeByte b t (dubActivate t s) = stored) :
    ctrlDubByte b t s = if stored.rx.count = 513 then frameToHost (disarm stored) else stored := by
  subst hstored
  rfl

/-! #### Where the line is ignored (R255, R292) -/

theorem ctrl_ignoresLine
    (h : s.ctrlState ∈ [.driveBreakLow, .driveMarkHigh, .writeSlots, .waitTxDone, .idle, .frameToHost])
    (t : Nat) (b : Byte) (kind : UartErr) :
    ctrlFall t s = s ∧ ctrlRise t s = s ∧ ctrlByte b t s = .ok s ∧ ctrlErr kind s = s := by
  simp only [List.mem_cons, List.not_mem_nil, or_false] at h
  rcases h with h | h | h | h | h | h <;> simp [ctrlFall, ctrlRise, ctrlByte, ctrlErr, ctrlReceives, h]

theorem resp_ignoresLine (h : s.respState ∈ [.complete, .dispatch, .waitDelay]) (t : Nat) (b : Byte)
    (kind : UartErr) :
    respFall t s = s ∧ respRise t s = .ok s ∧ respByte b t s = .ok s ∧ respErr kind s = s := by
  simp only [List.mem_cons, List.not_mem_nil, or_false] at h
  rcases h with h | h | h <;> simp [respFall, respRise, respByte, respErr, respDrives, h]

/-! #### UART errors (R24, R260, R291) -/

theorem inc_uartCounter {kind : UartErr} {n : Nat}
    (h : (kind, n) ∈ [(UartErr.framing, 5), (.parity, 6), (.overrun, 7)]) (s : State) :
    inc (uartCounter kind) s = { s with counters := Safety.countUp n s.counters } := by
  simp only [List.mem_cons, Prod.mk.injEq, List.not_mem_nil, or_false] at h
  rcases h with ⟨rfl, rfl⟩ | ⟨rfl, rfl⟩ | ⟨rfl, rfl⟩
  · exact inc_eq_countUp (index := 5) rfl s
  · exact inc_eq_countUp (index := 6) rfl s
  · exact inc_eq_countUp (index := 7) rfl s

theorem ctrlErr_receiving (h : s.ctrlState ∈ [.awaitResponse, .rxSlots, .awaitDub]) (kind : UartErr) :
    ctrlErr kind s = ctrlErrAbort kind s := by
  simp only [List.mem_cons, List.not_mem_nil, or_false] at h
  rcases h with h | h | h <;> simp [ctrlErr, ctrlReceives, h]

theorem respErr_receiving (h : s.respState = .measureMab ∨ s.respState = .collectSlots) (kind : UartErr) :
    respErr kind s = respErrAbort kind s := by
  rcases h with h | h <;> simp only [respErr, h]

/-! #### The queue in IDLE (R232, R257) -/

section
variable {e : Entry} {rest : List Entry} (hm : s.mode = .controller) (hstate : s.ctrlState = .idle)
  (hq : s.txQueue = e :: rest)
include hm hstate hq

theorem tasksQueue_selfTest (hcls : e.cls = .selfTest) : tasksQueue s = runSelfTest e rest s := by
  simp only [tasksQueue, hq, hm, hstate, hcls, and_self, if_true]

theorem tasksQueue_start (hcls : e.cls ≠ .selfTest) (hbackoff : s.timing.backoffUntil ≤ s.time)
    (hguard : breakToBreakOk s = true) : tasksQueue s = startOperation e rest s := by
  simp only [tasksQueue, hq, hm, hstate, hcls, hbackoff, hguard, and_self, if_true, if_false]

end

theorem breakToBreakOk_iff : breakToBreakOk s = true ↔
    s.timing.lastBreakValid = false ∨ s.timing.lastBreakStart + 13000 ≤ s.time := by
  rw [breakToBreakOk, Bool.or_eq_true, decide_eq_true_iff, Bool.not_eq_true']
  rfl

/-! #### The deadline (R262) -/

/-- R262: with nothing in flight, or up to OP_DEADLINE_TICKS elapsed ticks, there is no deadline to keep. -/
theorem deadline_notDue {deadline : U32} (h : s.curOp.valid = false ∨
    (s.coarseTicks.toNat + 2 ^ 32 - s.timing.opStartTick.toNat) % 2 ^ 32 ≤ deadline.toNat) :
    ¬ deadlineDue deadline s = true := by
  intro hdue
  obtain ⟨-, hvalid, hlate⟩ := deadlineDue_iff.mp hdue
  rcases h with hnone | hintime
  · simp [hnone] at hvalid
  · exact absurd hlate (Nat.not_lt.mpr hintime)

/-- R201, R210: flushed and released, with what that leaves on the wire. -/
theorem setDir_flush_eq (s : State) : setDir .rx (flush s) = { s with
    uart := { s.uart with fifo := [], busy := false }
    pins := { dir := .rx, line := .mark }
    wire := s.wire ++ cutWire s ++ lineWire .mark s ++ dirWire .rx s } := rfl

/-- R262: the deadline's abort, field by field. -/
theorem deadlineAbort_eq (s : State) : deadlineAbort s = { s with
    uart := { s.uart with fifo := [], busy := false }
    pins := { dir := .rx, line := .mark }
    wire := s.wire ++ cutWire s ++ lineWire .mark s ++ dirWire .rx s
    timer.armed := false
    frameReady := false
    rx.count := 0
    timing.backoffUntil := s.time
    completions := s.completions ++ [⟨s.curOp.token, s.curOp.cls, .aborted, []⟩]
    curOp.valid := false, ctrlState := .idle } := by
  simp only [deadlineAbort, setDir_flush_eq, endOp, post, backoff, rxBegin, clearFrameReady, disarm]

/-! #### A frame for the host (R248, R254) -/

theorem exec_tasks_handUp (ha : s.agent ≠ .host) (hm : s.mode = .controller) (hstate : s.ctrlState = .frameToHost)
    (hready : s.frameReady = true) (hcls : s.curOp.cls = .rdmRequest ∨ s.curOp.cls = .rdmDub)
    (hdeadline : ¬ deadlineDue Config.opDeadlineTicks s = true) : exec .tasks s = settleResult s (handUp s) := by
  have hwaiting : frameWaiting s = true := by simp [frameWaiting, ctrlFrameWaiting, hready, hm, hstate, hcls]
  rw [exec_tasks_frameWaiting ha hdeadline hwaiting, byMode_controller hm]

theorem handUp_dub {f : List Byte} (h : s.curOp.cls = .rdmDub) (hf : fbBytes s 0 s.rx.count = .ok f) :
    handUp s = .ok (endOp .rdmDub (if s.rx.dubActive then .ok else .timeout) f
      (backoff (s.timing.txEndTime + 58000) (clearFrameReady s))) := by
  rw [handUp, if_pos h, handUpDub, hf]
  rfl

theorem handUp_response {f : List Byte} {r : ValidateResult} {checked : State} (h : s.curOp.cls = .rdmRequest)
    (hv : validateFrame s.rx.count s = .ok (r, checked)) (hf : fbBytes s 0 s.rx.count = .ok f) :
    handUp s = .ok (endOp .rdmRequest (codeOf r) f
      (clearFrameReady (if r = .ok then inc .rdmFrames checked else checked))) := by
  have hclass : s.curOp.cls ≠ .rdmDub := by simp [h]
  rw [handUp, if_neg hclass, handUpResponse, hv]
  change (fbBytes s 0 s.rx.count >>= _) = _
  rw [hf]
  rfl

end

end Sys2Proof.Machine

namespace Sys2Proof.Proofs

open Sys2Proof Sys2Proof.Machine Sys2Proof.Safety

/-- Settles O30: both sequencers end the break in the same way, each going to its own state. -/
theorem breakEndStartsTheMark : Obligations.BreakEndStartsTheMark := by
  intro s ha harmed htime
  refine ⟨fun hm hstate => ?controller, fun hm hstate => ?responder⟩
  case controller =>
    rw [exec_timerMatch_controller ha harmed htime hm, ctrlTimerMatch_driveBreakLow (s := disarm s) hstate]
    exact settle_unposted rfl
  case responder =>
    rw [exec_timerMatch_responder ha harmed htime hm, respTimerMatch_driveBreak (s := disarm s) hstate]
    exact settle_unposted rfl

/-- Settles O31: `start_slots()` over the slots of the mode's source, then the state for what is left of them. -/
theorem markEndFeedsFromSlotZero : Obligations.MarkEndFeedsFromSlotZero := by
  intro s d n ha harmed htime hlen hn
  have hfed := fun hd : SlotsAre (disarm s) d => startSlots_slots hd hlen hn
  refine ⟨fun hm hstate hd => ?controller, fun hm hstate hd hfit => ?responder⟩
  case controller =>
    rw [exec_timerMatch_controller ha harmed htime hm, ctrlTimerMatch_driveMarkHigh (s := disarm s) hstate,
      hfed (.controller hm hd), ← hlen]
    exact settle_unposted rfl
  case responder =>
    rw [exec_timerMatch_responder ha harmed htime hm, respTimerMatch_driveMark (s := disarm s) hstate,
      hfed (.responder hm hd hfit), ← hlen]
    exact settle_unposted rfl

/-- Settles O32: `feed()` over the slots of the mode's source; where slots remain, the write state goes on. -/
theorem fifoSpaceFeedsTheNextSlots : Obligations.FifoSpaceFeedsTheNextSlots := by
  intro s d n ha hn
  refine ⟨fun hm hstate hroom hlen hd => ?controller, fun hm hstate hroom hlen hd hfit => ?responder⟩
  case controller =>
    have hwrite : inWriteState s = true := by rw [inWriteState_controller hm, hstate]; rfl
    rw [exec_txFifoSpace_due ha (fifoSpaceDue_iff.mpr ⟨hwrite, hroom⟩), byMode_controller hm,
      ctrlFifoSpace_writeSlots hstate, feed_slots (.controller hm hd) hlen hn, ← hlen]
    exact settle_unposted rfl
  case responder =>
    have hwrite : inWriteState s = true := by rw [inWriteState_responder hm, hstate]; rfl
    rw [exec_txFifoSpace_due ha (fifoSpaceDue_iff.mpr ⟨hwrite, hroom⟩), byMode_responder hm,
      respFifoSpace_writeSlots hstate, feed_slots (.responder hm hd hfit) hlen hn, ← hlen]
    exact settle_unposted rfl

/-- Settles O35: in each state the timer's own transition. -/
theorem receptionTimeouts : Obligations.ReceptionTimeouts := by
  intro s ha harmed htime
  refine ⟨fun hm hstate hfit => ?noResponse, fun hm hstate => ?frame, fun hm hstate => ?slots⟩
  case noResponse =>
    rw [exec_timerMatch_controller ha harmed htime hm, ctrlTimerMatch_awaitResponse (s := disarm s) hstate]
    exact settle_one rfl hfit
  case frame =>
    rw [exec_timerMatch_controller ha harmed htime hm, ctrlTimerMatch_receiving (s := disarm s) hstate]
    exact settle_unposted rfl
  case slots =>
    rw [exec_timerMatch_responder ha harmed htime hm, respTimerMatch_collectSlots (s := disarm s) hstate]
    exact settle_unposted rfl

/-- Settles O33: nothing in flight and no frame waiting, so `Tasks` goes to the queue, whose head may start. -/
theorem operationStart : Obligations.OperationStart := by
  intro s e rest ha hm hstate hv hq hcls hbackoff hguard
  rw [exec_tasks_idle ha hm hstate hv, tasksQueue_start hm hstate hq hcls hbackoff (breakToBreakOk_iff.mpr hguard)]
  exact settle_unposted rfl

/-- Settles O34: the bus is released in the common action, and the class gives what follows it. -/
theorem endOfTransmissionByClass : Obligations.EndOfTransmissionByClass := by
  intro s ha hm hstate hf hb
  rw [exec_txShiftEmpty_controller ha hm hstate hf hb]
  refine ⟨fun hcls hfit => ?ends, fun hcls => ?request, fun hcls => ?dub⟩
  case ends => rw [ctrlShiftEmpty_ends hcls, endTransmission_eq]; exact settle_one rfl hfit
  case request => rw [ctrlShiftEmpty_request hcls, endTransmission_eq]; exact settle_unposted rfl
  case dub => rw [ctrlShiftEmpty_dub hcls, endTransmission_eq]; exact settle_unposted rfl

/-- Settles O36: one measurement a case, with the duration `d` as the difference of the two edges. -/
theorem controllerMeasuresBreakAndMark : Obligations.ControllerMeasuresBreakAndMark := by
  intro s t b d ha hm ht
  have hfall := exec_fall_controller ha ht hm
  have hrise := exec_rise_controller ha ht hm
  refine ⟨fun hs hp => ⟨?fallBegins, ?riseIgnored⟩, fun hs hp => ?fallAgain, fun hs hp hd hmin hmax => ?breakOk,
    fun hs hp hd hshort => ?breakShort, fun hs hp hd hlong => ?breakLong, fun hs => ?byteIgnored,
    fun hs hp hd hmark => ?markOk, fun hs hp hd hmark => ?markLong⟩
  case fallBegins => rw [hfall, ctrlFall_waitBreak hs hp]; exact settle_unposted rfl
  case riseIgnored => rw [hrise, ctrlRise_waitBreak hs hp]; exact settle_unposted rfl
  case fallAgain => rw [hfall, ctrlFall_inBreak hs hp]; exact settle_unposted rfl
  case breakOk => rw [hrise, ctrlRise_inBreak hs hp hd, ctrlBreakEnd_accepted hmin hmax]; exact settle_unposted rfl
  case breakShort =>
    rw [hrise, ctrlRise_inBreak hs hp hd, ctrlBreakEnd_short hshort, inc_eq_countUp (index := 2) rfl]
    exact settle_unposted rfl
  case breakLong =>
    rw [hrise, ctrlRise_inBreak hs hp hd, ctrlBreakEnd_long hlong, inc_eq_countUp (index := 3) rfl]
    exact settle_unposted rfl
  case byteIgnored =>
    rw [exec_byte_controller ha ht hm, ctrlByte_awaitResponse hs]
    exact settle_unposted rfl
  case markOk => rw [hfall, ctrlFall_mark hs hp hd hmark]; exact settle_unposted rfl
  case markLong =>
    rw [hfall, ctrlFall_longMark hs hp hd hmark, inc_eq_countUp (index := 3) rfl]
    exact settle_unposted rfl

/-- Settles O37: the byte joins `f` in `fb`, and whether the frame ends is read from the bytes that then stand there. -/
theorem controllerCollectsTheResponse : Obligations.ControllerCollectsTheResponse := by
  rintro s t b f _ done ha hm ht hstate ho hf hlen hroom rfl hdone
  have hdone : done = frameEnds (f ++ [b]) := hdone
  refine ⟨⟨memWrite s.fb s.rx.count b, fbHolds_store hf hlen b, fun a ha => memRead_memWrite_other _ _ _ _ ha, ?byte⟩,
    ?rise, fun hp => ?fall⟩
  case byte =>
    rw [exec_byte_controller ha ht hm, ctrlByte_rxSlots hstate, ctrlSlot_stores ho hf hlen hroom b t.toNat rfl,
      ← hdone]
    cases done
    · exact settle_unposted_in rfl hstate
    · exact settle_unposted rfl
  case rise =>
    rw [exec_rise_controller ha ht hm, ctrlRise_rxSlots hstate]
    exact settle_unposted rfl
  case fall =>
    rw [exec_fall_controller ha ht hm, ctrlFall_data hstate hp]
    exact settle_unposted rfl

/-- Settles O38: activity opens the window's limit, and a byte is activity that is stored. -/
theorem dubWindowCaptures : Obligations.DubWindowCaptures := by
  rintro s t b _ ha hm ht hstate ho hroom rfl
  refine ⟨?fall, ?rise, memWrite s.fb s.rx.count b, memRead_memWrite_same _ _ _,
    fun a ha => memRead_memWrite_other _ _ _ _ ha, ?byte⟩
  case fall =>
    rw [exec_fall_controller ha ht hm, ctrlFall_awaitDub hstate, dubActivate_eq]
    exact settle_unposted rfl
  case rise =>
    rw [exec_rise_controller ha ht hm, ctrlRise_awaitDub hstate]
    exact settle_unposted rfl
  case byte =>
    have hstored := storeByte_stores (s := dubActivate t.toNat s) (by rw [dubActivate_eq]; exact ho)
      (by rw [dubActivate_eq]; exact hroom) b t.toNat
    rw [exec_byte_controller ha ht hm, ctrlByte_awaitDub hstate, ctrlDubByte_eq hstored, dubActivate_eq]
    change settle s (if s.rx.count + 1 = 513 then _ else _) = _
    split
    · exact settle_unposted rfl
    · exact settle_unposted_in rfl hstate

/-- Settles O39: the received bytes are read whole, and `validate` of them has an outcome. -/
theorem receivedFramesAreHandedUp : Obligations.ReceivedFramesAreHandedUp := by
  intro s f ha hm hstate hready hdeadline hlen hbound hf hfit
  have hup := fun hcls => exec_tasks_handUp ha hm hstate hready hcls (deadline_notDue hdeadline)
  have hbytes : fbBytes s 0 s.rx.count = .ok f := by
    rw [← hlen]
    exact fbBytes_holds hf (by rw [hlen, Nat.zero_add]; exact hbound)
  refine ⟨fun hcls => ?request, fun hcls => ?dub⟩
  case request =>
    have hwritten : ∀ k, k < s.rx.count → (memRead s.fb k).isSome = true := fun k hk => by
      have := fbHolds_getD hf (hlen ▸ hk)
      rw [Nat.zero_add] at this
      rw [this]; rfl
    obtain ⟨r, checked, hv, -⟩ := validateFrame_written hbound hwritten
    refine ⟨r, checked, codeOf r, hv, by cases r <;> simp [codeOf], ?_⟩
    rw [hup (.inl hcls), handUp_response hcls hv hbytes]
    by_cases hr : r = .ok
    · obtain rfl : checked = s := by
        subst hr
        exact validateFrame_state hv
      rw [if_pos hr, if_pos hr, inc_eq_countUp (index := 1) rfl]
      exact settle_one rfl hfit
    · rw [if_neg hr, if_neg hr]
      obtain ⟨counters, rfl⟩ := validateFrame_counters hv
      exact settle_one rfl hfit
  case dub =>
    rw [hup (.inr hcls), handUp_dub hcls hbytes]
    exact settle_one rfl hfit

/-- Settles O40: each of the four transitions is the identity there. -/
theorem whereTheLineIsIgnored : Obligations.WhereTheLineIsIgnored := by
  intro s t b kind ha h
  rcases h with ⟨hm, hstate⟩ | ⟨hm, hstate⟩
  · obtain ⟨hfall, hrise, hbyte, herr⟩ := ctrl_ignoresLine hstate t.toNat b kind
    have ignored {c r : Except Fault State} (hc : c = .ok s) := lineEvent_ignored_controller ha hm (r := r) hc t
    exact ⟨ignored (congrArg _ hfall), ignored (congrArg _ hrise), ignored hbyte, ignored (congrArg _ herr)⟩
  · obtain ⟨hfall, hrise, hbyte, herr⟩ := resp_ignoresLine hstate t.toNat b kind
    have ignored {c r : Except Fault State} (hr : r = .ok s) := lineEvent_ignored_responder ha hm (c := c) hr t
    exact ⟨ignored (congrArg _ hfall), ignored hrise, ignored hbyte, ignored (congrArg _ herr)⟩

/-- Settles O41: the result is the drawn one, and nothing is asked of backoff and guard before it. -/
theorem selfTestPostsADrawnResult : Obligations.SelfTestPostsADrawnResult := by
  intro s e rest ha hm hstate hv hq hcls hfit
  refine ⟨drawnSelfTest s, drawnSelfTest_cases s, ?_⟩
  rw [exec_tasks_idle ha hm hstate hv, tasksQueue_selfTest hm hstate hq hcls]
  exact settle_one rfl hfit

/-- Settles O42: the kind's own counter, then the controller's abort or the responder's drop. -/
theorem uartErrorsEndTheReception : Obligations.UartErrorsEndTheReception := by
  intro s t kind n ha ht hkind
  refine ⟨fun hm hstate hfit => ?controller, fun hm hstate => ?responder⟩
  case controller =>
    rw [exec_err_controller ha ht hm, ctrlErr_receiving hstate, ctrlErrAbort, inc_uartCounter hkind]
    exact settle_one rfl hfit
  case responder =>
    rw [exec_err_responder ha ht hm, respErr_receiving hstate, respErrAbort, inc_uartCounter hkind]
    exact settle_unposted rfl

/-- Settles O43: the deadline is the first of the priorities of R384. -/
theorem deadlineAbortsTheOperation : Obligations.DeadlineAbortsTheOperation := by
  refine ⟨fun _ => rfl, fun deadline s ha hm hv hlate hfit => ?_⟩
  rw [tasksUnder_deadline ha (deadlineDue_iff.mpr ⟨hm, hv, hlate⟩), deadlineAbort_eq]
  exact settle_one rfl hfit

end Sys2Proof.Proofs

/-! PROOF. Statements of spec/45_responder_engine.md: what the responder does with each event, from the break it measures
to the end of its reply (R280 to R303), and that it drives the bus only after a handler returned a reply (R304). -/

namespace Sys2Proof.Machine

/-! ### The responder's events, at their own instant (R211, R303) -/

section
variable {s u : State} {t : U64}

/-- A transition that posts nothing and stays in the state `r`. -/
theorem settle_unposted_inResp {r : RespState} (h : u.completions = s.completions) (hstate : u.respState = r) :
    settle s u = .next { u with respState := r } := by
  subst hstate
  exact settle_unposted h

section
variable (ha : s.agent ≠ .host) (ht : t.toNat = s.time) (hm : s.mode = .responder)
include ha ht hm

theorem exec_fall_responder : exec (.fall t) s = settle s (respFall t.toNat s) :=
  (lineEvent_now ha ht _).trans (byMode_responder hm _ _)

theorem exec_rise_responder : exec (.rise t) s = settleResult s (respRise t.toNat s) :=
  (lineEvent_now ha ht _).trans (byMode_responder hm _ _)

theorem exec_byte_responder (b : Byte) : exec (.byte t b) s = settleResult s (respByte b t.toNat s) :=
  (lineEvent_now ha ht _).trans (byMode_responder hm _ _)

end

theorem exec_txShiftEmpty_responder (ha : s.agent ≠ .host) (hm : s.mode = .responder)
    (hstate : s.respState = .waitTxDone) (hf : s.uart.fifo = []) (hb : s.uart.busy = false) :
    exec .txShiftEmpty s = settle s (respShiftEmpty s) := by
  have hwait : inWaitState s = true := by rw [inWaitState_responder hm, hstate]; rfl
  rw [exec_txShiftEmpty_due ha (shiftEmptyDue_iff.mpr ⟨hwait, hf, hb⟩), byMode_responder hm]
  rfl

/-- R384: a responder has no operation in flight to keep a deadline for, so `Tasks` consumes its frame. -/
theorem exec_tasks_consume (ha : s.agent ≠ .host) (hm : s.mode = .responder) (hstate : s.respState = .complete)
    (hready : s.frameReady = true) : exec .tasks s = settleResult s (respConsume s) := by
  have hdeadline : ¬ deadlineDue Config.opDeadlineTicks s = true := fun hdue => by
    obtain ⟨hctrl, -⟩ := deadlineDue_iff.mp hdue
    simp [hm] at hctrl
  have hwaiting : frameWaiting s = true := by simp [frameWaiting, hready, hm, hstate]
  rw [exec_tasks_frameWaiting ha hdeadline hwaiting, byMode_responder hm]

end

section
variable {s u : State} {t d : Nat} {f : List Byte}

/-! ### The break (R281, R282) -/

theorem respFall_idle (h : s.respState = .idle) (t : Nat) :
    respFall t s = respGoto .measureBreak { s with timing.tFall := t } := by
  simp only [respFall, h, respDrives, Bool.false_eq_true, if_false]

theorem respRise_idle (h : s.respState = .idle) (t : Nat) : respRise t s = .ok s := by
  simp only [respRise, h, respDrives, Bool.false_eq_true, if_false]

theorem respFall_measureBreak (h : s.respState = .measureBreak) (t : Nat) :
    respFall t s = { s with timing.tFall := t } := by
  simp only [respFall, h, respDrives, Bool.false_eq_true, if_false]

/-- R282: a rising edge ends a break of the time since its fall. -/
theorem respRise_measureBreak (h : s.respState = .measureBreak) (ht : t = s.timing.tFall + d) :
    respRise t s = .ok (respBreakEnd t d s) := by
  simp only [respRise, h, respDrives, Bool.false_eq_true, if_false, ht, Nat.add_sub_cancel_left]

theorem respBreakEnd_accepted (hmin : 880 ≤ d) (hmax : d ≤ 10000000) : respBreakEnd t d s = respBreakOk t d s :=
  if_pos ⟨hmin, hmax⟩

theorem respBreakEnd_short (hd : d < 880) : respBreakEnd t d s = respGoto .idle (inc .rdmShortFrame s) := by
  have hlimits : ¬ (Config.respRxBreakMin ≤ d ∧ d ≤ Config.respRxBreakMax) := fun h => absurd h.1 (Nat.not_le.mpr hd)
  have hshort : d < Config.respRxBreakMin := hd
  rw [respBreakEnd, if_neg hlimits, if_pos hshort]

theorem respBreakEnd_long (hd : 10000000 < d) : respBreakEnd t d s = respGoto .idle (inc .rdmLengthMismatch s) := by
  have hlimits : ¬ (Config.respRxBreakMin ≤ d ∧ d ≤ Config.respRxBreakMax) := fun h => absurd h.2 (Nat.not_le.mpr hd)
  have hshort : ¬ d < Config.respRxBreakMin := by simp only [Config.respRxBreakMin]; omega
  rw [respBreakEnd, if_neg hlimits, if_neg hshort]

/-- R283, R284: bytes are received in MEASURE_MAB and COLLECT_SLOTS only. -/
theorem respByte_ignored (hmab : s.respState ≠ .measureMab) (hslots : s.respState ≠ .collectSlots) (b : Byte)
    (t : Nat) : respByte b t s = .ok s := by
  unfold respByte
  split
  case h_1 h => exact absurd h hmab
  case h_2 h => exact absurd h hslots
  all_goals rfl

/-- R291: outside a frame a UART error only counts. -/
theorem respErr_outside (h : s.respState = .idle ∨ s.respState = .measureBreak) (kind : UartErr) :
    respErr kind s = inc (uartCounter kind) s := by
  rcases h with h | h <;> simp only [respErr, h]

/-! ### The mark and the slots of a frame (R283, R284, R286) -/

/-- R283: the first falling edge after the break ends the mark. -/
theorem respFall_measureMab (h : s.respState = .measureMab) (ht : t = s.timing.tRise + d) :
    respFall t s = { s with timing := { s.timing with
      lastFall := t
      rxMarkDur := if s.timing.rxMarkDur = 0 then d else s.timing.rxMarkDur } } := by
  have hmark : t - s.timing.tRise = d := by omega
  simp only [respFall, h, respDrives, Bool.false_eq_true, if_false, hmark]

theorem respFall_collectSlots (h : s.respState = .collectSlots) (t : Nat) :
    respFall t s = { s with timing.lastFall := t } := by
  simp only [respFall, h, respDrives, Bool.false_eq_true, if_false]

theorem respRise_inside (h : s.respState = .measureMab ∨ s.respState = .collectSlots) (t : Nat) :
    respRise t s = respRiseInside t s := by
  rcases h with h | h <;> simp only [respRise, h, respDrives, Bool.false_eq_true, if_false]

/-- R286: a low period below the least break is the edge of a character. -/
theorem respRiseInside_character (ht : t = s.timing.lastFall + d) (hd : d < 880) : respRiseInside t s = .ok s := by
  have hlow : t - s.timing.lastFall = d := by omega
  rw [respRiseInside, hlow]
  exact if_neg (Nat.not_le.mpr hd)

/-- R286: a low period of the least break or more is a break. -/
theorem respRiseInside_break (ht : t = s.timing.lastFall + d) (hd : 880 ≤ d) :
    respRiseInside t s = respBreakInside t d s := by
  have hlow : t - s.timing.lastFall = d := by omega
  rw [respRiseInside, hlow]
  exact if_pos hd

/-- R223: a responder's inter-slot timeout goes by the start code of what it has received. -/
theorem interslotTimeout_responder (hm : s.mode = .responder) {sc : Byte} (hsc : fbRead s 0 = .ok sc) :
    interslotTimeout s = .ok (if sc = 0xCC#8 then 21000 else 10000000) := by
  simp only [interslotTimeout, hm]
  exact except_bind_eq_ok.mpr ⟨sc, hsc, rfl⟩

/-- R283: the start code is stored, and chooses the timeout for the slot after it. -/
theorem respByte_measureMab (h : s.respState = .measureMab) {b : Byte} {stored : State} {wait : Nat}
    (hstored : storeByte b t s = stored) (hwait : interslotTimeout stored = .ok wait) :
    respByte b t s = .ok (respGoto .collectSlots (arm (t + wait) stored)) := by
  subst hstored
  simp only [respByte, h]
  exact except_bind_eq_ok.mpr ⟨wait, hwait, rfl⟩

/-- R284: a byte ends the frame, or restarts the inter-slot timer. -/
theorem respByte_collectSlots (h : s.respState = .collectSlots) {b : Byte} {stored : State} {done : Bool} {wait : Nat}
    (hstored : storeByte b t s = stored) (hdone : lengthReached stored = .ok done)
    (hwait : interslotTimeout stored = .ok wait) :
    respByte b t s = .ok (if done then respComplete (disarm stored) else arm (t + wait) stored) := by
  subst hstored
  simp only [respByte, h]
  refine except_bind_eq_ok.mpr ⟨done, hdone, ?_⟩
  cases done
  · exact except_bind_eq_ok.mpr ⟨wait, hwait, rfl⟩
  · rfl

/-- R222, R223, R284: the byte `b` after `f` ends the frame where the bytes then stored do. -/
theorem respByte_stores (hm : s.mode = .responder) (hstate : s.respState = .collectSlots)
    (ho : s.fbOwner = .transceiver) (hf : Safety.FbHolds s 0 f) (hlen : f.length = s.rx.count)
    (hroom : s.rx.count < 513) (b : Byte) (t : Nat) {stored : State}
    (hstored : stored = { s with
      fb := memWrite s.fb s.rx.count b, rx.count := s.rx.count + 1, timing.tLastByte := t }) :
    respByte b t s = .ok (if frameEnds (f ++ [b]) then respComplete (disarm stored)
      else arm (t + if (f ++ [b]).getD 0 0#8 = 0xCC#8 then 21000 else 10000000) stored) := by
  subst hstored
  have hholds : Safety.FbHolds _ 0 (f ++ [b]) := (Safety.fbHolds_congr rfl).mp (fbHolds_store hf hlen b)
  have hpos : 0 < (f ++ [b]).length := by simp
  refine respByte_collectSlots hstate (storeByte_stores ho hroom b t) (lengthReached_holds hholds ?_ hpos) ?_
  · simp [hlen]
  · exact interslotTimeout_responder (by exact hm) (Safety.fbRead_holds_start hholds hpos (by decide))

/-! ### `validate` reads neither the timer nor the hand-off flag (R134) -/

/-- Only `fb` matters to a read of it. -/
theorem fbBytes_congr (h : u.fb = s.fb) (off n : Nat) : fbBytes u off n = fbBytes s off n := by
  induction n generalizing off with
  | zero => rfl
  | succ n ih => simp only [fbBytes, fbRead, h, ih]

section
variable {c : State} {r : ValidateResult} (timer : FineTimer) (ready : Bool)

theorem validateChecksum_unread {ml : Nat} (hv : validateChecksum ml s = .ok (r, c)) :
    validateChecksum ml { s with timer := timer, frameReady := ready } =
      .ok (r, { c with timer := timer, frameReady := ready }) := by
  obtain ⟨sum, hsum, hv⟩ := except_bind_eq_ok.mp hv
  obtain ⟨hi, hhi, hv⟩ := except_bind_eq_ok.mp hv
  obtain ⟨lo, hlo, hv⟩ := except_bind_eq_ok.mp hv
  refine except_bind_eq_ok.mpr ⟨sum, ?_, except_bind_eq_ok.mpr ⟨hi, hhi, except_bind_eq_ok.mpr ⟨lo, hlo, ?_⟩⟩⟩
  · obtain ⟨hb, bytes, hbytes, rfl⟩ := fbChecksum_ok.mp hsum
    refine fbChecksum_ok.mpr ⟨hb, bytes, ?_, rfl⟩
    rwa [fbBytes_congr (u := { s with timer := timer, frameReady := ready }) (s := s) rfl]
  · split at hv <;> cases hv
    · exact if_pos ‹_›
    · exact if_neg ‹_›

theorem validateLength_unread {len : Nat} (hv : validateLength len s = .ok (r, c)) :
    validateLength len { s with timer := timer, frameReady := ready } =
      .ok (r, { c with timer := timer, frameReady := ready }) := by
  obtain ⟨ml, hml, hv⟩ := except_bind_eq_ok.mp hv
  refine except_bind_eq_ok.mpr ⟨ml, hml, ?_⟩
  split at hv
  · cases hv
    exact if_pos ‹_›
  · exact (if_neg ‹_›).trans (validateChecksum_unread timer ready hv)

theorem validateFrame_unread {len : Nat} (hv : validateFrame len s = .ok (r, c)) :
    validateFrame len { s with timer := timer, frameReady := ready } =
      .ok (r, { c with timer := timer, frameReady := ready }) := by
  unfold validateFrame at hv ⊢
  split at hv
  case isTrue hshort =>
    cases hv
    exact if_pos hshort
  case isFalse hlong =>
    rw [if_neg hlong]
    obtain ⟨sc, hsc, hv⟩ := except_bind_eq_ok.mp hv
    refine except_bind_eq_ok.mpr ⟨sc, hsc, ?_⟩
    split at hv
    case isTrue hrdm =>
      refine (if_pos hrdm).trans ?_
      obtain ⟨sub, hsub, hv⟩ := except_bind_eq_ok.mp hv
      refine except_bind_eq_ok.mpr ⟨sub, hsub, ?_⟩
      split at hv
      · exact (if_pos ‹_›).trans (validateLength_unread timer ready hv)
      · cases hv
        exact if_neg ‹_›
    case isFalse hother =>
      cases hv
      exact if_neg hother

end

/-! ### A break inside a frame (R289) -/

theorem finalizeCut_empty (h : s.rx.count = 0) : finalizeCut s = .ok s := if_pos h

section
variable (hpos : s.rx.count ≠ 0) {sc : Byte} (hsc : fbRead s 0 = .ok sc)
include hpos hsc

theorem finalizeCut_dmx (h : sc = 0x00#8) : finalizeCut s = .ok (inc .dmxFrames s) :=
  (if_neg hpos).trans (except_bind_eq_ok.mpr ⟨sc, hsc, if_pos h⟩)

theorem finalizeCut_rdm (h : sc = 0xCC#8) {r : ValidateResult} {c : State}
    (hv : validateFrame s.rx.count s = .ok (r, c)) : finalizeCut s = .ok c := by
  subst h
  exact (if_neg hpos).trans (except_bind_eq_ok.mpr ⟨_, hsc, except_bind_eq_ok.mpr ⟨_, hv, rfl⟩⟩)

theorem finalizeCut_other (hdmx : sc ≠ 0x00#8) (hrdm : sc ≠ 0xCC#8) : finalizeCut s = .ok s :=
  (if_neg hpos).trans (except_bind_eq_ok.mpr ⟨sc, hsc, (if_neg hdmx).trans (if_neg hrdm)⟩)

end

/-- R289: a break within its limit begins a new frame. -/
theorem respBreakInside_accepted (hcut : finalizeCut (disarm s) = .ok u) (hd : d ≤ 10000000) :
    respBreakInside t d s = .ok (respBreakOk t d { u with timing.tFall := u.timing.lastFall }) :=
  except_bind_eq_ok.mpr ⟨u, hcut, if_pos hd⟩

/-- R289: a break that is too long is counted too. -/
theorem respBreakInside_long (hcut : finalizeCut (disarm s) = .ok u) (hd : 10000000 < d) :
    respBreakInside t d s = .ok (respGoto .idle { inc .rdmLengthMismatch u with rx.count := 0 }) :=
  except_bind_eq_ok.mpr ⟨u, hcut, if_neg (Nat.not_le.mpr hd)⟩

/-! ### A completed frame (R290) -/

section
variable {sc : Byte} (hsc : fbRead s 0 = .ok sc)
include hsc

theorem respConsume_dmx (h : sc = 0x00#8) : respConsume s = .ok (respGoto .idle (inc .dmxFrames (clearFrameReady s))) :=
  except_bind_eq_ok.mpr ⟨sc, hsc, if_pos h⟩

theorem respConsume_rdm (h : sc = 0xCC#8) : respConsume s = respConsumeRdm (clearFrameReady s) := by
  subst h
  rw [respConsume, hsc]
  rfl

theorem respConsume_other (hdmx : sc ≠ 0x00#8) (hrdm : sc ≠ 0xCC#8) :
    respConsume s = .ok (respGoto .idle (clearFrameReady s)) :=
  except_bind_eq_ok.mpr ⟨sc, hsc, (if_neg hdmx).trans (if_neg hrdm)⟩

end

theorem respConsumeRdm_invalid {r : ValidateResult} (hv : validateFrame s.rx.count s = .ok (r, u)) (hr : r ≠ .ok) :
    respConsumeRdm s = .ok (respGoto .idle u) :=
  except_bind_eq_ok.mpr ⟨(r, u), hv, if_neg hr⟩

/-- R290: a valid frame is counted, and goes to the collaborator with its header. -/
theorem respConsumeRdm_valid {h : Header} (hv : validateFrame s.rx.count s = .ok (.ok, u)) (hh : fbHeader s = .ok h) :
    respConsumeRdm s = .ok (respGoto .dispatch
      { inc .rdmFrames s with fbOwner := .responder, dispatch := some { len := s.rx.count, header := h } }) := by
  obtain rfl : u = s := validateFrame_state hv
  exact except_bind_eq_ok.mpr ⟨(.ok, u), hv, except_bind_eq_ok.mpr ⟨h, hh, rfl⟩⟩

/-- R134: a valid frame has 26 bytes or more, and RDM's sub-start code. -/
theorem validFrame_bytes (hf : Safety.FbHolds s 0 f) (hv : validateFrame f.length s = .ok (.ok, u)) :
    26 ≤ f.length ∧ f.getD 1 0#8 = 0x01#8 := by
  have h26 : 26 ≤ f.length := by
    by_contra hshort
    cases hv.symm.trans (Safety.validateFrame_short (Nat.not_le.mp hshort))
  refine ⟨h26, ?_⟩
  by_contra hsub
  cases hv.symm.trans (Safety.validateFrame_notRdm hf h26 (.inr hsub))

/-! ### The handler's answer (R293, R294, R296) -/

section
variable {n : Int}

theorem respHandlerReturn_length (hpos : 0 < n) (hfit : n ≤ 513) :
    respHandlerReturn n s = .ok (scheduleReply n.toNat false (reclaimFb s)) :=
  (if_neg (Int.not_lt.mpr hfit)).trans (if_pos hpos)

theorem respHandlerReturn_dub (h : n = -24) : respHandlerReturn n s = .ok (scheduleReply 24 true (reclaimFb s)) := by
  subst h
  rfl

theorem respHandlerReturn_nothing (hn : n ≤ 0) (hdub : n ≠ -24) :
    respHandlerReturn n s = .ok (respGoto .idle (reclaimFb s)) := by
  have hfits : ¬ ((Config.frameBufSize : Int) < n) := by simp only [Config.frameBufSize]; omega
  rw [respHandlerReturn, if_neg hfits, if_neg (Int.not_lt.mpr hn), if_neg hdub]

theorem respHandlerReturn_tooLong (hn : 513 < n) : respHandlerReturn n s = .error (.replyTooLong n) := if_pos hn

end

theorem exec_handlerReturn_dispatch (ha : s.agent ≠ .host) (hm : s.mode = .responder) (hstate : s.respState = .dispatch)
    (ho : s.fbOwner = .responder) (n : U16) : exec (.handlerReturn n) s = toOutcome (respHandlerReturn n.toInt s) :=
  (internalOnly_other ha _).trans (if_pos ⟨hm, hstate, ho⟩)

theorem exec_handlerReturn_ignored (ha : s.agent ≠ .host)
    (h : ¬ (s.mode = .responder ∧ s.respState = .dispatch ∧ s.fbOwner = .responder)) (n : U16) :
    exec (.handlerReturn n) s = .next s :=
  (internalOnly_other ha _).trans (if_neg h)

/-- A length reads the same as a signed and as an unsigned number. -/
theorem toNat_toInt_of_pos {n : U16} (h : 0 < n.toInt) : n.toInt.toNat = n.toNat := by
  rw [BitVec.toInt_eq_toNat_cond] at h ⊢
  split at h
  · rw [if_pos ‹_›, Int.toNat_natCast]
  · omega

/-! ### The reply (R297, R299, R300, R301) -/

theorem respTimerMatch_waitDelay (h : s.respState = .waitDelay) : respTimerMatch s = startReply s := by
  simp only [respTimerMatch, h]

theorem respTimerMatch_guard (h : s.respState = .guard) : respTimerMatch s = .ok (respGoto .idle (setDir .rx s)) := by
  simp only [respTimerMatch, h]

/-- R297: a framed reply starts with its break. -/
theorem startReply_framed (h : s.reply.raw = false) : startReply s = .ok { s with
    timer := { armed := true, compareAt := s.time + 10 * s.params.breakTime.toNat }
    tx := { index := 0, len := s.reply.len }
    pins := { dir := .tx, line := .brk }
    wire := s.wire ++ dirWire .tx s ++ lineWire .brk s
    respState := .driveBreak } := by
  simp only [startReply, h, Bool.false_eq_true, if_false]
  rfl

/-- R297: a raw reply `f` goes out without break and mark, from its first slot. -/
theorem startReply_raw (hm : s.mode = .responder) (h : s.reply.raw = true) (hf : Safety.FbHolds s 0 f)
    (hlen : s.reply.len = f.length) (hfit : f.length ≤ 513) {n : Nat}
    (hn : n = min (Config.uartTxFifoDepth - s.uart.fifo.length) f.length) {driven : State}
    (hdriven : driven = { setDir .tx s with tx := { index := 0, len := s.reply.len } }) :
    startReply s = .ok (respAfterFeed
      { setLine .uart driven with uart.fifo := s.uart.fifo ++ f.take n, tx.index := n }) := by
  have hslots : SlotsAre driven f := .responder (hdriven ▸ hm) ((Safety.fbHolds_congr (hdriven ▸ rfl)).mp hf) hfit
  have hfifo : driven.uart.fifo = s.uart.fifo := by rw [hdriven]; rfl
  have hstarted := startSlots_slots hslots (by rw [hdriven]; exact hlen) (hfifo ▸ hn)
  rw [hfifo, hdriven] at hstarted
  simp only [startReply, h, if_true, hstarted, hdriven]
  rfl

theorem respDrives_iff {r : RespState} :
    respDrives r = true ↔ r ∈ [.driveBreak, .driveMark, .writeSlots, .waitTxDone, .guard] := by
  cases r <;> simp [respDrives]

theorem respDiscardReply_eq (s : State) : respDiscardReply s = { s with
    uart := { s.uart with fifo := [], busy := false }
    pins := { dir := .rx, line := .mark }
    wire := s.wire ++ cutWire s ++ lineWire .mark s ++ dirWire .rx s
    timer.armed := false, reply.len := 0, rx.count := 0 } := rfl

section
variable (h : respDrives s.respState = true)
include h

theorem respFall_driving (t : Nat) :
    respFall t s = respGoto .measureBreak { respDiscardReply s with timing.tFall := t } := if_pos h

theorem respRise_driving (t : Nat) : respRise t s = .ok (respGoto .idle (respDiscardReply s)) := if_pos h

theorem respByte_driving (b : Byte) (t : Nat) : respByte b t s = .ok s :=
  respByte_ignored (fun hs => by simp [hs, respDrives] at h) (fun hs => by simp [hs, respDrives] at h) b t

theorem respErr_driving (kind : UartErr) : respErr kind s = s := by
  have hs := respDrives_iff.mp h
  simp only [List.mem_cons, List.not_mem_nil, or_false] at hs
  rcases hs with hs | hs | hs | hs | hs <;> simp only [respErr, hs]

end

end

end Sys2Proof.Machine

namespace Sys2Proof.Proofs

open Sys2Proof Sys2Proof.Machine Sys2Proof.Safety

/-- Settles O45: one measurement a case, with the duration `d` as the difference of the two edges. -/
theorem responderMeasuresTheBreak : Obligations.ResponderMeasuresTheBreak := by
  intro s t b kind d n ha hm ht hkind
  have hfall := exec_fall_responder ha ht hm
  have hrise := exec_rise_responder ha ht hm
  refine ⟨fun hs => ⟨?fallBegins, ?riseIgnored⟩, fun hs => ?fallAgain, fun hs hd hmin hmax => ?breakOk,
    fun hs hd hshort => ?breakShort, fun hs hd hlong => ?breakLong, fun hs => ⟨?byteIgnored, ?errCounts⟩⟩
  case fallBegins => rw [hfall, respFall_idle hs]; exact settle_unposted rfl
  case riseIgnored => rw [hrise, respRise_idle hs]; exact settle_unposted rfl
  case fallAgain => rw [hfall, respFall_measureBreak hs]; exact settle_unposted rfl
  case breakOk => rw [hrise, respRise_measureBreak hs hd, respBreakEnd_accepted hmin hmax]; exact settle_unposted rfl
  case breakShort =>
    rw [hrise, respRise_measureBreak hs hd, respBreakEnd_short hshort, inc_eq_countUp (index := 2) rfl]
    exact settle_unposted rfl
  case breakLong =>
    rw [hrise, respRise_measureBreak hs hd, respBreakEnd_long hlong, inc_eq_countUp (index := 3) rfl]
    exact settle_unposted rfl
  case byteIgnored =>
    rw [exec_byte_responder ha ht hm, respByte_ignored (by rcases hs with hs | hs <;> simp [hs])
      (by rcases hs with hs | hs <;> simp [hs])]
    exact settle_unposted rfl
  case errCounts =>
    rw [exec_err_responder ha ht hm, respErr_outside hs, inc_uartCounter hkind]
    exact settle_unposted rfl

/-- Settles O46: the start code is the byte at address 0, from which the timeout is read. -/
theorem responderTakesTheStartCode : Obligations.ResponderTakesTheStartCode := by
  intro s t b ha hm hs ho hempty ht
  refine ⟨fun d hd => ?fall, fun d hd hshort => ?rise, memWrite s.fb 0 b, memRead_memWrite_same _ _ _,
    fun a ha => memRead_memWrite_other _ _ _ _ ha, ?byte⟩
  case fall =>
    rw [exec_fall_responder ha ht hm, respFall_measureMab hs hd]
    exact settle_unposted rfl
  case rise =>
    rw [exec_rise_responder ha ht hm, respRise_inside (.inl hs), respRiseInside_character hd hshort]
    exact settle_unposted rfl
  case byte =>
    have hstored := storeByte_stores ho (by omega) b t.toNat
    rw [hempty] at hstored
    have hwait := interslotTimeout_responder (s := { s with
      fb := memWrite s.fb 0 b, rx.count := 0 + 1, timing.tLastByte := t.toNat }) hm
      (fbRead_ok.mpr ⟨by decide, memRead_memWrite_same _ _ _⟩)
    rw [exec_byte_responder ha ht hm, respByte_measureMab hs hstored hwait]
    exact settle_unposted rfl

/-- Settles O47: the byte joins `f` in `fb`, and whether the frame ends is read from the bytes that then stand there. -/
theorem responderCollectsTheFrame : Obligations.ResponderCollectsTheFrame := by
  rintro s t b f _ done ha hm hs ho hf hlen - hroom ht rfl hdone
  have hdone : done = frameEnds (f ++ [b]) := hdone
  refine ⟨⟨memWrite s.fb s.rx.count b, fbHolds_store hf hlen b, fun a ha => memRead_memWrite_other _ _ _ _ ha, ?byte⟩,
    ?fall, fun d hd hshort => ?rise⟩
  case byte =>
    rw [exec_byte_responder ha ht hm, respByte_stores hm hs ho hf hlen hroom b t.toNat rfl, ← hdone]
    cases done
    · exact settle_unposted_inResp rfl hs
    · exact settle_unposted rfl
  case fall =>
    rw [exec_fall_responder ha ht hm, respFall_collectSlots hs]
    exact settle_unposted rfl
  case rise =>
    rw [exec_rise_responder ha ht hm, respRise_inside (.inr hs), respRiseInside_character hd hshort]
    exact settle_unposted rfl

/-- Settles O48: what was received leaves the counters `k`, whatever its start code; then the break is judged. -/
theorem breakInsideAFrame : Obligations.BreakInsideAFrame := by
  intro s c t d f k ha hm hs ht hmin hnow hf hlen hk
  have hcut : finalizeCut (disarm s) = .ok { disarm s with counters := k } := by
    have hstart (hne : f ≠ []) : (disarm s).rx.count ≠ 0 ∧ fbRead (disarm s) 0 = .ok (f.getD 0 0#8) :=
      have hpos := List.length_pos_iff.mpr hne
      ⟨fun h => hpos.ne' (hlen.trans h), fbRead_holds_start hf hpos (by decide)⟩
    rcases hk with ⟨rfl, hnone⟩ | ⟨rfl, hne, hdmx⟩ | ⟨rfl, hne, hrdm, r, hv⟩
    · by_cases hne : f = []
      · subst hne
        exact finalizeCut_empty hlen.symm
      · obtain ⟨hpos, hsc⟩ := hstart hne
        obtain ⟨hdmx, hrdm⟩ := hnone.resolve_left hne
        exact finalizeCut_other hpos hsc hdmx hrdm
    · obtain ⟨hpos, hsc⟩ := hstart hne
      rw [finalizeCut_dmx hpos hsc hdmx, inc_eq_countUp (index := 0) rfl]
      rfl
    · obtain ⟨hpos, hsc⟩ := hstart hne
      rw [finalizeCut_rdm hpos hsc hrdm (validateFrame_unread { s.timer with armed := false } s.frameReady hv)]
      obtain ⟨counters, rfl⟩ := validateFrame_counters hv
      rfl
  have hrise : exec (.rise t) s = settleResult s (respBreakInside t.toNat d s) := by
    rw [exec_rise_responder ha hnow hm, respRise_inside hs, respRiseInside_break ht hmin]
  refine ⟨fun hmax => ?accepted, fun hlong => ?long⟩
  case accepted =>
    rw [hrise, respBreakInside_accepted hcut hmax]
    exact settle_unposted rfl
  case long =>
    rw [hrise, respBreakInside_long hcut hlong, inc_eq_countUp (index := 3) rfl]
    exact settle_unposted rfl

/-- Settles O49: the start code is the first of the known bytes, and a valid frame's header the first 24 of them. -/
theorem completedFrameIsConsumed : Obligations.CompletedFrameIsConsumed := by
  intro s f ha hm hs hready hf hlen hpos
  have hsc : fbRead s 0 = .ok (f.getD 0 0#8) := fbRead_holds_start hf (hlen ▸ hpos) (by decide)
  have hcleared {r : ValidateResult} {c : State} (hv : validateFrame s.rx.count s = .ok (r, c)) :
      validateFrame (clearFrameReady s).rx.count (clearFrameReady s) =
        .ok (r, { c with timer := s.timer, frameReady := false }) := validateFrame_unread s.timer false hv
  rw [exec_tasks_consume ha hm hs hready]
  refine ⟨fun hdmx => ?dmx, fun hdmx hrdm => ?other, fun hrdm r c hv hr => ?invalid, fun hrdm c hv => ?valid⟩
  case dmx =>
    rw [respConsume_dmx hsc hdmx, inc_eq_countUp (index := 0) rfl]
    exact settle_unposted rfl
  case other =>
    rw [respConsume_other hsc hdmx hrdm]
    exact settle_unposted rfl
  case invalid =>
    rw [respConsume_rdm hsc hrdm, respConsumeRdm_invalid (hcleared hv) hr]
    obtain ⟨counters, rfl⟩ := validateFrame_counters hv
    exact settle_unposted rfl
  case valid =>
    obtain ⟨h26, hsub⟩ := validFrame_bytes hf (hlen ▸ hv)
    obtain ⟨h, hbytes, hh⟩ := fbHeader_holds (s := clearFrameReady s) hf h26 hrdm hsub
    refine ⟨h, hbytes, ?_⟩
    rw [respConsume_rdm hsc hrdm, respConsumeRdm_valid (hcleared hv) hh, inc_eq_countUp (index := 1) rfl]
    exact settle_unposted rfl

/-- Settles O50: the drawn jitter is the one of the statement, and the answer's sign says what is scheduled. -/
theorem handlerReturnSchedulesTheReply : Obligations.HandlerReturnSchedulesTheReply := by
  intro s n ha
  refine ⟨fun hm hs ho => ?dispatched, fun h => exec_handlerReturn_ignored ha (fun hd => ?_) n⟩
  case dispatched =>
    rw [exec_handlerReturn_dispatch ha hm hs ho]
    refine ⟨fun h => ⟨drawnJitter s, drawnJitter_le s, ?reply⟩, fun hn hdub => ?nothing, fun hlong => ?tooLong⟩
    case reply =>
      rcases h with ⟨hpos, hfit⟩ | hdub
      · have hframed : n.toInt ≠ -24 := by omega
        rw [respHandlerReturn_length hpos hfit, toNat_toInt_of_pos hpos, if_neg hframed, decide_eq_false hframed]
        rfl
      · rw [respHandlerReturn_dub hdub, if_pos hdub, decide_eq_true hdub]
        rfl
    case nothing => rw [respHandlerReturn_nothing hn hdub]; rfl
    case tooLong => rw [respHandlerReturn_tooLong hlong]; rfl
  · obtain ⟨hm, hs, ho⟩ := hd
    simp [hm, hs, ho] at h

/-- Settles O51: a framed reply starts as an operation does, with its break; a raw one with its slots. -/
theorem replyStartAndEnd : Obligations.ReplyStartAndEnd := by
  intro s d n ha hm
  refine ⟨fun hs harmed htime hframed => ?framed, fun hs harmed htime hraw hd hlen hfit hn => ?raw,
    fun hs hf hb => ?lastSlot, fun hs harmed htime => ?release⟩
  case framed =>
    rw [exec_timerMatch_responder ha harmed htime hm, respTimerMatch_waitDelay (s := disarm s) hs,
      startReply_framed (s := disarm s) hframed]
    exact settle_unposted rfl
  case raw =>
    rw [exec_timerMatch_responder ha harmed htime hm, respTimerMatch_waitDelay (s := disarm s) hs,
      startReply_raw (s := disarm s) hm hraw ((fbHolds_congr rfl).mp hd) hlen.symm hfit hn rfl, hlen]
    exact settle_unposted rfl
  case lastSlot =>
    rw [exec_txShiftEmpty_responder ha hm hs hf hb]
    exact settle_unposted rfl
  case release =>
    rw [exec_timerMatch_responder ha harmed htime hm, respTimerMatch_guard (s := disarm s) hs]
    exact settle_unposted rfl

/-- Settles O52: in the driving states an edge discards the reply, and nothing else of the line counts. -/
theorem edgeDuringAReplyDiscardsIt : Obligations.EdgeDuringAReplyDiscardsIt := by
  intro s t b kind ha hm hs ht
  have hdrives := respDrives_iff.mpr hs
  refine ⟨?fall, ?rise, ?byte, ?err⟩
  case fall =>
    rw [exec_fall_responder ha ht hm, respFall_driving hdrives, respDiscardReply_eq]
    exact settle_unposted rfl
  case rise =>
    rw [exec_rise_responder ha ht hm, respRise_driving hdrives, respDiscardReply_eq]
    exact settle_unposted rfl
  case byte => rw [exec_byte_responder ha ht hm, respByte_driving hdrives]; exact settle_unposted rfl
  case err => rw [exec_err_responder ha ht hm, respErr_driving hdrives]; exact settle_unposted rfl

end Sys2Proof.Proofs

namespace Sys2Proof.Machine

/-! ### Where replies start (R201, R304)

A reply starts with `handler_return`, which leaves RESP_WAIT_DELAY, and takes the bus with the `TimerMatch` there. Every
other transition starts none: it keeps `resp_state`, enters a state outside the reply, or goes on from one driving state to
the next. -/

/-- From `s` to `t` no reply starts: a responder that drives the bus did so before, and so did one that waits to. -/
structure StartsNoReply (s t : State) : Prop where
  drives : respDrives t.respState = true → respDrives s.respState = true
  waits : t.respState = .waitDelay → s.respState = .waitDelay

section
variable {s t u : State}

theorem StartsNoReply.keeps (h : t.respState = s.respState) : StartsNoReply s t where
  drives hd := h ▸ hd
  waits hw := h ▸ hw

theorem StartsNoReply.enters {r : RespState} (h : t.respState = r)
    (hd : respDrives r = true → respDrives s.respState = true) (hw : r ≠ .waitDelay) : StartsNoReply s t where
  drives ht := hd (h ▸ ht)
  waits ht := absurd (h ▸ ht) hw

/-! #### The controller leaves `resp_state` alone -/

@[simp] theorem storeByte_respState (b : Byte) (v : Nat) (s : State) : (storeByte b v s).respState = s.respState := by
  rcases storeByte_cases b v s with ⟨_, _, he⟩ | ⟨_, he⟩ <;> rw [he]

@[simp] theorem dubActivate_respState (v : Nat) (s : State) : (dubActivate v s).respState = s.respState := by
  unfold dubActivate
  split <;> rfl

@[simp] theorem frameToHost_respState (s : State) : (frameToHost s).respState = s.respState := rfl

theorem feed_respState (he : feed s = .ok t) : t.respState = s.respState := by
  obtain ⟨bs, rfl, -⟩ := feed_ok he
  rfl

theorem startSlots_respState (he : startSlots s = .ok t) : t.respState = s.respState := by
  obtain ⟨bs, rfl, -⟩ := startSlots_ok he
  rfl

theorem ctrlTimerMatch_respState (he : ctrlTimerMatch s = .ok t) : t.respState = s.respState := by
  unfold ctrlTimerMatch at he
  split at he
  case h_2 =>
    obtain ⟨u, hu, rfl⟩ := except_map_eq_ok.mp he
    simpa [ctrlAfterFeed] using startSlots_respState hu
  all_goals cases he; rfl

theorem ctrlFifoSpace_respState (he : ctrlFifoSpace s = .ok t) : t.respState = s.respState := by
  obtain ⟨u, hu, rfl⟩ := except_map_eq_ok.mp he
  split <;> simpa using feed_respState hu

theorem ctrlShiftEmpty_respState (s : State) : (ctrlShiftEmpty s).respState = s.respState := by
  unfold ctrlShiftEmpty
  split <;> simp

theorem ctrlFall_respState (v : Nat) (s : State) : (ctrlFall v s).respState = s.respState := by
  unfold ctrlFall
  split
  case h_1 => split <;> rfl
  case h_2 =>
    split
    · split <;> rfl
    all_goals rfl
  case h_3 => exact dubActivate_respState v s
  all_goals rfl

theorem ctrlRise_respState (v : Nat) (s : State) : (ctrlRise v s).respState = s.respState := by
  unfold ctrlRise ctrlBreakEnd
  split
  · split
    · split <;> rfl
    · rfl
  all_goals rfl

theorem ctrlErr_respState (kind : UartErr) (s : State) : (ctrlErr kind s).respState = s.respState := by
  unfold ctrlErr
  split <;> rfl

theorem ctrlByte_respState {b : Byte} {v : Nat} (he : ctrlByte b v s = .ok t) : t.respState = s.respState := by
  unfold ctrlByte at he
  split at he
  case h_1 =>
    obtain ⟨done, -, he⟩ := except_bind_eq_ok.mp he
    split at he <;> cases he <;> simp
  case h_2 =>
    cases he
    unfold ctrlDubByte
    dsimp only
    split <;> simp
  all_goals cases he; rfl

theorem handUp_respState (he : handUp s = .ok t) : t.respState = s.respState := by
  unfold handUp at he
  split at he
  · obtain ⟨bytes, -, he⟩ := except_bind_eq_ok.mp he
    cases he; rfl
  · obtain ⟨⟨r, checked⟩, hv, he⟩ := except_bind_eq_ok.mp he
    obtain ⟨bytes, -, he⟩ := except_bind_eq_ok.mp he
    obtain ⟨counters, rfl⟩ := validateFrame_counters hv
    cases he
    split <;> rfl

theorem tasksQueue_respState (s : State) : (tasksQueue s).respState = s.respState := by
  have hdeliver : (deliver s).respState = s.respState := by
    unfold deliver
    split <;> rfl
  unfold tasksQueue
  split
  · exact hdeliver
  · split
    · split
      · rfl
      · split
        · rfl
        · exact hdeliver
    · exact hdeliver

/-! #### The responder -/

theorem StartsNoReply.timerMatch (he : respTimerMatch s = .ok t) (hw : s.respState ≠ .waitDelay) :
    StartsNoReply s t := by
  unfold respTimerMatch at he
  split at he
  case h_1 => cases he; exact .enters (r := .complete) rfl nofun nofun
  case h_2 hs => exact absurd hs hw
  case h_3 hs => cases he; exact .enters (r := .driveMark) rfl (fun _ => by rw [hs]; rfl) nofun
  case h_4 hs =>
    obtain ⟨u, -, rfl⟩ := except_map_eq_ok.mp he
    refine .enters (r := if u.tx.index < u.tx.len then .writeSlots else .waitTxDone) rfl
      (fun _ => by rw [hs]; rfl) ?_
    split <;> exact nofun
  case h_5 => cases he; exact .enters (r := .idle) rfl nofun nofun
  all_goals cases he; exact .keeps rfl

theorem StartsNoReply.fifoSpace (hs : s.respState = .writeSlots) (he : respFifoSpace s = .ok t) : StartsNoReply s t := by
  rw [respFifoSpace_writeSlots hs] at he
  obtain ⟨u, -, rfl⟩ := except_map_eq_ok.mp he
  refine .enters rfl (fun _ => by rw [hs]; rfl) ?_
  split <;> exact nofun

theorem StartsNoReply.shiftEmpty (hs : s.respState = .waitTxDone) : StartsNoReply s (respShiftEmpty s) :=
  .enters (r := .guard) rfl (fun _ => by rw [hs]; rfl) nofun

theorem StartsNoReply.fall (v : Nat) : StartsNoReply s (respFall v s) := by
  unfold respFall
  split
  · exact .enters (r := .measureBreak) rfl nofun nofun
  · split
    case h_1 => exact .enters (r := .measureBreak) rfl nofun nofun
    all_goals exact .keeps rfl

theorem StartsNoReply.riseInside {v : Nat} (he : respRiseInside v s = .ok t) : StartsNoReply s t := by
  unfold respRiseInside at he
  split at he
  · obtain ⟨counted, -, he⟩ := except_bind_eq_ok.mp he
    split at he <;> cases he
    · exact .enters (r := .measureMab) rfl nofun nofun
    · exact .enters (r := .idle) rfl nofun nofun
  · cases he; exact .keeps rfl

theorem StartsNoReply.rise {v : Nat} (he : respRise v s = .ok t) : StartsNoReply s t := by
  unfold respRise respBreakEnd at he
  split at he
  · cases he; exact .enters (r := .idle) rfl nofun nofun
  · split at he
    case h_1 =>
      split at he <;> cases he
      · exact .enters (r := .measureMab) rfl nofun nofun
      · exact .enters (r := .idle) rfl nofun nofun
    case h_2 | h_3 => exact .riseInside he
    all_goals cases he; exact .keeps rfl

theorem StartsNoReply.byte {b : Byte} {v : Nat} (he : respByte b v s = .ok t) : StartsNoReply s t := by
  unfold respByte at he
  split at he
  case h_1 =>
    obtain ⟨wait, -, he⟩ := except_bind_eq_ok.mp he
    cases he; exact .enters (r := .collectSlots) rfl nofun nofun
  case h_2 =>
    obtain ⟨done, -, he⟩ := except_bind_eq_ok.mp he
    split at he
    · cases he; exact .enters (r := .complete) rfl nofun nofun
    · obtain ⟨wait, -, he⟩ := except_bind_eq_ok.mp he
      cases he; exact .keeps (storeByte_respState b v s)
  all_goals cases he; exact .keeps rfl

theorem StartsNoReply.err (kind : UartErr) : StartsNoReply s (respErr kind s) := by
  unfold respErr
  split
  case h_3 | h_4 => exact .enters (r := .idle) rfl nofun nofun
  all_goals exact .keeps rfl

theorem StartsNoReply.consume (he : respConsume s = .ok t) : StartsNoReply s t := by
  obtain ⟨sc, -, he⟩ := except_bind_eq_ok.mp he
  split at he
  · cases he; exact .enters (r := .idle) rfl nofun nofun
  · split at he
    · obtain ⟨⟨r, checked⟩, -, he⟩ := except_bind_eq_ok.mp he
      dsimp only at he
      split at he
      · obtain ⟨hd, -, he⟩ := except_bind_eq_ok.mp he
        cases he; exact .enters (r := .dispatch) rfl nofun nofun
      · cases he; exact .enters (r := .idle) rfl nofun nofun
    · cases he; exact .enters (r := .idle) rfl nofun nofun

/-- R293: only a length or -24 schedules a reply. -/
theorem respHandlerReturn_schedules {n : Int} (he : respHandlerReturn n s = .ok t) :
    StartsNoReply s t ∨ ((0 < n ∨ n = -24) ∧ t.respState = .waitDelay) := by
  unfold respHandlerReturn at he
  split at he
  · cases he
  · split at he
    case isTrue hpos => cases he; exact .inr ⟨.inl hpos, rfl⟩
    case isFalse =>
      split at he <;> cases he
      case isTrue hdub => exact .inr ⟨.inr hdub, rfl⟩
      case isFalse => exact .inl (.enters (r := .idle) rfl nofun nofun)

/-! #### Outcomes -/

theorem StartsNoReply.of_settle (he : settle s u = .next t) (hu : StartsNoReply s u) : StartsNoReply s t := by
  obtain ⟨rfl, -⟩ := settle_next he
  exact hu

theorem StartsNoReply.of_internalOnly {e : Outcome} (he : internalOnly s e = .next t)
    (hk : e = .next t → StartsNoReply s t) : StartsNoReply s t := by
  rcases internalOnly_next he with ⟨_, rfl⟩ | ⟨_, he⟩
  · exact .keeps rfl
  · exact hk he

/-- An event that is not enabled leaves the state as it is. -/
theorem StartsNoReply.of_enabled {b : Prop} [Decidable b] {e : Outcome} (he : (if b then e else .next s) = .next t)
    (hk : b → e = .next t → StartsNoReply s t) : StartsNoReply s t := by
  split at he
  · exact hk ‹_› he
  · cases he; exact .keeps rfl

theorem StartsNoReply.of_byMode {x y : Except Fault State} (he : byMode s x y = .next t)
    (hx : x = .ok t → t.respState = s.respState) (hy : s.mode = .responder → y = .ok t → StartsNoReply s t) :
    StartsNoReply s t := by
  obtain ⟨⟨-, ht⟩ | ⟨hm, ht⟩, -⟩ := byMode_next he
  · exact .keeps (hx ht)
  · exact hy hm ht

theorem StartsNoReply.of_lineEvent {v : U64} {x y : Except Fault State} (he : lineEvent v s (byMode s x y) = .next t)
    (hx : x = .ok t → t.respState = s.respState) (hy : y = .ok t → StartsNoReply s t) : StartsNoReply s t := by
  rcases lineEvent_next he with ⟨_, rfl⟩ | ⟨_, _, rfl⟩ | ⟨_, _, he⟩
  · exact .keeps rfl
  · exact .keeps rfl
  · exact .of_byMode he hx fun _ => hy

/-! #### Instructions -/

theorem StartsNoReply.execTasks (he : execTasks s = .next t) : StartsNoReply s t := by
  refine .of_internalOnly he fun he => ?_
  split at he
  · exact .of_settle he (.keeps (by simp))
  · split at he
    · exact .of_byMode he handUp_respState fun _ => .consume
    · exact .of_settle he (.keeps (tasksQueue_respState s))

/-- R297: outside RESP_WAIT_DELAY a `TimerMatch` starts no reply. -/
theorem StartsNoReply.execTimerMatch (he : execTimerMatch s = .next t)
    (hw : ¬ (s.mode = .responder ∧ s.respState = .waitDelay)) : StartsNoReply s t := by
  refine .of_internalOnly he fun he => .of_enabled he fun _ he =>
    .of_byMode he ctrlTimerMatch_respState fun hm ht => ?_
  have hdisarmed : StartsNoReply (disarm s) t := .timerMatch ht fun hs => hw ⟨hm, hs⟩
  exact { drives := hdisarmed.drives, waits := hdisarmed.waits }

theorem StartsNoReply.execTxFifoSpace (he : execTxFifoSpace s = .next t) : StartsNoReply s t := by
  refine .of_internalOnly he fun he => .of_enabled he fun hdue he =>
    .of_byMode he ctrlFifoSpace_respState fun hm ht => .fifoSpace ?_ ht
  obtain ⟨hwrite, -⟩ := fifoSpaceDue_iff.mp hdue
  simpa [inWriteState_responder hm] using hwrite

theorem StartsNoReply.execTxShiftEmpty (he : execTxShiftEmpty s = .next t) : StartsNoReply s t := by
  refine .of_internalOnly he fun he => .of_enabled he fun hdue he =>
    .of_byMode he (fun ht => by cases ht; exact ctrlShiftEmpty_respState s) fun hm ht => ?_
  obtain ⟨hwait, -⟩ := shiftEmptyDue_iff.mp hdue
  cases ht
  exact .shiftEmpty (by simpa [inWaitState_responder hm] using hwait)

/-- R293: `handler_return` schedules a reply in DISPATCH only. -/
theorem execHandlerReturn_schedules {n : U16} (he : execHandlerReturn n s = .next t) :
    StartsNoReply s t ∨ ((0 < n.toInt ∨ n.toInt = -24) ∧ s.respState = .dispatch ∧ t.respState = .waitDelay) := by
  rcases internalOnly_next he with ⟨_, rfl⟩ | ⟨_, he⟩
  · exact .inl (.keeps rfl)
  · split at he
    case isTrue hd =>
      obtain ⟨-, hs, -⟩ := hd
      unfold toOutcome at he
      split at he
      · next hok =>
        cases he
        exact (respHandlerReturn_schedules hok).imp_right fun ⟨hn, ht⟩ => ⟨hn, hs, ht⟩
      · cases he
    case isFalse => cases he; exact .inl (.keeps rfl)

theorem StartsNoReply.execIncrementCounter {index : Byte} (he : execIncrementCounter index s = .next t) :
    StartsNoReply s t := by
  refine .of_internalOnly he fun he => ?_
  split at he
  · split at he <;> cases he <;> exact .keeps rfl
  · cases he; exact .keeps rfl

theorem StartsNoReply.execCoarseTick (he : execCoarseTick s = .next t) : StartsNoReply s t := by
  refine .of_internalOnly he fun he => ?_
  cases he
  split <;> exact .keeps rfl

theorem StartsNoReply.execReadCounter {index : Byte} (he : execReadCounter index s = .next t) : StartsNoReply s t := by
  unfold Machine.execReadCounter at he
  split at he <;> cases he <;> exact .keeps rfl

/-- R175: a setter, accepted or not. -/
theorem StartsNoReply.setter {legal : Bool} {p : Params}
    (he : (if legal = true then acceptParams p s else rejectOp s) = .next t) : StartsNoReply s t := by
  split at he <;> cases he <;> exact .keeps rfl

theorem StartsNoReply.enqueueFrame {token : U16} {cls : FrameClass} {sc : Byte} {bytes : List Byte}
    (he : enqueueFrame token cls sc bytes s = .next t) : StartsNoReply s t := by
  unfold Machine.enqueueFrame at he
  split at he <;> cases he <;> exact .keeps rfl

theorem StartsNoReply.execQueueSelfTest {token : U16} (he : execQueueSelfTest token s = .next t) :
    StartsNoReply s t := by
  unfold Machine.execQueueSelfTest at he
  split at he <;> cases he <;> exact .keeps rfl

/-- R161, R177: a mode change that aborts leaves the responder in IDLE. -/
theorem StartsNoReply.execSetMode {mode : Mode} {hasToken : Bool} {token : U16}
    (he : execSetMode mode hasToken token s = .next t) : StartsNoReply s t := by
  have hchange : StartsNoReply s (changeMode mode s) := by
    unfold changeMode
    split
    · exact .keeps rfl
    · exact .enters (r := .idle) rfl nofun nofun
  refine .of_settle he ?_
  split <;> exact { drives := hchange.drives, waits := hchange.waits }

/-- R201, R304: whatever the instruction, a reply starts with a `TimerMatch` in RESP_WAIT_DELAY or a `handler_return` in
DISPATCH. -/
theorem exec_startsNoReply {i : Instr} (he : exec i s = .next t)
    (htimer : i = .timerMatch → ¬ (s.mode = .responder ∧ s.respState = .waitDelay))
    (hhandler : ∀ n, i ≠ .handlerReturn n) : StartsNoReply s t := by
  by_cases hcodec : Safety.isCodecOp i = true
  · obtain ⟨⟨_, _, _, -, rfl⟩, -⟩ := exec_codec hcodec he
    exact .keeps rfl
  · cases i with
    | setMode mode hasToken token => exact .execSetMode he
    | reset => exact .of_settle he (.enters (r := .idle) rfl nofun nofun)
    | queueDmx _ _ | queueAsc _ _ _ | queueRdmDub _ _ | queueRdmRequest _ _ _ => exact .enqueueFrame he
    | queueSelfTest token => exact .execQueueSelfTest he
    | setBreakTime v | setMarkTime v | setResponderDelay v => exact .setter he
    | setRdmResponseTimeout v | setResponderJitter v | setDubResponseLimit v
    | getBreakTime | getMarkTime | getRdmResponseTimeout | getResponderDelay | getResponderJitter
    | getDubResponseLimit | now | elapsed _ | delta _ _ | hasElapsed _ _ | setCounter _ | resetCommsStatus =>
      cases he; exact .keeps rfl
    | readCounter index => exact .execReadCounter he
    | incrementCounter index => exact .execIncrementCounter he
    | handlerReturn n => exact absurd rfl (hhandler n)
    | tasks => exact .execTasks he
    | coarseTick => exact .execCoarseTick he
    | timerMatch => exact .execTimerMatch he (htimer rfl)
    | fall u =>
      exact .of_lineEvent he (fun ht => by cases ht; exact ctrlFall_respState _ s) fun ht => by cases ht; exact .fall _
    | rise u => exact .of_lineEvent he (fun ht => by cases ht; exact ctrlRise_respState _ s) .rise
    | byte u b => exact .of_lineEvent he ctrlByte_respState .byte
    | err u kind =>
      exact .of_lineEvent he (fun ht => by cases ht; exact ctrlErr_respState kind s) fun ht => by cases ht; exact .err kind
    | txFifoSpace => exact .execTxFifoSpace he
    | txShiftEmpty => exact .execTxShiftEmpty he
    | _ => exact absurd rfl hcodec

end
end Sys2Proof.Machine

namespace Sys2Proof.Proofs

open Sys2Proof Sys2Proof.Machine Sys2Proof.Safety

/-- Settles O60: `handler_return` may schedule a reply, but takes no bus; a `TimerMatch` in RESP_WAIT_DELAY takes the bus
of a reply that was scheduled; nothing else starts one. -/
theorem repliesNeedAHandlerReturn : Obligations.RepliesNeedAHandlerReturn := by
  intro i s t he
  by_cases htimer : i = .timerMatch ∧ s.mode = .responder ∧ s.respState = .waitDelay
  · have ⟨_, _, hs⟩ := htimer
    exact ⟨fun _ _ => htimer, fun hw => absurd hs hw⟩
  · have started : StartsNoReply s t ∨
        ∃ n, i = .handlerReturn n ∧ (0 < n.toInt ∨ n.toInt = -24) ∧ s.respState = .dispatch ∧
          t.respState = .waitDelay := by
      by_cases hhandler : ∃ n, i = .handlerReturn n
      · obtain ⟨n, rfl⟩ := hhandler
        exact (execHandlerReturn_schedules he).imp_right fun h => ⟨n, rfl, h⟩
      · exact .inl (exec_startsNoReply he (fun hi h => htimer ⟨hi, h⟩) (not_exists.mp hhandler))
    rcases started with hnone | ⟨n, rfl, hn, hs, ht⟩
    · exact ⟨fun hquiet hdrives => by simp [hnone.drives hdrives] at hquiet, fun hw ht => absurd (hnone.waits ht) hw⟩
    · exact ⟨fun _ hdrives => by simp [ht, respDrives] at hdrives, fun _ _ => ⟨n, rfl, hn, hs⟩⟩

end Sys2Proof.Proofs

namespace Sys2Proof.Machine

/-! ### The counters by index (R23, R24, R360 to R363) -/

/-- R23, R24: the counters' names in the order of their indices. -/
def counterIds : List CounterId :=
  [.dmxFrames, .rdmFrames, .rdmShortFrame, .rdmLengthMismatch, .rdmChecksumInvalid, .uartFramingErrors,
    .uartParityErrors, .uartOverrunErrors]

theorem counterOfIndex_eq : ∀ index : Byte, counterOfIndex index = counterIds[index.toNat]? := by decide

theorem counterList_eq (k : Counters) : Safety.counterList k = counterIds.map (getCounter · k) := rfl

theorem counterList_getElem? (k : Counters) (n : Nat) :
    (Safety.counterList k)[n]? = counterIds[n]?.map (getCounter · k) := by
  rw [counterList_eq, List.getElem?_map]

theorem counterOfIndex_of_le {index : Byte} (h : index.toNat ≤ 7) : ∃ c, counterOfIndex index = some c := by
  rw [counterOfIndex_eq]
  exact ⟨_, List.getElem?_eq_getElem (Nat.lt_succ_of_le h)⟩

theorem counterOfIndex_of_lt {index : Byte} (h : 7 < index.toNat) : counterOfIndex index = none := by
  rw [counterOfIndex_eq]
  exact List.getElem?_eq_none h

/-- R24: the UART error counters are the last three. -/
theorem isUartCounter_iff {index : Byte} {c : CounterId} (h : counterOfIndex index = some c) :
    isUartCounter c = true ↔ 4 < index.toNat := by
  unfold counterOfIndex at h
  split at h <;> cases h <;> decide

theorem counterList_countUp (n : Nat) (k : Counters) :
    Safety.counterList (Safety.countUp n k) = (Safety.counterList k).modify n Safety.upOne := by
  rcases Nat.lt_or_ge n 8 with hindex | hpast
  · interval_cases n <;> rfl
  · obtain ⟨m, rfl⟩ := Nat.exists_eq_add_of_le' hpast
    exact (List.modify_eq_self (l := Safety.counterList k) hpast).symm

theorem counterList_clearCommsStatus {n : Nat} (h : n = 0 ∨ n = 1 ∨ 5 ≤ n) (k : Counters) :
    (Safety.counterList (clearCommsStatus k))[n]? = (Safety.counterList k)[n]? := by
  rcases n with _ | _ | _ | _ | _ | n
  case succ.succ.zero | succ.succ.succ.zero | succ.succ.succ.succ.zero => omega
  all_goals rfl

section
variable {s : State} {index : Byte} {c : CounterId}

theorem execReadCounter_some (h : counterOfIndex index = some c) :
    execReadCounter index s = .next (answer (.u16 (getCounter c s.counters)) s) := by
  rw [execReadCounter, h]

theorem execReadCounter_none (h : counterOfIndex index = none) : execReadCounter index s = rejectOp s := by
  rw [execReadCounter, h]

/-- R100: a UART error counter counts for the front end only. -/
theorem execIncrementCounter_some (ha : s.agent ≠ .host) (h : counterOfIndex index = some c) :
    execIncrementCounter index s = if 4 < index.toNat ∧ s.agent ≠ .line then rejectOp s else .next (inc c s) := by
  rw [execIncrementCounter, internalOnly_other ha, h]
  simp only [isUartCounter_iff h]

theorem execIncrementCounter_none (ha : s.agent ≠ .host) (h : counterOfIndex index = none) :
    execIncrementCounter index s = rejectOp s := by
  rw [execIncrementCounter, internalOnly_other ha, h]

end
end Sys2Proof.Machine

namespace Sys2Proof.Proofs

open Sys2Proof Sys2Proof.Machine Sys2Proof.Safety

/-- Settles O10: an index is in the list exactly where it names a counter. -/
theorem countersAreReadAndCleared : Obligations.CountersAreReadAndCleared := by
  intro s index
  refine ⟨fun v hv => ?_, fun h => execReadCounter_none (counterOfIndex_of_lt h), _, rfl, rfl⟩
  rw [counterList_getElem?, ← counterOfIndex_eq, Option.map_eq_some_iff] at hv
  obtain ⟨c, hc, rfl⟩ := hv
  exact execReadCounter_some hc

/-- Settles O11: the step's `inc` is the list's increment at the index; a rejection is past the list, or of a UART error
counter for another agent than the front end. -/
theorem incrementSaturates : Obligations.IncrementSaturates := by
  intro s index ha
  constructor
  · intro h
    obtain ⟨c, hc⟩ := counterOfIndex_of_le (index := index) (by omega)
    have hcounts : ¬ (4 < index.toNat ∧ s.agent ≠ .line) := by
      rintro ⟨hlarge, hagent⟩
      rcases h with hsmall | ⟨-, hline⟩
      · omega
      · exact hagent hline
    refine ⟨_, ?_, counterList_countUp index.toNat s.counters⟩
    exact (execIncrementCounter_some ha hc).trans (by rw [if_neg hcounts, inc_eq_countUp hc])
  · intro h
    by_cases hpast : 7 < index.toNat
    · exact execIncrementCounter_none ha (counterOfIndex_of_lt hpast)
    · obtain ⟨c, hc⟩ := counterOfIndex_of_le (not_lt.mp hpast)
      exact (execIncrementCounter_some ha hc).trans (if_pos (h.resolve_left hpast))

end Sys2Proof.Proofs

namespace Sys2Proof.Machine

/-! ### Where counters move (R361, R364)

Every transition leaves the counters or increments some of them, and an increment saturates: no counter falls. -/

/-- R364: no counter of `t` is below its value in `s`. -/
def NoCounterFalls (s t : State) : Prop := ∀ c, getCounter c s.counters ≤ getCounter c t.counters

theorem le_satSucc (v : U16) : v ≤ satSucc v := by
  rw [satSucc_eq_upOne, Safety.upOne, BitVec.le_def, BitVec.toNat_ofNat]
  omega

theorem getCounter_putCounter (d c : CounterId) (v : U16) (k : Counters) :
    getCounter d (putCounter c v k) = if d = c then v else getCounter d k := by
  cases c <;> cases d <;> rfl

section
variable {s t u : State}

theorem NoCounterFalls.keeps (h : t.counters = s.counters) : NoCounterFalls s t := fun c =>
  BitVec.le_of_eq (congrArg (getCounter c) h.symm)

theorem NoCounterFalls.trans (h : NoCounterFalls s t) (h' : NoCounterFalls t u) : NoCounterFalls s u :=
  fun c => BitVec.le_trans (h c) (h' c)

/-- R360: an increment. -/
theorem NoCounterFalls.inc (c : CounterId) (s : State) : NoCounterFalls s (inc c s) := by
  intro d
  rw [inc_counters, getCounter_putCounter]
  split
  · next h => subst h; exact le_satSucc _
  · exact BitVec.le_refl _

/-- What follows a count leaves the counters alone. -/
theorem NoCounterFalls.thenKeeps (h : NoCounterFalls s u) (ht : t.counters = u.counters) : NoCounterFalls s t :=
  h.trans (.keeps ht)

/-- R134, R376: `validate` counts at most one failure. -/
theorem NoCounterFalls.validateFrame {len : Nat} {r : ValidateResult} (he : validateFrame len s = .ok (r, t)) :
    NoCounterFalls s t := by
  rw [validateFrame_state he]
  cases r with
  | ok | notRdm => exact .keeps rfl
  | shortFrame | lengthMismatch | checksumInvalid => exact .inc _ s

/-! #### Operations that count nothing -/

@[simp] theorem storeByte_counters (b : Byte) (v : Nat) (s : State) : (storeByte b v s).counters = s.counters := by
  rcases storeByte_cases b v s with ⟨_, _, he⟩ | ⟨_, he⟩ <;> rw [he]

@[simp] theorem dubActivate_counters (v : Nat) (s : State) : (dubActivate v s).counters = s.counters := by
  unfold dubActivate
  split <;> rfl

theorem fbWrite_counters {off : Nat} {bytes : List Byte} (he : fbWrite off bytes s = .ok t) :
    t.counters = s.counters := by
  obtain ⟨-, rfl⟩ := fbWrite_ok.mp he
  rfl

theorem feed_counters (he : feed s = .ok t) : t.counters = s.counters := by
  obtain ⟨bs, rfl, -⟩ := feed_ok he
  rfl

theorem startSlots_counters (he : startSlots s = .ok t) : t.counters = s.counters := by
  obtain ⟨bs, rfl, -⟩ := startSlots_ok he
  rfl

/-! #### The codec -/

theorem appendChecksum_counters (he : appendChecksum s = .ok t) : t.counters = s.counters := by
  obtain ⟨ml, -, he⟩ := except_bind_eq_ok.mp he
  obtain ⟨c, -, he⟩ := except_bind_eq_ok.mp he
  exact fbWrite_counters he

theorem buildReplyHeader_counters {own : Uid} {rtype msgCount pdl : Byte}
    (he : buildReplyHeader own rtype msgCount pdl s = .ok t) : t.counters = s.counters := by
  obtain ⟨reqSrc, -, he⟩ := except_bind_eq_ok.mp he
  obtain ⟨cc, -, he⟩ := except_bind_eq_ok.mp he
  split at he
  · cases he
  · obtain ⟨s1, h1, he⟩ := except_bind_eq_ok.mp he
    obtain ⟨s2, h2, he⟩ := except_bind_eq_ok.mp he
    obtain ⟨s3, h3, he⟩ := except_bind_eq_ok.mp he
    obtain ⟨s4, h4, he⟩ := except_bind_eq_ok.mp he
    obtain ⟨s5, h5, he⟩ := except_bind_eq_ok.mp he
    rw [fbWrite_counters he, fbWrite_counters h5, fbWrite_counters h4, fbWrite_counters h3, fbWrite_counters h2,
      fbWrite_counters h1]

theorem dubEncode_counters {uid : Uid} (he : dubEncode uid s = .ok t) : t.counters = s.counters := by
  obtain ⟨s1, h1, he⟩ := except_bind_eq_ok.mp he
  obtain ⟨c, -, he⟩ := except_bind_eq_ok.mp he
  rw [fbWrite_counters he, fbWrite_counters h1]

theorem dubRespond_counters {own : Uid} {muted : Bool} {n : Int} (he : dubRespond own muted s = .ok (n, t)) :
    t.counters = s.counters := by
  unfold dubRespond at he
  split at he
  · cases he; rfl
  · obtain ⟨pdl, -, he⟩ := except_bind_eq_ok.mp he
    split at he
    · obtain ⟨hit, -, he⟩ := except_bind_eq_ok.mp he
      split at he
      · obtain ⟨u, hu, heq⟩ := except_map_eq_ok.mp he
        cases heq; exact dubEncode_counters hu
      · cases he; rfl
    · cases he; rfl

theorem NoCounterFalls.validateReply {len : Nat} (he : validateReply len s = .ok t) : NoCounterFalls s t := by
  obtain ⟨⟨r, checked⟩, hv, he⟩ := except_bind_eq_ok.mp he
  dsimp only at he
  split at he
  · obtain ⟨hd, -, he⟩ := except_bind_eq_ok.mp he
    cases he; exact (validateFrame hv).thenKeeps rfl
  · cases he; exact (validateFrame hv).thenKeeps rfl

theorem NoCounterFalls.of_codecOp {x : Except Fault State} (he : codecOp s x = .next t)
    (hx : x = .ok t → NoCounterFalls s t) : NoCounterFalls s t := by
  rcases codecOp_next he with ⟨_, rfl⟩ | ⟨_, hok⟩
  · exact .keeps rfl
  · exact hx hok

/-- A codec effect that counts nothing, answered. -/
theorem NoCounterFalls.of_codecAnswer {x : Except Fault State} {r : Reply}
    (he : codecOp s (x.map (answer r)) = .next t) (hx : ∀ u, x = .ok u → u.counters = s.counters) :
    NoCounterFalls s t := by
  refine .of_codecOp he fun ht => ?_
  obtain ⟨u, hu, rfl⟩ := except_map_eq_ok.mp ht
  exact .keeps (hx u hu)

/-- R361: of the codec operations only `validate` counts. -/
theorem NoCounterFalls.exec_codec {i : Instr} (hi : Safety.isCodecOp i = true) (he : exec i s = .next t) :
    NoCounterFalls s t := by
  cases i with
  | pushU16 _ _ | pushU32 _ _ => exact .of_codecAnswer he fun _ => fbWrite_counters
  | checksum16 off n =>
    refine .of_codecOp he fun ht => ?_
    obtain ⟨c, -, rfl⟩ := except_map_eq_ok.mp ht
    exact .keeps rfl
  | appendChecksum => exact .of_codecAnswer he fun _ => appendChecksum_counters
  | validate len => exact .of_codecOp he .validateReply
  | buildReplyHeader own rtype msgCount pdl =>
    refine .of_codecOp he fun ht => ?_
    split at ht
    · obtain ⟨u, hu, rfl⟩ := except_map_eq_ok.mp ht
      exact (NoCounterFalls.keeps (buildReplyHeader_counters hu)).thenKeeps rfl
    · cases ht; exact .keeps rfl
  | dubEncode uid => exact .of_codecAnswer he fun _ => dubEncode_counters
  | dubRespond own muted =>
    refine .of_codecOp he fun ht => ?_
    obtain ⟨⟨n, u⟩, hu, rfl⟩ := except_map_eq_ok.mp ht
    exact (NoCounterFalls.keeps (dubRespond_counters hu)).thenKeeps rfl
  | uidCompare a b => exact .of_codecOp he fun ht => by cases ht; exact .keeps rfl
  | _ => exact absurd hi (by simp [Safety.isCodecOp, Instr.opcode])

/-! #### The controller -/

theorem ctrlTimerMatch_counters (he : ctrlTimerMatch s = .ok t) : t.counters = s.counters := by
  unfold ctrlTimerMatch at he
  split at he
  case h_2 =>
    obtain ⟨u, hu, rfl⟩ := except_map_eq_ok.mp he
    simpa [ctrlAfterFeed] using startSlots_counters hu
  all_goals cases he; rfl

theorem ctrlFifoSpace_counters (he : ctrlFifoSpace s = .ok t) : t.counters = s.counters := by
  obtain ⟨u, hu, rfl⟩ := except_map_eq_ok.mp he
  split <;> simpa using feed_counters hu

theorem ctrlShiftEmpty_counters (s : State) : (ctrlShiftEmpty s).counters = s.counters := by
  unfold ctrlShiftEmpty
  split <;> simp

theorem ctrlByte_counters {b : Byte} {v : Nat} (he : ctrlByte b v s = .ok t) : t.counters = s.counters := by
  unfold ctrlByte at he
  split at he
  case h_1 =>
    obtain ⟨done, -, he⟩ := except_bind_eq_ok.mp he
    split at he <;> cases he <;> simp [frameToHost]
  case h_2 =>
    cases he
    unfold ctrlDubByte
    dsimp only
    split <;> simp [frameToHost]
  all_goals cases he; rfl

/-- R244: a mark that is too long is counted. -/
theorem NoCounterFalls.ctrlFall (v : Nat) (s : State) : NoCounterFalls s (ctrlFall v s) := by
  unfold Machine.ctrlFall
  split
  case h_1 => split <;> exact .keeps rfl
  case h_2 =>
    split
    · split
      · exact .keeps rfl
      · exact .inc .rdmLengthMismatch s
    all_goals exact .keeps rfl
  case h_3 => exact .keeps (dubActivate_counters v s)
  all_goals exact .keeps rfl

/-- R241: a break that is too short or too long is counted. -/
theorem NoCounterFalls.ctrlRise (v : Nat) (s : State) : NoCounterFalls s (ctrlRise v s) := by
  unfold Machine.ctrlRise ctrlBreakEnd
  split
  · split
    · split
      · exact .keeps rfl
      · exact .inc _ s
    · exact .keeps rfl
  all_goals exact .keeps rfl

theorem NoCounterFalls.ctrlErr (kind : UartErr) (s : State) : NoCounterFalls s (ctrlErr kind s) := by
  unfold Machine.ctrlErr
  split
  · exact .inc _ s
  · exact .keeps rfl

/-- R248: a hand-up counts the outcome of `validate`, a valid frame included. -/
theorem NoCounterFalls.handUp (he : handUp s = .ok t) : NoCounterFalls s t := by
  unfold Machine.handUp at he
  split at he
  · obtain ⟨bytes, -, he⟩ := except_bind_eq_ok.mp he
    cases he; exact .keeps rfl
  · obtain ⟨⟨r, checked⟩, hv, he⟩ := except_bind_eq_ok.mp he
    obtain ⟨bytes, -, he⟩ := except_bind_eq_ok.mp he
    cases he
    split
    · exact (validateFrame hv).trans (.inc .rdmFrames checked)
    · exact (validateFrame hv).thenKeeps rfl

theorem tasksQueue_counters (s : State) : (tasksQueue s).counters = s.counters := by
  have hdeliver : (deliver s).counters = s.counters := by
    unfold deliver
    split <;> rfl
  unfold tasksQueue
  split
  · exact hdeliver
  · split
    · split
      · rfl
      · split
        · rfl
        · exact hdeliver
    · exact hdeliver

/-! #### The responder -/

theorem respTimerMatch_counters (he : respTimerMatch s = .ok t) : t.counters = s.counters := by
  unfold respTimerMatch at he
  split at he
  case h_2 =>
    unfold startReply at he
    split at he
    · obtain ⟨u, hu, rfl⟩ := except_map_eq_ok.mp he
      simpa [respAfterFeed] using startSlots_counters hu
    · cases he; rfl
  case h_4 =>
    obtain ⟨u, hu, rfl⟩ := except_map_eq_ok.mp he
    simpa [respAfterFeed] using startSlots_counters hu
  all_goals cases he; rfl

theorem respFifoSpace_counters (he : respFifoSpace s = .ok t) : t.counters = s.counters := by
  obtain ⟨u, hu, rfl⟩ := except_map_eq_ok.mp he
  split <;> simpa using feed_counters hu

theorem respDiscardReply_counters (s : State) : (respDiscardReply s).counters = s.counters := by
  rw [respDiscardReply_eq]

theorem respFall_counters (v : Nat) (s : State) : (respFall v s).counters = s.counters := by
  unfold respFall
  split
  · exact respDiscardReply_counters s
  · split <;> rfl

theorem respByte_counters {b : Byte} {v : Nat} (he : respByte b v s = .ok t) : t.counters = s.counters := by
  unfold respByte at he
  split at he
  case h_1 =>
    obtain ⟨wait, -, he⟩ := except_bind_eq_ok.mp he
    cases he; simp
  case h_2 =>
    obtain ⟨done, -, he⟩ := except_bind_eq_ok.mp he
    split at he
    · cases he; simp [respComplete]
    · obtain ⟨wait, -, he⟩ := except_bind_eq_ok.mp he
      cases he; simp
  all_goals cases he; rfl

/-- R289: what was received of a cut frame is counted. -/
theorem NoCounterFalls.finalizeCut (he : finalizeCut s = .ok t) : NoCounterFalls s t := by
  unfold Machine.finalizeCut at he
  split at he
  · cases he; exact .keeps rfl
  · obtain ⟨sc, -, he⟩ := except_bind_eq_ok.mp he
    split at he
    · cases he; exact .inc .dmxFrames s
    · split at he
      · obtain ⟨⟨r, checked⟩, hv, he⟩ := except_bind_eq_ok.mp he
        cases he; exact .validateFrame hv
      · cases he; exact .keeps rfl

/-- R289: a break inside a frame counts the cut frame, and itself where it is too long. -/
theorem NoCounterFalls.riseInside {v : Nat} (he : respRiseInside v s = .ok t) : NoCounterFalls s t := by
  unfold respRiseInside at he
  split at he
  · obtain ⟨counted, hcut, he⟩ := except_bind_eq_ok.mp he
    have hcounted : NoCounterFalls (disarm s) counted := .finalizeCut hcut
    split at he <;> cases he
    · exact hcounted.thenKeeps rfl
    · exact hcounted.trans (.inc .rdmLengthMismatch counted)
  · cases he; exact .keeps rfl

/-- R282: a break that is too short or too long is counted. -/
theorem NoCounterFalls.respRise {v : Nat} (he : respRise v s = .ok t) : NoCounterFalls s t := by
  unfold Machine.respRise respBreakEnd at he
  split at he
  · cases he; exact .keeps (respDiscardReply_counters s)
  · split at he
    case h_1 =>
      split at he <;> cases he
      · exact .keeps rfl
      · exact .inc _ s
    case h_2 | h_3 => exact .riseInside he
    all_goals cases he; exact .keeps rfl

theorem NoCounterFalls.respErr (kind : UartErr) (s : State) : NoCounterFalls s (respErr kind s) := by
  unfold Machine.respErr
  split
  case h_1 | h_2 | h_3 | h_4 => exact .inc _ s
  all_goals exact .keeps rfl

/-- R290: a consumed frame is counted by its start code, an RDM frame by the outcome of `validate`. -/
theorem NoCounterFalls.consume (he : respConsume s = .ok t) : NoCounterFalls s t := by
  obtain ⟨sc, -, he⟩ := except_bind_eq_ok.mp he
  split at he
  · cases he; exact .inc .dmxFrames s
  · split at he
    · obtain ⟨⟨r, checked⟩, hv, he⟩ := except_bind_eq_ok.mp he
      have hchecked : NoCounterFalls (clearFrameReady s) checked := .validateFrame hv
      dsimp only at he
      split at he
      · obtain ⟨hd, -, he⟩ := except_bind_eq_ok.mp he
        cases he; exact hchecked.trans (.inc .rdmFrames checked)
      · cases he; exact hchecked.thenKeeps rfl
    · cases he; exact .keeps rfl

theorem respHandlerReturn_counters {n : Int} (he : respHandlerReturn n s = .ok t) : t.counters = s.counters := by
  unfold respHandlerReturn at he
  split at he
  · cases he
  · split at he
    · cases he; rfl
    · split at he <;> cases he <;> rfl

/-! #### Outcomes -/

theorem NoCounterFalls.of_settle (he : settle s u = .next t) (hu : NoCounterFalls s u) : NoCounterFalls s t := by
  obtain ⟨rfl, -⟩ := settle_next he
  exact hu

theorem NoCounterFalls.of_internalOnly {e : Outcome} (he : internalOnly s e = .next t)
    (hk : e = .next t → NoCounterFalls s t) : NoCounterFalls s t := by
  rcases internalOnly_next he with ⟨_, rfl⟩ | ⟨_, he⟩
  · exact .keeps rfl
  · exact hk he

theorem NoCounterFalls.of_byMode {x y : Except Fault State} (he : byMode s x y = .next t)
    (hx : x = .ok t → NoCounterFalls s t) (hy : y = .ok t → NoCounterFalls s t) : NoCounterFalls s t := by
  obtain ⟨⟨-, ht⟩ | ⟨-, ht⟩, -⟩ := byMode_next he
  · exact hx ht
  · exact hy ht

theorem NoCounterFalls.of_lineEvent {v : U64} {x y : Except Fault State} (he : lineEvent v s (byMode s x y) = .next t)
    (hx : x = .ok t → NoCounterFalls s t) (hy : y = .ok t → NoCounterFalls s t) : NoCounterFalls s t := by
  rcases lineEvent_next he with ⟨_, rfl⟩ | ⟨_, _, rfl⟩ | ⟨_, _, he⟩
  · exact .keeps rfl
  · exact .keeps rfl
  · exact .of_byMode he hx hy

/-- An event of the fine timer or the transmitter: rejected, not enabled, or a transition that counts nothing. -/
theorem NoCounterFalls.of_enabledEvent {b : Prop} [Decidable b] {x y : Except Fault State}
    (he : internalOnly s (if b then byMode s x y else .next s) = .next t)
    (hx : x = .ok t → t.counters = s.counters) (hy : y = .ok t → t.counters = s.counters) : NoCounterFalls s t := by
  refine .of_internalOnly he fun he => ?_
  split at he
  · exact .of_byMode he (fun ht => .keeps (hx ht)) fun ht => .keeps (hy ht)
  · cases he; exact .keeps rfl

/-! #### Instructions -/

theorem NoCounterFalls.execTasks (he : execTasks s = .next t) : NoCounterFalls s t := by
  refine .of_internalOnly he fun he => ?_
  split at he
  · exact .of_settle he (.keeps (deadlineAbort_counters s))
  · split at he
    · exact .of_byMode he .handUp .consume
    · exact .of_settle he (.keeps (tasksQueue_counters s))

theorem NoCounterFalls.execHandlerReturn {n : U16} (he : execHandlerReturn n s = .next t) : NoCounterFalls s t := by
  refine .of_internalOnly he fun he => ?_
  split at he
  · unfold toOutcome at he
    split at he
    · next hok => cases he; exact .keeps (respHandlerReturn_counters hok)
    · cases he
  · cases he; exact .keeps rfl

theorem NoCounterFalls.execIncrementCounter {index : Byte} (he : execIncrementCounter index s = .next t) :
    NoCounterFalls s t := by
  refine .of_internalOnly he fun he => ?_
  split at he
  · next c _ =>
    split at he <;> cases he
    · exact .keeps rfl
    · exact .inc c s
  · cases he; exact .keeps rfl

theorem NoCounterFalls.execCoarseTick (he : execCoarseTick s = .next t) : NoCounterFalls s t := by
  refine .of_internalOnly he fun he => ?_
  cases he
  split <;> exact .keeps rfl

theorem NoCounterFalls.execReadCounter {index : Byte} (he : execReadCounter index s = .next t) :
    NoCounterFalls s t := by
  unfold Machine.execReadCounter at he
  split at he <;> cases he <;> exact .keeps rfl

theorem NoCounterFalls.setter {legal : Bool} {p : Params}
    (he : (if legal = true then acceptParams p s else rejectOp s) = .next t) : NoCounterFalls s t := by
  split at he <;> cases he <;> exact .keeps rfl

theorem NoCounterFalls.enqueueFrame {token : U16} {cls : FrameClass} {sc : Byte} {bytes : List Byte}
    (he : enqueueFrame token cls sc bytes s = .next t) : NoCounterFalls s t := by
  unfold Machine.enqueueFrame at he
  split at he <;> cases he <;> exact .keeps rfl

theorem NoCounterFalls.execQueueSelfTest {token : U16} (he : execQueueSelfTest token s = .next t) :
    NoCounterFalls s t := by
  unfold Machine.execQueueSelfTest at he
  split at he <;> cases he <;> exact .keeps rfl

theorem NoCounterFalls.execSetMode {mode : Mode} {hasToken : Bool} {token : U16}
    (he : execSetMode mode hasToken token s = .next t) : NoCounterFalls s t := by
  have hchange : (changeMode mode s).counters = s.counters := by
    unfold changeMode
    split <;> rfl
  refine .of_settle he (.keeps ?_)
  split <;> exact hchange

/-- R364 (a): only `reset_comms_status()` makes a counter smaller. -/
theorem exec_noCounterFalls {i : Instr} (hi : i ≠ .resetCommsStatus) (he : exec i s = .next t) :
    NoCounterFalls s t := by
  by_cases hcodec : Safety.isCodecOp i = true
  · exact .exec_codec hcodec he
  · cases i with
    | setMode mode hasToken token => exact .execSetMode he
    | reset => exact .of_settle he (.keeps rfl)
    | queueDmx _ _ | queueAsc _ _ _ | queueRdmDub _ _ | queueRdmRequest _ _ _ => exact .enqueueFrame he
    | queueSelfTest token => exact .execQueueSelfTest he
    | setBreakTime v | setMarkTime v | setResponderDelay v => exact .setter he
    | setRdmResponseTimeout v | setResponderJitter v | setDubResponseLimit v
    | getBreakTime | getMarkTime | getRdmResponseTimeout | getResponderDelay | getResponderJitter
    | getDubResponseLimit | now | elapsed _ | delta _ _ | hasElapsed _ _ | setCounter _ =>
      cases he; exact .keeps rfl
    | resetCommsStatus => exact absurd rfl hi
    | readCounter index => exact .execReadCounter he
    | incrementCounter index => exact .execIncrementCounter he
    | handlerReturn n => exact .execHandlerReturn he
    | tasks => exact .execTasks he
    | coarseTick => exact .execCoarseTick he
    | timerMatch => exact .of_enabledEvent he ctrlTimerMatch_counters respTimerMatch_counters
    | fall u =>
      exact .of_lineEvent he (fun ht => by cases ht; exact .ctrlFall _ s)
        fun ht => by cases ht; exact .keeps (respFall_counters _ s)
    | rise u => exact .of_lineEvent he (fun ht => by cases ht; exact .ctrlRise _ s) .respRise
    | byte u b =>
      exact .of_lineEvent he (fun ht => .keeps (ctrlByte_counters ht)) fun ht => .keeps (respByte_counters ht)
    | err u kind =>
      exact .of_lineEvent he (fun ht => by cases ht; exact .ctrlErr kind s) fun ht => by cases ht; exact .respErr kind s
    | txFifoSpace => exact .of_enabledEvent he ctrlFifoSpace_counters respFifoSpace_counters
    | txShiftEmpty =>
      exact .of_enabledEvent he (fun ht => by cases ht; exact ctrlShiftEmpty_counters s) fun ht => by cases ht; rfl
    | _ => exact absurd rfl hcodec

/-- `NoCounterFalls`, read in the list of the counters. -/
theorem NoCounterFalls.counterList_le (h : NoCounterFalls s t) {n : Nat} {a b : U16}
    (ha : (Safety.counterList s.counters)[n]? = some a) (hb : (Safety.counterList t.counters)[n]? = some b) :
    a.toNat ≤ b.toNat := by
  rw [counterList_getElem?, Option.map_eq_some_iff] at ha hb
  obtain ⟨c, hc, rfl⟩ := ha
  obtain ⟨d, hd, rfl⟩ := hb
  obtain rfl : c = d := Option.some_inj.mp (hc.symm.trans hd)
  exact h c

end
end Sys2Proof.Machine

namespace Sys2Proof.Proofs

open Sys2Proof Sys2Proof.Machine Sys2Proof.Safety

/-- Settles O12: `reset_comms_status()` keeps the five counters outside its three, and no other instruction lets one
fall. -/
theorem countersNeverFall : Obligations.CountersNeverFall := by
  intro i s t n a b he ha hb hn
  by_cases hi : i = .resetCommsStatus
  · subst hi
    cases he
    have hkept := counterList_clearCommsStatus (hn.resolve_left (absurd rfl)) s.counters
    obtain rfl : a = b := Option.some_inj.mp (ha.symm.trans (hkept.symm.trans hb))
    exact le_rfl
  · exact (exec_noCounterFalls hi he).counterList_le ha hb

end Sys2Proof.Proofs

/-! PROOF. The statement of spec/60_exceptions.md: the delivery of a completion event, the last of the priorities of
`Tasks` (R383, R384). -/

namespace Sys2Proof.Machine

section
variable {s : State}

/-! ### One delivery (R383) -/

theorem deliver_of_nil (h : s.completions = []) : deliver s = s := by rw [deliver, h]

theorem deliver_of_cons {ev : Completion} {rest : List Completion} (h : s.completions = ev :: rest) :
    deliver s = { s with completions := rest, delivered := s.delivered ++ [ev] } := by rw [deliver, h]

/-- U7: a delivery posts nothing, so it cannot overfill the completion events. -/
theorem settle_deliver (s : State) : settle s (deliver s) = .next (deliver s) := by
  apply settle_quiet
  cases hc : s.completions with
  | nil => rw [deliver_of_nil hc, hc]
  | cons ev rest =>
    rw [deliver_of_cons hc, List.length_cons]
    exact Nat.le_succ _

/-! ### The guards of the earlier priorities (R262, R384) -/

theorem deadline_notDue_responder {deadline : U32} (hm : s.mode = .responder) : ¬ deadlineDue deadline s = true := by
  intro hdue
  obtain ⟨hctrl, -⟩ := deadlineDue_iff.mp hdue
  simp [hm] at hctrl

theorem frameWaiting_notReady (h : s.frameReady = false) : ¬ frameWaiting s = true := by simp [frameWaiting, h]

/-- R232: the backoff of the head of the queue, or the gap between two breaks, is not over. -/
def StartHeld (s : State) : Prop :=
  s.time < s.timing.backoffUntil ∨
    (s.timing.lastBreakValid = true ∧ s.time < s.timing.lastBreakStart + 13000)

/-- R232: `StartHeld` negates the guard under which `tasksQueue` begins an operation. -/
theorem startHeld_iff : StartHeld s ↔ ¬ (s.timing.backoffUntil ≤ s.time ∧ breakToBreakOk s = true) := by
  rw [StartHeld, breakToBreakOk_iff, not_and_or, not_or, Nat.not_le, Nat.not_le, Bool.not_eq_false]

/-! ### A queue that begins nothing (R232, R384) -/

theorem tasksQueue_empty (hq : s.txQueue = []) : tasksQueue s = deliver s := by rw [tasksQueue, hq]

theorem tasksQueue_notIdle (h : ¬ (s.mode = .controller ∧ s.ctrlState = .idle)) : tasksQueue s = deliver s := by
  cases hq : s.txQueue with
  | nil => exact tasksQueue_empty hq
  | cons e rest => simp only [tasksQueue, hq, if_neg h]

theorem tasksQueue_held {e : Entry} {rest : List Entry} (hq : s.txQueue = e :: rest) (hcls : e.cls ≠ .selfTest)
    (hheld : StartHeld s) : tasksQueue s = deliver s := by
  simp only [tasksQueue, hq, if_neg hcls, if_neg (startHeld_iff.mp hheld), ite_self]

/-- R384: `Tasks` where nothing but a delivery is enabled. -/
theorem exec_tasks_deliver (ha : s.agent ≠ .host) (hdeadline : ¬ deadlineDue Config.opDeadlineTicks s = true)
    (hready : s.frameReady = false) (hqueue : tasksQueue s = deliver s) : exec .tasks s = .next (deliver s) := by
  rw [exec_tasks_queue ha hdeadline (frameWaiting_notReady hready), hqueue, settle_deliver]

end

end Sys2Proof.Machine

namespace Sys2Proof.Proofs

open Sys2Proof Sys2Proof.Machine Sys2Proof.Safety

/-- Settles O44: the deadline, the frame and the queue are not enabled, each by its own premise, which leaves the
delivery. -/
theorem tasksDeliversLast : Obligations.TasksDeliversLast := by
  intro s ha hintime hready hblocked
  have hdeadline : ¬ deadlineDue Config.opDeadlineTicks s = true :=
    hintime.elim deadline_notDue_responder deadline_notDue
  have hqueue : tasksQueue s = deliver s := by
    rcases hblocked with hresponder | hbusy | hempty | ⟨e, rest, hq, hcls, hheld⟩
    · exact tasksQueue_notIdle fun ⟨hcontroller, _⟩ => by simp [hresponder] at hcontroller
    · exact tasksQueue_notIdle fun ⟨_, hidle⟩ => hbusy hidle
    · exact tasksQueue_empty hempty
    · exact tasksQueue_held hq hcls hheld
  have hdelivers : exec .tasks s = .next (deliver s) := exec_tasks_deliver ha hdeadline hready hqueue
  refine ⟨fun hnone => ?none, fun ev rest hsome => ?oldest⟩
  case none => rw [hdelivers, deliver_of_nil hnone]
  case oldest => rw [hdelivers, deliver_of_cons hsome]

end Sys2Proof.Proofs
